-- ==== Sys2Proof/Word.lean ====
section
/-! DEFINITION. The word types: a byte and a 16-bit CRC register (00_scope.md rule R12). -/

namespace Sys2Proof

/-- "A byte is an unsigned 8-bit value 0..255. Bit 0 is the least significant bit" (R12). -/
abbrev Byte := BitVec 8

/-- The 16-bit value of the CRC generator (R67, R230). -/
abbrev Word16 := BitVec 16

end Sys2Proof
end

