-- ==== Sys2Proof/Machine/Crc.lean ====
section
/-! DEFINITION. The CRC-16 generator (42_crc.md rules R230 to R232, R238, R239). -/

namespace Sys2Proof.Machine

/-- One shift of the register, least significant bit first (42_crc.md rule R230). -/
def crcShift (c : Word16) : Word16 :=
  if c.getLsbD 0 then (c >>> 1) ^^^ 0x8408 else c >>> 1

/-- One byte entering the register: XOR at the low end, then eight shifts (42_crc.md rule R230). -/
def crcByte (c : Word16) (b : Byte) : Word16 :=
  crcShift (crcShift (crcShift (crcShift (crcShift (crcShift (crcShift (crcShift
    (c ^^^ b.setWidth 16))))))))

/-- `crc16(p, data)` in bitwise form (42_crc.md rule R230). -/
def crc16 (p : Word16) (data : List Byte) : Word16 := data.foldl crcByte p

/-- One byte in the byte-at-a-time form (42_crc.md rule R231). -/
def crcByteFast (c : Word16) (b : Byte) : Word16 :=
  let t : Byte := b ^^^ c.setWidth 8
  let t : Byte := t ^^^ (t <<< 4)
  let w : Word16 := t.setWidth 16
  (c >>> 8) ^^^ (w <<< 8) ^^^ (w <<< 3) ^^^ (w >>> 4)

/-- `crc16(p, data)` in the byte-at-a-time form (42_crc.md rule R231). -/
def crc16Fast (p : Word16) (data : List Byte) : Word16 := data.foldl crcByteFast p

/-- The preset ModeReg.CRCPreset selects (42_crc.md rule R232). -/
def crcPreset (sel : BitVec 2) : Word16 :=
  if sel = 0 then 0x0000
  else if sel = 1 then 0x6363
  else if sel = 2 then 0xA671
  else 0xFFFF

/-- The low byte of a CRC value, transmitted first (42_crc.md rule R239). -/
def lowByte (c : Word16) : Byte := c.setWidth 8

/-- The high byte of a CRC value (42_crc.md rule R239). -/
def highByte (c : Word16) : Byte := (c >>> 8).setWidth 8

/-- "CRC_A is `crc16(0x6363, data)`" (42_crc.md rule R238). -/
def crcA (data : List Byte) : Word16 := crc16 0x6363 data

/-- The suffix of a frame written "… + CRC": low byte, then high byte (42_crc.md rule R239). -/
def crcSuffix (data : List Byte) : List Byte := [lowByte (crcA data), highByte (crcA data)]

end Sys2Proof.Machine
end

