-- ==== Sys2Proof/Machine/Types.lean ====
section
/-! DEFINITION. The plain data the spec names: registers and their address map, PCD commands, link
outcomes, status codes, tasks, task results, raised failures and trace events. -/

namespace Sys2Proof.Machine

/-- The named registers (10_state.md rule R40). -/
inductive Reg where
  | command | comIEn | divIEn | comIrq | divIrq | error | status1 | status2
  | fifoData | fifoLevel | control | bitFraming | mode | txControl | txAsk
  | crcResultM | crcResultL | rfCfg | tMode | tPrescaler | tReloadH | tReloadL
  | tCounterH | tCounterL
deriving DecidableEq, Repr, Inhabited

/-- The named registers in the order of 10_state.md rule R40. -/
def Reg.all : List Reg :=
  [.command, .comIEn, .divIEn, .comIrq, .divIrq, .error, .status1, .status2,
    .fifoData, .fifoLevel, .control, .bitFraming, .mode, .txControl, .txAsk,
    .crcResultM, .crcResultL, .rfCfg, .tMode, .tPrescaler, .tReloadH, .tReloadL,
    .tCounterH, .tCounterL]

/-- Addresses `addrs` of the named registers, in the order of rule R40, fit `width` bits and are all
different: "one 8-bit register at each" address (20_memory.md rule R100). -/
def addressesFit (width : Nat) (addrs : List Nat) : Bool :=
  addrs.length == Reg.all.length && decide addrs.Nodup &&
    addrs.all fun a => decide (a < 2 ^ width)

/-- The parameters ADDR_WIDTH and REG_ADDR (00_scope.md rule R10, 92_eei_decisions.md D1, D2). -/
structure AddressMap where
  /-- ADDR_WIDTH. -/
  width : Nat
  /-- REG_ADDR of the named registers, in the order of 10_state.md rule R40. -/
  addrs : List Nat
  /-- Only such a map is a parameter value. -/
  fit : addressesFit width addrs = true
deriving DecidableEq, Repr

/-- The level of the reset line (10_state.md rule R36). -/
inductive Level where
  | low
  | high
deriving DecidableEq, Repr, Inhabited

/-- The direction of a bus transaction (10_state.md rule R33: `Bus(W, …)`, `Bus(R, …)`). -/
inductive Dir where
  | w
  | r
deriving DecidableEq, Repr, Inhabited

/-- The active command `dev.active` (10_state.md rule R65). SoftReset is never active. -/
inductive Active where
  | idle
  | calcCrc
  | transmit
  | receive
  | transceive
  | mfAuthent
deriving DecidableEq, Repr, Inhabited

/-- The closed set of seven PCD commands (30_encoding.md rule R135): the six that can be active,
and SoftReset, which completes within its own write. -/
inductive Command where
  | start (a : Active)
  | softReset
deriving DecidableEq, Repr, Inhabited

/-- A subset of {ProtocolErr, ParityErr, CRCErr, CollErr} (10_state.md rule R70). -/
structure Errs where
  protocol : Bool
  parity : Bool
  crc : Bool
  coll : Bool
deriving DecidableEq, Repr, Inhabited

/-- The outcome of a started command (10_state.md rule R70). -/
inductive LinkOutcome where
  | resp (bytes : List Byte) (lastBits : BitVec 3) (errs : Errs)
  | noResp
  | authOk
  | authErr (errs : Errs)
  | txDone
deriving DecidableEq, Repr, Inhabited

/-- The oracle's pair `(d, o)` with `d ∈ ℕ ∪ {∞}` (10_state.md rules R70, R71). With `d = ∞` the
outcome never applies, so `never` carries none. -/
inductive Answer where
  | never
  | after (d : Nat) (o : LinkOutcome)
deriving DecidableEq, Repr, Inhabited

/-- The status code (60_exceptions.md rule R340). -/
inductive Status where
  | ok
  | noTag
  | error
  | timeout
deriving DecidableEq, Repr, Inhabited

/-- The parameter STATUS encoding (00_scope.md rule R10, 92_eei_decisions.md D29). -/
structure StatusCodes where
  ok : Nat
  noTag : Nat
  error : Nat
  timeout : Nat
deriving DecidableEq, Repr, Inhabited

/-- The `info` of an InvalidArgument failure: which check failed (60_exceptions.md rule R342). DESIGN
CHOICE (unsafe for a claim about `info`): the spec leaves what `info` holds open, and which of two
failed checks it names; this enumeration, and the orders given at `authenticateProg` and
`formatValueBlock`, are the model's (notes/assumptions/24.md). -/
inductive BadArgument where
  | payloadLength
  | valueRange
  | addressRange
  | blockLength
  | deltaRange
  | uidLength
  | keyLength
  | hexText
deriving DecidableEq, Repr, Inhabited

/-- A raised failure (60_exceptions.md rule R342). DESIGN CHOICE (safe): InvalidBlock has one cause,
and no `info` here (notes/assumptions/24.md). -/
inductive Failure where
  | invalidArgument (why : BadArgument)
  | invalidBlock
deriving DecidableEq, Repr, Inhabited

/-- The name a task has in the trace (30_encoding.md rule R146). -/
inductive TaskName where
  | init | antennaOn | stopCrypto | close
  | computeCrc | transceive
  | request | anticollision | select | authenticate
  | read | write | increment | decrement | transfer | dump
  | formatValueBlock | checkValueBlock | getBlockValue | uidToHex | hexToUid
deriving DecidableEq, Repr, Inhabited

/-- What a task returns (92_eei_decisions.md D63 and the rule of each task). -/
inductive Result where
  | unit
  | crc (lo hi : Byte)
  | txrx (status : Status) (rx : List Byte) (bitlen : Int)
  | statusBits (status : Status) (bitlen : Int)
  | statusUid (status : Status) (uid : List Byte)
  | size (sak : Byte)
  | status (status : Status)
  | data (bytes : List Byte)
  | noData (status : Status)
  | blocks (read : List (Byte × List Byte))
  | bytes (bs : List Byte)
  | bool (b : Bool)
  | int (v : Int)
  | text (cs : List Char)
deriving DecidableEq, Repr, Inhabited

/-- A log record (60_exceptions.md rule R345). The log text is not normative, so each record is a
name with the block it is about. -/
inductive LogMsg where
  | authenticationFailed (block : Byte)
  | readFailed (block : Byte)
  | writingManufacturerBlock
  | writingSectorTrailer
  | writeCommandNotAcknowledged (block : Byte)
  | writeDataNotAcknowledged (block : Byte)
  | incrementNotAcknowledged (block : Byte)
  | incrementOperandRejected (block : Byte)
  | decrementNotAcknowledged (block : Byte)
  | decrementOperandRejected (block : Byte)
  | transferNotAcknowledged (block : Byte)
  | cannotAuthenticateBlock (block : Byte)
deriving DecidableEq, Repr, Inhabited

/-- A trace event (10_state.md rule R33). -/
inductive Event where
  | bus (dir : Dir) (addr : Nat) (value : Byte)
  | tx (bytes : List Byte) (txLastBits : BitVec 3)
  | outcome (o : LinkOutcome)
  | log (msg : LogMsg)
  | rst (level : Level)
  | ret (task : TaskName) (result : Result)
  | raised (task : TaskName) (failure : Failure)
deriving DecidableEq, Repr, Inhabited

/-- The mode of REQUEST (44_picc_operations.md rule R291). -/
inductive ReqMode where
  | idle
  | all
deriving DecidableEq, Repr, Inhabited

/-- The mode of AUTHENTICATE (44_picc_operations.md rule R295). -/
inductive KeyMode where
  | keyA
  | keyB
deriving DecidableEq, Repr, Inhabited

/-- What the key store answers for one sector: `(key_a, key_b)` (44_picc_operations.md rule R320). -/
structure KeyPair where
  keyA : List Byte
  keyB : List Byte
deriving DecidableEq, Repr, Inhabited

/-- A task the caller may start, with its arguments (30_encoding.md rule R146; 44_picc_operations.md
rules R330 to R336 for the pure helpers). `getKey` of DUMP is the key store as its sixteen answers. -/
inductive Task where
  | init
  | antennaOn
  | stopCrypto
  | close
  | computeCrc (buf : List Byte)
  | transceive (cmd : Command) (send : List Byte)
  | request (mode : ReqMode)
  | anticollision
  | select (uid : List Byte)
  | authenticate (mode : KeyMode) (block : Byte) (key uid : List Byte)
  | read (block : Byte)
  | write (block : Byte) (data : List Byte)
  | increment (block : Byte) (delta : Int)
  | decrement (block : Byte) (delta : Int)
  | transfer (block : Byte)
  | dump (uid : List Byte) (getKey : Vector KeyPair 16)
  | formatValueBlock (value address : Int)
  | checkValueBlock (block : List Byte)
  | getBlockValue (block : List Byte)
  | uidToHex (uid : List Byte)
  | hexToUid (text : List Char)
deriving DecidableEq, Repr, Inhabited

end Sys2Proof.Machine
end

