-- ==== Sys2Proof/Config.lean ====
section
/-! DEFINITION. What an implementation fixes (the parameters of 00_scope.md rule R10) and the free
values the spec calls draws (00_scope.md rule R9). The value of each parameter for this hardware is
in Machine/Params.lean. -/

namespace Sys2Proof

/-- The parameters of 00_scope.md rule R10: each row that says "admitted", names a decision, or has a
competing value (93_implementation_defined.md I5, I6, I9, I16, I17, I18). -/
structure Config where
  /-- ADDR_WIDTH and REG_ADDR (D1, D2). -/
  map : Machine.AddressMap
  /-- FIFO_DEPTH, at least 18 (I16). -/
  fifoDepth : Nat
  /-- CRC_LATENCY, any natural number (I5). -/
  crcLatency : Nat
  /-- ERROR_MASK (I6). -/
  errorMask : Byte
  /-- ENABLE_MASK for AUTHENTICATE (I9). -/
  authEnable : Byte
  /-- WAIT_MASK for AUTHENTICATE (I9). -/
  authWait : Byte
  /-- ENABLE_MASK for TRANSCEIVE (I9). -/
  transceiveEnable : Byte
  /-- WAIT_MASK for TRANSCEIVE (I9). -/
  transceiveWait : Byte
  /-- ENABLE_MASK for the other commands (D7). -/
  otherEnable : Byte
  /-- WAIT_MASK for the other commands (D7). -/
  otherWait : Byte
  /-- NOTAG_BIT (D7). -/
  noTagBit : Byte
  /-- INIT_VALUES before the gain, in the order init writes them (I18). -/
  initWrites : List (Machine.Reg × Byte)
  /-- INIT_RFCFG (I18). -/
  initRfCfg : Byte
  /-- STATUS encoding (D29). -/
  statusCodes : Machine.StatusCodes
  /-- RESET_VALUE by address, where it differs from the default table (I17), as a memory of its own. -/
  resetCells : List Host.Cell
deriving DecidableEq, Repr

/-- FREE VALUE. The `n`-th draw of a byte: "a fresh, independent choice of a value of the stated
width, with no law relating it to any other value" (R9). -/
opaque Config.freeByte : Nat → Byte

/-- FREE VALUE. The oracle's answer to the round it is asked about as its `n`-th choice, given the
command, the frame and TxLastBits, which "the oracle may read" (R192, R70). -/
opaque Config.freeAnswer : Nat → Machine.Active → List Byte → BitVec 3 → Machine.Answer

/-- FREE VALUE. What FIFOLevelReg reads by the length of a FIFO of 128 bytes or more, but for bit 7,
which reads 0 (41_device_commands.md rule R203 speaks of FIFOs shorter than 128 bytes alone;
notes/assumptions/28.md). -/
opaque Config.freeLevel : Nat → Byte

end Sys2Proof
end

