-- ==== Sys2Proof/Machine/Params.lean ====
section
/-! DEFINITION. The register addresses and reset values (10_state.md rules R40, R41),
the PCD command codes (30_encoding.md rule R135), the status codes (60_exceptions.md rule R340), the
poll budgets and the default parameters (00_scope.md rule R10). -/

namespace Sys2Proof.Machine

/-- The addresses of the named registers, in the order of `Reg.all`, and their width
(10_state.md rule R40, 00_scope.md rule R10). -/
def defaultMap : AddressMap where
  width := 6
  addrs := [0x01, 0x02, 0x03, 0x04, 0x05, 0x06, 0x07, 0x08,
    0x09, 0x0A, 0x0C, 0x0D, 0x11, 0x14, 0x15,
    0x21, 0x22, 0x26, 0x2A, 0x2B, 0x2C, 0x2D,
    0x2E, 0x2F]
  fit := rfl

/-- REG_ADDR(name) (10_state.md rule R40). -/
def AddressMap.addr (m : AddressMap) (r : Reg) : Nat := m.addrs.getD r.ctorIdx 0

/-- The named register at an address; `none` for a plain storage register (10_state.md rule R63). -/
def AddressMap.regAt (m : AddressMap) (a : Nat) : Option Reg := Reg.all.find? fun r => m.addr r == a

/-- The addresses are those below this one (20_memory.md rule R100). -/
def AddressMap.limit (m : AddressMap) : Nat := 2 ^ m.width

/-- The highest address the 6-bit field of a bus frame holds (30_encoding.md rule R130). -/
abbrev maxAddr : Nat := 0x3F

/-- RESET_VALUE(reg), the default table (10_state.md rule R41), by the addresses of rule R40. It is
what an address that memory does not list reads as. -/
def resetByte : Nat → Byte
  | 0x01 => 0x20
  | 0x02 => 0x80
  | 0x04 => 0x14
  | 0x07 => 0x21
  | 0x0C => 0x10
  | 0x11 => 0x3F
  | 0x14 => 0x80
  | 0x21 => 0xFF
  | 0x22 => 0xFF
  | 0x26 => 0x48
  | _ => 0x00

/-- The 4-bit code of an active command (30_encoding.md rule R135). -/
def Active.code : Active → BitVec 4
  | .idle => 0x0
  | .calcCrc => 0x3
  | .transmit => 0x4
  | .receive => 0x8
  | .transceive => 0xC
  | .mfAuthent => 0xE

/-- The active command a 4-bit code selects (30_encoding.md rule R135). -/
def Active.ofCode (c : BitVec 4) : Option Active :=
  if c = 0x0 then some .idle
  else if c = 0x3 then some .calcCrc
  else if c = 0x4 then some .transmit
  else if c = 0x8 then some .receive
  else if c = 0xC then some .transceive
  else if c = 0xE then some .mfAuthent
  else none

/-- The 4-bit code of a PCD command (30_encoding.md rule R135). -/
def Command.code : Command → BitVec 4
  | .start a => a.code
  | .softReset => 0xF

/-- The CommandReg byte the controller writes, "which equals the code itself" (rule R136). -/
def Command.byte (c : Command) : Byte := c.code.setWidth 8

/-- The command a byte written to CommandReg selects: bits 7:4 must be 0 and bits 3:0 one of the
seven codes (30_encoding.md rule R140, 41_device_commands.md rule R183). -/
def Command.ofByte (v : Byte) : Option Command :=
  if v.extractLsb' 4 4 ≠ 0 then none
  else if v.extractLsb' 0 4 = 0xF then some .softReset
  else (Active.ofCode (v.extractLsb' 0 4)).map .start

/-- The numeric status code (60_exceptions.md rule R340). -/
def Status.code (codes : StatusCodes) : Status → Nat
  | .ok => codes.ok
  | .noTag => codes.noTag
  | .error => codes.error
  | .timeout => codes.timeout

/-- POLL_BUDGET_TXRX (00_scope.md rule R10). -/
abbrev pollBudgetTxRx : Nat := 2000

/-- POLL_BUDGET_CRC (00_scope.md rule R10). -/
abbrev pollBudgetCrc : Nat := 255

/-- MAX_LEN, the receive-drain clamp (00_scope.md rule R10). -/
abbrev maxLen : Nat := 16

/-- The parameters with the values rule R10 of 00_scope.md gives this hardware. -/
def defaultConfig : Config where
  map := defaultMap
  fifoDepth := 64
  crcLatency := 0
  errorMask := 0x07
  authEnable := 0x11
  authWait := 0x11
  transceiveEnable := 0x31
  transceiveWait := 0x31
  otherEnable := 0x00
  otherWait := 0x00
  noTagBit := 0x01
  initWrites := [(.tMode, 0x8D), (.tPrescaler, 0x3E), (.tReloadL, 0x1E), (.tReloadH, 0x00),
    (.txAsk, 0x40), (.mode, 0x3D)]
  initRfCfg := 0x70
  statusCodes := ⟨0, 1, 2, 3⟩
  resetCells := []

end Sys2Proof.Machine
end

