-- ==== Sys2Proof/Machine/Operands.lean ====
section
/-! DEFINITION. The operand forms: multi-byte quantities (20_memory.md rule R103), operand assembly
(30_encoding.md rule R145), the transceive masks (43_transceive.md rule R261) and the reply tests
(44_picc_operations.md rules R293, R298). -/

namespace Sys2Proof.Machine

/-- The four bytes of a 32-bit value, least significant first (20_memory.md rules R103(b), R103(c);
30_encoding.md rule R145). -/
def le32 (v : BitVec 32) : List Byte :=
  [v.extractLsb' 0 8, v.extractLsb' 8 8, v.extractLsb' 16 8, v.extractLsb' 24 8]

/-- `u32le(b0, b1, b2, b3)` (00_scope.md rule R13). -/
def u32le (b0 b1 b2 b3 : Byte) : BitVec 32 := b3 ++ b2 ++ b1 ++ b0

/-- `s32le` "is the same bytes read as two's complement" (00_scope.md rule R13). -/
def s32le (b0 b1 b2 b3 : Byte) : Int := (u32le b0 b1 b2 b3).toInt

/-- The range −2^31..2^31−1 of a value or delta (44_picc_operations.md rules R300, R330). -/
def inInt32 (v : Int) : Bool := decide (-2147483648 ≤ v) && decide (v ≤ 2147483647)

/-- `BCC(u) = u[0] ^ u[1] ^ u[2] ^ u[3]` (44_picc_operations.md rule R293). -/
def bcc (u0 u1 u2 u3 : Byte) : Byte := u0 ^^^ u1 ^^^ u2 ^^^ u3

/-- "A UID is well formed when `uid[4] = BCC(uid[0..4))`" (44_picc_operations.md rule R293). -/
def uidWellFormed : List Byte → Bool
  | [u0, u1, u2, u3, u4] => u4 == bcc u0 u1 u2 u3
  | _ => false

/-- The mode byte of REQUEST (44_picc_operations.md rule R291). -/
def ReqMode.byte : ReqMode → Byte
  | .idle => 0x26
  | .all => 0x52

/-- The mode byte of AUTHENTICATE (44_picc_operations.md rule R295). -/
def KeyMode.byte : KeyMode → Byte
  | .keyA => 0x60
  | .keyB => 0x61

/-- `en`, the enable mask of a command (43_transceive.md rule R261). -/
def enableMask (cfg : Config) : Command → Byte
  | .start .mfAuthent => cfg.authEnable
  | .start .transceive => cfg.transceiveEnable
  | _ => cfg.otherEnable

/-- `wait`, the wait mask of a command (43_transceive.md rule R261). -/
def waitMask (cfg : Config) : Command → Byte
  | .start .mfAuthent => cfg.authWait
  | .start .transceive => cfg.transceiveWait
  | _ => cfg.otherWait

/-- What transceive returns: `(status, rx, bitlen)` (43_transceive.md rule R260). -/
structure TxRx where
  status : Status
  rx : List Byte
  bitlen : Int
deriving DecidableEq, Repr, Inhabited

/-- `bitlen` of the receive drain, over the integers, from the unclamped count
(43_transceive.md rule R269). -/
def bitLength (n : Byte) (lb : Byte) : Int :=
  if lb ≠ 0 then ((n.toNat : Int) - 1) * 8 + lb.toNat else (n.toNat : Int) * 8

/-- "clamp n to at least 1 and at most 16" (43_transceive.md rule R269). -/
def drainCount (n : Byte) : Nat := min (max n.toNat 1) maxLen

/-- The ACK test (44_picc_operations.md rule R298). -/
def isAck (r : TxRx) : Bool :=
  r.status == .ok && r.bitlen == 4 && (r.rx.headD 0 &&& 0x0F) == 0x0A

/-- The BCC check of ANTICOLLISION on a five-byte reply (44_picc_operations.md rule R292). -/
def anticollisionStatus (r : TxRx) : Status :=
  if r.status = .ok then (if uidWellFormed r.rx then .ok else .error) else r.status

end Sys2Proof.Machine
end

