-- ==== Sys2Proof/Syntax.lean ====
section
/-! DEFINITION. The instructions: one constructor for each row of spec/opcode_table.json. -/

namespace Sys2Proof

/-- The three encoded things that cross the block's interfaces (00_scope.md rule R8): the two bus
transactions, the seven PCD command codes and the thirteen PICC frames. `cl` and `ch` are the CRC_A
bytes a frame ends in (30_encoding.md rule R142). -/
inductive Instr where
  /-- WRITE_REG: write `d` to register address `a` (R160). -/
  | writeReg (a : Nat) (d : Byte)
  /-- READ_REG: read register address `a` (R161). -/
  | readReg (a : Nat)
  /-- PCD_IDLE (R184). -/
  | pcdIdle
  /-- PCD_CALCCRC (R185). -/
  | pcdCalcCrc
  /-- PCD_TRANSMIT (R186). -/
  | pcdTransmit
  /-- PCD_RECEIVE (R187). -/
  | pcdReceive
  /-- PCD_TRANSCEIVE (R188). -/
  | pcdTransceive
  /-- PCD_MFAUTHENT (R189). -/
  | pcdMfAuthent
  /-- PCD_SOFTRESET (R190). -/
  | pcdSoftReset
  /-- REQUEST_IDLE: `26` (R291). -/
  | requestIdle
  /-- REQUEST_ALL: `52` (R291). -/
  | requestAll
  /-- ANTICOLLISION: `93 20` (R292). -/
  | anticollision
  /-- SELECT: `93 70 u0..u4 cl ch` (R294). -/
  | select (uid : List Byte) (cl ch : Byte)
  /-- AUTH_A: `60 b k0..k5 u0..u3` (R295). -/
  | authA (b : Byte) (key uid : List Byte)
  /-- AUTH_B: `61 b k0..k5 u0..u3` (R295). -/
  | authB (b : Byte) (key uid : List Byte)
  /-- READ: `30 b cl ch` (R297). -/
  | read (b cl ch : Byte)
  /-- WRITE: `A0 b cl ch`, the first phase of the write operation (R299). -/
  | write (b cl ch : Byte)
  /-- DECREMENT: `C0 b cl ch`, the first phase of the decrement operation (R301). -/
  | decrement (b cl ch : Byte)
  /-- INCREMENT: `C1 b cl ch`, the first phase of the increment operation (R300). -/
  | increment (b cl ch : Byte)
  /-- TRANSFER: `B0 b cl ch` (R302). -/
  | transfer (b cl ch : Byte)
  /-- WRITE_DATA: `d0..d15 cl ch`, the second phase of the write operation (R299). -/
  | writeData (data : List Byte) (cl ch : Byte)
  /-- VALUE_OPERAND: `v0 v1 v2 v3 cl ch`, the second phase of increment and decrement (R300); `v` is
  the 32-bit two's complement delta (R145). -/
  | valueOperand (v : BitVec 32) (cl ch : Byte)
deriving DecidableEq, Repr

end Sys2Proof
end

