-- ==== Sys2Proof/WellFormed.lean ====
section
/-! DEFINITION. Which instruction terms the encodings can spell (30_encoding.md rules R130, R142). -/

namespace Sys2Proof

open Machine

/-- The frame's last two bytes are the CRC_A of all earlier bytes (30_encoding.md rule R141). -/
def crcMatches (body : List Byte) (cl ch : Byte) : Bool := crcSuffix body == [cl, ch]

/-- The register address fits 6 bits (R130); UID, key and data have the lengths of R142; the CRC
bytes are the CRC_A of the frame (R141). -/
def Instr.wellFormed : Instr → Bool
  | .writeReg a _ => decide (a ≤ maxAddr)
  | .readReg a => decide (a ≤ maxAddr)
  | .pcdIdle => true
  | .pcdCalcCrc => true
  | .pcdTransmit => true
  | .pcdReceive => true
  | .pcdTransceive => true
  | .pcdMfAuthent => true
  | .pcdSoftReset => true
  | .requestIdle => true
  | .requestAll => true
  | .anticollision => true
  | .select uid cl ch => uid.length == 5 && crcMatches ([0x93, 0x70] ++ uid) cl ch
  | .authA _ key uid => key.length == 6 && uid.length == 4
  | .authB _ key uid => key.length == 6 && uid.length == 4
  | .read b cl ch => crcMatches [0x30, b] cl ch
  | .write b cl ch => crcMatches [0xA0, b] cl ch
  | .decrement b cl ch => crcMatches [0xC0, b] cl ch
  | .increment b cl ch => crcMatches [0xC1, b] cl ch
  | .transfer b cl ch => crcMatches [0xB0, b] cl ch
  | .writeData data cl ch => data.length == 16 && crcMatches data cl ch
  | .valueOperand v cl ch => crcMatches (le32 v) cl ch

end Sys2Proof
end

