-- ==== Sys2Proof/Decode.lean ====
section
/-! DEFINITION. The decoder, total on any bytes and rejecting by name, and the encoder
(30_encoding.md rules R130, R131, R135, R141, R142). -/

namespace Sys2Proof

open Machine

/-- An encoded word, by the interface it crosses (00_scope.md rule R8): a two-byte bus frame, a PCD
command code, or a PICC frame. -/
inductive Encoded where
  | bus (b0 b1 : Byte)
  | command (c : Byte)
  | frame (bytes : List Byte)
deriving DecidableEq, Repr

/-- Why an encoded word is no instruction. -/
inductive Reject where
  /-- "A byte 0 with bit 0 = 1 spells no transaction" (R131). -/
  | badFrame (b0 : Byte)
  /-- A command byte outside the closed set of seven (R135, R140). -/
  | noCommand (c : Byte)
  /-- A byte list that is no frame of R142 (R144). -/
  | noFrame (bytes : List Byte)
deriving DecidableEq, Repr

/-- What the decoder answers. -/
inductive Decoded where
  | instr (i : Instr)
  | reject (why : Reject)
deriving DecidableEq, Repr

/-- The register address of a bus frame: `byte0[6:1]` (R131). -/
def busAddr (b0 : Byte) : Nat := (b0.extractLsb' 1 6).toNat

/-- A bus frame: `r = byte0[7]`, `addr = byte0[6:1]`, `v = byte1`; the data byte of a read is
"ignored by the device" (R130, R131). -/
def decodeBus (b0 b1 : Byte) : Decoded :=
  if b0.getLsbD 0 then .reject (.badFrame b0)
  else if b0.getLsbD 7 then .instr (.readReg (busAddr b0))
  else .instr (.writeReg (busAddr b0) b1)

/-- The instruction of a PCD command (R135). -/
def Instr.ofCommand : Command → Instr
  | .start .idle => .pcdIdle
  | .start .calcCrc => .pcdCalcCrc
  | .start .transmit => .pcdTransmit
  | .start .receive => .pcdReceive
  | .start .transceive => .pcdTransceive
  | .start .mfAuthent => .pcdMfAuthent
  | .softReset => .pcdSoftReset

/-- A PCD command code (R135, R136, R140). -/
def decodeCommand (c : Byte) : Decoded :=
  match Command.ofByte c with
  | some k => .instr (Instr.ofCommand k)
  | none => .reject (.noCommand c)

/-- A four-byte frame `op b cl ch` (R142). -/
def decodeBlockFrame (op b cl ch : Byte) : Option Instr :=
  if op = 0x30 then some (.read b cl ch)
  else if op = 0xA0 then some (.write b cl ch)
  else if op = 0xC0 then some (.decrement b cl ch)
  else if op = 0xC1 then some (.increment b cl ch)
  else if op = 0xB0 then some (.transfer b cl ch)
  else none

/-- The frame a byte list is, by its length and command byte (R142): no two frames of one length
share a command byte, and the second-phase frames are the only ones of their lengths. -/
def frameInstr : List Byte → Option Instr
  | [a] => if a = 0x26 then some .requestIdle else if a = 0x52 then some .requestAll else none
  | [a, b] => if a = 0x93 ∧ b = 0x20 then some .anticollision else none
  | [op, b, cl, ch] => decodeBlockFrame op b cl ch
  | [v0, v1, v2, v3, cl, ch] => some (.valueOperand (u32le v0 v1 v2 v3) cl ch)
  | [a, b, u0, u1, u2, u3, u4, cl, ch] =>
    if a = 0x93 ∧ b = 0x70 then some (.select [u0, u1, u2, u3, u4] cl ch) else none
  | [a, b, k0, k1, k2, k3, k4, k5, u0, u1, u2, u3] =>
    if a = 0x60 then some (.authA b [k0, k1, k2, k3, k4, k5] [u0, u1, u2, u3])
    else if a = 0x61 then some (.authB b [k0, k1, k2, k3, k4, k5] [u0, u1, u2, u3])
    else none
  | [d0, d1, d2, d3, d4, d5, d6, d7, d8, d9, d10, d11, d12, d13, d14, d15, cl, ch] =>
    some (.writeData [d0, d1, d2, d3, d4, d5, d6, d7, d8, d9, d10, d11, d12, d13, d14, d15] cl ch)
  | _ => none

/-- A PICC frame (R142). -/
def decodeFrame (bytes : List Byte) : Decoded :=
  match frameInstr bytes with
  | some i => .instr i
  | none => .reject (.noFrame bytes)

/-- The decoder. -/
def decode : Encoded → Decoded
  | .bus b0 b1 => decodeBus b0 b1
  | .command c => decodeCommand c
  | .frame bytes => decodeFrame bytes

/-- The address byte of a bus frame: `(r << 7) | (addr << 1)` (R131). -/
def busByte0 (r : Bool) (addr : Nat) : Byte :=
  (if r then 0x80 else 0x00) ||| ((BitVec.ofNat 8 addr) <<< 1)

/-- The words of an instruction, from the encodings of R130, R135 and R142. -/
def encode : Instr → Encoded
  | .writeReg a d => .bus (busByte0 false a) d
  | .readReg a => .bus (busByte0 true a) 0x00
  | .pcdIdle => .command 0x00
  | .pcdCalcCrc => .command 0x03
  | .pcdTransmit => .command 0x04
  | .pcdReceive => .command 0x08
  | .pcdTransceive => .command 0x0C
  | .pcdMfAuthent => .command 0x0E
  | .pcdSoftReset => .command 0x0F
  | .requestIdle => .frame [0x26]
  | .requestAll => .frame [0x52]
  | .anticollision => .frame [0x93, 0x20]
  | .select uid cl ch => .frame ([0x93, 0x70] ++ uid ++ [cl, ch])
  | .authA b key uid => .frame ([0x60, b] ++ key ++ uid)
  | .authB b key uid => .frame ([0x61, b] ++ key ++ uid)
  | .read b cl ch => .frame [0x30, b, cl, ch]
  | .write b cl ch => .frame [0xA0, b, cl, ch]
  | .decrement b cl ch => .frame [0xC0, b, cl, ch]
  | .increment b cl ch => .frame [0xC1, b, cl, ch]
  | .transfer b cl ch => .frame [0xB0, b, cl, ch]
  | .writeData data cl ch => .frame (data ++ [cl, ch])
  | .valueOperand v cl ch => .frame (le32 v ++ [cl, ch])

/-- How many bytes an encoded word holds. -/
def Encoded.size : Encoded → Nat
  | .bus _ _ => 2
  | .command _ => 1
  | .frame bytes => bytes.length

/-- The length in bytes of each row of the opcode table (R130, R135, R142). -/
def Instr.size : Instr → Nat
  | .writeReg _ _ => 2
  | .readReg _ => 2
  | .pcdIdle => 1
  | .pcdCalcCrc => 1
  | .pcdTransmit => 1
  | .pcdReceive => 1
  | .pcdTransceive => 1
  | .pcdMfAuthent => 1
  | .pcdSoftReset => 1
  | .requestIdle => 1
  | .requestAll => 1
  | .anticollision => 2
  | .select _ _ _ => 9
  | .authA _ _ _ => 12
  | .authB _ _ _ => 12
  | .read _ _ _ => 4
  | .write _ _ _ => 4
  | .decrement _ _ _ => 4
  | .increment _ _ _ => 4
  | .transfer _ _ _ => 4
  | .writeData _ _ _ => 18
  | .valueOperand _ _ _ => 6

/-- `n` bytes of `w`, the least significant first: byte 0 of a frame is bits 7..0 of its row. -/
def bytesOf : Nat → Nat → List Byte
  | 0, _ => []
  | n + 1, w => BitVec.ofNat 8 w :: bytesOf n (w / 256)

/-- How many bytes the frame beginning with these bytes has (R142); `none` where no command byte
stands first, and then the frame is one recognised by position. -/
def lengthOfFrame (a b : Byte) : Option Nat :=
  if a = 0x26 ∨ a = 0x52 then some 1
  else if a = 0x93 then (if b = 0x20 then some 2 else some 9)
  else if a = 0x60 ∨ a = 0x61 then some 12
  else if a = 0x30 ∨ a = 0xA0 ∨ a = 0xC0 ∨ a = 0xC1 ∨ a = 0xB0 then some 4
  else none

/-- The frame whose bits are `w`, laid out byte 0 in bits 7..0, every bit above `nbits` zero. A word
of 48 or 144 bits is a frame recognised by position (VALUE_OPERAND, WRITE_DATA); any other takes the
length its command byte gives, and a longer word without one is a WRITE_DATA. -/
def frameOfWord (nbits w : Nat) : List Byte :=
  let w := w % 2 ^ nbits
  if nbits = 48 then bytesOf 6 w
  else if nbits = 144 then bytesOf 18 w
  else
    match lengthOfFrame (BitVec.ofNat 8 w) (BitVec.ofNat 8 (w / 256)) with
    | some n => bytesOf n w
    | none => if nbits ≤ 16 then bytesOf (nbits / 8) w else bytesOf 18 w

/-- The encoded word whose bits are `w`, as spec/opcode_table.json numbers them: a 16-bit row is a
bus frame with byte 0 in bits 15..8 (R130); an 8-bit row is a PCD command code where bits 7:4 are
zero (R136) and a frame elsewhere; a longer row is a frame. A 16-bit word with bit 8 set spells no
bus transaction, and is read as a two-byte frame if it is one. -/
def encodedOfWord (nbits w : Nat) : Encoded :=
  if nbits = 16 then
    let b0 : Byte := BitVec.ofNat 8 (w / 256)
    let b1 : Byte := BitVec.ofNat 8 w
    if b0 = 0x93 ∧ b1 = 0x20 then .frame [b0, b1] else .bus b0 b1
  else if nbits = 8 ∧ w % 256 < 16 then .command (BitVec.ofNat 8 w)
  else .frame (frameOfWord nbits w)

/-- The instruction the decoder reads from a word of the opcode table. -/
def decodeTableWord (nbits w : Nat) : Option Instr :=
  match decode (encodedOfWord nbits w) with
  | .instr i => some i
  | .reject _ => none

end Sys2Proof
end

