-- ==== Sys2Proof/Machine/Memory.lean ====
section
/-! DEFINITION. The register address space as memory: the stored byte `x[A]` of each address
(00_scope.md rule R15, 20_memory.md rule R100), as a list of cells in one canonical form. -/

namespace Sys2Proof.Machine

/-- Stored bytes by address: addresses strictly rising, no cell equal to RESET_VALUE of its address,
which is what an unlisted address reads as (10_state.md rule R41). -/
abbrev Memory := List Host.Cell

/-- The byte at an address. -/
def Memory.read : Memory → Nat → Byte
  | [], a => resetByte a
  | (b, v) :: m, a => if a = b then v else Memory.read m a

/-- Unlist an address. -/
def Memory.erase (m : Memory) (a : Nat) : Memory := m.filter fun c => c.1 != a

/-- List a cell before the first higher address. -/
def Memory.insert : Memory → Nat → Byte → Memory
  | [], a, v => [(a, v)]
  | (b, w) :: m, a, v => if a < b then (a, v) :: (b, w) :: m else (b, w) :: Memory.insert m a v

/-- Store a byte at an address; storing RESET_VALUE unlists the address. -/
def Memory.write (m : Memory) (a : Nat) (v : Byte) : Memory :=
  if v = resetByte a then m.erase a else (m.erase a).insert a v

/-- The canonical form. -/
def Memory.wf : Memory → Bool
  | [] => true
  | (a, v) :: m =>
    v != resetByte a && m.all (fun c => decide (a < c.1)) && Memory.wf m

/-- Every listed address is below `limit`. -/
def Memory.below (limit : Nat) (m : Memory) : Bool := m.all fun c => decide (c.1 < limit)

end Sys2Proof.Machine
end

