-- ==== Sys2Proof/Machine/State.lean ====
section
/-! DEFINITION. The whole-machine state `(ctl, dev, rst, trace, faults)` of 10_state.md rule R30, as
plain data, with the parameters it is run under and the external inputs it reads; and the state at
BFM start. -/

namespace Sys2Proof.Machine

/-- The BFM faults (60_exceptions.md rule R347). "A fault marks a run that has left the modelled
behaviour": it enters the sticky set `faults` and the task goes on, so no step of this model answers
`Host.Outcome.fault`. -/
inductive Fault where
  /-- Raised by a bus transaction that names an address beyond ADDR_WIDTH (R162). Sticky; safe: the
  transaction has no effect, and the run is marked as outside the modelled behaviour. -/
  | badAddress (addr : Nat)
  /-- Raised by a bus frame whose address byte has bit 0 set (R131). Sticky; safe, likewise. -/
  | badFrame (b0 : Byte)
  /-- Raised by a CommandReg write with a reserved code, RcvOff or PowerDown (R183). Sticky; safe,
  likewise. -/
  | unmodelledCommand (v : Byte)
  /-- Raised by CRC processing with ModeReg.MSBFirst = 1 (R233). Sticky; safe, likewise. -/
  | unmodelledCrcMode
  /-- Raised by any task started after close (R378). Sticky; safe, likewise. -/
  | useAfterClose
deriving DecidableEq, Repr

/-- Why a step gives an instruction no meaning. -/
inductive Refusal where
  /-- Raised by an arm of `exec` whose instruction has no meaning yet. Safe: the machine stops. -/
  | notModelled (mnemonic : String)
  /-- Raised by `step` on a byte list that is no frame of 30_encoding.md rule R142: "A model admits
  only the frames of rule R142" (R144). Safe: the machine stops. -/
  | noSuchFrame (bytes : List Byte)
  /-- Raised by WRITE_DATA where no acknowledged WRITE, and by VALUE_OPERAND where no acknowledged
  INCREMENT or DECREMENT, waits for its second frame: "Phase 2 runs only after phase 1 is
  acknowledged" (44_picc_operations.md rule R299). Safe: the machine stops. -/
  | noFirstPhase
deriving DecidableEq, Repr

/-- A pending outcome `(c, o)` (10_state.md rule R68); `fresh` is "created by this transaction"
(40_bus.md rule R166) and false between transactions. -/
structure Pending where
  answer : Answer
  fresh : Bool
deriving DecidableEq, Repr

/-- Pending CRC processing: the countdown `k` (10_state.md rule R67), with `fresh` as in `Pending`. -/
structure CrcPending where
  count : Nat
  fresh : Bool
deriving DecidableEq, Repr

/-- The RFIC device state `dev` (10_state.md rules R40 to R69). -/
structure Device where
  /-- The stored register bytes `x[A]` (R40, R63). CommandReg's bits 3:0 live in `active`, the CRC
  result registers in `crcResult` and the FIFO level in `fifo`. -/
  mem : Memory
  /-- `dev.fifo` (R64). -/
  fifo : List Byte
  /-- `dev.active` (R65). -/
  active : Active
  /-- `dev.tx_armed` (R66). -/
  txArmed : Bool
  /-- `dev.crc_acc` (R67). -/
  crcAcc : Word16
  /-- `dev.crc_result` (R67). -/
  crcResult : Word16
  /-- `dev.crc_pending` (R67). -/
  crcPending : Option CrcPending
  /-- `dev.pending` (R68). -/
  pending : Option Pending
deriving DecidableEq, Repr

/-- A two-phase operation whose first frame has been acknowledged and whose second frame is next
(44_picc_operations.md rules R299 to R301), with its block. -/
inductive Awaiting where
  | writeData (block : Byte)
  | incrementOperand (block : Byte)
  | decrementOperand (block : Byte)
deriving DecidableEq, Repr

/-- What the controller carries out, one bus transaction a step (00_scope.md rule R9): a task call, or
one frame of a two-phase operation, given as an instruction. -/
inductive Job where
  | task (t : Task)
  | writeCommand (block : Byte)
  | writeData (block : Byte) (data : List Byte)
  | incrementCommand (block : Byte)
  | incrementOperand (block : Byte) (v : BitVec 32)
  | decrementCommand (block : Byte)
  | decrementOperand (block : Byte) (v : BitVec 32)
deriving DecidableEq, Repr

/-- A job in progress (10_state.md rule R31). `moved` holds the data byte of each bus transaction it
has issued: its length is "the position within that task, which is the index of the next bus
transaction", and every local of the pseudocode is a function of the job and these bytes. -/
structure Running where
  job : Job
  moved : List Byte
deriving DecidableEq, Repr

/-- The controller state `ctl` (10_state.md rules R31, R35). -/
structure Controller where
  /-- The task now running, or none, with its position and locals (R31). -/
  running : Option Running
  /-- Between the two frames of a two-phase operation given as instructions: the operation. -/
  awaiting : Option Awaiting
  /-- `closed` (R31, R378). -/
  closed : Bool
  /-- `crc_poll_exhausted` (R35). -/
  crcPollExhausted : Nat
deriving DecidableEq, Repr

/-- What the oracle has been told to answer: the answers of the coming rounds and the coming draws, in
order, and how many choices it has made. When a list is empty the choice is a free value of Config. -/
structure Oracle where
  rounds : List Answer
  draws : List Byte
  made : Nat
deriving DecidableEq, Repr

/-- What the caller supplies next (00_scope.md rule R9: "Which task runs next, and with which
arguments, is an external input of the model"): an encoded instruction, or a task call. -/
inductive Input where
  | word (e : Encoded)
  | call (t : Task)
deriving DecidableEq, Repr

/-- The state of the BFM (10_state.md rule R30). `cfg`, `oracle` and `inbox` are the model's own: the
parameters, which no step changes, and the external inputs. -/
structure State where
  cfg : Config
  ctl : Controller
  dev : Device
  rst : Level
  trace : List Event
  faults : List Fault
  oracle : Oracle
  inbox : List Input
deriving DecidableEq, Repr

/-- The reset state of the device (10_state.md rule R41, 70_reset_and_hazards.md rule R370). -/
def Device.reset (cfg : Config) : Device where
  mem := cfg.resetCells
  fifo := []
  active := .idle
  txArmed := false
  crcAcc := 0xFFFF
  crcResult := 0xFFFF
  crcPending := none
  pending := none

/-- The BFM start state (70_reset_and_hazards.md rule R372): the line low, the device in reset, the
controller idle, trace and fault set empty. No input has been supplied. -/
def State.reset : State where
  cfg := defaultConfig
  ctl := ⟨none, none, false, 0⟩
  dev := Device.reset defaultConfig
  rst := .low
  trace := []
  faults := []
  oracle := ⟨[], [], 0⟩
  inbox := []

end Sys2Proof.Machine
end

