-- ==== Sys2Proof/Machine/Flags.lean ====
section
/-! DEFINITION. The interrupt, error and status bits and every rule that computes them
(10_state.md rules R46 to R50, 41_device_commands.md rules R193 to R210). -/

namespace Sys2Proof.Machine

/-- TxIRq, bit 6 of ComIrqReg (10_state.md rule R46). -/
abbrev txIrq : Byte := 0x40
/-- RxIRq, the source's "receiver-ready" (R46). -/
abbrev rxIrq : Byte := 0x20
/-- IdleIRq (R46). -/
abbrev idleIrq : Byte := 0x10
/-- ErrIRq (R46). -/
abbrev errIrq : Byte := 0x02
/-- TimerIRq, "global timer-interrupt bit" and "no-tag interrupt bit" (R46). -/
abbrev timerIrq : Byte := 0x01
/-- CRCIRq, bit 2 of DivIrqReg (R47). -/
abbrev crcIrq : Byte := 0x04
/-- BufferOvfl, bit 4 of ErrorReg (R48). -/
abbrev bufferOvfl : Byte := 0x10
/-- CRCReady, bit 5 of Status1Reg (R49). -/
abbrev crcReady : Byte := 0x20
/-- MFCrypto1On, bit 3 of Status2Reg (R50). -/
abbrev mfCrypto1On : Byte := 0x08

/-- `errs_bits(errs)`: ProtocolErr 0x01, ParityErr 0x02, CRCErr 0x04, CollErr 0x08
(41_device_commands.md rule R193). -/
def Errs.bits (e : Errs) : Byte :=
  (if e.protocol then 0x01 else 0) ||| (if e.parity then 0x02 else 0) |||
  (if e.crc then 0x04 else 0) ||| (if e.coll then 0x08 else 0)

/-- The empty set of errors. -/
def Errs.none : Errs := ⟨false, false, false, false⟩

/-- `{ProtocolErr}`. -/
def Errs.protocolOnly : Errs := ⟨true, false, false, false⟩

/-- ComIrqReg after a write: Set1 = 1 sets the marked bits, Set1 = 0 clears them (R204). -/
def comIrqAfter (old v : Byte) : Byte :=
  if v.getLsbD 7 then old ||| (v &&& 0x7F) else old &&& ~~~(v &&& 0x7F)

/-- DivIrqReg after a write: as ComIrqReg, on bits 4 and 2 alone (R206). -/
def divIrqAfter (old v : Byte) : Byte :=
  if v.getLsbD 7 then old ||| (v &&& 0x14) else old &&& ~~~(v &&& 0x14)

/-- Status2Reg after a write: bits 7 and 6 as written, MFCrypto1On cleared by a 0 (R209). -/
def status2After (old v : Byte) : Byte :=
  let stored := (old &&& 0x3F) ||| (v &&& 0xC0)
  if v.getLsbD 3 then stored else stored &&& ~~~mfCrypto1On

/-- ControlReg with RxLastBits replaced (R193, R210). -/
def controlWithLastBits (old : Byte) (lb : BitVec 3) : Byte := (old &&& 0xF8) ||| lb.setWidth 8

/-- The antenna field is on: `x[TxControlReg][1:0] != 0` (10_state.md rule R56, R198). -/
def fieldOnBit (txControl : Byte) : Bool := txControl &&& 0x03 != 0

/-- The receiver is on: `x[CommandReg][5] = 0` (R198). -/
def rxOnBit (command : Byte) : Bool := command &&& 0x20 == 0

/-- `x[TModeReg][7]` (R198). -/
def tAutoBit (tMode : Byte) : Bool := tMode &&& 0x80 != 0

end Sys2Proof.Machine
end

