-- ==== Sys2Proof/Machine/Ops.lean ====
section
/-! DEFINITION. The shared operations over registers, FIFO, trace, fault set and oracle. The block has
no trap (60_exceptions.md rule R351): a fault is one operation here, `addFault`, that enters the
sticky set and lets the task go on (R347); nothing returns from it (R352). -/

namespace Sys2Proof.Machine

/-- Append an event to the trace (10_state.md rule R33). -/
def State.emit (e : Event) (s : State) : State := { s with trace := s.trace ++ [e] }

/-- `fault <Reason>`: "Its reason is added to the sticky set `faults`" and nothing else changes
(60_exceptions.md rule R347). -/
def State.addFault (f : Fault) (s : State) : State :=
  if f ∈ s.faults then s else { s with faults := s.faults ++ [f] }

/-- `x[R]`: the stored value of a register (00_scope.md rule R15). -/
def State.x (s : State) (r : Reg) : Byte := s.dev.mem.read (s.cfg.map.addr r)

/-- `x[A] <- v` by address (00_scope.md rule R15). -/
def State.setAt (a : Nat) (v : Byte) (s : State) : State :=
  { s with dev := { s.dev with mem := s.dev.mem.write a v } }

/-- `x[R] <- v` (00_scope.md rule R15). -/
def State.setX (r : Reg) (v : Byte) (s : State) : State := s.setAt (s.cfg.map.addr r) v

/-- `x[R] <- x[R] | m`: set the marked bits. -/
def State.orX (r : Reg) (m : Byte) (s : State) : State := s.setX r (s.x r ||| m)

/-- `x[R] <- x[R] & ~m`: clear the marked bits. -/
def State.clearX (r : Reg) (m : Byte) (s : State) : State := s.setX r (s.x r &&& ~~~m)

/-- `dev.fifo <- bs`. -/
def State.setFifo (bs : List Byte) (s : State) : State := { s with dev := { s.dev with fifo := bs } }

/-- `dev.active <- a`. -/
def State.setActive (a : Active) (s : State) : State := { s with dev := { s.dev with active := a } }

/-- `dev.tx_armed <- b`. -/
def State.setTxArmed (b : Bool) (s : State) : State := { s with dev := { s.dev with txArmed := b } }

/-- `dev.pending <- p`. -/
def State.setPending (p : Option Pending) (s : State) : State :=
  { s with dev := { s.dev with pending := p } }

/-- `dev.crc_pending <- p`. -/
def State.setCrcPending (p : Option CrcPending) (s : State) : State :=
  { s with dev := { s.dev with crcPending := p } }

/-- `draw`: the oracle's next byte (00_scope.md rules R9, R16). -/
def State.draw (s : State) : Byte × State :=
  match s.oracle.draws with
  | b :: bs => (b, { s with oracle := { s.oracle with draws := bs, made := s.oracle.made + 1 } })
  | [] => (Config.freeByte s.oracle.made,
      { s with oracle := { s.oracle with made := s.oracle.made + 1 } })

/-- The oracle's next answer to a round, before the limits of rule R198. -/
def State.nextAnswer (a : Active) (frame : List Byte) (s : State) : Answer × State :=
  match s.oracle.rounds with
  | r :: rs => (r, { s with oracle := { s.oracle with rounds := rs, made := s.oracle.made + 1 } })
  | [] => (Config.freeAnswer s.oracle.made a frame ((s.x .bitFraming).setWidth 3),
      { s with oracle := { s.oracle with made := s.oracle.made + 1 } })

/-- `fifo_push(v)`: a push into a full FIFO drops the byte and sets BufferOvfl and ErrIRq
(41_device_commands.md rule R200). -/
def fifoPush (v : Byte) (s : State) : State :=
  if s.dev.fifo.length < s.cfg.fifoDepth then s.setFifo (s.dev.fifo ++ [v])
  else (s.orX .error bufferOvfl).orX .comIrq errIrq

/-- `fifo_push` of each byte in order. -/
def fifoPushAll : List Byte → State → State
  | [], s => s
  | v :: vs, s => fifoPushAll vs (fifoPush v s)

/-- The device enters its reset state (41_device_commands.md rule R190; 70_reset_and_hazards.md rules
R370, R371). -/
def deviceReset (s : State) : State := { s with dev := Device.reset s.cfg }

/-- Drive the reset line (70_reset_and_hazards.md rule R370): a falling edge puts the device into the
reset state, a rising edge releases it in that state, and each change enters the trace. "Driving the
line to the level it already has changes nothing." -/
def driveReset (l : Level) (s : State) : State :=
  if s.rst = l then s
  else { (deviceReset s).emit (.rst l) with rst := l }

end Sys2Proof.Machine
end

