-- ==== Sys2Proof/Machine/Device.lean ====
section
/-! DEFINITION. The device: admissible outcomes, rounds, the PCD commands, outcome application, CRC
processing, and the write and read rule of every register (41_device_commands.md; 42_crc.md rules
R233 to R237). -/

namespace Sys2Proof.Machine

/-! ### Admissible outcomes -/

/-- `field_on` (R198). -/
def fieldOn (s : State) : Bool := fieldOnBit (s.x .txControl)

/-- `rx_on` (R198). -/
def rxOn (s : State) : Bool := rxOnBit (s.x .command)

/-- `TAuto` (R198). -/
def tAuto (s : State) : Bool := tAutoBit (s.x .tMode)

/-- The outcomes a command admits, evaluated when its round starts (R198; D45: "RESP and the AUTH
outcomes need the antenna field on and RcvOff = 0 at round start"). DEDUCED (unsafe where the other
reading holds): the table's condition "field_on and rx_on" holds for the second alternative of AUTH_ERR
too, the frame of other than 12 bytes (notes/assumptions/25.md). DEDUCED (unsafe where the other reading
holds): Transmit admits TX_DONE always, as the table says, with the antenna off too
(notes/assumptions/26.md). -/
def admissible (a : Active) (frame : List Byte) (s : State) : LinkOutcome → Bool
  | .txDone => a == .transmit
  | .resp bytes _ _ =>
    (a == .transceive || a == .receive) && fieldOn s && rxOn s && !bytes.isEmpty
  | .noResp =>
    (a == .transceive || a == .receive || (a == .mfAuthent && frame.length == 12)) && tAuto s
  | .authOk => a == .mfAuthent && fieldOn s && rxOn s && frame.length == 12
  | .authErr errs =>
    a == .mfAuthent && fieldOn s && rxOn s &&
      (if frame.length == 12 then errs != Errs.none else errs == Errs.protocolOnly)

/-- The oracle within the limits of R198: it may always answer `d = ∞`, and "When no row admits an
outcome, the oracle must answer `d = ∞`". -/
def limitAnswer (a : Active) (frame : List Byte) (s : State) : Answer → Answer
  | .never => .never
  | .after d o => if admissible a frame s o then .after d o else .never

/-- `oracle(c, frame)`, and `dev.pending <- (d, o)` created by this transaction (R187, R192). -/
def askOracle (a : Active) (frame : List Byte) (s : State) : State :=
  let r := s.nextAnswer a frame
  r.2.setPending (some ⟨limitAnswer a frame s r.1, true⟩)

/-- `x[ErrorReg][3:0] <- 0` (R187, R192). -/
def clearRoundErrors (s : State) : State := s.clearX .error 0x0F

/-- `start_round(c)`, "the start of a transmission or authentication" (R192). -/
def startRound (a : Active) (s : State) : State :=
  let frame := s.dev.fifo
  askOracle a frame
    (clearRoundErrors ((s.setFifo []).emit (.tx frame ((s.x .bitFraming).setWidth 3))))

/-! ### Commands -/

/-- Schedule CRC processing CRC_LATENCY transactions after this one (42_crc.md rules R234, R236). -/
def scheduleCrc (s : State) : State := s.setCrcPending (some ⟨s.cfg.crcLatency, true⟩)

/-- CalcCRC start (42_crc.md rule R234). -/
def startCalcCrc (s : State) : State :=
  let loaded : State :=
    { s with dev := { s.dev with crcAcc := crcPreset ((s.x .mode).setWidth 2) } }
  scheduleCrc (loaded.clearX .status1 crcReady)

/-- `start(code)` for the six commands that become active (R184 to R189). -/
def startActive (a : Active) (s : State) : State :=
  match a with
  | .idle => s.setActive .idle
  | .calcCrc => startCalcCrc (s.setActive .calcCrc)
  | .transmit => startRound .transmit (s.setActive .transmit)
  | .receive => askOracle .receive [] (clearRoundErrors (s.setActive .receive))
  | .transceive => (s.setActive .transceive).setTxArmed true
  | .mfAuthent => startRound .mfAuthent (s.setActive .mfAuthent)

/-- `start(code)`; SoftReset completes within its own write (R190). -/
def startCommand (c : Command) (s : State) : State :=
  match c with
  | .start a => startActive a s
  | .softReset => deviceReset s

/-- The common steps of a CommandReg write: the running command's outcome and CRC processing are
dropped, `tx_armed` is cleared and CommandReg bits 5:4 become 0 (R183). -/
def terminateCommand (s : State) : State :=
  (((s.setPending none).setCrcPending none).setTxArmed false).clearX .command 0x30

/-- Write to CommandReg (R183). -/
def writeCommand (v : Byte) (s : State) : State :=
  match Command.ofByte v with
  | none => s.addFault (.unmodelledCommand v)
  | some c => startCommand c (terminateCommand s)

/-! ### Outcomes -/

/-- The part of a RESP outcome that Transceive and Receive share: RxIRq, the bytes, RxLastBits, the
error bits and ErrIRq (R193, R197). -/
def receiveResponse (bytes : List Byte) (lb : BitVec 3) (errs : Errs) (s : State) : State :=
  let overflow : Bool := decide (s.cfg.fifoDepth < s.dev.fifo.length + bytes.length)
  let pushed := fifoPushAll bytes (s.orX .comIrq rxIrq)
  let framed := pushed.setX .control (controlWithLastBits (pushed.x .control) lb)
  let flagged := framed.orX .error errs.bits
  if errs != Errs.none || overflow then flagged.orX .comIrq errIrq else flagged

/-- Applying an outcome while its command is active (R193 to R197). An outcome the active command
does not admit is never pending, and would change nothing. DEDUCED (unsafe where the other reading
holds): a RESP that ends Receive sets `tx_armed`, since R197's "as rule R193 but without TxIRq" excepts
nothing else (notes/assumptions/27.md). -/
def applyOutcome (o : LinkOutcome) (s : State) : State :=
  let s := s.emit (.outcome o)
  match s.dev.active, o with
  | .transceive, .resp bytes lb errs =>
    (receiveResponse bytes lb errs (s.orX .comIrq txIrq)).setTxArmed true
  | .transceive, .noResp => ((s.orX .comIrq timerIrq).orX .comIrq txIrq).setTxArmed true
  | .receive, .resp bytes lb errs =>
    (((receiveResponse bytes lb errs s).setTxArmed true).orX .comIrq idleIrq).setActive .idle
  | .receive, .noResp => s.orX .comIrq timerIrq
  | .mfAuthent, .noResp => s.orX .comIrq timerIrq
  | .mfAuthent, .authOk => ((s.orX .status2 mfCrypto1On).orX .comIrq idleIrq).setActive .idle
  | .mfAuthent, .authErr errs =>
    (((s.orX .error errs.bits).orX .comIrq errIrq).orX .comIrq idleIrq).setActive .idle
  | .transmit, .txDone => ((s.orX .comIrq txIrq).orX .comIrq idleIrq).setActive .idle
  | _, _ => s

/-- CRC processing (42_crc.md rule R235; with MSBFirst = 1, rule R233). -/
def processCrc (s : State) : State :=
  if (s.x .mode).getLsbD 7 then s.addFault .unmodelledCrcMode
  else
    let c := crc16 s.dev.crcAcc s.dev.fifo
    let done : State := { s with dev := { s.dev with crcAcc := c, fifo := [], crcResult := c } }
    (done.orX .status1 crcReady).orX .divIrq crcIrq

/-! ### Register access rules -/

/-- Write to FIFODataReg (R200). -/
def writeFifoData (v : Byte) (s : State) : State :=
  let pushed := fifoPush v s
  if pushed.dev.active = .calcCrc ∧ pushed.dev.crcPending = none then scheduleCrc pushed else pushed

/-- Write to FIFOLevelReg: FlushBuffer (R202). -/
def writeFifoLevel (v : Byte) (s : State) : State :=
  if v.getLsbD 7 then (s.setFifo []).clearX .error bufferOvfl else s

/-- Write to BitFramingReg: stored; StartSend starts a round while Transceive is active and armed
(R191). -/
def writeBitFraming (v : Byte) (s : State) : State :=
  let stored := s.setX .bitFraming v
  if v.getLsbD 7 ∧ stored.dev.active = .transceive ∧ stored.dev.txArmed = true then
    startRound .transceive (stored.setTxArmed false)
  else stored

/-- `DeviceWrite(A, v)` (R180). -/
def deviceWrite (a : Nat) (v : Byte) (s : State) : State :=
  match s.cfg.map.regAt a with
  | some .command => writeCommand v s
  | some .fifoData => writeFifoData v s
  | some .fifoLevel => writeFifoLevel v s
  | some .comIrq => s.setX .comIrq (comIrqAfter (s.x .comIrq) v)
  | some .divIrq => s.setX .divIrq (divIrqAfter (s.x .divIrq) v)
  | some .error => s
  | some .status1 => s
  | some .crcResultM => s
  | some .crcResultL => s
  | some .tCounterH => s
  | some .tCounterL => s
  | some .status2 => s.setX .status2 (status2After (s.x .status2) v)
  | some .control => s
  | some .bitFraming => writeBitFraming v s
  | some .comIEn => s.setX .comIEn v
  | some .divIEn => s.setX .divIEn v
  | some .mode => s.setX .mode v
  | some .txControl => s.setX .txControl v
  | some .txAsk => s.setX .txAsk v
  | some .rfCfg => s.setX .rfCfg v
  | some .tMode => s.setX .tMode v
  | some .tPrescaler => s.setX .tPrescaler v
  | some .tReloadH => s.setX .tReloadH v
  | some .tReloadL => s.setX .tReloadL v
  | none => s.setAt a v

/-- Read of CommandReg: `x[CommandReg][5:4] << 4 | code(dev.active)` (30_encoding.md rule R137). -/
def commandByte (s : State) : Byte := (s.x .command &&& 0x30) ||| s.dev.active.code.setWidth 8

/-- Read of FIFODataReg: pop, or a draw when the FIFO is empty (R201). -/
def readFifoData (s : State) : Byte × State :=
  match s.dev.fifo with
  | v :: rest => (v, s.setFifo rest)
  | [] => s.draw

/-- Read of Status2Reg: bits 7, 6, 3 as stored; ModemState is 000 when Idle and a draw in 0..7
otherwise (R209). -/
def readStatus2 (s : State) : Byte × State :=
  if s.dev.active = .idle then (s.x .status2 &&& 0xC8, s)
  else
    let d := s.draw
    ((s.x .status2 &&& 0xC8) ||| (d.1 &&& 0x07), d.2)

/-- Read of Status1Reg: bit 5 is CRCReady, "whose other bits are a draw" (R212). -/
def readStatus1 (s : State) : Byte × State :=
  let d := s.draw
  ((d.1 &&& ~~~crcReady) ||| (s.x .status1 &&& crcReady), d.2)

/-- Read of FIFOLevelReg by the length of the FIFO: "Bit 7 reads 0, and `len(dev.fifo) <= FIFO_DEPTH =
64 < 128`" (R203). DESIGN CHOICE (safe: the rest of the byte is free): a longer FIFO, which a FIFO_DEPTH
of 128 or more allows (00_scope.md rule R10), reads as a free value with bit 7 = 0
(notes/assumptions/28.md). -/
def fifoLevelByte (n : Nat) : Byte :=
  if n < 128 then BitVec.ofNat 8 n else Config.freeLevel n &&& 0x7F

/-- `DeviceRead(A)` (R181). -/
def deviceRead (a : Nat) (s : State) : Byte × State :=
  match s.cfg.map.regAt a with
  | some .command => (commandByte s, s)
  | some .fifoData => readFifoData s
  | some .fifoLevel => (fifoLevelByte s.dev.fifo.length, s)
  | some .comIrq => (s.x .comIrq &&& 0x7F, s)
  | some .divIrq => (s.x .divIrq &&& 0x14, s)
  | some .error => (s.x .error &&& 0xDF, s)
  | some .status1 => readStatus1 s
  | some .status2 => readStatus2 s
  | some .control => (0x10 ||| (s.x .control &&& 0x07), s)
  | some .crcResultM => (highByte s.dev.crcResult, s)
  | some .crcResultL => (lowByte s.dev.crcResult, s)
  | some .tCounterH => s.draw
  | some .tCounterL => s.draw
  | some .bitFraming => (s.x .bitFraming, s)
  | some .comIEn => (s.x .comIEn, s)
  | some .divIEn => (s.x .divIEn, s)
  | some .mode => (s.x .mode, s)
  | some .txControl => (s.x .txControl, s)
  | some .txAsk => (s.x .txAsk, s)
  | some .rfCfg => (s.x .rfCfg, s)
  | some .tMode => (s.x .tMode, s)
  | some .tPrescaler => (s.x .tPrescaler, s)
  | some .tReloadH => (s.x .tReloadH, s)
  | some .tReloadL => (s.x .tReloadL, s)
  | none => (s.dev.mem.read a, s)

end Sys2Proof.Machine
end

