-- ==== Sys2Proof/Machine/Bus.lean ====
section
/-! DEFINITION. Bus transactions (40_bus.md rules R160 to R162, R166) and the two bus instructions. -/

namespace Sys2Proof.Machine

/-- `dev.pending` at the end of a transaction (R166): an item created by this transaction applies if
its count is 0; any other is counted down and applies at 0; `∞ − 1 = ∞`. -/
def tickPending (s : State) : State :=
  match s.dev.pending with
  | none => s
  | some ⟨.never, _⟩ => s.setPending (some ⟨.never, false⟩)
  | some ⟨.after c o, fresh⟩ =>
    let c' := if fresh then c else c - 1
    if c' = 0 then applyOutcome o (s.setPending none)
    else s.setPending (some ⟨.after c' o, false⟩)

/-- `dev.crc_pending` at the end of a transaction (R166), by the same rule. -/
def tickCrc (s : State) : State :=
  match s.dev.crcPending with
  | none => s
  | some ⟨c, fresh⟩ =>
    let c' := if fresh then c else c - 1
    if c' = 0 then processCrc (s.setCrcPending none)
    else s.setCrcPending (some ⟨c', false⟩)

/-- `EndOfTransaction()` (R166). -/
def endOfTransaction (s : State) : State := tickCrc (tickPending s)

/-- `BusWrite(addr, v)` (R160); an address beyond ADDR_WIDTH faults BadAddress and "does not reach the
device" (R162). -/
def busWrite (addr : Nat) (v : Byte) (s : State) : State :=
  if s.cfg.map.limit ≤ addr then s.addFault (.badAddress addr)
  else
    let sent := s.emit (.bus .w addr v)
    endOfTransaction (if sent.rst = .high then deviceWrite addr v sent else sent)

/-- `BusRead(addr) -> v` (R161); an address beyond ADDR_WIDTH faults and returns a draw (R162); a read under
`rst = low` returns a draw. -/
def busRead (addr : Nat) (s : State) : Byte × State :=
  if s.cfg.map.limit ≤ addr then (s.addFault (.badAddress addr)).draw
  else
    let r := if s.rst = .high then deviceRead addr s else s.draw
    (r.1, endOfTransaction (r.2.emit (.bus .r addr r.1)))

/-- `BusWrite` of a register by its name (00_scope.md rule R15, 20_memory.md rule R102). -/
def regWrite (r : Reg) (v : Byte) (s : State) : State := busWrite (s.cfg.map.addr r) v s

/-- `BusRead` of a register by its name. -/
def regRead (r : Reg) (s : State) : Byte × State := busRead (s.cfg.map.addr r) s

/-- Whatever the controller does after close faults UseAfterClose and issues no transaction
(70_reset_and_hazards.md rule R378). -/
def whenOpen (f : State → State) (s : State) : State :=
  if s.ctl.closed then s.addFault .useAfterClose else f s

/-- WRITE_REG (R160). -/
def execWriteReg (a : Nat) (d : Byte) (s : State) : Host.Outcome State Fault Refusal :=
  .next (whenOpen (busWrite a d) s)

/-- READ_REG (R161). The value read stands in the transaction's trace event. -/
def execReadReg (a : Nat) (s : State) : Host.Outcome State Fault Refusal :=
  .next (whenOpen (fun t => (busRead a t).2) s)

end Sys2Proof.Machine
end

