-- ==== Sys2Proof/Machine/Pcd.lean ====
section
/-! DEFINITION. The seven PCD commands as instructions: each is `set_command(c)`, one write of its
code to CommandReg (40_bus.md rule R165; 41_device_commands.md rules R183 to R190). -/

namespace Sys2Proof.Machine

/-- `set_command(c)`: `BusWrite(CommandReg, code(c))` (R165). -/
def setCommand (c : Command) (s : State) : State := regWrite .command c.byte s

/-- PCD_IDLE (R184). -/
def execPcdIdle (s : State) : Host.Outcome State Fault Refusal :=
  .next (whenOpen (setCommand (.start .idle)) s)

/-- PCD_CALCCRC (R185). -/
def execPcdCalcCrc (s : State) : Host.Outcome State Fault Refusal :=
  .next (whenOpen (setCommand (.start .calcCrc)) s)

/-- PCD_TRANSMIT (R186). -/
def execPcdTransmit (s : State) : Host.Outcome State Fault Refusal :=
  .next (whenOpen (setCommand (.start .transmit)) s)

/-- PCD_RECEIVE (R187). -/
def execPcdReceive (s : State) : Host.Outcome State Fault Refusal :=
  .next (whenOpen (setCommand (.start .receive)) s)

/-- PCD_TRANSCEIVE (R188). -/
def execPcdTransceive (s : State) : Host.Outcome State Fault Refusal :=
  .next (whenOpen (setCommand (.start .transceive)) s)

/-- PCD_MFAUTHENT (R189). -/
def execPcdMfAuthent (s : State) : Host.Outcome State Fault Refusal :=
  .next (whenOpen (setCommand (.start .mfAuthent)) s)

/-- PCD_SOFTRESET (R190). -/
def execPcdSoftReset (s : State) : Host.Outcome State Fault Refusal :=
  .next (whenOpen (setCommand .softReset) s)

end Sys2Proof.Machine
end

