-- ==== Sys2Proof/Machine/Helpers.lean ====
section
/-! DEFINITION. Value blocks and UID strings (44_picc_operations.md rules R330 to R336): pure
functions, no bus transaction. -/

namespace Sys2Proof.Machine

/-- The sixteen bytes of a value block from its value bytes and address byte
(44_picc_operations.md rule R330). -/
def valueBlockBytes (v : BitVec 32) (a : Byte) : List Byte :=
  le32 v ++ le32 (~~~v) ++ le32 v ++ [a, ~~~a, a, ~~~a]

/-- `format_value_block(value, address)` (44_picc_operations.md rule R330). DESIGN CHOICE (unsafe for a
claim about `info`): of two failed argument checks the value's is the one raised
(notes/assumptions/24.md). -/
def formatValueBlock (value address : Int) : Except Failure (List Byte) :=
  if !inInt32 value then .error (.invalidArgument .valueRange)
  else if address < 0 ∨ 255 < address then .error (.invalidArgument .addressRange)
  else .ok (valueBlockBytes (BitVec.ofInt 32 value) (BitVec.ofInt 8 address))

/-- The five relations of a value block (44_picc_operations.md rule R331). -/
def valueBlockRelations : List Byte → Bool
  | [b0, b1, b2, b3, b4, b5, b6, b7, b8, b9, b10, b11, b12, b13, b14, b15] =>
    (b0 == ~~~b4 && b1 == ~~~b5 && b2 == ~~~b6 && b3 == ~~~b7) &&
    (b0 == b8 && b1 == b9 && b2 == b10 && b3 == b11) &&
    b12 == ~~~b13 && b12 == b14 && b12 == ~~~b15
  | _ => false

/-- `check_value_block(block)` (44_picc_operations.md rule R331). -/
def checkValueBlock (block : List Byte) : Except Failure Bool :=
  if block.length ≠ 16 then .error (.invalidArgument .blockLength)
  else .ok (valueBlockRelations block)

/-- `get_block_value(block)` (44_picc_operations.md rule R332). DESIGN CHOICE (unsafe where the other
reading holds): the check inside it is its value alone and ends no task of its own, so it records no
Return or Raise event (10_state.md rule R33; notes/assumptions/20.md). -/
def getBlockValue (block : List Byte) : Except Failure Int :=
  match checkValueBlock block with
  | .error f => .error f
  | .ok false => .error .invalidBlock
  | .ok true => .ok (s32le (block.getD 0 0) (block.getD 1 0) (block.getD 2 0) (block.getD 3 0))

/-- An upper-case hex digit (44_picc_operations.md rule R335). -/
def hexDigit (n : BitVec 4) : Char :=
  if n.toNat < 10 then Char.ofNat (48 + n.toNat) else Char.ofNat (55 + n.toNat)

/-- A byte as two hex digits, high nibble first (44_picc_operations.md rule R335). -/
def hexByte (b : Byte) : List Char := [hexDigit (b.extractLsb' 4 4), hexDigit (b.extractLsb' 0 4)]

/-- The value of a hex digit in 0–9, A–F or a–f (44_picc_operations.md rule R336). -/
def hexValue (c : Char) : Option (BitVec 4) :=
  if 48 ≤ c.toNat ∧ c.toNat ≤ 57 then some (BitVec.ofNat 4 (c.toNat - 48))
  else if 65 ≤ c.toNat ∧ c.toNat ≤ 70 then some (BitVec.ofNat 4 (c.toNat - 55))
  else if 97 ≤ c.toNat ∧ c.toNat ≤ 102 then some (BitVec.ofNat 4 (c.toNat - 87))
  else none

/-- The bytes a string of hex digits spells, high nibble first (44_picc_operations.md rule R336). -/
def hexBytes : List Char → Option (List Byte)
  | [] => some []
  | [_] => none
  | h :: l :: rest =>
    match hexValue h, hexValue l, hexBytes rest with
    | some vh, some vl, some bs => some ((vh ++ vl) :: bs)
    | _, _, _ => none

/-- `uid_to_hex(uid)` (44_picc_operations.md rule R335). -/
def uidToHex : List Byte → Except Failure (List Char)
  | [u0, u1, u2, u3, _] => .ok (hexByte u0 ++ hexByte u1 ++ hexByte u2 ++ hexByte u3)
  | _ => .error (.invalidArgument .uidLength)

/-- `hex_to_uid(s)` (44_picc_operations.md rule R336). -/
def hexToUid (text : List Char) : Except Failure (List Byte) :=
  match hexBytes text with
  | some [u0, u1, u2, u3] => .ok [u0, u1, u2, u3, bcc u0 u1 u2 u3]
  | _ => .error (.invalidArgument .hexText)

end Sys2Proof.Machine
end

