-- ==== Sys2Proof/Machine/Program.lean ====
section
/-! DEFINITION. Task pseudocode as data (00_scope.md rule R17): what a task does next, as a function of
the bytes its reads have returned; its run to completion; and its execution one bus transaction at a
time (00_scope.md rule R9, 10_state.md rule R31). -/

namespace Sys2Proof.Machine

/-- A line of pseudocode that is no bus transaction. -/
inductive Act where
  /-- `log(msg)` (R16). -/
  | log (msg : LogMsg)
  /-- A task ends: its `Return` event (R33). -/
  | returned (task : TaskName) (result : Result)
  /-- A task ends by a raise: its `Raise` event (R33, R344). -/
  | raised (task : TaskName) (failure : Failure)
  /-- `ctl.crc_poll_exhausted <- ctl.crc_poll_exhausted + 1` (42_crc.md rule R245). -/
  | countExhausted
  /-- `rst <- high` (70_reset_and_hazards.md rule R373). -/
  | releaseReset
  /-- `ctl.closed <- true` (70_reset_and_hazards.md rule R378). -/
  | closeBus
  /-- An acknowledged first phase: the operation waits for its second frame (44_picc_operations.md
  rules R299 to R301). -/
  | await (w : Awaiting)
deriving DecidableEq, Repr

/-- The rest of a task. Pseudocode names registers; their addresses are the map's. -/
inductive Prog (α : Type) where
  | ret (a : α)
  | raise (f : Failure)
  | write (r : Reg) (v : Byte) (rest : Prog α)
  | read (r : Reg) (rest : Byte → Prog α)
  | act (a : Act) (rest : Prog α)

/-- What a line of pseudocode that is no bus transaction does. -/
def doAct (a : Act) (s : State) : State :=
  match a with
  | .log m => s.emit (.log m)
  | .returned n r => s.emit (.ret n r)
  | .raised n f => s.emit (.raised n f)
  | .countExhausted =>
    { s with ctl := { s.ctl with crcPollExhausted := s.ctl.crcPollExhausted + 1 } }
  | .releaseReset => driveReset .high s
  | .closeBus => { s with ctl := { s.ctl with closed := true } }
  | .await w => { s with ctl := { s.ctl with awaiting := some w } }

variable {α β : Type}

/-- A callee, then the caller's next line (60_exceptions.md rule R352). A raise in the callee ends
the caller too (R344). -/
def Prog.bind : Prog α → (α → Prog β) → Prog β
  | .ret a, f => f a
  | .raise e, _ => .raise e
  | .write r v rest, f => .write r v (rest.bind f)
  | .read r rest, f => .read r (fun v => (rest v).bind f)
  | .act a rest, f => .act a (rest.bind f)

/-- The program as a task: when it ends, its `Return` or `Raise` event enters the trace (R33). -/
def Prog.asTask (name : TaskName) (res : α → Result) : Prog α → Prog α
  | .ret a => .act (.returned name (res a)) (.ret a)
  | .raise f => .act (.raised name f) (.raise f)
  | .write r v rest => .write r v (rest.asTask name res)
  | .read r rest => .read r (fun v => (rest v).asTask name res)
  | .act a rest => .act a (rest.asTask name res)

/-- A task that makes no bus transaction (44_picc_operations.md sections 7 and 8). -/
def Prog.ofExcept : Except Failure α → Prog α
  | .ok a => .ret a
  | .error f => .raise f

/-- Run to completion: "Each `BusWrite` or `BusRead` is exactly one bus transaction, in program order"
(R17). -/
def Prog.run : Prog α → State → State × Except Failure α
  | .ret a, s => (s, .ok a)
  | .raise f, s => (s, .error f)
  | .write r v rest, s => rest.run (regWrite r v s)
  | .read r rest, s => let t := regRead r s; (rest t.1).run t.2
  | .act a rest, s => rest.run (doAct a s)

/-- The rest of a task after the bus transactions whose data bytes are listed. -/
def Prog.resume : Prog α → List Byte → Prog α
  | p, [] => p
  | .ret a, _ :: _ => .ret a
  | .raise f, _ :: _ => .raise f
  | .write _ _ rest, _ :: moved => rest.resume moved
  | .read _ rest, v :: moved => (rest v).resume moved
  | .act _ rest, v :: moved => rest.resume (v :: moved)

/-- Carry a task up to and including its next bus transaction: the data byte moved, or `none` when
the task ends without one. -/
def Prog.tick : Prog α → State → Option Byte × State
  | .ret _, s => (none, s)
  | .raise _, s => (none, s)
  | .write r v _, s => (some v, regWrite r v s)
  | .read r _, s => let t := regRead r s; (some t.1, t.2)
  | .act a rest, s => rest.tick (doAct a s)

/-- The end of a task that has no bus transaction left; `none` where one is left. -/
def Prog.finish : Prog α → State → Option State
  | .ret _, s => some s
  | .raise _, s => some s
  | .write _ _ _, _ => none
  | .read _ _, _ => none
  | .act a rest, s => rest.finish (doAct a s)

/-! ### Bus pseudo-operations (40_bus.md rules R163 to R165) -/

/-- `set_bits(R, m)` (R163). -/
def Prog.setBits (r : Reg) (m : Byte) (rest : Prog α) : Prog α :=
  .read r fun t => .write r (t ||| m) rest

/-- `clear_bits(R, m)` (R164). -/
def Prog.clearBits (r : Reg) (m : Byte) (rest : Prog α) : Prog α :=
  .read r fun t => .write r (t &&& ~~~m) rest

/-- `flush_fifo()` (R165). -/
def Prog.flushFifo (rest : Prog α) : Prog α := .write .fifoLevel 0x80 rest

/-- `clear_com_irq()` (R165). -/
def Prog.clearComIrq (rest : Prog α) : Prog α := .write .comIrq 0x7F rest

/-- `clear_crc_irq()` (R165). -/
def Prog.clearCrcIrq (rest : Prog α) : Prog α := .write .divIrq 0x04 rest

/-- `set_command(c)` (R165). -/
def Prog.setCommand (c : Command) (rest : Prog α) : Prog α := .write .command c.byte rest

/-- `for b in bs: BusWrite(FIFODataReg, b)` (43_transceive.md rule R262, 42_crc.md rule R245). -/
def Prog.loadFifo : List Byte → Prog α → Prog α
  | [], rest => rest
  | b :: bs, rest => .write .fifoData b (Prog.loadFifo bs rest)

/-- `[BusRead(FIFODataReg) for j in 1..m]` (43_transceive.md rule R269). -/
def Prog.drainFifo : Nat → Prog (List Byte)
  | 0 => .ret []
  | m + 1 => .read .fifoData fun v => (Prog.drainFifo m).bind fun vs => .ret (v :: vs)

/-- A bounded poll: read a register until `hit` holds of the value read, at most `budget` times; a
match on the last read counts (D12). The value that matched, or `none` when the budget runs out. -/
def Prog.poll (r : Reg) (hit : Byte → Bool) : Nat → Prog (Option Byte)
  | 0 => .ret none
  | budget + 1 => .read r fun v => if hit v then .ret (some v) else Prog.poll r hit budget

end Sys2Proof.Machine
end

