-- ==== Sys2Proof/Machine/Transceive.lean ====
section
/-! DEFINITION. The compute_crc task (42_crc.md rule R245) and the transceive task (43_transceive.md
rules R260 to R271). -/

namespace Sys2Proof.Machine

/-- `compute_crc(buf) -> (lo, hi)` (42_crc.md rule R245). -/
def computeCrc (buf : List Byte) : Prog (Byte × Byte) :=
  .asTask .computeCrc (fun r => .crc r.1 r.2) <|
    .clearCrcIrq <| .flushFifo <| .loadFifo buf <| .setCommand (.start .calcCrc) <|
      (Prog.poll .divIrq (fun n => n &&& crcIrq != 0) pollBudgetCrc).bind fun matched =>
        let results : Prog (Byte × Byte) :=
          .read .crcResultL fun lo => .read .crcResultM fun hi => .ret (lo, hi)
        match matched with
        | some _ => results
        | none => .act .countExhausted results

/-- Step 7, the receive drain (43_transceive.md rule R269). -/
def receiveDrain (status : Status) : Prog TxRx :=
  .read .fifoLevel fun n => .read .control fun c =>
    (Prog.drainFifo (drainCount n)).bind fun rx => .ret ⟨status, rx, bitLength n (c &&& 0x07)⟩

/-- Step 6 and on, after a poll that matched on `irq` (43_transceive.md rules R267 to R269). -/
def afterMatch (cfg : Config) (cmd : Command) (irq : Byte) : Prog TxRx :=
  .read .error fun err =>
    if err &&& cfg.errorMask != 0 then .ret ⟨.error, [], 0⟩
    else
      let status : Status :=
        if irq &&& enableMask cfg cmd &&& cfg.noTagBit != 0 then .noTag else .ok
      if cmd = .start .transceive then receiveDrain status else .ret ⟨status, [], 0⟩

/-- Steps 3 to 7 (43_transceive.md rules R263 to R269). -/
def pollAndFinish (cfg : Config) (cmd : Command) : Prog TxRx :=
  (Prog.poll .comIrq
      (fun irq => irq &&& 0x01 != 0 || irq &&& waitMask cfg cmd != 0) pollBudgetTxRx).bind
    fun matched => .clearBits .bitFraming 0x80 <|
      match matched with
      | none => .ret ⟨.timeout, [], 0⟩
      | some irq => afterMatch cfg cmd irq

/-- `transceive(cmd, send) -> (status, rx, bitlen)` (43_transceive.md rule R271). -/
def transceive (cfg : Config) (cmd : Command) (send : List Byte) : Prog TxRx :=
  .asTask .transceive (fun r => .txrx r.status r.rx r.bitlen) <|
    .write .comIEn (0x80 ||| enableMask cfg cmd) <| .clearComIrq <| .flushFifo <|
      .setCommand (.start .idle) <| .loadFifo send <| .setCommand cmd <|
        if cmd = .start .transceive then .setBits .bitFraming 0x80 (pollAndFinish cfg cmd)
        else pollAndFinish cfg cmd

end Sys2Proof.Machine
end

