-- ==== Sys2Proof/Machine/Protocol.lean ====
section
/-! DEFINITION. The protocol operations (44_picc_operations.md rules R290 to R322), init, antenna_on,
stop_crypto and close (70_reset_and_hazards.md rules R373 to R378), and the program of each task. -/

namespace Sys2Proof.Machine

/-- Append the CRC suffix one compute_crc call gives, and send the frame with one transceive call
(44_picc_operations.md rule R290). -/
def sendWithCrc (cfg : Config) (buf : List Byte) : Prog TxRx :=
  (computeCrc buf).bind fun r => transceive cfg (.start .transceive) (buf ++ [r.1, r.2])

/-! ### Card selection -/

/-- `request(mode) -> (status, bitlen)` (R291). -/
def requestProg (cfg : Config) (mode : ReqMode) : Prog (Status × Int) :=
  .write .bitFraming 0x07 <|
    (transceive cfg (.start .transceive) [mode.byte]).bind fun r =>
      .ret (if r.status ≠ .ok ∨ r.bitlen ≠ 16 then .error else r.status, r.bitlen)

/-- `anticollision() -> (status, uid)` (R292). -/
def anticollisionProg (cfg : Config) : Prog (Status × List Byte) :=
  .write .bitFraming 0x00 <|
    (transceive cfg (.start .transceive) [0x93, 0x20]).bind fun r =>
      .ret (anticollisionStatus r, r.rx)

/-- `select(uid) -> size` (R294). -/
def selectProg (cfg : Config) (uid : List Byte) : Prog Byte :=
  if uid.length ≠ 5 then .raise (.invalidArgument .uidLength)
  else (sendWithCrc cfg ([0x93, 0x70] ++ uid)).bind fun r =>
    .ret (if r.status = .ok ∧ r.bitlen = 24 then r.rx.headD 0 else 0)

/-! ### Authentication -/

/-- `authenticate(mode, block, key, uid) -> status` (R295). DESIGN CHOICE (unsafe for a claim about
`info`): of two failed argument checks the key's is the one raised (notes/assumptions/24.md). -/
def authenticateProg (cfg : Config) (mode : KeyMode) (block : Byte) (key uid : List Byte) :
    Prog Status :=
  if key.length ≠ 6 then .raise (.invalidArgument .keyLength)
  else if uid.length < 4 then .raise (.invalidArgument .uidLength)
  else (transceive cfg (.start .mfAuthent) ([mode.byte, block] ++ key ++ uid.take 4)).bind fun r =>
    if r.status ≠ .ok then .act (.log (.authenticationFailed block)) (.ret r.status)
    else .ret r.status

/-! ### Block operations -/

/-- `read(block) -> Data(bytes16) | NoData(status)` (R297): the result as the trace holds it. -/
def readProg (cfg : Config) (block : Byte) : Prog Result :=
  (sendWithCrc cfg [0x30, block]).bind fun r =>
    if r.status = .ok ∧ r.rx.length = 16 then .ret (.data r.rx)
    else .act (.log (.readFailed block)) (.ret (.noData r.status))

/-- A command frame `op b` + CRC whose reply must be an ACK: whether it was, and its log record
where it was not (R299 to R302). -/
def commandPhase (cfg : Config) (op block : Byte) (onFailure : LogMsg) : Prog Bool :=
  (sendWithCrc cfg [op, block]).bind fun r =>
    if isAck r then .ret true else .act (.log onFailure) (.ret false)

/-- The first phase of `write`: the warnings, then the command frame (R299). -/
def writeCommandPhase (cfg : Config) (block : Byte) : Prog Bool :=
  let warnTrailer : Prog Bool → Prog Bool := fun rest =>
    if block.toNat % 4 = 3 then .act (.log .writingSectorTrailer) rest else rest
  let warnZero : Prog Bool → Prog Bool := fun rest =>
    if block = 0 then .act (.log .writingManufacturerBlock) rest else rest
  warnZero (warnTrailer (commandPhase cfg 0xA0 block (.writeCommandNotAcknowledged block)))

/-- The second phase of `write`: the payload frame (R299). -/
def writeDataPhase (cfg : Config) (block : Byte) (data : List Byte) : Prog Status :=
  (sendWithCrc cfg data).bind fun r =>
    if isAck r then .ret .ok
    else .act (.log (.writeDataNotAcknowledged block)) (.ret .error)

/-- The payload check of `write`, "before any bus I/O" (R299). -/
def writeArguments (data : List Byte) (rest : Prog Status) : Prog Status :=
  if data.length ≠ 16 then .raise (.invalidArgument .payloadLength) else rest

/-- `write(block, data) -> status` (R299). -/
def writeProg (cfg : Config) (block : Byte) (data : List Byte) : Prog Status :=
  writeArguments data <|
    (writeCommandPhase cfg block).bind fun acked =>
      if acked then writeDataPhase cfg block data else .ret .error

/-- The first phase of `increment` (R300). -/
def incrementCommandPhase (cfg : Config) (block : Byte) : Prog Bool :=
  commandPhase cfg 0xC1 block (.incrementNotAcknowledged block)

/-- The first phase of `decrement` (R301). -/
def decrementCommandPhase (cfg : Config) (block : Byte) : Prog Bool :=
  commandPhase cfg 0xC0 block (.decrementNotAcknowledged block)

/-- The second phase of `increment` and `decrement`: the operand frame; a silent card is accepted
(R300, R301). -/
def operandPhase (cfg : Config) (v : BitVec 32) (onFailure : LogMsg) : Prog Status :=
  (sendWithCrc cfg (le32 v)).bind fun r =>
    if r.status = .timeout ∨ r.status = .noTag then .ret .ok
    else if isAck r then .ret .ok
    else .act (.log onFailure) (.ret .error)

/-- `increment(block, delta) -> status` (R300). -/
def incrementProg (cfg : Config) (block : Byte) (delta : Int) : Prog Status :=
  if !inInt32 delta then .raise (.invalidArgument .deltaRange)
  else (incrementCommandPhase cfg block).bind fun acked =>
    if acked then operandPhase cfg (BitVec.ofInt 32 delta) (.incrementOperandRejected block)
    else .ret .error

/-- `decrement(block, delta) -> status` (R301). -/
def decrementProg (cfg : Config) (block : Byte) (delta : Int) : Prog Status :=
  if !inInt32 delta then .raise (.invalidArgument .deltaRange)
  else (decrementCommandPhase cfg block).bind fun acked =>
    if acked then operandPhase cfg (BitVec.ofInt 32 delta) (.decrementOperandRejected block)
    else .ret .error

/-- `transfer(block) -> status` (R302). -/
def transferProg (cfg : Config) (block : Byte) : Prog Status :=
  (commandPhase cfg 0xB0 block (.transferNotAcknowledged block)).bind fun acked =>
    .ret (if acked then .ok else .error)

/-! ### DUMP -/

/-- `authenticate` called as a task (60_exceptions.md rule R352). -/
def callAuthenticate (cfg : Config) (mode : KeyMode) (block : Byte) (key uid : List Byte) :
    Prog Status :=
  (authenticateProg cfg mode block key uid).asTask .authenticate .status

/-- `read` called as a task. -/
def callRead (cfg : Config) (block : Byte) : Prog Result := (readProg cfg block).asTask .read id

/-- `get_key(i)` from the key store's sixteen answers (R320, R321). -/
def keyOf (getKey : Vector KeyPair 16) (i : Nat) : KeyPair := getKey.toList.getD i ⟨[], []⟩

/-- DUMP's loop over the blocks still to do; `got` is `result`, in order (R322). -/
def dumpBlocks (cfg : Config) (uid : List Byte) (getKey : Vector KeyPair 16) :
    List Nat → List (Byte × List Byte) → Prog (List (Byte × List Byte))
  | [], got => .ret got
  | n :: ns, got =>
    let block : Byte := BitVec.ofNat 8 n
    let keys := keyOf getKey (n / 4)
    (callAuthenticate cfg .keyA block keys.keyA uid).bind fun first =>
      (if first ≠ .ok then callAuthenticate cfg .keyB block keys.keyB uid else .ret first).bind
        fun st =>
          if st = .ok then
            (callRead cfg block).bind fun r =>
              match r with
              | .data d => dumpBlocks cfg uid getKey ns (got ++ [(block, d)])
              | _ => dumpBlocks cfg uid getKey ns got
          else .act (.log (.cannotAuthenticateBlock block)) (dumpBlocks cfg uid getKey ns got)

/-- Every key of the key store has six bytes (60_exceptions.md rule R342). -/
def keysWellFormed (getKey : Vector KeyPair 16) : Bool :=
  getKey.toList.all fun k => k.keyA.length == 6 && k.keyB.length == 6

/-- `dump(uid, get_key) -> [(block, bytes16)]` (R322). A key of the store that is not 6 bytes raises
"before any bus I/O" (D65); a short UID is raised by the first authenticate (R322, R344). -/
def dumpProg (cfg : Config) (uid : List Byte) (getKey : Vector KeyPair 16) :
    Prog (List (Byte × List Byte)) :=
  if !keysWellFormed getKey then .raise (.invalidArgument .keyLength)
  else dumpBlocks cfg uid getKey (List.range 64) []

/-! ### Initialisation and shutdown -/

/-- `antenna_on()` (70_reset_and_hazards.md rule R376). -/
def antennaOnProg : Prog Unit := .setBits .txControl 0x03 (.ret ())

/-- A fixed list of register writes, in order. -/
def writeAll {α : Type} : List (Reg × Byte) → Prog α → Prog α
  | [], rest => rest
  | (r, v) :: ws, rest => .write r v (writeAll ws rest)

/-- `init()` (70_reset_and_hazards.md rule R373). -/
def initProg (cfg : Config) : Prog Unit :=
  .act .releaseReset <| .setCommand .softReset <| writeAll cfg.initWrites <|
    .write .rfCfg cfg.initRfCfg <| antennaOnProg.asTask .antennaOn (fun _ => .unit)

/-- `stop_crypto()` (70_reset_and_hazards.md rule R377). -/
def stopCryptoProg : Prog Unit := .clearBits .status2 0x08 (.ret ())

/-- `close()` (70_reset_and_hazards.md rule R378). -/
def closeProg : Prog Unit := .act .closeBus (.ret ())

/-- A program as a task whose result stands in the trace alone (10_state.md rule R33). -/
def asWholeTask {α : Type} (name : TaskName) (res : α → Result) (p : Prog α) : Prog Unit :=
  (p.asTask name res).bind fun _ => .ret ()

/-- The program of a task, ending in its `Return` or `Raise` event (10_state.md rule R33). -/
def taskProg (cfg : Config) : Task → Prog Unit
  | .init => asWholeTask .init (fun _ => .unit) (initProg cfg)
  | .antennaOn => asWholeTask .antennaOn (fun _ => .unit) antennaOnProg
  | .stopCrypto => asWholeTask .stopCrypto (fun _ => .unit) stopCryptoProg
  | .close => asWholeTask .close (fun _ => .unit) closeProg
  | .computeCrc buf => (computeCrc buf).bind fun _ => .ret ()
  | .transceive cmd send => (transceive cfg cmd send).bind fun _ => .ret ()
  | .request mode => asWholeTask .request (fun r => .statusBits r.1 r.2) (requestProg cfg mode)
  | .anticollision =>
    asWholeTask .anticollision (fun r => .statusUid r.1 r.2) (anticollisionProg cfg)
  | .select uid => asWholeTask .select .size (selectProg cfg uid)
  | .authenticate mode block key uid =>
    asWholeTask .authenticate .status (authenticateProg cfg mode block key uid)
  | .read block => asWholeTask .read id (readProg cfg block)
  | .write block data => asWholeTask .write .status (writeProg cfg block data)
  | .increment block delta => asWholeTask .increment .status (incrementProg cfg block delta)
  | .decrement block delta => asWholeTask .decrement .status (decrementProg cfg block delta)
  | .transfer block => asWholeTask .transfer .status (transferProg cfg block)
  | .dump uid getKey => asWholeTask .dump .blocks (dumpProg cfg uid getKey)
  | .formatValueBlock value address =>
    asWholeTask .formatValueBlock .bytes (.ofExcept (formatValueBlock value address))
  | .checkValueBlock block =>
    asWholeTask .checkValueBlock .bool (.ofExcept (checkValueBlock block))
  | .getBlockValue block => asWholeTask .getBlockValue .int (.ofExcept (getBlockValue block))
  | .uidToHex uid => asWholeTask .uidToHex .text (.ofExcept (uidToHex uid))
  | .hexToUid text => asWholeTask .hexToUid .bytes (.ofExcept (hexToUid text))

/-- The first phase of a two-phase operation: acknowledged, the operation waits for its second frame;
not acknowledged, it returns ERROR (44_picc_operations.md rules R299 to R301). -/
def firstPhase (name : TaskName) (next : Awaiting) (phase : Prog Bool) : Prog Unit :=
  phase.bind fun acked =>
    if acked then .act (.await next) (.ret ())
    else .act (.returned name (.status .error)) (.ret ())

/-- The program of a job: a task's, or one phase's of a two-phase operation. -/
def jobProg (cfg : Config) : Job → Prog Unit
  | .task t => taskProg cfg t
  | .writeCommand b => firstPhase .write (.writeData b) (writeCommandPhase cfg b)
  | .writeData b data =>
    asWholeTask .write .status (writeArguments data (writeDataPhase cfg b data))
  | .incrementCommand b => firstPhase .increment (.incrementOperand b) (incrementCommandPhase cfg b)
  | .incrementOperand b v =>
    asWholeTask .increment .status (operandPhase cfg v (.incrementOperandRejected b))
  | .decrementCommand b => firstPhase .decrement (.decrementOperand b) (decrementCommandPhase cfg b)
  | .decrementOperand b v =>
    asWholeTask .decrement .status (operandPhase cfg v (.decrementOperandRejected b))

/-- Set which two-phase operation waits for its second frame. -/
def State.setAwaiting (w : Option Awaiting) (s : State) : State :=
  { s with ctl := { s.ctl with awaiting := w } }

/-- Run a program to completion for its effect alone. -/
def runProg {α : Type} (p : Prog α) (s : State) : State := (p.run s).1

/-- A job run to completion; one started after close faults (70_reset_and_hazards.md rule R378). A job
drops a two-phase operation that waits for its second frame. -/
def runJob (j : Job) : State → State :=
  whenOpen fun s => runProg (jobProg s.cfg j) (s.setAwaiting none)

/-- A task run to completion. -/
def runTask (t : Task) : State → State := runJob (.task t)

end Sys2Proof.Machine
end

