-- ==== Sys2Proof/Machine/Picc.lean ====
section
/-! DEFINITION. The thirteen PICC frames as instructions (30_encoding.md rules R141, R142): a command
frame runs its protocol operation (44_picc_operations.md); the frames of a two-phase operation run one
phase each. The CRC bytes of a frame come from compute_crc (R290), not from the instruction's. A
meaning gives the whole effect; the step carries it out one bus transaction at a time. -/

namespace Sys2Proof.Machine

/-- REQUEST_IDLE (R291). -/
def execRequestIdle (s : State) : Host.Outcome State Fault Refusal :=
  .next (runTask (.request .idle) s)

/-- REQUEST_ALL (R291). -/
def execRequestAll (s : State) : Host.Outcome State Fault Refusal :=
  .next (runTask (.request .all) s)

/-- ANTICOLLISION (R292). -/
def execAnticollision (s : State) : Host.Outcome State Fault Refusal :=
  .next (runTask .anticollision s)

/-- SELECT (R294). -/
def execSelect (uid : List Byte) (s : State) : Host.Outcome State Fault Refusal :=
  .next (runTask (.select uid) s)

/-- AUTH_A (R295). -/
def execAuthA (b : Byte) (key uid : List Byte) (s : State) : Host.Outcome State Fault Refusal :=
  .next (runTask (.authenticate .keyA b key uid) s)

/-- AUTH_B (R295). -/
def execAuthB (b : Byte) (key uid : List Byte) (s : State) : Host.Outcome State Fault Refusal :=
  .next (runTask (.authenticate .keyB b key uid) s)

/-- READ (R297). -/
def execRead (b : Byte) (s : State) : Host.Outcome State Fault Refusal :=
  .next (runTask (.read b) s)

/-- WRITE, the command phase of `write` (R299). -/
def execWrite (b : Byte) (s : State) : Host.Outcome State Fault Refusal :=
  .next (runJob (.writeCommand b) s)

/-- DECREMENT, the command phase of `decrement` (R301). -/
def execDecrement (b : Byte) (s : State) : Host.Outcome State Fault Refusal :=
  .next (runJob (.decrementCommand b) s)

/-- INCREMENT, the command phase of `increment` (R300). -/
def execIncrement (b : Byte) (s : State) : Host.Outcome State Fault Refusal :=
  .next (runJob (.incrementCommand b) s)

/-- TRANSFER (R302). -/
def execTransfer (b : Byte) (s : State) : Host.Outcome State Fault Refusal :=
  .next (runTask (.transfer b) s)

/-- WRITE_DATA, "recognised by position (after an ACK to WRITE)": the data phase of `write` (R299). -/
def execWriteData (data : List Byte) (s : State) : Host.Outcome State Fault Refusal :=
  match s.ctl.awaiting with
  | some (.writeData b) => .next (runJob (.writeData b data) s)
  | _ => .refused .noFirstPhase

/-- VALUE_OPERAND, recognised by position: the operand phase of `increment` or `decrement` (R300,
R301). -/
def execValueOperand (v : BitVec 32) (s : State) : Host.Outcome State Fault Refusal :=
  match s.ctl.awaiting with
  | some (.incrementOperand b) => .next (runJob (.incrementOperand b v) s)
  | some (.decrementOperand b) => .next (runJob (.decrementOperand b v) s)
  | _ => .refused .noFirstPhase

/-- The job of a PICC frame: what its meaning runs. No other instruction is more than one bus
transaction, and a second-phase frame out of position has none. -/
def jobOf (w : Option Awaiting) : Instr → Option Job
  | .requestIdle => some (.task (.request .idle))
  | .requestAll => some (.task (.request .all))
  | .anticollision => some (.task .anticollision)
  | .select uid _ _ => some (.task (.select uid))
  | .authA b key uid => some (.task (.authenticate .keyA b key uid))
  | .authB b key uid => some (.task (.authenticate .keyB b key uid))
  | .read b _ _ => some (.task (.read b))
  | .write b _ _ => some (.writeCommand b)
  | .decrement b _ _ => some (.decrementCommand b)
  | .increment b _ _ => some (.incrementCommand b)
  | .transfer b _ _ => some (.task (.transfer b))
  | .writeData data _ _ =>
    match w with
    | some (.writeData b) => some (.writeData b data)
    | _ => none
  | .valueOperand v _ _ =>
    match w with
    | some (.incrementOperand b) => some (.incrementOperand b v)
    | some (.decrementOperand b) => some (.decrementOperand b v)
    | _ => none
  | .writeReg _ _ => none
  | .readReg _ => none
  | .pcdIdle => none
  | .pcdCalcCrc => none
  | .pcdTransmit => none
  | .pcdReceive => none
  | .pcdTransceive => none
  | .pcdMfAuthent => none
  | .pcdSoftReset => none

end Sys2Proof.Machine
end

