-- ==== Sys2Proof/Machine/Dispatch.lean ====
section
/-! DEFINITION. One arm per instruction. -/

namespace Sys2Proof.Machine

/-- What an instruction does. -/
def exec (i : Instr) (s : State) : Host.Outcome State Fault Refusal :=
  match i with
  -- bus transactions
  | .writeReg a d => Sys2Proof.Machine.execWriteReg a d s
  | .readReg a => Sys2Proof.Machine.execReadReg a s
  -- PCD commands
  | .pcdIdle => Sys2Proof.Machine.execPcdIdle s
  | .pcdCalcCrc => Sys2Proof.Machine.execPcdCalcCrc s
  | .pcdTransmit => Sys2Proof.Machine.execPcdTransmit s
  | .pcdReceive => Sys2Proof.Machine.execPcdReceive s
  | .pcdTransceive => Sys2Proof.Machine.execPcdTransceive s
  | .pcdMfAuthent => Sys2Proof.Machine.execPcdMfAuthent s
  | .pcdSoftReset => Sys2Proof.Machine.execPcdSoftReset s
  -- PICC frames
  | .requestIdle => Sys2Proof.Machine.execRequestIdle s
  | .requestAll => Sys2Proof.Machine.execRequestAll s
  | .anticollision => Sys2Proof.Machine.execAnticollision s
  | .select uid _ _ => Sys2Proof.Machine.execSelect uid s
  | .authA b key uid => Sys2Proof.Machine.execAuthA b key uid s
  | .authB b key uid => Sys2Proof.Machine.execAuthB b key uid s
  | .read b _ _ => Sys2Proof.Machine.execRead b s
  | .write b _ _ => Sys2Proof.Machine.execWrite b s
  | .decrement b _ _ => Sys2Proof.Machine.execDecrement b s
  | .increment b _ _ => Sys2Proof.Machine.execIncrement b s
  | .transfer b _ _ => Sys2Proof.Machine.execTransfer b s
  | .writeData data _ _ => Sys2Proof.Machine.execWriteData data s
  | .valueOperand v _ _ => Sys2Proof.Machine.execValueOperand v s

end Sys2Proof.Machine
end

