-- ==== Sys2Proof/Machine/Fetch.lean ====
section
/-! DEFINITION. What a step works on: the next input of the caller, a job's start, and one bus
transaction of the job in progress (00_scope.md rule R9, 10_state.md rule R31). -/

namespace Sys2Proof.Machine

/-- Set the job in progress. -/
def State.setRunning (r : Option Running) (s : State) : State :=
  { s with ctl := { s.ctl with running := r } }

/-- One bus transaction of a job, and the job's end if it was the last: the controller "issues one bus
transaction per step" (00_scope.md rule R9). A job without transactions ends at once. -/
def tickJob (r : Running) (s : State) : State :=
  let p := jobProg s.cfg r.job
  match (p.resume r.moved).tick s with
  | (none, t) => t.setRunning none
  | (some v, t) =>
    match (p.resume (r.moved ++ [v])).finish t with
    | some u => u.setRunning none
    | none => t.setRunning (some ⟨r.job, r.moved ++ [v]⟩)

/-- Start a job, with its first transaction; after close it faults and nothing starts
(70_reset_and_hazards.md rule R378). -/
def startJob (j : Job) : State → State :=
  whenOpen fun s => tickJob ⟨j, []⟩ (s.setAwaiting none)

/-- What a word that decodes to no instruction does. A bus frame with bit 0 set: "The device model
faults BadFrame on it" (30_encoding.md rule R131). A command byte outside the closed set: the
CommandReg write that faults UnmodelledCommand (30_encoding.md rule R140). A byte list that is no frame
is not admitted (R144). -/
def rejected (why : Reject) (s : State) : Host.Outcome State Fault Refusal :=
  match why with
  | .badFrame b0 => .next (s.addFault (.badFrame b0))
  | .noCommand c => .next (whenOpen (regWrite .command c) s)
  | .noFrame bytes => .refused (.noSuchFrame bytes)

/-- Which two-phase operation an instruction recognised by position is the second frame of, on block
0; the operation as it stands for any other instruction. -/
def positionFor (w : Option Awaiting) : Option Instr → Option Awaiting
  | some (.writeData _ _ _) => some (.writeData 0)
  | some (.valueOperand _ _ _) => some (.incrementOperand 0)
  | _ => w

/-- The word placed as the caller's next input, with no job in progress. -/
def placeWord (nbits w : Nat) (s : State) : State :=
  { s with
    inbox := .word (encodedOfWord nbits w) :: s.inbox
    ctl := { s.ctl with
      running := none
      awaiting := positionFor s.ctl.awaiting (decodeTableWord nbits w) } }

end Sys2Proof.Machine
end

