-- ==== Sys2Proof/Machine/Step.lean ====
section
/-! DEFINITION. One step: a transaction of the job in progress, or the caller's next input with its
first transaction. -/

namespace Sys2Proof.Machine

/-- An encoded word taken as the next input. A PICC frame's job starts; any other instruction is one
bus transaction or a refusal, and runs whole. -/
def runWord (e : Encoded) (s : State) : Host.Outcome State Fault Refusal :=
  match decode e with
  | .instr i =>
    match jobOf s.ctl.awaiting i with
    | some j => .next (startJob j s)
    | none => exec i s
  | .reject why => rejected why s

/-- One step. A job in progress goes on by one bus transaction; otherwise the next input starts; with
no input the machine waits. -/
def step (s : State) : Host.Outcome State Fault Refusal :=
  match s.ctl.running with
  | some r => .next (tickJob r s)
  | none =>
    match s.inbox with
    | [] => .next s
    | .word e :: rest => runWord e { s with inbox := rest }
    | .call t :: rest => .next (startJob (.task t) { s with inbox := rest })

/-- The state with an opcode-table word placed where `step` takes its next instruction. -/
def State.withFetchWord (s : State) (nbits w : Nat) : State := placeWord nbits w s

end Sys2Proof.Machine
end

