-- ==== Sys2Proof/Machine/Session.lean ====
section
/-! DEFINITION. The session state machine (44_picc_operations.md rule R310): the caller-level protocol
of one card session, as a function of the task calls and their results. "It is not BFM state." -/

namespace Sys2Proof.Machine

/-- The states of a card session (R310). -/
inductive Session where
  | idle
  | requested
  | anticollided (uid : List Byte)
  | selected
  | authenticated (sector : Nat)
deriving DecidableEq, Repr

/-- A result that is no success: a status of NO_TAG, ERROR or TIMEOUT, or SELECT's size 0, as "the spec
reads 'size ≠ 0' as OK" (R310). -/
def Result.failed : Result → Bool
  | .txrx st _ _ => st != .ok
  | .statusBits st _ => st != .ok
  | .statusUid st _ => st != .ok
  | .size sak => sak == 0
  | .status st => st != .ok
  | .noData st => st != .ok
  | .unit => false
  | .crc _ _ => false
  | .data _ => false
  | .blocks _ => false
  | .bytes _ => false
  | .bool _ => false
  | .int _ => false
  | .text _ => false

/-- The session after a task call that returned a result (R310): the rows of its table, and "any
NO_TAG/ERROR/TIMEOUT at Requested or Anticollided returns the caller to Idle", of whichever call. A
call that neither covers leaves the session where it is (notes/assumptions/23.md). -/
def Session.after : Session → Task → Result → Session
  | .idle, .request _, .statusBits st _ => if st = .ok then .requested else .idle
  | .requested, .anticollision, .statusUid st uid => if st = .ok then .anticollided uid else .idle
  | .requested, _, r => if r.failed then .idle else .requested
  | .anticollided uid, .select u, .size sak =>
    if sak = 0 then .idle else if u = uid then .selected else .anticollided uid
  | .anticollided uid, _, r => if r.failed then .idle else .anticollided uid
  | .selected, .authenticate _ b _ _, .status st =>
    if st = .ok then .authenticated (b.toNat / 4) else .selected
  | .authenticated s, .authenticate _ b _ _, .status st =>
    if st = .ok then .authenticated (b.toNat / 4) else .authenticated s
  | .authenticated _, .stopCrypto, .unit => .idle
  | s, _, _ => s

/-- The session after a sequence of calls with their results (R310). -/
def Session.run : Session → List (Task × Result) → Session
  | s, [] => s
  | s, (t, r) :: calls => (s.after t r).run calls

end Sys2Proof.Machine
end

