-- ==== Sys2Proof/Safety.lean ====
section
/-! DEFINITION. What holds of every state of a run, and what a run inside the modelled behaviour is. -/

/-- The parameters a model must take: `FIFO_DEPTH ≥ 18` (00_scope.md rule R10), and reset values of
addresses in the register address space. -/
def Sys2Proof.Config.wf (cfg : Sys2Proof.Config) : Bool :=
  decide (18 ≤ cfg.fifoDepth) && Sys2Proof.Machine.Memory.wf cfg.resetCells &&
    Sys2Proof.Machine.Memory.below cfg.map.limit cfg.resetCells

/-- The masks rule R10 of 00_scope.md gives: ERROR_MASK, the enable and wait masks, NOTAG_BIT. -/
structure Sys2Proof.Config.SourceMasks (cfg : Sys2Proof.Config) : Prop where
  error : cfg.errorMask = 0x07
  authEnable : cfg.authEnable = 0x11
  authWait : cfg.authWait = 0x11
  transceiveEnable : cfg.transceiveEnable = 0x31
  transceiveWait : cfg.transceiveWait = 0x31
  otherEnable : cfg.otherEnable = 0x00
  otherWait : cfg.otherWait = 0x00
  noTag : cfg.noTagBit = 0x01

namespace Sys2Proof.Machine

/-! ### Invariants -/

/-- An outcome its command may be waiting for, by command (41_device_commands.md rule R198). -/
def awaitsOutcome : Active → LinkOutcome → Bool
  | .transmit, .txDone => true
  | .transceive, .resp _ _ _ => true
  | .transceive, .noResp => true
  | .receive, .resp _ _ _ => true
  | .receive, .noResp => true
  | .mfAuthent, .authOk => true
  | .mfAuthent, .authErr _ => true
  | .mfAuthent, .noResp => true
  | _, _ => false

/-- The commands that start a round (10_state.md rule R70). -/
def startsRounds : Active → Bool
  | .transmit => true
  | .receive => true
  | .transceive => true
  | .mfAuthent => true
  | _ => false

/-- A pending outcome between transactions: its command is active and admits it, it was not created
in this transaction, and it has not applied (40_bus.md rule R166; R71). -/
def pendingInv (a : Active) : Option Pending → Bool
  | none => true
  | some ⟨.never, fresh⟩ => startsRounds a && !fresh
  | some ⟨.after c o, fresh⟩ => awaitsOutcome a o && decide (0 < c) && !fresh

/-- Pending CRC processing between transactions: "CRC processing only while CalcCRC is active"
(R166). -/
def crcPendingInv (a : Active) : Option CrcPending → Bool
  | none => true
  | some ⟨c, fresh⟩ => a == .calcCrc && decide (0 < c) && !fresh

/-- `tx_armed` by the active command and whether an outcome is pending: true exactly with no round in
flight while Transceive is active (R66), either way while Idle, which a RESP that ends Receive leaves
armed (41_device_commands.md rule R197; notes/assumptions/27.md), false under every other command. -/
def armedInv (armed waiting : Bool) : Active → Bool
  | .transceive => armed == !waiting
  | .idle => true
  | _ => !armed

/-- The device between transactions: memory in canonical form, listing addresses of the register
address space alone, the FIFO within its depth (R64), and `tx_armed` and the pending items as
`armedInv`, `pendingInv` and `crcPendingInv` say. -/
structure Device.Inv (cfg : Config) (d : Device) : Prop where
  mem : d.mem.wf = true
  below : d.mem.below cfg.map.limit = true
  fifo : d.fifo.length ≤ cfg.fifoDepth
  armed : armedInv d.txArmed d.pending.isSome d.active = true
  pending : pendingInv d.active d.pending = true
  crcPending : crcPendingInv d.active d.crcPending = true

/-- The invariant of the BFM between steps: besides the device's, "While `rst = low` the device is
held in reset" (70_reset_and_hazards.md rule R370), and the fault set holds no reason twice. -/
structure State.Inv (s : State) : Prop where
  cfg : s.cfg.wf = true
  dev : s.dev.Inv s.cfg
  held : s.rst = .low → s.dev = Device.reset s.cfg
  faults : s.faults.Nodup

/-! ### Where an operation runs as intended -/

/-- The bus reaches the device, and no item is pending that could apply at the end of a transaction
(40_bus.md rule R166). -/
structure State.Quiet (s : State) : Prop where
  high : s.rst = .high
  pending : s.dev.pending = none
  crcPending : s.dev.crcPending = none

/-- A state in which the controller may start a protocol operation as the session protocol intends:
open, out of reset, nothing pending and CalcCRC not active (so neither a late outcome nor a re-entered
compute_crc disturbs it: 70_reset_and_hazards.md rules R382, R383), the CRC_A preset, the timer and the
antenna as init leaves them (70_reset_and_hazards.md rules R374, R375), and the parameters of R10, with
any latency the poll budget covers (42_crc.md rule R246). -/
structure State.Ready (s : State) : Prop where
  isOpen : s.ctl.closed = false
  quiet : s.Quiet
  notCrc : s.dev.active ≠ .calcCrc
  preset : crcPreset ((s.x .mode).setWidth 2) = 0x6363
  lsbFirst : (s.x .mode).getLsbD 7 = false
  timer : tAuto s = true
  field : fieldOn s = true
  masks : s.cfg.SourceMasks
  latency : s.cfg.crcLatency ≤ 254
  depth : 18 ≤ s.cfg.fifoDepth ∧ s.cfg.fifoDepth < 128

/-- REG_ADDR(reg) under the parameters of a state (00_scope.md rule R15). -/
abbrev State.addr (s : State) (r : Reg) : Nat := s.cfg.map.addr r

/-- A second-phase frame that no acknowledged first phase waits for (44_picc_operations.md rules R299
to R301). -/
def State.OutOfPosition (s : State) (i : Instr) : Prop :=
  (∃ data cl ch, i = .writeData data cl ch ∧ ∀ b, s.ctl.awaiting ≠ some (.writeData b)) ∨
  ∃ v cl ch, i = .valueOperand v cl ch ∧
    ∀ b, s.ctl.awaiting ≠ some (.incrementOperand b) ∧ s.ctl.awaiting ≠ some (.decrementOperand b)

/-- `t` is reached in `n` steps, a job being in progress between any two of them. -/
def StepsTo (n : Nat) (s t : State) : Prop :=
  Host.Core.run core n s = .next t ∧
    ∀ k, 0 < k → k < n → ∃ u, Host.Core.run core k s = .next u ∧ u.ctl.running ≠ none

/-! ### What an observer sees -/

/-- The number of bus transactions among events (70_reset_and_hazards.md rule R388). -/
def transactions (es : List Event) : Nat :=
  es.countP fun e => match e with | .bus _ _ _ => true | _ => false

/-- The frames transmitted among events, each with its TxLastBits (10_state.md rule R33). -/
def txFrames (es : List Event) : List (List Byte × BitVec 3) :=
  es.filterMap fun e => match e with | .tx bytes lb => some (bytes, lb) | _ => none

/-- What an operation records on its own among events: its log records and the ends of tasks, those of
the compute_crc and transceive it calls left out (60_exceptions.md rule R345, 10_state.md rule R33). -/
def ownEvents (es : List Event) : List Event :=
  es.filter fun e =>
    match e with
    | .log _ => true
    | .ret .computeCrc _ => false
    | .ret .transceive _ => false
    | .ret _ _ => true
    | .raised _ _ => true
    | _ => false

/-- What the oracle answers to the next round, before the limits of rule R198: as scripted, or free. -/
def State.answerTo (s : State) (a : Active) (frame : List Byte) (lastBits : BitVec 3) : Answer :=
  match s.oracle.rounds with
  | r :: _ => r
  | [] => Config.freeAnswer s.oracle.made a frame lastBits

/-- The draw that follows the next round's answer. -/
def State.drawAfterAnswer (s : State) : Byte :=
  match s.oracle.draws with
  | b :: _ => b
  | [] => Config.freeByte (s.oracle.made + 1)

/-- `errs ∩ {Protocol, Parity, CRC} ≠ ∅` (43_transceive.md rule R272). -/
def Errs.masked (e : Errs) : Bool := e.protocol || e.parity || e.crc

/-- The named registers that are not storage: all but those of 41_device_commands.md rule R213. -/
def actingRegs : List Reg :=
  [.command, .comIrq, .divIrq, .error, .status1, .status2, .fifoData, .fifoLevel, .control,
    .bitFraming, .crcResultM, .crcResultL, .tCounterH, .tCounterL]

/-- A plain storage register or a named one of 41_device_commands.md rule R213. -/
def isStorage (m : AddressMap) (a : Nat) : Bool :=
  decide (a < m.limit) && !(actingRegs.map m.addr).contains a

/-- The fault set gains `f` and loses nothing (60_exceptions.md rule R347: "sticky"); nothing else
enters it. -/
structure FaultAdded (s t : State) (f : Fault) : Prop where
  gained : f ∈ t.faults
  kept : ∀ g ∈ s.faults, g ∈ t.faults
  only : ∀ g ∈ t.faults, g = f ∨ g ∈ s.faults

/-- The byte lists of the frame table (30_encoding.md rule R142), by their lengths and first bytes. -/
def FrameOfTable (bytes : List Byte) : Prop :=
  bytes = [0x26] ∨ bytes = [0x52] ∨ bytes = [0x93, 0x20] ∨
  (bytes.length = 9 ∧ bytes.take 2 = [0x93, 0x70]) ∨
  (bytes.length = 12 ∧ bytes.take 1 ∈ [[0x60], [0x61]]) ∨
  (bytes.length = 4 ∧ bytes.take 1 ∈ [[0x30], [0xA0], [0xC0], [0xC1], [0xB0]]) ∨
  bytes.length = 18 ∨ bytes.length = 6

/-! ### What one transaction leaves, before `EndOfTransaction` -/

/-- `t` is `s` with one event appended, and no stored register changed outside `rs`. -/
structure Touched (s t : State) (e : Event) (rs : List Nat) : Prop where
  frame : t = { s with trace := s.trace ++ [e], dev := { s.dev with mem := t.dev.mem } }
  others : ∀ r, r ∉ rs → t.dev.mem.read r = s.dev.mem.read r

/-- The common steps of a CommandReg write of `code` (41_device_commands.md rule R183): whatever was
pending is dropped, `tx_armed` is false and CommandReg bits 5:4 are 0. -/
structure Terminated (s t : State) (code : Byte) : Prop where
  frame : t = { s with
    trace := s.trace ++ [.bus .w (s.cfg.map.addr .command) code]
    dev := { s.dev with
      mem := t.dev.mem, pending := none, crcPending := none, txArmed := false } }
  command : t.x .command = s.x .command &&& 0xCF
  others : ∀ r, r ≠ s.cfg.map.addr .command → t.dev.mem.read r = s.dev.mem.read r

/-- ErrorReg bits 3:0 are cleared and the oracle is asked for a round of `a` over `frame`
(41_device_commands.md rules R187, R192): the trace gains `es`, the FIFO becomes `fifo`. -/
structure OracleAsked (s t : State) (a : Active) (frame : List Byte) (es : List Event)
    (fifo : List Byte) : Prop where
  frame : t = { s with
    trace := s.trace ++ es
    dev := { s.dev with
      mem := t.dev.mem
      fifo := fifo
      pending := some
        ⟨limitAnswer a frame s (s.answerTo a frame ((s.x .bitFraming).setWidth 3)), true⟩ }
    oracle := { s.oracle with rounds := s.oracle.rounds.tail, made := s.oracle.made + 1 } }
  error : t.x .error = s.x .error &&& 0xF0
  others : ∀ r, r ≠ s.cfg.map.addr .error → t.dev.mem.read r = s.dev.mem.read r

/-- A round of `a` starts (41_device_commands.md rule R192): the FIFO is transmitted whole. -/
def RoundStarted (s t : State) (a : Active) : Prop :=
  OracleAsked s t a s.dev.fifo [.tx s.dev.fifo ((s.x .bitFraming).setWidth 3)] []

/-! ### One exchange with the card -/

/-- The outcomes Transceive and MFAuthent admit when the field is on, the receiver is on, TAuto = 1 and
an authentication frame has its 12 bytes (41_device_commands.md rule R198). -/
def admitted : Active → LinkOutcome → Bool
  | .transceive, .resp bytes _ _ => !bytes.isEmpty
  | .transceive, .noResp => true
  | .mfAuthent, .authOk => true
  | .mfAuthent, .authErr errs => errs != Errs.none
  | .mfAuthent, .noResp => true
  | _, _ => false

/-- The outcome that arrives within the poll budget, if one does: an admitted outcome with `d ≤ 1999`
(43_transceive.md rule R273). -/
def arrives (a : Active) : Answer → Option LinkOutcome
  | .never => none
  | .after d o => if admitted a o && decide (d ≤ 1999) then some o else none

/-- What `transceive(TRANSCEIVE, …)` returns by the outcome that arrives (43_transceive.md rules R270,
R272): `depth` is FIFO_DEPTH, `stale` the RxLastBits of the last response, `drawn` the byte read from
an empty FIFO. -/
def txrxOf (depth : Nat) (stale : BitVec 3) (drawn : Byte) : Option LinkOutcome → TxRx
  | some (.resp bytes lb errs) =>
    if errs.masked then ⟨.error, [], 0⟩
    else
      let n : Int := (min bytes.length depth : Nat)
      ⟨.ok, bytes.take 16, if lb = 0 then n * 8 else (n - 1) * 8 + lb.toNat⟩
  | some .noResp => ⟨.noTag, [drawn], if stale = 0 then 0 else (stale.toNat : Int) - 8⟩
  | _ => ⟨.timeout, [], 0⟩

/-- The status `transceive(AUTHENTICATE, …)` returns by the outcome that arrives (R272). -/
def authStatusOf : Option LinkOutcome → Status
  | some .authOk => .ok
  | some (.authErr errs) => if errs.masked then .error else .ok
  | some .noResp => .noTag
  | _ => .timeout

/-- What the TRANSCEIVE round of `frame` yields from a state: the frame is sent with `lastBits`. -/
def State.exchange (s : State) (frame : List Byte) (lastBits : BitVec 3) : TxRx :=
  txrxOf s.cfg.fifoDepth ((s.x .control).setWidth 3) s.drawAfterAnswer
    (arrives .transceive (s.answerTo .transceive frame lastBits))

/-- What the AUTHENTICATE round of `frame` yields from a state. -/
def State.authExchange (s : State) (frame : List Byte) (lastBits : BitVec 3) : Status :=
  authStatusOf (arrives .mfAuthent (s.answerTo .mfAuthent frame lastBits))

/-- The ErrIRq bit of an outcome: any error, or an overflow (41_device_commands.md rule R193). -/
def errIrqOf (depth : Nat) : LinkOutcome → Byte
  | .resp bytes _ errs => if errs != Errs.none || decide (depth < bytes.length) then errIrq else 0x00
  | .authErr _ => errIrq
  | _ => 0x00

/-- The request bits an outcome sets (41_device_commands.md rules R193 to R197). -/
def irqOf (a : Active) (depth : Nat) (o : LinkOutcome) : Byte :=
  (match a, o with
    | .transceive, .resp _ _ _ => txIrq ||| rxIrq
    | .transceive, .noResp => txIrq ||| timerIrq
    | .mfAuthent, .noResp => timerIrq
    | .mfAuthent, .authOk => idleIrq
    | .mfAuthent, .authErr _ => idleIrq
    | _, _ => 0x00) ||| errIrqOf depth o

/-- The error bits an outcome sets, BufferOvfl included (41_device_commands.md rules R193, R195,
R200). -/
def errorOf (depth : Nat) : LinkOutcome → Byte
  | .resp bytes _ errs => errs.bits ||| (if depth < bytes.length then bufferOvfl else 0x00)
  | .authErr errs => errs.bits
  | _ => 0x00

/-- The bytes of an outcome that an empty FIFO takes (41_device_commands.md rules R193, R200). -/
def receivedBytes (depth : Nat) : LinkOutcome → List Byte
  | .resp bytes _ _ => bytes.take depth
  | _ => []

/-- The bytes an outcome leaves in the FIFO behind the drain (43_transceive.md rules R269, R270). -/
def leftInFifo (depth : Nat) : LinkOutcome → List Byte
  | .resp bytes _ errs =>
    let received := bytes.take depth
    if errs.masked then received else received.drop 16
  | _ => []

/-- The command active after an outcome (41_device_commands.md rules R193 to R195). -/
def activeAfter (a : Active) : LinkOutcome → Active
  | .authOk => .idle
  | .authErr _ => .idle
  | _ => a

/-- RxLastBits after an outcome (41_device_commands.md rule R210). -/
def controlAfter (old : Byte) : LinkOutcome → Byte
  | .resp _ lb _ => controlWithLastBits old lb
  | _ => old

/-- The registers an exchange writes: CommandReg, ComIEnReg, ComIrqReg, DivIrqReg, ErrorReg,
Status1Reg, Status2Reg, ControlReg and BitFramingReg. -/
def exchangeRegs (m : AddressMap) : List Nat :=
  [Reg.command, .comIEn, .comIrq, .divIrq, .error, .status1, .status2, .control, .bitFraming].map m.addr

/-- The state an operation of one exchange leaves when the outcome `o` arrives: command `a` with
enable mask `en`, BitFramingReg `framing` before the round, and `crcOver` the bytes whose CRC_A
compute_crc computed before it, if it did. Every other register, and everything else outside the
trace, is as it was. -/
structure Exchanged (s t : State) (a : Active) (en framing : Byte) (crcOver : Option (List Byte))
    (o : LinkOutcome) : Prop where
  cfg : t.cfg = s.cfg
  rst : t.rst = s.rst
  faults : t.faults = s.faults
  inbox : t.inbox = s.inbox
  running : t.ctl.running = s.ctl.running
  closed : t.ctl.closed = s.ctl.closed
  exhausted : t.ctl.crcPollExhausted = s.ctl.crcPollExhausted
  others : ∀ r, r ∉ exchangeRegs s.cfg.map → t.dev.mem.read r = s.dev.mem.read r
  command : t.x .command = s.x .command &&& 0xCF
  comIEn : t.x .comIEn = 0x80 ||| en
  comIrq : t.x .comIrq = (s.x .comIrq &&& 0x80) ||| irqOf a s.cfg.fifoDepth o
  divIrq : t.x .divIrq = if crcOver.isSome then s.x .divIrq ||| crcIrq else s.x .divIrq
  error : t.x .error = (s.x .error &&& 0xE0) ||| errorOf s.cfg.fifoDepth o
  status1 : t.x .status1 = if crcOver.isSome then s.x .status1 ||| crcReady else s.x .status1
  status2 : t.x .status2 = if o = .authOk then s.x .status2 ||| mfCrypto1On else s.x .status2
  control : t.x .control = controlAfter (s.x .control) o
  bitFraming : t.x .bitFraming = framing &&& 0x7F
  fifo : t.dev.fifo = leftInFifo s.cfg.fifoDepth o
  active : t.dev.active = activeAfter a o
  txArmed : t.dev.txArmed = (a == .transceive)
  crcAcc : t.dev.crcAcc = (crcOver.map crcA).getD s.dev.crcAcc
  crcResult : t.dev.crcResult = (crcOver.map crcA).getD s.dev.crcResult
  crcPending : t.dev.crcPending = none
  pending : t.dev.pending = none
  rounds : t.oracle.rounds = s.oracle.rounds.tail
  draws : t.oracle.draws =
    if a = .transceive ∧ o = .noResp then s.oracle.draws.tail else s.oracle.draws
  made : t.oracle.made = s.oracle.made + (if a = .transceive ∧ o = .noResp then 2 else 1)

/-- How many transactions the drain of step 7 takes (43_transceive.md rules R269, R274). -/
def drainCost (depth : Nat) : LinkOutcome → Nat
  | .resp bytes _ errs => if errs.masked then 0 else 2 + min (min bytes.length depth) 16
  | .noResp => 3
  | _ => 0

/-- The outcome that applies after the budget is spent but before the task ends: at the end of the last
poll read or of one of the two transactions of step 4 (43_transceive.md rules R265, R273). -/
def lateOutcome (a : Active) : Answer → Option LinkOutcome
  | .never => none
  | .after d o => if admitted a o && decide (2000 ≤ d ∧ d ≤ 2002) then some o else none

/-- What is still pending when the task ends in TIMEOUT, 2002 transactions after the round's start:
"The device is left as it is, possibly with an outcome still pending" (43_transceive.md rule R266). -/
def stillPending (a : Active) : Answer → Option Pending
  | .never => some ⟨.never, false⟩
  | .after d o =>
    if admitted a o then (if d ≤ 2002 then none else some ⟨.after (d - 2002) o, false⟩)
    else some ⟨.never, false⟩

/-- What an operation leaves whose round was not answered within the budget, by the oracle's answer
(43_transceive.md rule R266, 70_reset_and_hazards.md rule R382). Fields as `Exchanged`: what an outcome
writes is written by a late one, or as the round's start left it. -/
structure TimedOut (s t : State) (a : Active) (en framing : Byte)
    (crcOver : Option (List Byte)) (ans : Answer) : Prop where
  cfg : t.cfg = s.cfg
  rst : t.rst = s.rst
  faults : t.faults = s.faults
  inbox : t.inbox = s.inbox
  running : t.ctl.running = s.ctl.running
  closed : t.ctl.closed = s.ctl.closed
  exhausted : t.ctl.crcPollExhausted = s.ctl.crcPollExhausted
  others : ∀ r, r ∉ exchangeRegs s.cfg.map → t.dev.mem.read r = s.dev.mem.read r
  command : t.x .command = s.x .command &&& 0xCF
  comIEn : t.x .comIEn = 0x80 ||| en
  comIrq : t.x .comIrq = (s.x .comIrq &&& 0x80) |||
    ((lateOutcome a ans).map (irqOf a s.cfg.fifoDepth)).getD 0x00
  divIrq : t.x .divIrq = if crcOver.isSome then s.x .divIrq ||| crcIrq else s.x .divIrq
  error : t.x .error = (s.x .error &&& 0xE0) |||
    ((lateOutcome a ans).map (errorOf s.cfg.fifoDepth)).getD 0x00
  status1 : t.x .status1 = if crcOver.isSome then s.x .status1 ||| crcReady else s.x .status1
  status2 : t.x .status2 =
    if lateOutcome a ans = some .authOk then s.x .status2 ||| mfCrypto1On else s.x .status2
  control : t.x .control = ((lateOutcome a ans).map (controlAfter (s.x .control))).getD (s.x .control)
  bitFraming : t.x .bitFraming = framing &&& 0x7F
  fifo : t.dev.fifo = ((lateOutcome a ans).map (receivedBytes s.cfg.fifoDepth)).getD []
  active : t.dev.active = ((lateOutcome a ans).map (activeAfter a)).getD a
  txArmed : t.dev.txArmed = (a == .transceive && (lateOutcome a ans).isSome)
  crcAcc : t.dev.crcAcc = (crcOver.map crcA).getD s.dev.crcAcc
  crcResult : t.dev.crcResult = (crcOver.map crcA).getD s.dev.crcResult
  crcPending : t.dev.crcPending = none
  pending : t.dev.pending = stillPending a ans
  rounds : t.oracle.rounds = s.oracle.rounds.tail
  draws : t.oracle.draws = s.oracle.draws
  made : t.oracle.made = s.oracle.made + 1

/-- What the one exchange of an operation leaves, by the oracle's answer. -/
def Leaves (s t : State) (a : Active) (en framing : Byte) (crcOver : Option (List Byte))
    (ans : Answer) : Prop :=
  match arrives a ans with
  | some o => Exchanged s t a en framing crcOver o
  | none => TimedOut s t a en framing crcOver ans

/-- The exchange an operation makes: the command, its enable mask, BitFramingReg before the round, the
bytes whose CRC_A compute_crc computes for it, if it does, and the frame. -/
structure Exchange where
  command : Active
  enable : Byte
  framing : Byte
  crcOver : Option (List Byte)
  frame : List Byte

/-- A TRANSCEIVE of a frame without a CRC. -/
def Exchange.plain (framing : Byte) (frame : List Byte) : Exchange :=
  ⟨.transceive, 0x31, framing, none, frame⟩

/-- A TRANSCEIVE of a body with its CRC suffix (42_crc.md rule R239). -/
def Exchange.withCrc (framing : Byte) (body : List Byte) : Exchange :=
  ⟨.transceive, 0x31, framing, some body, body ++ crcSuffix body⟩

/-- An AUTHENTICATE of a frame. -/
def Exchange.auth (framing : Byte) (frame : List Byte) : Exchange :=
  ⟨.mfAuthent, 0x11, framing, none, frame⟩

/-- TxLastBits of an exchange's frame (30_encoding.md rule R141). -/
def Exchange.lastBits (e : Exchange) : BitVec 3 := e.framing.setWidth 3

/-- The oracle's answer to the round of an exchange. -/
def State.answer (s : State) (e : Exchange) : Answer := s.answerTo e.command e.frame e.lastBits

/-- The outcome of an exchange that arrives within the poll budget, if one does. -/
def State.outcomeOf (s : State) (e : Exchange) : Option LinkOutcome := arrives e.command (s.answer e)

/-- What `transceive` returns for an exchange. -/
def State.reply (s : State) (e : Exchange) : TxRx :=
  match e.command with
  | .mfAuthent => ⟨s.authExchange e.frame e.lastBits, [], 0⟩
  | _ => s.exchange e.frame e.lastBits

/-- `t` is what an operation that makes the exchange `e` leaves of `s`; it sends that one frame, and
records `own` itself. -/
structure Made (e : Exchange) (s t : State) (own : List Event) : Prop where
  leaves : Leaves s t e.command e.enable e.framing e.crcOver (s.answer e)
  trace : ∃ es, t.trace = s.trace ++ es ∧ txFrames es = [(e.frame, e.lastBits)] ∧
    ownEvents es = own

/-- The exchange a PICC frame instruction makes from a state (44_picc_operations.md rules R291 to
R302); none for any other instruction, and none for a second-phase frame out of position. -/
def State.exchangeOf (s : State) : Instr → Option Exchange
  | .requestIdle => some (.plain 0x07 [0x26])
  | .requestAll => some (.plain 0x07 [0x52])
  | .anticollision => some (.plain 0x00 [0x93, 0x20])
  | .select uid _ _ => some (.withCrc (s.x .bitFraming) ([0x93, 0x70] ++ uid))
  | .authA b key uid => some (.auth (s.x .bitFraming) ([0x60, b] ++ key ++ uid))
  | .authB b key uid => some (.auth (s.x .bitFraming) ([0x61, b] ++ key ++ uid))
  | .read b _ _ => some (.withCrc (s.x .bitFraming) [0x30, b])
  | .write b _ _ => some (.withCrc (s.x .bitFraming) [0xA0, b])
  | .decrement b _ _ => some (.withCrc (s.x .bitFraming) [0xC0, b])
  | .increment b _ _ => some (.withCrc (s.x .bitFraming) [0xC1, b])
  | .transfer b _ _ => some (.withCrc (s.x .bitFraming) [0xB0, b])
  | .writeData data _ _ =>
    match s.ctl.awaiting with
    | some (.writeData _) => some (.withCrc (s.x .bitFraming) data)
    | _ => none
  | .valueOperand v _ _ =>
    match s.ctl.awaiting with
    | some (.incrementOperand _) => some (.withCrc (s.x .bitFraming) (le32 v))
    | some (.decrementOperand _) => some (.withCrc (s.x .bitFraming) (le32 v))
    | _ => none
  | .writeReg _ _ => none
  | .readReg _ => none
  | .pcdIdle => none
  | .pcdCalcCrc => none
  | .pcdTransmit => none
  | .pcdReceive => none
  | .pcdTransceive => none
  | .pcdMfAuthent => none
  | .pcdSoftReset => none

/-! ### DUMP, in terms of the tasks it calls -/

/-- The result the last event of the trace records. -/
def State.lastResult (s : State) : Option Result :=
  match s.trace.getLast? with
  | some (.ret _ r) => some r
  | _ => none

/-- What DUMP does for block `n` (44_picc_operations.md rule R322), as tasks run one after the other:
authenticate with key A, with key B if that failed, then read, or the log of the skipped block. The
block and its bytes, where they were read. -/
def dumpBlock (uid : List Byte) (keys : KeyPair) (n : Nat) (s : State) :
    State × List (Byte × List Byte) :=
  let b : Byte := BitVec.ofNat 8 n
  let first := runTask (.authenticate .keyA b keys.keyA uid) s
  let t := if first.lastResult = some (.status .ok) then first
    else runTask (.authenticate .keyB b keys.keyB uid) first
  if t.lastResult = some (.status .ok) then
    let u := runTask (.read b) t
    match u.lastResult with
    | some (.data d) => (u, [(b, d)])
    | _ => (u, [])
  else (t.emit (.log (.cannotAuthenticateBlock b)), [])

/-- DUMP over a list of blocks, in order; `get_key` is called with `block // 4` (R320). -/
def dumpTasks (uid : List Byte) (getKey : Vector KeyPair 16) :
    List Nat → State → State × List (Byte × List Byte)
  | [], s => (s, [])
  | n :: ns, s =>
    let r := dumpBlock uid (getKey.toList.getD (n / 4) ⟨[], []⟩) n s
    let u := dumpTasks uid getKey ns r.1
    (u.1, r.2 ++ u.2)

/-- A run inside the modelled behaviour: no fault has entered the sticky set (60_exceptions.md rule
R347). -/
def State.safe (s : State) : Prop := s.faults = []

end Sys2Proof.Machine
end

