-- ==== Sys2Proof/Certificates/Slice0/Obligations.lean ====
section
/-! DEFINITION. The statements about the model. A statement about a bus transaction gives the state
before `EndOfTransaction` and says that the instruction answers its end: what that end does is
`Obligations.EndOfTransactionRule`, and on a device with nothing pending it does nothing. Registers
are named through REG_ADDR, so a statement holds for every address map (00_scope.md rule R10). -/

open Sys2Proof Sys2Proof.Machine

/-! ### Encodings -/

/-- 30_encoding.md rule R132: the worked encodings of the bus; and sample words of rules R135 and
R142: the seven command codes, and each PICC frame, the frames being the examples of
44_picc_operations.md. -/
def Obligations.SampleWordsDecode : Prop :=
  decode (.bus 0x02 0x0C) = .instr (.writeReg 0x01 0x0C) ∧
  decode (.bus 0x82 0x00) = .instr (.readReg 0x01) ∧
  decode (.bus 0x04 0xB1) = .instr (.writeReg 0x02 0xB1) ∧
  decode (.bus 0x08 0x7F) = .instr (.writeReg 0x04 0x7F) ∧
  decode (.bus 0x88 0x00) = .instr (.readReg 0x04) ∧
  decode (.bus 0x0A 0x04) = .instr (.writeReg 0x05 0x04) ∧
  decode (.bus 0x8A 0x00) = .instr (.readReg 0x05) ∧
  decode (.bus 0x8C 0x00) = .instr (.readReg 0x06) ∧
  decode (.bus 0x90 0x00) = .instr (.readReg 0x08) ∧
  (∀ v, decode (.bus 0x10 v) = .instr (.writeReg 0x08 v)) ∧
  (∀ v, decode (.bus 0x12 v) = .instr (.writeReg 0x09 v)) ∧
  decode (.bus 0x92 0x00) = .instr (.readReg 0x09) ∧
  decode (.bus 0x14 0x80) = .instr (.writeReg 0x0A 0x80) ∧
  decode (.bus 0x94 0x00) = .instr (.readReg 0x0A) ∧
  decode (.bus 0x98 0x00) = .instr (.readReg 0x0C) ∧
  decode (.bus 0x9A 0x00) = .instr (.readReg 0x0D) ∧
  (∀ v, decode (.bus 0x1A v) = .instr (.writeReg 0x0D v)) ∧
  decode (.bus 0x22 0x3D) = .instr (.writeReg 0x11 0x3D) ∧
  decode (.bus 0xA8 0x00) = .instr (.readReg 0x14) ∧
  (∀ v, decode (.bus 0x28 v) = .instr (.writeReg 0x14 v)) ∧
  decode (.bus 0x2A 0x40) = .instr (.writeReg 0x15 0x40) ∧
  decode (.bus 0xC2 0x00) = .instr (.readReg 0x21) ∧
  decode (.bus 0xC4 0x00) = .instr (.readReg 0x22) ∧
  decode (.bus 0x4C 0x70) = .instr (.writeReg 0x26 0x70) ∧
  decode (.bus 0x54 0x8D) = .instr (.writeReg 0x2A 0x8D) ∧
  decode (.bus 0x56 0x3E) = .instr (.writeReg 0x2B 0x3E) ∧
  decode (.bus 0x58 0x00) = .instr (.writeReg 0x2C 0x00) ∧
  decode (.bus 0x5A 0x1E) = .instr (.writeReg 0x2D 0x1E) ∧
  decode (.command 0x00) = .instr .pcdIdle ∧
  decode (.command 0x03) = .instr .pcdCalcCrc ∧
  decode (.command 0x04) = .instr .pcdTransmit ∧
  decode (.command 0x08) = .instr .pcdReceive ∧
  decode (.command 0x0C) = .instr .pcdTransceive ∧
  decode (.command 0x0E) = .instr .pcdMfAuthent ∧
  decode (.command 0x0F) = .instr .pcdSoftReset ∧
  decode (.frame [0x26]) = .instr .requestIdle ∧
  decode (.frame [0x52]) = .instr .requestAll ∧
  decode (.frame [0x93, 0x20]) = .instr .anticollision ∧
  decode (.frame [0x93, 0x70, 0xDE, 0xAD, 0xBE, 0xEF, 0x22, 0xB9, 0x9C]) =
    .instr (.select [0xDE, 0xAD, 0xBE, 0xEF, 0x22] 0xB9 0x9C) ∧
  decode (.frame [0x60, 0x04, 0xFF, 0xFF, 0xFF, 0xFF, 0xFF, 0xFF, 0xDE, 0xAD, 0xBE, 0xEF]) =
    .instr (.authA 0x04 [0xFF, 0xFF, 0xFF, 0xFF, 0xFF, 0xFF] [0xDE, 0xAD, 0xBE, 0xEF]) ∧
  decode (.frame [0x61, 0x04, 0xFF, 0xFF, 0xFF, 0xFF, 0xFF, 0xFF, 0xDE, 0xAD, 0xBE, 0xEF]) =
    .instr (.authB 0x04 [0xFF, 0xFF, 0xFF, 0xFF, 0xFF, 0xFF] [0xDE, 0xAD, 0xBE, 0xEF]) ∧
  decode (.frame [0x30, 0x04, 0x26, 0xEE]) = .instr (.read 0x04 0x26 0xEE) ∧
  decode (.frame [0xA0, 0x04, 0x7B, 0xF7]) = .instr (.write 0x04 0x7B 0xF7) ∧
  decode (.frame [0xC0, 0x05, 0xA7, 0x83]) = .instr (.decrement 0x05 0xA7 0x83) ∧
  decode (.frame [0xC1, 0x05, 0x7F, 0x9A]) = .instr (.increment 0x05 0x7F 0x9A) ∧
  decode (.frame [0xB0, 0x05, 0x63, 0x73]) = .instr (.transfer 0x05 0x63 0x73) ∧
  decode (.frame [0x01, 0x00, 0x00, 0x00, 0xBB, 0x4A]) = .instr (.valueOperand 1 0xBB 0x4A) ∧
  decode (.frame [0x00, 0x01, 0x02, 0x03, 0x04, 0x05, 0x06, 0x07, 0x08, 0x09, 0x0A, 0x0B, 0x0C,
      0x0D, 0x0E, 0x0F, 0x77, 0xF5]) =
    .instr (.writeData [0x00, 0x01, 0x02, 0x03, 0x04, 0x05, 0x06, 0x07, 0x08, 0x09, 0x0A, 0x0B, 0x0C,
      0x0D, 0x0E, 0x0F] 0x77 0xF5)

/-- No bit of an encoding is dropped: decoding the words of a well-formed instruction gives it back. -/
def Obligations.DecodeOfEncode : Prop :=
  ∀ i : Instr, i.wellFormed = true → decode (encode i) = .instr i

/-- One reading per word: two words that decode to the same instruction are the same word, but for the
data byte of a read, which the device ignores (30_encoding.md rule R130). -/
def Obligations.EncodeOfDecode : Prop :=
  ∀ (w : Encoded) (i : Instr), decode w = .instr i →
    encode i = w ∨ ∃ a b0 b1, i = .readReg a ∧ w = .bus b0 b1 ∧ encode i = .bus b0 0x00

/-- 30_encoding.md rule R131, with what the machine does of a byte 0 with bit 0 = 1: the fault set
gains BadFrame, keeps every earlier fault and, the word apart, nothing else changes. -/
def Obligations.BusFrameAssembly : Prop :=
  (∀ (a : Nat) (v : Byte), a ≤ 0x3F →
    encode (.writeReg a v) = .bus (BitVec.ofNat 8 (a * 2)) v ∧
    encode (.readReg a) = .bus (0x80 ||| BitVec.ofNat 8 (a * 2)) 0x00) ∧
  (∀ b0 b1 : Byte, b0.getLsbD 0 = false → b0.getLsbD 7 = false →
    decode (.bus b0 b1) = .instr (.writeReg (b0.extractLsb 6 1).toNat b1)) ∧
  (∀ b0 b1 : Byte, b0.getLsbD 0 = false → b0.getLsbD 7 = true →
    decode (.bus b0 b1) = .instr (.readReg (b0.extractLsb 6 1).toNat)) ∧
  (∀ b0 b1 : Byte, b0.getLsbD 0 = true →
    (∀ i, decode (.bus b0 b1) ≠ .instr i) ∧
    ∀ (s : State) (rest : List Input), s.ctl.running = none →
      s.inbox = .word (.bus b0 b1) :: rest →
      ∃ t, step s = .next t ∧ FaultAdded s t (.badFrame b0) ∧
        t = { s with inbox := rest, faults := t.faults })

/-- The frames of 30_encoding.md rule R142 are frames, and any other byte list is refused by name, in
decoding and by the step (notes/assumptions/19.md). -/
def Obligations.OtherFramesAreRefused : Prop :=
  ∀ bytes : List Byte,
    (FrameOfTable bytes → ∃ i, decode (.frame bytes) = .instr i ∧ encode i = .frame bytes) ∧
    (¬FrameOfTable bytes →
      decode (.frame bytes) = .reject (.noFrame bytes) ∧
      ∀ (s : State) (rest : List Input), s.ctl.running = none →
        s.inbox = .word (.frame bytes) :: rest → step s = .refused (.noSuchFrame bytes))

/-- A step runs the decoded instruction. With no job in progress and the words of `i` next in the inbox:
an instruction that makes no exchange with the card is one step, `exec i` of the state with the words
taken; one that makes an exchange ends, one bus transaction a step (00_scope.md rule R9), in the state
`exec i` answers (notes/assumptions/1.md). -/
def Obligations.StepRunsDecoded : Prop :=
  ∀ (s : State) (w : Encoded) (rest : List Input) (i : Instr),
    s.ctl.running = none → s.inbox = .word w :: rest → decode w = .instr i →
    (s.exchangeOf i = none → step s = exec i { s with inbox := rest }) ∧
    (s.exchangeOf i ≠ none →
      ∃ t n, exec i { s with inbox := rest } = .next t ∧ StepsTo (n + 1) s t)

/-- A word placed by `withFetchWord` runs in the very next step, with no job in progress and, for a
frame recognised by position, the first frame of its operation taken as acknowledged
(notes/assumptions/2.md, notes/assumptions/8.md). -/
def Obligations.PlacedWordRuns : Prop :=
  ∀ (s : State) (nbits w : Nat) (i : Instr), decodeTableWord nbits w = some i →
    let placed : State := { s with ctl := { s.ctl with
      running := none
      awaiting :=
        match i with
        | .writeData _ _ _ => some (.writeData 0)
        | .valueOperand _ _ _ => some (.incrementOperand 0)
        | _ => s.ctl.awaiting } }
    (placed.exchangeOf i = none → step (s.withFetchWord nbits w) = exec i placed) ∧
    (placed.exchangeOf i ≠ none →
      ∃ t n, exec i placed = .next t ∧ StepsTo (n + 1) (s.withFetchWord nbits w) t)

/-! ### Bus transactions -/

/-- 40_bus.md rule R166 and 10_state.md rule R71: an item created by the transaction applies at its end
if its count is 0; any other is counted down by one and applies at 0; with `∞` it never does. -/
def Obligations.EndOfTransactionRule : Prop :=
  (∀ s : State, s.dev.pending = none → s.dev.crcPending = none → endOfTransaction s = s) ∧
  (∀ (s : State) (fresh : Bool), s.dev.pending = some ⟨.never, fresh⟩ → s.dev.crcPending = none →
    endOfTransaction s = s.setPending (some ⟨.never, false⟩)) ∧
  (∀ (s : State) (c : Nat) (o : LinkOutcome), s.dev.pending = some ⟨.after c o, true⟩ →
    s.dev.crcPending = none →
    endOfTransaction s =
      if c = 0 then applyOutcome o (s.setPending none)
      else s.setPending (some ⟨.after c o, false⟩)) ∧
  (∀ (s : State) (c : Nat) (o : LinkOutcome), s.dev.pending = some ⟨.after (c + 1) o, false⟩ →
    s.dev.crcPending = none →
    endOfTransaction s =
      if c = 0 then applyOutcome o (s.setPending none)
      else s.setPending (some ⟨.after c o, false⟩)) ∧
  (∀ (s : State) (k : Nat), s.dev.pending = none → s.dev.crcPending = some ⟨k, true⟩ →
    endOfTransaction s =
      if k = 0 then processCrc (s.setCrcPending none)
      else s.setCrcPending (some ⟨k, false⟩)) ∧
  (∀ (s : State) (k : Nat), s.dev.pending = none → s.dev.crcPending = some ⟨k + 1, false⟩ →
    endOfTransaction s =
      if k = 0 then processCrc (s.setCrcPending none)
      else s.setCrcPending (some ⟨k, false⟩))

/-- 40_bus.md rules R160 to R162: an address beyond ADDR_WIDTH (above 0x3F, with its 6 bits) faults
BadAddress and does not reach the device, the trace or the countdowns; a read of one takes a draw. -/
def Obligations.BadAddressIsSticky : Prop :=
  ∀ (s : State) (a : Nat) (d : Byte), s.ctl.closed = false → 2 ^ s.cfg.map.width ≤ a →
    (∃ t, exec (.writeReg a d) s = .next t ∧ FaultAdded s t (.badAddress a) ∧
      t = { s with faults := t.faults }) ∧
    (∃ t, exec (.readReg a) s = .next t ∧ FaultAdded s t (.badAddress a) ∧
      t = { s with
        faults := t.faults
        oracle := { s.oracle with draws := s.oracle.draws.tail, made := s.oracle.made + 1 } })

/-- 70_reset_and_hazards.md rule R370: while the line is low a write has no device effect and a read
returns a draw; both take their place in the trace. -/
def Obligations.HeldInReset : Prop :=
  ∀ (s : State) (a : Nat) (d : Byte), s.Inv → s.ctl.closed = false → s.rst = .low →
    a < s.cfg.map.limit →
    s.dev = Device.reset s.cfg ∧
    exec (.writeReg a d) s = .next (s.emit (.bus .w a d)) ∧
    ∃ v, exec (.readReg a) s = .next { s with
        trace := s.trace ++ [.bus .r a v]
        oracle := { s.oracle with draws := s.oracle.draws.tail, made := s.oracle.made + 1 } } ∧
      (∀ b bs, s.oracle.draws = b :: bs → v = b)

/-- 41_device_commands.md rule R213. -/
def Obligations.StorageRegisters : Prop :=
  ∀ (s : State) (a : Nat) (d : Byte), s.ctl.closed = false → s.rst = .high →
    (isStorage s.cfg.map a = true →
      ∃ t, exec (.writeReg a d) s = .next (endOfTransaction t) ∧ Touched s t (.bus .w a d) [a] ∧
        t.dev.mem.read a = d) ∧
    (isStorage s.cfg.map a = true ∨ a = s.addr .bitFraming →
      exec (.readReg a) s = .next (endOfTransaction (s.emit (.bus .r a (s.dev.mem.read a)))))

/-- 41_device_commands.md rules R208, R210 to R212 and R214, and 30_encoding.md rule R137: the
registers whose write is ignored, what each reads as, and CommandReg as read. A read of Status1Reg
holds CRCReady in bit 5; its other bits, and a counter register whole, are a draw. -/
def Obligations.ReadOnlyRegisters : Prop :=
  ∀ (s : State) (d : Byte), s.ctl.closed = false → s.rst = .high →
    (∀ r ∈ [Reg.error, .crcResultM, .crcResultL, .control, .status1, .tCounterH, .tCounterL],
      exec (.writeReg (s.addr r) d) s =
        .next (endOfTransaction (s.emit (.bus .w (s.addr r) d)))) ∧
    (∀ p ∈ [(Reg.error, s.x .error &&& 0xDF),
        (.crcResultM, s.dev.crcResult.extractLsb 15 8),
        (.crcResultL, s.dev.crcResult.extractLsb 7 0),
        (.control, 0x10 ||| (s.x .control &&& 0x07)),
        (.command, (s.x .command &&& 0x30) ||| s.dev.active.code.setWidth 8)],
      exec (.readReg (s.addr p.1)) s =
        .next (endOfTransaction (s.emit (.bus .r (s.addr p.1) p.2)))) ∧
    ∀ r ∈ [Reg.status1, .tCounterH, .tCounterL],
      ∃ v, exec (.readReg (s.addr r)) s = .next (endOfTransaction { s with
          trace := s.trace ++ [.bus .r (s.addr r) v]
          oracle := { s.oracle with draws := s.oracle.draws.tail, made := s.oracle.made + 1 } }) ∧
        (r = .status1 → v.getLsbD 5 = (s.x .status1).getLsbD 5) ∧
        ∀ b bs, s.oracle.draws = b :: bs → v &&& 0xDF = b &&& 0xDF ∧ (r ≠ .status1 → v = b)

/-- 41_device_commands.md rules R204 to R207: the Set1 and Set2 write rules, and what is read back. -/
def Obligations.InterruptRequestRegisters : Prop :=
  ∀ (s : State) (d : Byte), s.ctl.closed = false → s.rst = .high →
    (∃ t, exec (.writeReg (s.addr .comIrq) d) s = .next (endOfTransaction t) ∧
      Touched s t (.bus .w (s.addr .comIrq) d) [s.addr .comIrq] ∧
      (t.x .comIrq).getLsbD 7 = (s.x .comIrq).getLsbD 7 ∧
      (t.x .comIrq).extractLsb 6 0 =
        if d.getLsbD 7 then (s.x .comIrq).extractLsb 6 0 ||| d.extractLsb 6 0
        else (s.x .comIrq).extractLsb 6 0 &&& ~~~(d.extractLsb 6 0)) ∧
    exec (.readReg (s.addr .comIrq)) s =
      .next (endOfTransaction (s.emit (.bus .r (s.addr .comIrq) (s.x .comIrq &&& 0x7F)))) ∧
    (∃ t, exec (.writeReg (s.addr .divIrq) d) s = .next (endOfTransaction t) ∧
      Touched s t (.bus .w (s.addr .divIrq) d) [s.addr .divIrq] ∧
      t.x .divIrq =
        if d.getLsbD 7 then s.x .divIrq ||| (d &&& 0x14) else s.x .divIrq &&& ~~~(d &&& 0x14)) ∧
    exec (.readReg (s.addr .divIrq)) s =
      .next (endOfTransaction (s.emit (.bus .r (s.addr .divIrq) (s.x .divIrq &&& 0x14))))

/-- 41_device_commands.md rule R209. -/
def Obligations.Status2Register : Prop :=
  ∀ (s : State) (d : Byte), s.ctl.closed = false → s.rst = .high →
    (∃ t, exec (.writeReg (s.addr .status2) d) s = .next (endOfTransaction t) ∧
      Touched s t (.bus .w (s.addr .status2) d) [s.addr .status2] ∧
      (∀ n, n < 8 → (t.x .status2).getLsbD n =
        if n = 7 ∨ n = 6 then d.getLsbD n
        else if n = 3 ∧ d.getLsbD 3 = false then false
        else (s.x .status2).getLsbD n)) ∧
    (s.dev.active = .idle →
      exec (.readReg (s.addr .status2)) s =
        .next (endOfTransaction (s.emit (.bus .r (s.addr .status2) (s.x .status2 &&& 0xC8))))) ∧
    (s.dev.active ≠ .idle →
      ∃ v, exec (.readReg (s.addr .status2)) s = .next (endOfTransaction { s with
          trace := s.trace ++ [.bus .r (s.addr .status2) v]
          oracle := { s.oracle with draws := s.oracle.draws.tail, made := s.oracle.made + 1 } }) ∧
        v &&& 0xF8 = s.x .status2 &&& 0xC8 ∧
        ∀ b bs, s.oracle.draws = b :: bs → v &&& 0x07 = b &&& 0x07)

/-- 41_device_commands.md rules R200 to R203: the FIFO port and the FIFO level, with the processing a
push schedules while CalcCRC is active (42_crc.md rule R236). That the level of a FIFO of 128 bytes or
more reads as some byte with bit 7 = 0 is the model's choice (notes/assumptions/28.md). -/
def Obligations.FifoRegisters : Prop :=
  ∀ (s : State) (d : Byte), s.ctl.closed = false → s.rst = .high →
    (∃ t, exec (.writeReg (s.addr .fifoData) d) s = .next (endOfTransaction t) ∧
      t = { s with
        trace := s.trace ++ [.bus .w (s.addr .fifoData) d]
        dev := { s.dev with
          mem := t.dev.mem
          fifo := if s.dev.fifo.length < s.cfg.fifoDepth then s.dev.fifo ++ [d] else s.dev.fifo
          crcPending := if s.dev.active = .calcCrc ∧ s.dev.crcPending = none
            then some ⟨s.cfg.crcLatency, true⟩ else s.dev.crcPending } } ∧
      ∀ r, t.dev.mem.read r =
        if s.dev.fifo.length < s.cfg.fifoDepth then s.dev.mem.read r
        else if r = s.addr .error then s.x .error ||| 0x10
        else if r = s.addr .comIrq then s.x .comIrq ||| 0x02
        else s.dev.mem.read r) ∧
    (∀ v vs, s.dev.fifo = v :: vs →
      exec (.readReg (s.addr .fifoData)) s =
        .next (endOfTransaction ((s.setFifo vs).emit (.bus .r (s.addr .fifoData) v)))) ∧
    (s.dev.fifo = [] →
      ∃ v, exec (.readReg (s.addr .fifoData)) s = .next (endOfTransaction { s with
          trace := s.trace ++ [.bus .r (s.addr .fifoData) v]
          oracle := { s.oracle with draws := s.oracle.draws.tail, made := s.oracle.made + 1 } }) ∧
        ∀ b bs, s.oracle.draws = b :: bs → v = b) ∧
    (d.getLsbD 7 = true →
      ∃ t, exec (.writeReg (s.addr .fifoLevel) d) s = .next (endOfTransaction t) ∧
        t = { s with
          trace := s.trace ++ [.bus .w (s.addr .fifoLevel) d]
          dev := { s.dev with mem := t.dev.mem, fifo := [] } } ∧
        ∀ r, t.dev.mem.read r =
          if r = s.addr .error then s.x .error &&& 0xEF else s.dev.mem.read r) ∧
    (d.getLsbD 7 = false →
      exec (.writeReg (s.addr .fifoLevel) d) s =
        .next (endOfTransaction (s.emit (.bus .w (s.addr .fifoLevel) d)))) ∧
    (s.dev.fifo.length < 128 →
      exec (.readReg (s.addr .fifoLevel)) s = .next (endOfTransaction
        (s.emit (.bus .r (s.addr .fifoLevel) (BitVec.ofNat 8 s.dev.fifo.length))))) ∧
    (128 ≤ s.dev.fifo.length →
      ∃ v, exec (.readReg (s.addr .fifoLevel)) s =
          .next (endOfTransaction (s.emit (.bus .r (s.addr .fifoLevel) v))) ∧
        v.getLsbD 7 = false)

/-- 20_memory.md rule R107: "Reading FIFODataReg removes a byte from the FIFO. No other read changes
device state." -/
def Obligations.ReadsChangeTheFifoAlone : Prop :=
  ∀ (s : State) (a : Nat), s.ctl.closed = false → s.rst = .high → a < s.cfg.map.limit →
    ∃ (v : Byte) (o : Oracle),
      exec (.readReg a) s = .next (endOfTransaction { s with
        trace := s.trace ++ [.bus .r a v]
        oracle := o
        dev := if a = s.addr .fifoData then { s.dev with fifo := s.dev.fifo.tail } else s.dev })

/-- 41_device_commands.md rules R191 and R192: a BitFramingReg write, and the round that StartSend
starts. -/
def Obligations.StartSendStartsTheRound : Prop :=
  ∀ (s : State) (d : Byte), s.ctl.closed = false → s.rst = .high →
    ∃ t, Touched s t (.bus .w (s.addr .bitFraming) d) [s.addr .bitFraming] ∧ t.x .bitFraming = d ∧
      (d.getLsbD 7 = true → s.dev.active = .transceive → s.dev.txArmed = true →
        ∃ u, RoundStarted (t.setTxArmed false) u .transceive ∧
          exec (.writeReg (s.addr .bitFraming) d) s = .next (endOfTransaction u)) ∧
      (¬(d.getLsbD 7 = true ∧ s.dev.active = .transceive ∧ s.dev.txArmed = true) →
        exec (.writeReg (s.addr .bitFraming) d) s = .next (endOfTransaction t))

/-! ### PCD commands -/

/-- 41_device_commands.md rules R183, R184, R188 and R190: PCD_IDLE, PCD_TRANSCEIVE and PCD_SOFTRESET.
Nothing is pending after the write, so nothing applies at its end. -/
def Obligations.IdleTransceiveAndSoftReset : Prop :=
  ∀ s : State, s.ctl.closed = false → s.rst = .high →
    (∃ t, Terminated s t 0x00 ∧ exec .pcdIdle s = .next (t.setActive .idle)) ∧
    (∃ t, Terminated s t 0x0C ∧
      exec .pcdTransceive s = .next ((t.setActive .transceive).setTxArmed true)) ∧
    (∃ t, exec .pcdSoftReset s = .next t ∧
      t = { s with trace := s.trace ++ [.bus .w (s.addr .command) 0x0F], dev := t.dev } ∧
      (∀ a, t.dev.mem.read a = Memory.read s.cfg.resetCells a) ∧
      t.dev.fifo = [] ∧ t.dev.active = .idle ∧ t.dev.pending = none ∧ t.dev.crcPending = none ∧
      t.dev.txArmed = false ∧ t.dev.crcAcc = 0xFFFF ∧ t.dev.crcResult = 0xFFFF)

/-- 41_device_commands.md rule R185 and 42_crc.md rules R232 and R234: PCD_CALCCRC. -/
def Obligations.CalcCrcLoadsThePreset : Prop :=
  ∀ s : State, s.ctl.closed = false → s.rst = .high →
    ∃ t u, Terminated s t 0x03 ∧ exec .pcdCalcCrc s = .next (endOfTransaction u) ∧
      u = { t with dev := { t.dev with
        mem := u.dev.mem
        active := .calcCrc
        crcAcc :=
          if (s.x .mode).extractLsb 1 0 = 0 then 0x0000
          else if (s.x .mode).extractLsb 1 0 = 1 then 0x6363
          else if (s.x .mode).extractLsb 1 0 = 2 then 0xA671
          else 0xFFFF
        crcPending := some ⟨s.cfg.crcLatency, true⟩ } } ∧
      ∀ r, u.dev.mem.read r =
        if r = s.addr .status1 then t.x .status1 &&& 0xDF else t.dev.mem.read r

/-- 41_device_commands.md rules R186, R187, R189 and R192: PCD_TRANSMIT and PCD_MFAUTHENT transmit the
FIFO and ask the oracle; PCD_RECEIVE asks it and transmits nothing. -/
def Obligations.RoundsStartedByCommands : Prop :=
  ∀ s : State, s.ctl.closed = false → s.rst = .high →
    (∃ t u, Terminated s t 0x04 ∧ RoundStarted (t.setActive .transmit) u .transmit ∧
      exec .pcdTransmit s = .next (endOfTransaction u)) ∧
    (∃ t u, Terminated s t 0x0E ∧ RoundStarted (t.setActive .mfAuthent) u .mfAuthent ∧
      exec .pcdMfAuthent s = .next (endOfTransaction u)) ∧
    (∃ t u, Terminated s t 0x08 ∧
      OracleAsked (t.setActive .receive) u .receive [] [] s.dev.fifo ∧
      exec .pcdReceive s = .next (endOfTransaction u))

/-- 30_encoding.md rule R140 and 41_device_commands.md rule R183: a CommandReg write outside the closed
set, or with any of bits 7:4 set, faults UnmodelledCommand, keeps every earlier fault and leaves the
device state unchanged. That the byte given as a PCD command word is that write is
notes/assumptions/17.md. -/
def Obligations.ReservedCommandsFault : Prop :=
  ∀ (s : State) (v : Byte), s.ctl.closed = false → s.rst = .high →
    (v.extractLsb 7 4 ≠ 0 ∨
      v.extractLsb 3 0 ∈ [0x1#4, 0x2#4, 0x5#4, 0x6#4, 0x7#4, 0x9#4, 0xA#4, 0xB#4, 0xD#4]) →
    ∃ t, exec (.writeReg (s.addr .command) v) s = .next (endOfTransaction t) ∧
      FaultAdded s t (.unmodelledCommand v) ∧
      t = { s with trace := s.trace ++ [.bus .w (s.addr .command) v], faults := t.faults } ∧
      decode (.command v) = .reject (.noCommand v) ∧
      ∀ rest, s.ctl.running = none → s.inbox = .word (.command v) :: rest →
        step s = .next (endOfTransaction { t with inbox := rest })

/-! ### Rounds and outcomes -/

/-- 41_device_commands.md rule R198: the outcomes each command admits; in particular nothing but TX_DONE
while the antenna is off and TAuto = 0 (70_reset_and_hazards.md rule R379). That any other answer counts
as `∞`, also where another row admits an outcome, is the model's choice (notes/assumptions/5.md); that
the AUTH_ERR of a frame of another length needs the field and the receiver too, and TX_DONE neither, is
the model's reading (notes/assumptions/25.md, notes/assumptions/26.md). -/
def Obligations.AdmissibleOutcomes : Prop :=
  ∀ (s : State) (a : Active) (frame : List Byte) (d : Nat) (o : LinkOutcome),
    let fieldOn := (s.x .txControl).extractLsb 1 0 ≠ 0
    let rxOn := (s.x .command).getLsbD 5 = false
    let tAuto := (s.x .tMode).getLsbD 7 = true
    let admits : Prop :=
      match a, o with
      | .transmit, .txDone => True
      | .transceive, .resp bytes _ _ => bytes ≠ [] ∧ fieldOn ∧ rxOn
      | .transceive, .noResp => tAuto
      | .receive, .resp bytes _ _ => bytes ≠ [] ∧ fieldOn ∧ rxOn
      | .receive, .noResp => tAuto
      | .mfAuthent, .authOk => fieldOn ∧ rxOn ∧ frame.length = 12
      | .mfAuthent, .authErr errs =>
        fieldOn ∧ rxOn ∧
          ((frame.length = 12 ∧ errs ≠ Errs.none) ∨ (frame.length ≠ 12 ∧ errs = Errs.protocolOnly))
      | .mfAuthent, .noResp => tAuto ∧ frame.length = 12
      | _, _ => False
    (admits → limitAnswer a frame s (.after d o) = .after d o) ∧
    (¬admits → limitAnswer a frame s (.after d o) = .never) ∧
    limitAnswer a frame s .never = .never ∧
    (¬fieldOn → ¬tAuto → a ≠ .transmit → limitAnswer a frame s (.after d o) = .never)

/-- 41_device_commands.md rules R193, R197 and R200: RESP while Transceive and while Receive is active.
That the end of Receive sets `tx_armed` too is R197 read to the letter (notes/assumptions/27.md). -/
def Obligations.ResponseOutcomes : Prop :=
  ∀ (s : State) (bytes : List Byte) (lb : BitVec 3) (errs : Errs),
    s.dev.active = .transceive ∨ s.dev.active = .receive → s.dev.fifo.length ≤ s.cfg.fifoDepth →
    let overflow := s.cfg.fifoDepth < s.dev.fifo.length + bytes.length
    ∃ t, applyOutcome (.resp bytes lb errs) s = t ∧
      t = { s with
        trace := s.trace ++ [.outcome (.resp bytes lb errs)]
        dev := { s.dev with
          mem := t.dev.mem
          fifo := (s.dev.fifo ++ bytes).take s.cfg.fifoDepth
          active := if s.dev.active = .receive then .idle else .transceive
          txArmed := true } } ∧
      t.x .comIrq = s.x .comIrq ||| (if s.dev.active = .receive then 0x30 else 0x60) |||
        (if errs ≠ Errs.none ∨ overflow then 0x02 else 0x00) ∧
      t.x .control = (s.x .control &&& 0xF8) ||| lb.setWidth 8 ∧
      t.x .error = s.x .error ||| errs.bits ||| (if overflow then 0x10 else 0x00) ∧
      ∀ r, r ∉ [s.addr .comIrq, s.addr .error, s.addr .control] →
        t.dev.mem.read r = s.dev.mem.read r

/-- 41_device_commands.md rules R194 to R196: NORESP, the MFAuthent outcomes and TX_DONE. -/
def Obligations.OutcomesWithoutBytes : Prop :=
  ∀ s : State,
    (s.dev.active = .transceive →
      ∃ t, applyOutcome .noResp s = t ∧
        t = { s with
          trace := s.trace ++ [.outcome .noResp]
          dev := { s.dev with mem := t.dev.mem, txArmed := true } } ∧
        ∀ r, t.dev.mem.read r =
          if r = s.addr .comIrq then s.x .comIrq ||| 0x41 else s.dev.mem.read r) ∧
    (s.dev.active = .receive ∨ s.dev.active = .mfAuthent →
      ∃ t, applyOutcome .noResp s = t ∧ Touched s t (.outcome .noResp) [s.addr .comIrq] ∧
        t.x .comIrq = s.x .comIrq ||| 0x01) ∧
    (s.dev.active = .mfAuthent →
      (∃ t, applyOutcome .authOk s = t ∧
        t = { s with
          trace := s.trace ++ [.outcome .authOk]
          dev := { s.dev with mem := t.dev.mem, active := .idle } } ∧
        ∀ r, t.dev.mem.read r =
          if r = s.addr .status2 then s.x .status2 ||| 0x08
          else if r = s.addr .comIrq then s.x .comIrq ||| 0x10
          else s.dev.mem.read r) ∧
      ∀ errs, ∃ t, applyOutcome (.authErr errs) s = t ∧
        t = { s with
          trace := s.trace ++ [.outcome (.authErr errs)]
          dev := { s.dev with mem := t.dev.mem, active := .idle } } ∧
        ∀ r, t.dev.mem.read r =
          if r = s.addr .error then s.x .error ||| errs.bits
          else if r = s.addr .comIrq then s.x .comIrq ||| 0x12
          else s.dev.mem.read r) ∧
    (s.dev.active = .transmit →
      ∃ t, applyOutcome .txDone s = t ∧
        t = { s with
          trace := s.trace ++ [.outcome .txDone]
          dev := { s.dev with mem := t.dev.mem, active := .idle } } ∧
        ∀ r, t.dev.mem.read r =
          if r = s.addr .comIrq then s.x .comIrq ||| 0x50 else s.dev.mem.read r)

/-! ### The CRC generator and compute_crc -/

/-- 42_crc.md rules R231, R240 and R242: the byte-at-a-time form "is equal to rule R230 for every preset
and every data list"; the residue; linearity. -/
def Obligations.CrcGeneratorLaws : Prop :=
  (∀ (p : Word16) (data : List Byte), crc16Fast p data = crc16 p data) ∧
  (∀ (p : Word16) (data : List Byte),
    crc16 p (data ++ [(crc16 p data).extractLsb 7 0, (crc16 p data).extractLsb 15 8]) = 0) ∧
  (∀ (p : Word16) (d1 d2 d3 : List Byte), d1.length = d2.length → d2.length = d3.length →
    crc16 p d1 ^^^ crc16 p d2 ^^^ crc16 p d3 =
      crc16 p (List.zipWith (· ^^^ ·) (List.zipWith (· ^^^ ·) d1 d2) d3)) ∧
  ∀ n, crc16 0 (List.replicate n 0) = 0

/-- 42_crc.md rules R233, R235 and R236: processing applies at the end of a transaction (the one that
created it, where CRC_LATENCY is 0: 40_bus.md rule R166), continues from the accumulator and consumes
the FIFO; with MSBFirst = 1 it faults, keeps every earlier fault and does nothing else. -/
def Obligations.CrcProcessingApplies : Prop :=
  (∀ s : State, s.dev.pending = none →
    s.dev.crcPending = some ⟨1, false⟩ ∨ s.dev.crcPending = some ⟨0, true⟩ →
    ((s.x .mode).getLsbD 7 = false →
      ∃ t, endOfTransaction s = t ∧
        t = { s with dev := { s.dev with
          mem := t.dev.mem
          fifo := []
          crcAcc := crc16 s.dev.crcAcc s.dev.fifo
          crcResult := crc16 s.dev.crcAcc s.dev.fifo
          crcPending := none } } ∧
        ∀ r, t.dev.mem.read r =
          if r = s.addr .status1 then s.x .status1 ||| 0x20
          else if r = s.addr .divIrq then s.x .divIrq ||| 0x04
          else s.dev.mem.read r) ∧
    ((s.x .mode).getLsbD 7 = true →
      ∃ t, endOfTransaction s = t ∧ FaultAdded s t .unmodelledCrcMode ∧
        t = { s with faults := t.faults, dev := { s.dev with crcPending := none } })) ∧
  ∀ (p : Word16) (xs ys : List Byte), crc16 (crc16 p xs) ys = crc16 p (xs ++ ys)

/-- 42_crc.md rules R245, R246 and R248, with a latency the poll budget covers: the compute_crc task
returns the CRC of its buffer, in `len(buf) + 5 + (CRC_LATENCY + 1)` transactions, leaves CalcCRC
active and the FIFO empty, and writes no register but DivIrqReg, Status1Reg, CommandReg and ErrorReg. -/
def Obligations.ComputeCrcReturnsTheCrc : Prop :=
  ∀ (s : State) (buf : List Byte), s.ctl.closed = false → s.Quiet → s.dev.active ≠ .calcCrc →
    (s.x .mode).getLsbD 7 = false → s.cfg.crcLatency ≤ 254 → buf.length ≤ s.cfg.fifoDepth →
    let c := crc16 (crcPreset ((s.x .mode).extractLsb 1 0)) buf
    ∃ t es, runTask (.computeCrc buf) s = t ∧
      t.trace = s.trace ++ es ∧
      es.getLast? = some (.ret .computeCrc (.crc (c.extractLsb 7 0) (c.extractLsb 15 8))) ∧
      transactions es = buf.length + 5 + (s.cfg.crcLatency + 1) ∧
      t = { s with
        trace := t.trace
        ctl := { s.ctl with awaiting := none }
        dev := { s.dev with
          mem := t.dev.mem, fifo := [], active := .calcCrc, txArmed := false
          crcAcc := c, crcResult := c } } ∧
      ∀ r, t.dev.mem.read r =
        if r = s.addr .divIrq then s.x .divIrq ||| 0x04
        else if r = s.addr .status1 then s.x .status1 ||| 0x20
        else if r = s.addr .command then s.x .command &&& 0xCF
        else if r = s.addr .error then s.x .error &&& 0xEF
        else s.dev.mem.read r

/-- 42_crc.md rules R246 and R248, with a latency the poll budget does not cover: the counter moves by
one, the cost is `len(buf) + 5 + 255`, and each result byte is fresh or stale as the latency says. -/
def Obligations.ComputeCrcPastTheBudget : Prop :=
  ∀ (s : State) (buf : List Byte), s.ctl.closed = false → s.Quiet → s.dev.active ≠ .calcCrc →
    (s.x .mode).getLsbD 7 = false → 255 ≤ s.cfg.crcLatency → buf.length ≤ s.cfg.fifoDepth →
    let c := crc16 (crcPreset ((s.x .mode).extractLsb 1 0)) buf
    let lo := if s.cfg.crcLatency ≤ 255 then c.extractLsb 7 0 else s.dev.crcResult.extractLsb 7 0
    let hi := if s.cfg.crcLatency ≤ 256 then c.extractLsb 15 8 else s.dev.crcResult.extractLsb 15 8
    ∃ t es, runTask (.computeCrc buf) s = t ∧
      t.ctl.crcPollExhausted = s.ctl.crcPollExhausted + 1 ∧
      t.trace = s.trace ++ es ∧
      es.getLast? = some (.ret .computeCrc (.crc lo hi)) ∧
      transactions es = buf.length + 5 + 255

/-- 42_crc.md rule R247 and 70_reset_and_hazards.md rule R383, with CRC_LATENCY = 0: a compute_crc
entered while CalcCRC is active returns the preset's bytes, whatever its non-empty buffer. -/
def Obligations.ComputeCrcReentered : Prop :=
  ∀ (s : State) (buf : List Byte), s.ctl.closed = false → s.Quiet → s.dev.active = .calcCrc →
    (s.x .mode).getLsbD 7 = false → s.cfg.crcLatency = 0 → buf ≠ [] → 1 ≤ s.cfg.fifoDepth →
    let p := crcPreset ((s.x .mode).extractLsb 1 0)
    ∃ t es, runTask (.computeCrc buf) s = t ∧ t.trace = s.trace ++ es ∧
      es.getLast? = some (.ret .computeCrc (.crc (p.extractLsb 7 0) (p.extractLsb 15 8)))

/-! ### The transceive task -/

/-- 43_transceive.md rules R272 to R274: the task's result by the oracle's answer, and its cost, `p`
being `d + 1`. For TRANSCEIVE with a frame of `s` bytes, TIMEOUT costs `4 + s + 1 + 2 + 2000 + 2`, ERROR
`4 + s + 1 + 2 + p + 2 + 1`, and OK and NO_TAG two more and the drained bytes; for AUTHENTICATE with a
12-byte frame, TIMEOUT costs `4 + 12 + 1 + 2000 + 2`, and any other result `4 + 12 + 1 + p + 2 + 1`. -/
def Obligations.TransceiveResultAndCost : Prop :=
  (∀ (s : State) (send : List Byte), s.ctl.closed = false → s.Quiet → fieldOn s = true →
    tAuto s = true → s.cfg.SourceMasks → 18 ≤ s.cfg.fifoDepth ∧ s.cfg.fifoDepth < 128 →
    send.length ≤ s.cfg.fifoDepth →
    let e := Exchange.plain (s.x .bitFraming) send
    let r := s.reply e
    ∃ t es, runTask (.transceive (.start .transceive) send) s = t ∧ Made e s t [] ∧
      t.ctl.awaiting = none ∧ t.trace = s.trace ++ es ∧
      es.getLast? = some (.ret .transceive (.txrx r.status r.rx r.bitlen)) ∧
      (s.outcomeOf e = none → transactions es = 4 + send.length + 1 + 2 + 2000 + 2) ∧
      ∀ d o, s.answerTo .transceive send e.lastBits = .after d o → s.outcomeOf e = some o →
        transactions es = 4 + send.length + 1 + 2 + (d + 1) + 2 + 1 +
          (if r.status = .error then 0 else 2 + r.rx.length)) ∧
  ∀ (s : State) (send : List Byte), s.ctl.closed = false → s.Quiet → fieldOn s = true →
    tAuto s = true → s.cfg.SourceMasks → 18 ≤ s.cfg.fifoDepth → send.length = 12 →
    let e := Exchange.auth (s.x .bitFraming) send
    ∃ t es, runTask (.transceive (.start .mfAuthent) send) s = t ∧ Made e s t [] ∧
      t.ctl.awaiting = none ∧ t.trace = s.trace ++ es ∧
      es.getLast? = some (.ret .transceive (.txrx (s.reply e).status [] 0)) ∧
      (s.outcomeOf e = none → transactions es = 4 + 12 + 1 + 2000 + 2) ∧
      ∀ d o, s.answerTo .mfAuthent send e.lastBits = .after d o → s.outcomeOf e = some o →
        transactions es = 4 + 12 + 1 + (d + 1) + 2 + 1

/-- 70_reset_and_hazards.md rule R389: whatever the state and the oracle, compute_crc and transceive
issue a bounded number of transactions and raise nothing (43_transceive.md rule R260). The bounds are
the sums of 42_crc.md rule R248 and 43_transceive.md rule R274 (notes/assumptions/21.md). -/
def Obligations.BoundedTermination : Prop :=
  (∀ (s : State) (buf : List Byte), ∃ t r es, (computeCrc buf).run s = (t, .ok r) ∧
    t.trace = s.trace ++ es ∧ transactions es ≤ buf.length + 260) ∧
  ∀ (cfg : Config) (s : State) (cmd : Command) (send : List Byte),
    ∃ t r es, (transceive cfg cmd send).run s = (t, .ok r) ∧
      t.trace = s.trace ++ es ∧ transactions es ≤ send.length + 2028 ∧ r.rx.length ≤ 16

/-! ### PICC frames: what each leaves, sends and returns

Each is stated for every state in which the session protocol may run it (`State.Ready`) and every
answer of the oracle. `Made` gives the frame sent, every register, and everything left unchanged. -/

/-- 44_picc_operations.md rule R291: REQUEST_IDLE and REQUEST_ALL. -/
def Obligations.RequestRuns : Prop :=
  ∀ (s : State), s.Ready →
    ∀ i ∈ [(Instr.requestIdle, (0x26 : Byte)), (Instr.requestAll, 0x52)],
      let e := Exchange.plain 0x07 [i.2]
      let r := s.reply e
      ∃ t, exec i.1 s = .next t ∧ t.ctl.awaiting = none ∧
        Made e s t [.ret .request
          (.statusBits (if r.status = .ok ∧ r.bitlen = 16 then .ok else .error) r.bitlen)]

/-- 44_picc_operations.md rules R292 and R293: ANTICOLLISION. -/
def Obligations.AnticollisionRuns : Prop :=
  ∀ (s : State), s.Ready →
    let e := Exchange.plain 0x00 [0x93, 0x20]
    let r := s.reply e
    ∃ t st, exec .anticollision s = .next t ∧ t.ctl.awaiting = none ∧
      Made e s t [.ret .anticollision (.statusUid st r.rx)] ∧
      (r.status ≠ .ok → st = r.status) ∧
      (r.status = .ok → (st = .ok ∨ st = .error) ∧
        (st = .ok ↔ ∃ u0 u1 u2 u3, r.rx = [u0, u1, u2, u3, u0 ^^^ u1 ^^^ u2 ^^^ u3]))

/-- 44_picc_operations.md rule R294: SELECT, of a five-byte UID. -/
def Obligations.SelectRuns : Prop :=
  ∀ (s : State) (uid : List Byte) (cl ch : Byte), s.Ready → uid.length = 5 →
    let e := Exchange.withCrc (s.x .bitFraming) ([0x93, 0x70] ++ uid)
    let r := s.reply e
    ∃ t, exec (.select uid cl ch) s = .next t ∧ t.ctl.awaiting = none ∧
      Made e s t [.ret .select
        (.size (if r.status = .ok ∧ r.bitlen = 24 then r.rx.headD 0 else 0))]

/-- 44_picc_operations.md rule R295: AUTH_A and AUTH_B, of a six-byte key and a four-byte UID. -/
def Obligations.AuthenticationRuns : Prop :=
  ∀ (s : State) (b : Byte) (key uid : List Byte), s.Ready → key.length = 6 → uid.length = 4 →
    ∀ i ∈ [(Instr.authA b key uid, (0x60 : Byte)), (Instr.authB b key uid, 0x61)],
      let e := Exchange.auth (s.x .bitFraming) ([i.2, b] ++ key ++ uid)
      let st := (s.reply e).status
      ∃ t, exec i.1 s = .next t ∧ t.ctl.awaiting = none ∧
        Made e s t ((if st = .ok then [] else [.log (.authenticationFailed b)]) ++
          [.ret .authenticate (.status st)])

/-- 44_picc_operations.md rule R297: READ. -/
def Obligations.ReadRuns : Prop :=
  ∀ (s : State) (b cl ch : Byte), s.Ready →
    let e := Exchange.withCrc (s.x .bitFraming) [0x30, b]
    let r := s.reply e
    ∃ t, exec (.read b cl ch) s = .next t ∧ t.ctl.awaiting = none ∧
      Made e s t (if r.status = .ok ∧ r.rx.length = 16 then [.ret .read (.data r.rx)]
        else [.log (.readFailed b), .ret .read (.noData r.status)])

/-- 44_picc_operations.md rule R298: the ACK test. -/
def Obligations.AckTest : Prop :=
  (∀ r : TxRx, isAck r = true ↔
    r.status = .ok ∧ r.bitlen = 4 ∧ (r.rx.headD 0).extractLsb 3 0 = 0xA#4) ∧
  ∀ (n lb : Byte), lb.toNat < 8 → (bitLength n lb = 4 ↔ n = 1 ∧ lb = 4)

/-- 44_picc_operations.md rule R299: WRITE, the command phase of `write`: the warnings come first; an
acknowledged phase records no end and leaves the operation waiting for its data frame, any other ends
`write` with ERROR (notes/assumptions/8.md). -/
def Obligations.WriteCommandRuns : Prop :=
  ∀ (s : State) (b cl ch : Byte), s.Ready →
    let e := Exchange.withCrc (s.x .bitFraming) [0xA0, b]
    let acked := isAck (s.reply e)
    ∃ t, exec (.write b cl ch) s = .next t ∧
      t.ctl.awaiting = (if acked then some (.writeData b) else none) ∧
      Made e s t ((if b = 0 then [.log .writingManufacturerBlock] else []) ++
        (if b.toNat % 4 = 3 then [.log .writingSectorTrailer] else []) ++
        (if acked then []
          else [.log (.writeCommandNotAcknowledged b), .ret .write (.status .error)]))

/-- 44_picc_operations.md rule R299: WRITE_DATA in position, of sixteen bytes. -/
def Obligations.WriteDataRuns : Prop :=
  ∀ (s : State) (b : Byte) (data : List Byte) (cl ch : Byte), s.Ready →
    s.ctl.awaiting = some (.writeData b) → data.length = 16 →
    let e := Exchange.withCrc (s.x .bitFraming) data
    ∃ t, exec (.writeData data cl ch) s = .next t ∧ t.ctl.awaiting = none ∧
      Made e s t (if isAck (s.reply e) then [.ret .write (.status .ok)]
        else [.log (.writeDataNotAcknowledged b), .ret .write (.status .error)])

/-- 44_picc_operations.md rules R300 and R301: INCREMENT and DECREMENT, the command phases of
`increment` and `decrement` (notes/assumptions/8.md). -/
def Obligations.ValueCommandRuns : Prop :=
  ∀ (s : State) (b cl ch : Byte), s.Ready →
    (let e := Exchange.withCrc (s.x .bitFraming) [0xC1, b]
     let acked := isAck (s.reply e)
     ∃ t, exec (.increment b cl ch) s = .next t ∧
       t.ctl.awaiting = (if acked then some (.incrementOperand b) else none) ∧
       Made e s t (if acked then []
         else [.log (.incrementNotAcknowledged b), .ret .increment (.status .error)])) ∧
    (let e := Exchange.withCrc (s.x .bitFraming) [0xC0, b]
     let acked := isAck (s.reply e)
     ∃ t, exec (.decrement b cl ch) s = .next t ∧
       t.ctl.awaiting = (if acked then some (.decrementOperand b) else none) ∧
       Made e s t (if acked then []
         else [.log (.decrementNotAcknowledged b), .ret .decrement (.status .error)]))

/-- 44_picc_operations.md rules R300 and R301 and 30_encoding.md rule R145: VALUE_OPERAND in position:
the operand goes out least significant byte first, and a silent card is accepted. -/
def Obligations.ValueOperandRuns : Prop :=
  ∀ (s : State) (b : Byte) (v : BitVec 32) (cl ch : Byte), s.Ready →
    let e := Exchange.withCrc (s.x .bitFraming)
      [v.extractLsb 7 0, v.extractLsb 15 8, v.extractLsb 23 16, v.extractLsb 31 24]
    let r := s.reply e
    let accepted := r.status = .timeout ∨ r.status = .noTag ∨ isAck r = true
    (s.ctl.awaiting = some (.incrementOperand b) →
      ∃ t, exec (.valueOperand v cl ch) s = .next t ∧ t.ctl.awaiting = none ∧
        Made e s t (if accepted then [.ret .increment (.status .ok)]
          else [.log (.incrementOperandRejected b), .ret .increment (.status .error)])) ∧
    (s.ctl.awaiting = some (.decrementOperand b) →
      ∃ t, exec (.valueOperand v cl ch) s = .next t ∧ t.ctl.awaiting = none ∧
        Made e s t (if accepted then [.ret .decrement (.status .ok)]
          else [.log (.decrementOperandRejected b), .ret .decrement (.status .error)]))

/-- 44_picc_operations.md rule R302: TRANSFER. -/
def Obligations.TransferRuns : Prop :=
  ∀ (s : State) (b cl ch : Byte), s.Ready →
    let e := Exchange.withCrc (s.x .bitFraming) [0xB0, b]
    ∃ t, exec (.transfer b cl ch) s = .next t ∧ t.ctl.awaiting = none ∧
      Made e s t (if isAck (s.reply e) then [.ret .transfer (.status .ok)]
        else [.log (.transferNotAcknowledged b), .ret .transfer (.status .error)])

/-- Where an instruction runs and where it stops: every instruction answers a next state from every
state, but for a second-phase frame out of position, which is refused by name: "Phase 2 runs only after
phase 1 is acknowledged" (44_picc_operations.md rule R299; the refusal is notes/assumptions/9.md). That
no step stops on a fault is the model's choice, one of the two 60_exceptions.md rule R347 allows
(notes/assumptions/7.md). -/
def Obligations.InstructionsRunInPosition : Prop :=
  (∀ (s : State) (i : Instr),
    (s.OutOfPosition i → exec i s = .refused .noFirstPhase) ∧
    (¬s.OutOfPosition i → ∃ t, exec i s = .next t)) ∧
  ∀ (s : State) (f : Fault), step s ≠ .fault f

/-- What an operation puts on the air is its encoding, and an answered operation leaves the machine
ready for the next: for every well-formed PICC frame, in position, from every ready state. -/
def Obligations.FramesAreSentAsEncoded : Prop :=
  ∀ (i : Instr) (s : State) (e : Exchange), s.Ready → i.wellFormed = true →
    s.exchangeOf i = some e →
    encode i = .frame e.frame ∧
    ∃ t es, exec i s = .next t ∧ t.trace = s.trace ++ es ∧
      txFrames es = [(e.frame, e.lastBits)] ∧
      Leaves s t e.command e.enable e.framing e.crcOver (s.answer e) ∧
      (s.outcomeOf e ≠ none → t.Ready)

/-! ### Tasks -/

/-- The write, increment and decrement tasks are their two words, one after the other
(44_picc_operations.md rules R299 to R301): not acknowledged, the first word is the whole task. That a
task is split into two words is the model's choice (notes/assumptions/8.md). -/
def Obligations.TwoWordsMakeOneTask : Prop :=
  ∀ (s t : State) (b cl ch cl' ch' : Byte), s.ctl.closed = false →
    (∀ data : List Byte, data.length = 16 → exec (.write b cl ch) s = .next t →
      (t.ctl.awaiting = some (.writeData b) →
        exec (.writeData data cl' ch') t = .next (runTask (.write b data) s)) ∧
      (t.ctl.awaiting ≠ some (.writeData b) → t = runTask (.write b data) s)) ∧
    (∀ delta : Int, -2147483648 ≤ delta → delta ≤ 2147483647 →
      (exec (.increment b cl ch) s = .next t →
        (t.ctl.awaiting = some (.incrementOperand b) →
          exec (.valueOperand (BitVec.ofInt 32 delta) cl' ch') t =
            .next (runTask (.increment b delta) s)) ∧
        (t.ctl.awaiting ≠ some (.incrementOperand b) → t = runTask (.increment b delta) s)) ∧
      (exec (.decrement b cl ch) s = .next t →
        (t.ctl.awaiting = some (.decrementOperand b) →
          exec (.valueOperand (BitVec.ofInt 32 delta) cl' ch') t =
            .next (runTask (.decrement b delta) s)) ∧
        (t.ctl.awaiting ≠ some (.decrementOperand b) → t = runTask (.decrement b delta) s)))

/-- 00_scope.md rule R9 and 10_state.md rule R31: "issues one bus transaction per step". A step issues at
most one, and exactly one while a job goes on after it; and a task call so carried out ends in the state
the task run whole gives. -/
def Obligations.CallStepsRefineTheTask : Prop :=
  (∀ s t : State, step s = .next t →
    ∃ es, t.trace = s.trace ++ es ∧ transactions es ≤ 1 ∧
      (t.ctl.running ≠ none → transactions es = 1)) ∧
  ∀ (s : State) (task : Task) (rest : List Input), s.ctl.running = none →
    s.inbox = .call task :: rest →
    ∃ n, StepsTo (n + 1) s (runTask task { s with inbox := rest })

/-- 60_exceptions.md rules R342 and R344: an argument check fails before any bus transaction; the
failure ends the task, and a raise in a nested task ends the outer one too. The model's choices: which
of two failed checks is named (notes/assumptions/24.md), that a bad key in dump's key store raises
before any bus transaction (notes/assumptions/15.md), and that the nested task's Raise event enters the
trace (notes/assumptions/11.md). -/
def Obligations.RaisesBeforeBusTraffic : Prop :=
  ∀ (s : State), s.ctl.closed = false →
    let raised (es : List Event) : State :=
      { s with ctl := { s.ctl with awaiting := none }, trace := s.trace ++ es }
    (∀ b data, data.length ≠ 16 → runTask (.write b data) s =
      raised [.raised .write (.invalidArgument .payloadLength)]) ∧
    (∀ uid, uid.length ≠ 5 → runTask (.select uid) s =
      raised [.raised .select (.invalidArgument .uidLength)]) ∧
    (∀ m b key uid, key.length ≠ 6 → runTask (.authenticate m b key uid) s =
      raised [.raised .authenticate (.invalidArgument .keyLength)]) ∧
    (∀ m b key uid, key.length = 6 → uid.length < 4 → runTask (.authenticate m b key uid) s =
      raised [.raised .authenticate (.invalidArgument .uidLength)]) ∧
    (∀ b delta, (delta < -2147483648 ∨ 2147483647 < delta) →
      runTask (.increment b delta) s = raised [.raised .increment (.invalidArgument .deltaRange)] ∧
      runTask (.decrement b delta) s = raised [.raised .decrement (.invalidArgument .deltaRange)]) ∧
    ∀ (uid : List Byte) (keys : Vector KeyPair 16),
      let sixBytes : Prop := ∀ k ∈ keys.toList, k.keyA.length = 6 ∧ k.keyB.length = 6
      (¬sixBytes → runTask (.dump uid keys) s = raised [.raised .dump (.invalidArgument .keyLength)]) ∧
      (sixBytes → uid.length < 4 → runTask (.dump uid keys) s =
        raised [.raised .authenticate (.invalidArgument .uidLength),
          .raised .dump (.invalidArgument .uidLength)])

/-- 44_picc_operations.md rules R320 and R322: DUMP is its loop over the blocks 0 to 63, in terms of the
tasks it calls: authenticate with key A, with key B if that failed, then read, or the log of the skipped
block. Its result holds the blocks whose authenticate returned OK and whose read gave Data, in increasing
order, each at most once, each with sixteen bytes; no link condition aborts it. That each nested task's
Return event enters the trace is notes/assumptions/11.md. -/
def Obligations.DumpReturnsRisingBlocks : Prop :=
  ∀ (uid : List Byte) (keys : Vector KeyPair 16) (s : State), s.ctl.closed = false →
    keysWellFormed keys = true → 4 ≤ uid.length →
    let r := dumpTasks uid keys (List.range 64) (s.setAwaiting none)
    runTask (.dump uid keys) s = r.1.emit (.ret .dump (.blocks r.2)) ∧
    (r.2.map fun p => p.1.toNat).Pairwise (· < ·) ∧
    ∀ p ∈ r.2, p.1.toNat < 64 ∧ p.2.length = 16

/-- 70_reset_and_hazards.md rules R373 to R375: what init does from any state of an open controller,
its events, and the state it leaves, in which a session may start. The Return event of antenna_on,
called by init, is notes/assumptions/11.md. -/
def Obligations.InitLeavesTheMachineReady : Prop :=
  ∀ s : State, s.ctl.closed = false → s.cfg = defaultConfig →
    (runTask .init s).Ready ∧
    runTask .init s = { s with
      ctl := { s.ctl with awaiting := none }
      rst := .high
      dev := {
        mem := [(0x11, 0x3D), (0x14, 0x83), (0x15, 0x40), (0x26, 0x70), (0x2A, 0x8D),
          (0x2B, 0x3E), (0x2D, 0x1E)]
        fifo := [], active := .idle, txArmed := false, crcAcc := 0xFFFF, crcResult := 0xFFFF
        crcPending := none, pending := none }
      trace := s.trace ++ (if s.rst = .low then [.rst .high] else []) ++
        [.bus .w 0x01 0x0F, .bus .w 0x2A 0x8D, .bus .w 0x2B 0x3E, .bus .w 0x2D 0x1E,
          .bus .w 0x2C 0x00, .bus .w 0x15 0x40, .bus .w 0x11 0x3D, .bus .w 0x26 0x70,
          .bus .r 0x14 0x80, .bus .w 0x14 0x83, .ret .antennaOn .unit, .ret .init .unit] }

/-- 70_reset_and_hazards.md rules R376 and R377: antenna_on and stop_crypto on a device with nothing
pending. -/
def Obligations.AntennaAndCryptoTasks : Prop :=
  ∀ s : State, s.ctl.closed = false → s.Quiet →
    (∃ t, runTask .antennaOn s = t ∧
      t = { s with
        ctl := { s.ctl with awaiting := none }
        dev := { s.dev with mem := t.dev.mem }
        trace := s.trace ++ [.bus .r (s.addr .txControl) (s.x .txControl),
          .bus .w (s.addr .txControl) (s.x .txControl ||| 0x03), .ret .antennaOn .unit] } ∧
      ∀ r, t.dev.mem.read r =
        if r = s.addr .txControl then s.x .txControl ||| 0x03 else s.dev.mem.read r) ∧
    (∃ t v, runTask .stopCrypto s = t ∧
      t = { s with
        ctl := { s.ctl with awaiting := none }
        dev := { s.dev with mem := t.dev.mem }
        oracle := if s.dev.active = .idle then s.oracle
          else { s.oracle with draws := s.oracle.draws.tail, made := s.oracle.made + 1 }
        trace := s.trace ++ [.bus .r (s.addr .status2) v,
          .bus .w (s.addr .status2) (v &&& 0xF7), .ret .stopCrypto .unit] } ∧
      v &&& 0xF8 = s.x .status2 &&& 0xC8 ∧
      ∀ r, t.dev.mem.read r =
        if r = s.addr .status2 then s.x .status2 &&& 0xF7 else s.dev.mem.read r)

/-- 70_reset_and_hazards.md rule R378: close, and whatever comes after it: a task, and an instruction
given as a raw word too (notes/assumptions/10.md), faults UseAfterClose, keeps every earlier fault and
does nothing else. A second-phase frame out of position is refused as ever (notes/assumptions/9.md). -/
def Obligations.CloseEndsTheSession : Prop :=
  (∀ s : State, s.ctl.closed = false →
    runTask .close s = { s with
      ctl := { s.ctl with awaiting := none, closed := true }
      trace := s.trace ++ [.ret .close .unit] }) ∧
  (∀ s : State, s.ctl.closed = true →
    ∃ t, FaultAdded s t .useAfterClose ∧ t = { s with faults := t.faults } ∧
      (∀ task, runTask task s = t) ∧
      ∀ i : Instr,
        (s.OutOfPosition i → exec i s = .refused .noFirstPhase) ∧
        (¬s.OutOfPosition i → exec i s = .next t))

/-! ### Value blocks and UID strings -/

/-- 44_picc_operations.md rules R330 to R332: the layout of a value block, the round trip, that
changing any single byte makes the check false, and the five relations. -/
def Obligations.ValueBlocks : Prop :=
  (∀ value address : Int, -2147483648 ≤ value → value ≤ 2147483647 → 0 ≤ address → address ≤ 255 →
    ∃ block : List Byte, formatValueBlock value address = .ok block ∧
      (∃ (v0 v1 v2 v3 a : Byte), v3 ++ v2 ++ v1 ++ v0 = BitVec.ofInt 32 value ∧
        a = BitVec.ofInt 8 address ∧
        block = [v0, v1, v2, v3, ~~~v0, ~~~v1, ~~~v2, ~~~v3, v0, v1, v2, v3, a, ~~~a, a, ~~~a]) ∧
      checkValueBlock block = .ok true ∧ getBlockValue block = .ok value ∧
      ∀ (n : Nat) (b : Byte), n < 16 → block[n]? ≠ some b →
        checkValueBlock (block.set n b) = .ok false ∧
        getBlockValue (block.set n b) = .error .invalidBlock) ∧
  (∀ value address : Int, (value < -2147483648 ∨ 2147483647 < value ∨ address < 0 ∨ 255 < address) →
    ∃ why, formatValueBlock value address = .error (.invalidArgument why)) ∧
  (∀ block : List Byte, block.length ≠ 16 →
    checkValueBlock block = .error (.invalidArgument .blockLength) ∧
    getBlockValue block = .error (.invalidArgument .blockLength)) ∧
  ∀ (v0 v1 v2 v3 w0 w1 w2 w3 c0 c1 c2 c3 a0 a1 a2 a3 : Byte),
    let block := [v0, v1, v2, v3, w0, w1, w2, w3, c0, c1, c2, c3, a0, a1, a2, a3]
    let related : Prop :=
      (v0 = ~~~w0 ∧ v1 = ~~~w1 ∧ v2 = ~~~w2 ∧ v3 = ~~~w3) ∧
      (v0 = c0 ∧ v1 = c1 ∧ v2 = c2 ∧ v3 = c3) ∧
      a0 = ~~~a1 ∧ a0 = a2 ∧ a0 = ~~~a3
    (related → checkValueBlock block = .ok true ∧
      getBlockValue block = .ok (v3 ++ v2 ++ v1 ++ v0).toInt) ∧
    (¬related → checkValueBlock block = .ok false ∧ getBlockValue block = .error .invalidBlock)

/-- 44_picc_operations.md rules R293, R335 and R336: the identity strings, their round trips, and which
strings are accepted. -/
def Obligations.UidStrings : Prop :=
  (∀ u0 u1 u2 u3 : Byte, ∃ text,
    uidToHex [u0, u1, u2, u3, u0 ^^^ u1 ^^^ u2 ^^^ u3] = .ok text ∧ text.length = 8 ∧
    hexToUid text = .ok [u0, u1, u2, u3, u0 ^^^ u1 ^^^ u2 ^^^ u3]) ∧
  (∀ (text : List Char) (uid : List Byte), hexToUid text = .ok uid →
    text.length = 8 ∧ uidWellFormed uid = true ∧
    uidToHex uid = .ok (text.map Char.toUpper)) ∧
  (∀ uid : List Byte, uid.length ≠ 5 → uidToHex uid = .error (.invalidArgument .uidLength)) ∧
  ∀ text : List Char,
    let digits : List Char := ['0', '1', '2', '3', '4', '5', '6', '7', '8', '9',
      'A', 'B', 'C', 'D', 'E', 'F', 'a', 'b', 'c', 'd', 'e', 'f']
    (text.length = 8 → (∀ c ∈ text, c ∈ digits) → ∃ uid, hexToUid text = .ok uid) ∧
    (text.length ≠ 8 ∨ (∃ c ∈ text, c ∉ digits) →
      hexToUid text = .error (.invalidArgument .hexText))

/-! ### The whole machine -/

/-- 70_reset_and_hazards.md rule R372 and 10_state.md rules R40 and R41: the start state, the addresses
of the named registers, and the reset value of every register. -/
def Obligations.StartStateAndResetValues : Prop :=
  State.reset.rst = .low ∧ State.reset.ctl.running = none ∧ State.reset.ctl.closed = false ∧
  State.reset.ctl.crcPollExhausted = 0 ∧ State.reset.trace = [] ∧ State.reset.faults = [] ∧
  State.reset.dev.fifo = [] ∧ State.reset.dev.active = .idle ∧ State.reset.dev.txArmed = false ∧
  State.reset.dev.pending = none ∧ State.reset.dev.crcPending = none ∧
  State.reset.dev.crcAcc = 0xFFFF ∧ State.reset.dev.crcResult = 0xFFFF ∧
  State.reset.cfg.map.width = 6 ∧
  (∀ p ∈ [(Reg.command, 0x01), (.comIEn, 0x02), (.divIEn, 0x03), (.comIrq, 0x04), (.divIrq, 0x05),
      (.error, 0x06), (.status1, 0x07), (.status2, 0x08), (.fifoData, 0x09), (.fifoLevel, 0x0A),
      (.control, 0x0C), (.bitFraming, 0x0D), (.mode, 0x11), (.txControl, 0x14), (.txAsk, 0x15),
      (.crcResultM, 0x21), (.crcResultL, 0x22), (.rfCfg, 0x26), (.tMode, 0x2A), (.tPrescaler, 0x2B),
      (.tReloadH, 0x2C), (.tReloadL, 0x2D), (.tCounterH, 0x2E), (.tCounterL, 0x2F)],
    State.reset.addr p.1 = p.2) ∧
  ∀ a, State.reset.dev.mem.read a =
    if a = 0x01 then 0x20 else if a = 0x02 then 0x80 else if a = 0x04 then 0x14
    else if a = 0x07 then 0x21 else if a = 0x0C then 0x10 else if a = 0x11 then 0x3F
    else if a = 0x14 then 0x80 else if a = 0x21 then 0xFF else if a = 0x22 then 0xFF
    else if a = 0x26 then 0x48 else 0x00

/-- The start state meets the invariant. -/
def Obligations.StartStateMeetsTheInvariant : Prop := State.reset.Inv

/-- Every step keeps the invariant: canonical memory, the FIFO within its depth, `tx_armed` as
10_state.md rule R66 says (either way while Idle, after a Receive: notes/assumptions/27.md), pending
items only with their command and never due (40_bus.md rule R166), and a device held in reset while the
line is low. -/
def Obligations.EveryStepKeepsTheInvariant : Prop :=
  ∀ s t : State, s.Inv → step s = .next t → t.Inv

/-- 60_exceptions.md rule R347: "No task of this spec causes a fault in a run that starts from reset
and calls init first". Here the run starts from any state with the controller open, and goes on with
any tasks but close. -/
def Obligations.TasksAfterInitCauseNoFault : Prop :=
  ∀ (s : State) (tasks : List Task), s.ctl.closed = false → s.cfg = defaultConfig →
    s.faults = [] → (∀ t ∈ tasks, t ≠ .close) →
    (tasks.foldl (fun s t => runTask t s) (runTask .init s)).faults = []

/-- 10_state.md rule R50: MFCrypto1On "is set only by a successful MFAuthent outcome". The premise on
the reset value holds of the default table and keeps a reset from setting it. -/
def Obligations.CryptoTurnsOnOnlyByAuthOk : Prop :=
  ∀ s t : State, (Memory.read s.cfg.resetCells (s.addr .status2)).getLsbD 3 = false → step s = .next t →
    (s.x .status2).getLsbD 3 = false → (t.x .status2).getLsbD 3 = true →
    ∃ es, t.trace = s.trace ++ es ∧ .outcome .authOk ∈ es

/-- 10_state.md rule R33: the trace is append-only, and "The trace never affects any other state". -/
def Obligations.TraceIsInert : Prop :=
  ∀ (s : State) (tr : List Event),
    (∀ t, step s = .next t → ∃ es, t.trace = s.trace ++ es ∧
      step { s with trace := tr } = .next { t with trace := tr ++ es }) ∧
    ∀ r, step s = .refused r → step { s with trace := tr } = .refused r

/-! ### The session protocol -/

/-- 44_picc_operations.md rule R310: the rows of the session table, the return to Idle on any failed call
at Requested or Anticollided, and what alone reaches Authenticated. That SELECT's size 0 is a failure,
and that a call no row covers leaves the session, is notes/assumptions/23.md. -/
def Obligations.SessionProtocol : Prop :=
  (∀ mode n st, Session.idle.after (.request mode) (.statusBits st n) =
    if st = .ok then .requested else .idle) ∧
  (∀ uid st, Session.requested.after .anticollision (.statusUid st uid) =
    if st = .ok then .anticollided uid else .idle) ∧
  (∀ uid sak, (Session.anticollided uid).after (.select uid) (.size sak) =
    if sak ≠ 0 then .selected else .idle) ∧
  (∀ m b key uid st, Session.selected.after (.authenticate m b key uid) (.status st) =
    if st = .ok then .authenticated (b.toNat / 4) else .selected) ∧
  (∀ n m b key uid st, (Session.authenticated n).after (.authenticate m b key uid) (.status st) =
    if st = .ok then .authenticated (b.toNat / 4) else .authenticated n) ∧
  (∀ n b data delta r, ∀ call ∈ [Task.read b, .write b data, .increment b delta, .decrement b delta,
      .transfer b], (Session.authenticated n).after call r = .authenticated n) ∧
  (∀ n, (Session.authenticated n).after .stopCrypto .unit = .idle) ∧
  (∀ (call : Task) (uid bytes : List Byte) (n : Int) (st : Status), st ≠ .ok →
    ∀ r ∈ [Result.txrx st bytes n, .statusBits st n, .statusUid st bytes, .size 0, .status st,
        .noData st],
      Session.requested.after call r = .idle ∧ (Session.anticollided uid).after call r = .idle) ∧
  ∀ (s : Session) (call : Task) (r : Result) (n : Nat), s.after call r = .authenticated n →
    s = .authenticated n ∨
    ∃ m b key uid, call = .authenticate m b key uid ∧ r = .status .ok ∧ n = b.toNat / 4 ∧
      (s = .selected ∨ ∃ k, s = .authenticated k)
end

