-- ==== Sys2Proof/Laws/Memory.lean ====
section
/-! SUPPORT. Memory: a read after a write, and every operation keeps the canonical form. -/

namespace Sys2Proof.Machine

theorem Memory.read_erase (m : Memory) (a b : Nat) :
    (m.erase a).read b = if b = a then resetByte b else m.read b := by
  induction m with
  | nil => simp [Memory.erase, Memory.read]
  | cons c m ih =>
    obtain ⟨k, w⟩ := c
    simp only [Memory.erase, List.filter_cons, bne_iff_ne] at ih ⊢
    by_cases hk : k = a <;> by_cases hb : b = a <;> by_cases hkb : b = k <;>
      simp_all [Memory.read]

theorem Memory.read_insert (m : Memory) (a b : Nat) (v : Byte)
    (h : ∀ c ∈ m, c.1 ≠ a) :
    (m.insert a v).read b = if b = a then v else m.read b := by
  induction m with
  | nil => simp [Memory.insert, Memory.read]
  | cons c m ih =>
    obtain ⟨k, w⟩ := c
    have hk : k ≠ a := h (k, w) (by simp)
    have ih := ih fun c hc => h c (by simp [hc])
    simp only [Memory.insert]
    by_cases hlt : a < k
    · simp [hlt, Memory.read]
    · by_cases hbk : b = k
      · simp [hlt, Memory.read, hbk, hk]
      · simp [hlt, Memory.read, hbk, ih]

theorem Memory.erase_ne (m : Memory) (a : Nat) : ∀ c ∈ m.erase a, c.1 ≠ a := by
  intro c hc
  simpa using (List.mem_filter.mp hc).2

/-- A read after a write. -/
theorem Memory.read_write (m : Memory) (a b : Nat) (v : Byte) :
    (m.write a v).read b = if b = a then v else m.read b := by
  unfold Memory.write
  by_cases hv : v = resetByte a
  · rw [if_pos hv, Memory.read_erase]
    split <;> simp_all
  · rw [if_neg hv, Memory.read_insert _ _ _ _ (Memory.erase_ne m a), Memory.read_erase]
    split <;> simp_all

@[simp] theorem Memory.read_write_same (m : Memory) (a : Nat) (v : Byte) :
    (m.write a v).read a = v := by simp [Memory.read_write]

theorem Memory.read_write_ne (m : Memory) {a b : Nat} (v : Byte) (h : b ≠ a) :
    (m.write a v).read b = m.read b := by simp [Memory.read_write, h]

/-- The canonical form, cell by cell. -/
theorem Memory.wf_cons (a : Nat) (v : Byte) (m : Memory) :
    Memory.wf ((a, v) :: m) = true ↔
      v ≠ resetByte a ∧ (∀ c ∈ m, a < c.1) ∧ Memory.wf m = true := by
  simp [Memory.wf, and_assoc]

theorem Memory.wf_erase {m : Memory} (h : m.wf = true) (a : Nat) : (m.erase a).wf = true := by
  induction m with
  | nil => rfl
  | cons c m ih =>
    obtain ⟨k, w⟩ := c
    rw [Memory.wf_cons] at h
    obtain ⟨hw, hlt, hm⟩ := h
    simp only [Memory.erase, List.filter_cons]
    split
    · exact (Memory.wf_cons _ _ _).mpr
        ⟨hw, fun c hc => hlt c (List.mem_filter.mp hc).1, ih hm⟩
    · exact ih hm

theorem Memory.mem_insert {m : Memory} {a : Nat} {v : Byte} {c : Host.Cell}
    (h : c ∈ m.insert a v) : c = (a, v) ∨ c ∈ m := by
  induction m with
  | nil => simpa [Memory.insert] using h
  | cons d m ih =>
    obtain ⟨k, w⟩ := d
    simp only [Memory.insert] at h
    split at h
    · simpa using h
    · rcases List.mem_cons.mp h with h | h
      · simp [h]
      · rcases ih h with h | h <;> simp [h]

theorem Memory.wf_insert {m : Memory} {a : Nat} {v : Byte} (h : m.wf = true)
    (hv : v ≠ resetByte a) (hne : ∀ c ∈ m, c.1 ≠ a) :
    (m.insert a v).wf = true := by
  induction m with
  | nil => exact (Memory.wf_cons _ _ _).mpr ⟨hv, by simp, rfl⟩
  | cons c m ih =>
    obtain ⟨k, w⟩ := c
    have hall := h
    rw [Memory.wf_cons] at h
    obtain ⟨hw, hlt, hm⟩ := h
    have hka : k ≠ a := hne (k, w) (by simp)
    simp only [Memory.insert]
    split
    · rename_i hlt'
      refine (Memory.wf_cons _ _ _).mpr ⟨hv, ?_, hall⟩
      intro c hc
      rcases List.mem_cons.mp hc with rfl | hc
      · exact hlt'
      · exact Nat.lt_trans hlt' (hlt c hc)
    · refine (Memory.wf_cons _ _ _).mpr ⟨hw, ?_, ih hm fun c hc => hne c (by simp [hc])⟩
      intro c hc
      rcases Memory.mem_insert hc with rfl | hc
      · show k < a
        omega
      · exact hlt c hc

/-- A write keeps the canonical form. -/
theorem Memory.wf_write {m : Memory} (h : m.wf = true) (a : Nat) (v : Byte) :
    (m.write a v).wf = true := by
  unfold Memory.write
  split
  · exact Memory.wf_erase h a
  · rename_i hv
    exact Memory.wf_insert (Memory.wf_erase h a) hv (Memory.erase_ne m a)

/-- A write of an address below the limit keeps every address below it. -/
theorem Memory.below_write {m : Memory} {limit a : Nat} (h : m.below limit = true) (ha : a < limit)
    (v : Byte) : (m.write a v).below limit = true := by
  have herase : (m.erase a).below limit = true := by
    simp only [Memory.below, List.all_eq_true] at h ⊢
    exact fun c hc => h c (List.mem_filter.mp hc).1
  unfold Memory.write
  split
  · exact herase
  · simp only [Memory.below, List.all_eq_true, decide_eq_true_eq] at herase ⊢
    intro c hc
    rcases Memory.mem_insert hc with rfl | hc
    · exact ha
    · exact herase c hc

/-- Two memories in canonical form that read the same everywhere are the same data. -/
theorem Memory.ext_of_read {m n : Memory} (hm : m.wf = true) (hn : n.wf = true)
    (h : ∀ a, m.read a = n.read a) : m = n := by
  induction m generalizing n with
  | nil =>
    cases n with
    | nil => rfl
    | cons d n =>
      obtain ⟨b, w⟩ := d
      have hb := h b
      rw [Memory.wf_cons] at hn
      simp [Memory.read] at hb
      exact absurd hb.symm hn.1
  | cons c m ih =>
    obtain ⟨a, v⟩ := c
    cases n with
    | nil =>
      have ha := h a
      rw [Memory.wf_cons] at hm
      simp [Memory.read] at ha
      exact absurd ha hm.1
    | cons d n =>
      obtain ⟨b, w⟩ := d
      rw [Memory.wf_cons] at hm hn
      have reset_below : ∀ (l : Memory) (k x : Nat), (∀ c ∈ l, k < c.1) → x ≤ k →
          Memory.read l x = resetByte x := by
        intro l k x hl hx
        induction l with
        | nil => rfl
        | cons e l ihl =>
          have hlt := hl e (by simp)
          have hne : x ≠ e.1 := by omega
          simpa [Memory.read, hne] using ihl fun c hc => hl c (by simp [hc])
      have hab : a = b := by
        rcases Nat.lt_trichotomy a b with hlt | heq | hgt
        · have ha := h a
          have hne : a ≠ b := by omega
          simp [Memory.read, hne] at ha
          rw [reset_below n b a hn.2.1 (by omega)] at ha
          exact absurd ha hm.1
        · exact heq
        · have hb := h b
          have hne : b ≠ a := by omega
          simp [Memory.read, hne] at hb
          rw [reset_below m a b hm.2.1 (by omega)] at hb
          exact absurd hb.symm hn.1
      subst hab
      have hvw : v = w := by simpa [Memory.read] using h a
      subst hvw
      congr 1
      refine ih hm.2.2 hn.2.2 fun x => ?_
      by_cases hx : x = a
      · subst hx
        rw [reset_below m x x hm.2.1 le_rfl, reset_below n x x hn.2.1 le_rfl]
      · simpa [Memory.read, hx] using h x

end Sys2Proof.Machine
end

