-- ==== Sys2Proof/Laws/State.lean ====
section
/-! SUPPORT. One lemma per field per update: what each shared update of the state leaves and sets. -/

namespace Sys2Proof.Machine

/-! ### Register names and addresses -/

theorem Reg.mem_all (r : Reg) : r ∈ Reg.all := by cases r <;> decide

theorem Reg.ctorIdx_lt (r : Reg) : r.ctorIdx < 24 := by cases r <;> decide

theorem Reg.ctorIdx_inj {r q : Reg} (h : r.ctorIdx = q.ctorIdx) : r = q := by
  have hr : Reg.all[r.ctorIdx]? = some r := by cases r <;> rfl
  have hq : Reg.all[q.ctorIdx]? = some q := by cases q <;> rfl
  rw [h, hq] at hr
  exact (Option.some.inj hr).symm

theorem AddressMap.spec (m : AddressMap) :
    m.addrs.length = 24 ∧ m.addrs.Nodup ∧ ∀ a ∈ m.addrs, a < m.limit := by
  have h := m.fit
  simp only [addressesFit, Bool.and_eq_true, beq_iff_eq, decide_eq_true_eq, List.all_eq_true] at h
  exact ⟨h.1.1, h.1.2, h.2⟩

theorem AddressMap.addr_eq (m : AddressMap) (r : Reg) :
    ∃ h : r.ctorIdx < m.addrs.length, m.addr r = m.addrs[r.ctorIdx] :=
  ⟨by rw [m.spec.1]; exact r.ctorIdx_lt, by simp [AddressMap.addr, m.spec.1, r.ctorIdx_lt]⟩

/-- Every register has an address of the register address space. -/
theorem AddressMap.addr_lt (m : AddressMap) (r : Reg) : m.addr r < m.limit := by
  obtain ⟨h, ha⟩ := m.addr_eq r
  rw [ha]
  exact m.spec.2.2 _ (List.getElem_mem h)

@[simp] theorem AddressMap.not_limit_le (m : AddressMap) (r : Reg) : ¬ m.limit ≤ m.addr r :=
  Nat.not_le.mpr (m.addr_lt r)

/-- No two registers have one address. -/
theorem AddressMap.addr_inj {m : AddressMap} {r q : Reg} (h : m.addr r = m.addr q) : r = q := by
  obtain ⟨hr, hr'⟩ := m.addr_eq r
  obtain ⟨hq, hq'⟩ := m.addr_eq q
  rw [hr', hq'] at h
  exact Reg.ctorIdx_inj ((m.spec.2.1.getElem_inj_iff).mp h)

@[simp] theorem AddressMap.addr_eq_iff (m : AddressMap) (r q : Reg) : m.addr r = m.addr q ↔ r = q :=
  ⟨AddressMap.addr_inj, fun h => h ▸ rfl⟩

theorem AddressMap.eq_addr_of_regAt {m : AddressMap} {a : Nat} {r : Reg} (h : m.regAt a = some r) :
    a = m.addr r := by
  have := List.find?_some h
  exact (beq_iff_eq.mp this).symm

@[simp] theorem AddressMap.regAt_addr (m : AddressMap) (r : Reg) : m.regAt (m.addr r) = some r := by
  cases h : m.regAt (m.addr r) with
  | none => exact absurd (beq_self_eq_true _) (List.find?_eq_none.mp h r r.mem_all)
  | some q => rw [AddressMap.addr_inj (AddressMap.eq_addr_of_regAt h)]

theorem AddressMap.regAt_none_ne {m : AddressMap} {a : Nat} (h : m.regAt a = none) (r : Reg) :
    m.addr r ≠ a := by
  rintro rfl
  simp at h

/-! ### State.emit -/

@[simp] theorem State.emit_cfg (e : Event) (s : State) : (s.emit e).cfg = s.cfg := rfl
@[simp] theorem State.emit_ctl (e : Event) (s : State) : (s.emit e).ctl = s.ctl := rfl
@[simp] theorem State.emit_dev (e : Event) (s : State) : (s.emit e).dev = s.dev := rfl
@[simp] theorem State.emit_rst (e : Event) (s : State) : (s.emit e).rst = s.rst := rfl
@[simp] theorem State.emit_trace (e : Event) (s : State) : (s.emit e).trace = s.trace ++ [e] := rfl
@[simp] theorem State.emit_faults (e : Event) (s : State) : (s.emit e).faults = s.faults := rfl
@[simp] theorem State.emit_oracle (e : Event) (s : State) : (s.emit e).oracle = s.oracle := rfl
@[simp] theorem State.emit_inbox (e : Event) (s : State) : (s.emit e).inbox = s.inbox := rfl
@[simp] theorem State.emit_x (e : Event) (s : State) (r : Reg) : (s.emit e).x r = s.x r := rfl

/-! ### State.addFault -/

@[simp] theorem State.addFault_cfg (f : Fault) (s : State) :
    (s.addFault f).cfg = s.cfg := by unfold State.addFault; split <;> rfl
@[simp] theorem State.addFault_ctl (f : Fault) (s : State) :
    (s.addFault f).ctl = s.ctl := by unfold State.addFault; split <;> rfl
@[simp] theorem State.addFault_dev (f : Fault) (s : State) :
    (s.addFault f).dev = s.dev := by unfold State.addFault; split <;> rfl
@[simp] theorem State.addFault_rst (f : Fault) (s : State) :
    (s.addFault f).rst = s.rst := by unfold State.addFault; split <;> rfl
@[simp] theorem State.addFault_trace (f : Fault) (s : State) :
    (s.addFault f).trace = s.trace := by unfold State.addFault; split <;> rfl
@[simp] theorem State.addFault_oracle (f : Fault) (s : State) :
    (s.addFault f).oracle = s.oracle := by unfold State.addFault; split <;> rfl
@[simp] theorem State.addFault_inbox (f : Fault) (s : State) :
    (s.addFault f).inbox = s.inbox := by unfold State.addFault; split <;> rfl
@[simp] theorem State.addFault_x (f : Fault) (s : State) (r : Reg) :
    (s.addFault f).x r = s.x r := by simp [State.x]

/-! ### State.draw -/

@[simp] theorem State.draw_cfg (s : State) :
    s.draw.2.cfg = s.cfg := by unfold State.draw; split <;> rfl
@[simp] theorem State.draw_ctl (s : State) :
    s.draw.2.ctl = s.ctl := by unfold State.draw; split <;> rfl
@[simp] theorem State.draw_dev (s : State) :
    s.draw.2.dev = s.dev := by unfold State.draw; split <;> rfl
@[simp] theorem State.draw_rst (s : State) :
    s.draw.2.rst = s.rst := by unfold State.draw; split <;> rfl
@[simp] theorem State.draw_trace (s : State) :
    s.draw.2.trace = s.trace := by unfold State.draw; split <;> rfl
@[simp] theorem State.draw_faults (s : State) :
    s.draw.2.faults = s.faults := by unfold State.draw; split <;> rfl
@[simp] theorem State.draw_inbox (s : State) :
    s.draw.2.inbox = s.inbox := by unfold State.draw; split <;> rfl
@[simp] theorem State.draw_x (s : State) (r : Reg) : s.draw.2.x r = s.x r := by simp [State.x]

/-! ### State.nextAnswer -/

@[simp] theorem State.nextAnswer_cfg (a : Active) (frame : List Byte) (s : State) :
    (s.nextAnswer a frame).2.cfg = s.cfg := by unfold State.nextAnswer; split <;> rfl
@[simp] theorem State.nextAnswer_ctl (a : Active) (frame : List Byte) (s : State) :
    (s.nextAnswer a frame).2.ctl = s.ctl := by unfold State.nextAnswer; split <;> rfl
@[simp] theorem State.nextAnswer_dev (a : Active) (frame : List Byte) (s : State) :
    (s.nextAnswer a frame).2.dev = s.dev := by unfold State.nextAnswer; split <;> rfl
@[simp] theorem State.nextAnswer_rst (a : Active) (frame : List Byte) (s : State) :
    (s.nextAnswer a frame).2.rst = s.rst := by unfold State.nextAnswer; split <;> rfl
@[simp] theorem State.nextAnswer_trace (a : Active) (frame : List Byte) (s : State) :
    (s.nextAnswer a frame).2.trace = s.trace := by unfold State.nextAnswer; split <;> rfl
@[simp] theorem State.nextAnswer_faults (a : Active) (frame : List Byte) (s : State) :
    (s.nextAnswer a frame).2.faults = s.faults := by unfold State.nextAnswer; split <;> rfl
@[simp] theorem State.nextAnswer_inbox (a : Active) (frame : List Byte) (s : State) :
    (s.nextAnswer a frame).2.inbox = s.inbox := by unfold State.nextAnswer; split <;> rfl
@[simp] theorem State.nextAnswer_x (a : Active) (frame : List Byte) (s : State) (r : Reg) :
    (s.nextAnswer a frame).2.x r = s.x r := by simp [State.x]

/-! ### State.setAt -/

@[simp] theorem State.setAt_cfg (a : Nat) (v : Byte) (s : State) : (s.setAt a v).cfg = s.cfg := rfl
@[simp] theorem State.setAt_ctl (a : Nat) (v : Byte) (s : State) : (s.setAt a v).ctl = s.ctl := rfl
@[simp] theorem State.setAt_rst (a : Nat) (v : Byte) (s : State) : (s.setAt a v).rst = s.rst := rfl
@[simp] theorem State.setAt_trace (a : Nat) (v : Byte) (s : State) :
    (s.setAt a v).trace = s.trace := rfl
@[simp] theorem State.setAt_faults (a : Nat) (v : Byte) (s : State) :
    (s.setAt a v).faults = s.faults := rfl
@[simp] theorem State.setAt_oracle (a : Nat) (v : Byte) (s : State) :
    (s.setAt a v).oracle = s.oracle := rfl
@[simp] theorem State.setAt_inbox (a : Nat) (v : Byte) (s : State) :
    (s.setAt a v).inbox = s.inbox := rfl
@[simp] theorem State.setAt_mem (a : Nat) (v : Byte) (s : State) :
    (s.setAt a v).dev.mem = s.dev.mem.write a v := rfl
@[simp] theorem State.setAt_fifo (a : Nat) (v : Byte) (s : State) :
    (s.setAt a v).dev.fifo = s.dev.fifo := rfl
@[simp] theorem State.setAt_active (a : Nat) (v : Byte) (s : State) :
    (s.setAt a v).dev.active = s.dev.active := rfl
@[simp] theorem State.setAt_txArmed (a : Nat) (v : Byte) (s : State) :
    (s.setAt a v).dev.txArmed = s.dev.txArmed := rfl
@[simp] theorem State.setAt_crcAcc (a : Nat) (v : Byte) (s : State) :
    (s.setAt a v).dev.crcAcc = s.dev.crcAcc := rfl
@[simp] theorem State.setAt_crcResult (a : Nat) (v : Byte) (s : State) :
    (s.setAt a v).dev.crcResult = s.dev.crcResult := rfl
@[simp] theorem State.setAt_crcPending (a : Nat) (v : Byte) (s : State) :
    (s.setAt a v).dev.crcPending = s.dev.crcPending := rfl
@[simp] theorem State.setAt_pending (a : Nat) (v : Byte) (s : State) :
    (s.setAt a v).dev.pending = s.dev.pending := rfl

theorem State.setAt_x_ne {a : Nat} {s : State} {q : Reg} (h : s.cfg.map.addr q ≠ a) (v : Byte) :
    (s.setAt a v).x q = s.x q := by
  simp [State.x, Memory.read_write, h]

/-! ### State.setX -/

@[simp] theorem State.setX_cfg (r : Reg) (v : Byte) (s : State) : (s.setX r v).cfg = s.cfg := rfl
@[simp] theorem State.setX_ctl (r : Reg) (v : Byte) (s : State) : (s.setX r v).ctl = s.ctl := rfl
@[simp] theorem State.setX_rst (r : Reg) (v : Byte) (s : State) : (s.setX r v).rst = s.rst := rfl
@[simp] theorem State.setX_trace (r : Reg) (v : Byte) (s : State) :
    (s.setX r v).trace = s.trace := rfl
@[simp] theorem State.setX_faults (r : Reg) (v : Byte) (s : State) :
    (s.setX r v).faults = s.faults := rfl
@[simp] theorem State.setX_oracle (r : Reg) (v : Byte) (s : State) :
    (s.setX r v).oracle = s.oracle := rfl
@[simp] theorem State.setX_inbox (r : Reg) (v : Byte) (s : State) :
    (s.setX r v).inbox = s.inbox := rfl
@[simp] theorem State.setX_mem (r : Reg) (v : Byte) (s : State) :
    (s.setX r v).dev.mem = s.dev.mem.write (s.cfg.map.addr r) v := rfl
@[simp] theorem State.setX_fifo (r : Reg) (v : Byte) (s : State) :
    (s.setX r v).dev.fifo = s.dev.fifo := rfl
@[simp] theorem State.setX_active (r : Reg) (v : Byte) (s : State) :
    (s.setX r v).dev.active = s.dev.active := rfl
@[simp] theorem State.setX_txArmed (r : Reg) (v : Byte) (s : State) :
    (s.setX r v).dev.txArmed = s.dev.txArmed := rfl
@[simp] theorem State.setX_crcAcc (r : Reg) (v : Byte) (s : State) :
    (s.setX r v).dev.crcAcc = s.dev.crcAcc := rfl
@[simp] theorem State.setX_crcResult (r : Reg) (v : Byte) (s : State) :
    (s.setX r v).dev.crcResult = s.dev.crcResult := rfl
@[simp] theorem State.setX_crcPending (r : Reg) (v : Byte) (s : State) :
    (s.setX r v).dev.crcPending = s.dev.crcPending := rfl
@[simp] theorem State.setX_pending (r : Reg) (v : Byte) (s : State) :
    (s.setX r v).dev.pending = s.dev.pending := rfl

theorem State.setX_x (r : Reg) (v : Byte) (s : State) (q : Reg) :
    (s.setX r v).x q = if q = r then v else s.x q := by
  simp [State.x, Memory.read_write]

@[simp] theorem State.setX_x_same (r : Reg) (v : Byte) (s : State) : (s.setX r v).x r = v := by
  simp [State.setX_x]

theorem State.setX_x_ne {r q : Reg} (h : q ≠ r) (v : Byte) (s : State) :
    (s.setX r v).x q = s.x q := by
  simp [State.setX_x, h]

/-! ### State.setFifo -/

@[simp] theorem State.setFifo_cfg (bs : List Byte) (s : State) : (s.setFifo bs).cfg = s.cfg := rfl
@[simp] theorem State.setFifo_ctl (bs : List Byte) (s : State) : (s.setFifo bs).ctl = s.ctl := rfl
@[simp] theorem State.setFifo_rst (bs : List Byte) (s : State) : (s.setFifo bs).rst = s.rst := rfl
@[simp] theorem State.setFifo_trace (bs : List Byte) (s : State) :
    (s.setFifo bs).trace = s.trace := rfl
@[simp] theorem State.setFifo_faults (bs : List Byte) (s : State) :
    (s.setFifo bs).faults = s.faults := rfl
@[simp] theorem State.setFifo_oracle (bs : List Byte) (s : State) :
    (s.setFifo bs).oracle = s.oracle := rfl
@[simp] theorem State.setFifo_inbox (bs : List Byte) (s : State) :
    (s.setFifo bs).inbox = s.inbox := rfl
@[simp] theorem State.setFifo_mem (bs : List Byte) (s : State) :
    (s.setFifo bs).dev.mem = s.dev.mem := rfl
@[simp] theorem State.setFifo_fifo (bs : List Byte) (s : State) :
    (s.setFifo bs).dev.fifo = bs := rfl
@[simp] theorem State.setFifo_active (bs : List Byte) (s : State) :
    (s.setFifo bs).dev.active = s.dev.active := rfl
@[simp] theorem State.setFifo_txArmed (bs : List Byte) (s : State) :
    (s.setFifo bs).dev.txArmed = s.dev.txArmed := rfl
@[simp] theorem State.setFifo_crcAcc (bs : List Byte) (s : State) :
    (s.setFifo bs).dev.crcAcc = s.dev.crcAcc := rfl
@[simp] theorem State.setFifo_crcResult (bs : List Byte) (s : State) :
    (s.setFifo bs).dev.crcResult = s.dev.crcResult := rfl
@[simp] theorem State.setFifo_crcPending (bs : List Byte) (s : State) :
    (s.setFifo bs).dev.crcPending = s.dev.crcPending := rfl
@[simp] theorem State.setFifo_pending (bs : List Byte) (s : State) :
    (s.setFifo bs).dev.pending = s.dev.pending := rfl
@[simp] theorem State.setFifo_x (bs : List Byte) (s : State) (r : Reg) :
    (s.setFifo bs).x r = s.x r := rfl

/-! ### State.setActive -/

@[simp] theorem State.setActive_cfg (a : Active) (s : State) : (s.setActive a).cfg = s.cfg := rfl
@[simp] theorem State.setActive_ctl (a : Active) (s : State) : (s.setActive a).ctl = s.ctl := rfl
@[simp] theorem State.setActive_rst (a : Active) (s : State) : (s.setActive a).rst = s.rst := rfl
@[simp] theorem State.setActive_trace (a : Active) (s : State) :
    (s.setActive a).trace = s.trace := rfl
@[simp] theorem State.setActive_faults (a : Active) (s : State) :
    (s.setActive a).faults = s.faults := rfl
@[simp] theorem State.setActive_oracle (a : Active) (s : State) :
    (s.setActive a).oracle = s.oracle := rfl
@[simp] theorem State.setActive_inbox (a : Active) (s : State) :
    (s.setActive a).inbox = s.inbox := rfl
@[simp] theorem State.setActive_mem (a : Active) (s : State) :
    (s.setActive a).dev.mem = s.dev.mem := rfl
@[simp] theorem State.setActive_fifo (a : Active) (s : State) :
    (s.setActive a).dev.fifo = s.dev.fifo := rfl
@[simp] theorem State.setActive_active (a : Active) (s : State) :
    (s.setActive a).dev.active = a := rfl
@[simp] theorem State.setActive_txArmed (a : Active) (s : State) :
    (s.setActive a).dev.txArmed = s.dev.txArmed := rfl
@[simp] theorem State.setActive_crcAcc (a : Active) (s : State) :
    (s.setActive a).dev.crcAcc = s.dev.crcAcc := rfl
@[simp] theorem State.setActive_crcResult (a : Active) (s : State) :
    (s.setActive a).dev.crcResult = s.dev.crcResult := rfl
@[simp] theorem State.setActive_crcPending (a : Active) (s : State) :
    (s.setActive a).dev.crcPending = s.dev.crcPending := rfl
@[simp] theorem State.setActive_pending (a : Active) (s : State) :
    (s.setActive a).dev.pending = s.dev.pending := rfl
@[simp] theorem State.setActive_x (a : Active) (s : State) (r : Reg) :
    (s.setActive a).x r = s.x r := rfl

/-! ### State.setTxArmed -/

@[simp] theorem State.setTxArmed_cfg (b : Bool) (s : State) : (s.setTxArmed b).cfg = s.cfg := rfl
@[simp] theorem State.setTxArmed_ctl (b : Bool) (s : State) : (s.setTxArmed b).ctl = s.ctl := rfl
@[simp] theorem State.setTxArmed_rst (b : Bool) (s : State) : (s.setTxArmed b).rst = s.rst := rfl
@[simp] theorem State.setTxArmed_trace (b : Bool) (s : State) :
    (s.setTxArmed b).trace = s.trace := rfl
@[simp] theorem State.setTxArmed_faults (b : Bool) (s : State) :
    (s.setTxArmed b).faults = s.faults := rfl
@[simp] theorem State.setTxArmed_oracle (b : Bool) (s : State) :
    (s.setTxArmed b).oracle = s.oracle := rfl
@[simp] theorem State.setTxArmed_inbox (b : Bool) (s : State) :
    (s.setTxArmed b).inbox = s.inbox := rfl
@[simp] theorem State.setTxArmed_mem (b : Bool) (s : State) :
    (s.setTxArmed b).dev.mem = s.dev.mem := rfl
@[simp] theorem State.setTxArmed_fifo (b : Bool) (s : State) :
    (s.setTxArmed b).dev.fifo = s.dev.fifo := rfl
@[simp] theorem State.setTxArmed_active (b : Bool) (s : State) :
    (s.setTxArmed b).dev.active = s.dev.active := rfl
@[simp] theorem State.setTxArmed_txArmed (b : Bool) (s : State) :
    (s.setTxArmed b).dev.txArmed = b := rfl
@[simp] theorem State.setTxArmed_crcAcc (b : Bool) (s : State) :
    (s.setTxArmed b).dev.crcAcc = s.dev.crcAcc := rfl
@[simp] theorem State.setTxArmed_crcResult (b : Bool) (s : State) :
    (s.setTxArmed b).dev.crcResult = s.dev.crcResult := rfl
@[simp] theorem State.setTxArmed_crcPending (b : Bool) (s : State) :
    (s.setTxArmed b).dev.crcPending = s.dev.crcPending := rfl
@[simp] theorem State.setTxArmed_pending (b : Bool) (s : State) :
    (s.setTxArmed b).dev.pending = s.dev.pending := rfl
@[simp] theorem State.setTxArmed_x (b : Bool) (s : State) (r : Reg) :
    (s.setTxArmed b).x r = s.x r := rfl

/-! ### State.setPending -/

@[simp] theorem State.setPending_cfg (p : Option Pending) (s : State) :
    (s.setPending p).cfg = s.cfg := rfl
@[simp] theorem State.setPending_ctl (p : Option Pending) (s : State) :
    (s.setPending p).ctl = s.ctl := rfl
@[simp] theorem State.setPending_rst (p : Option Pending) (s : State) :
    (s.setPending p).rst = s.rst := rfl
@[simp] theorem State.setPending_trace (p : Option Pending) (s : State) :
    (s.setPending p).trace = s.trace := rfl
@[simp] theorem State.setPending_faults (p : Option Pending) (s : State) :
    (s.setPending p).faults = s.faults := rfl
@[simp] theorem State.setPending_oracle (p : Option Pending) (s : State) :
    (s.setPending p).oracle = s.oracle := rfl
@[simp] theorem State.setPending_inbox (p : Option Pending) (s : State) :
    (s.setPending p).inbox = s.inbox := rfl
@[simp] theorem State.setPending_mem (p : Option Pending) (s : State) :
    (s.setPending p).dev.mem = s.dev.mem := rfl
@[simp] theorem State.setPending_fifo (p : Option Pending) (s : State) :
    (s.setPending p).dev.fifo = s.dev.fifo := rfl
@[simp] theorem State.setPending_active (p : Option Pending) (s : State) :
    (s.setPending p).dev.active = s.dev.active := rfl
@[simp] theorem State.setPending_txArmed (p : Option Pending) (s : State) :
    (s.setPending p).dev.txArmed = s.dev.txArmed := rfl
@[simp] theorem State.setPending_crcAcc (p : Option Pending) (s : State) :
    (s.setPending p).dev.crcAcc = s.dev.crcAcc := rfl
@[simp] theorem State.setPending_crcResult (p : Option Pending) (s : State) :
    (s.setPending p).dev.crcResult = s.dev.crcResult := rfl
@[simp] theorem State.setPending_crcPending (p : Option Pending) (s : State) :
    (s.setPending p).dev.crcPending = s.dev.crcPending := rfl
@[simp] theorem State.setPending_pending (p : Option Pending) (s : State) :
    (s.setPending p).dev.pending = p := rfl
@[simp] theorem State.setPending_x (p : Option Pending) (s : State) (r : Reg) :
    (s.setPending p).x r = s.x r := rfl

/-! ### State.setCrcPending -/

@[simp] theorem State.setCrcPending_cfg (p : Option CrcPending) (s : State) :
    (s.setCrcPending p).cfg = s.cfg := rfl
@[simp] theorem State.setCrcPending_ctl (p : Option CrcPending) (s : State) :
    (s.setCrcPending p).ctl = s.ctl := rfl
@[simp] theorem State.setCrcPending_rst (p : Option CrcPending) (s : State) :
    (s.setCrcPending p).rst = s.rst := rfl
@[simp] theorem State.setCrcPending_trace (p : Option CrcPending) (s : State) :
    (s.setCrcPending p).trace = s.trace := rfl
@[simp] theorem State.setCrcPending_faults (p : Option CrcPending) (s : State) :
    (s.setCrcPending p).faults = s.faults := rfl
@[simp] theorem State.setCrcPending_oracle (p : Option CrcPending) (s : State) :
    (s.setCrcPending p).oracle = s.oracle := rfl
@[simp] theorem State.setCrcPending_inbox (p : Option CrcPending) (s : State) :
    (s.setCrcPending p).inbox = s.inbox := rfl
@[simp] theorem State.setCrcPending_mem (p : Option CrcPending) (s : State) :
    (s.setCrcPending p).dev.mem = s.dev.mem := rfl
@[simp] theorem State.setCrcPending_fifo (p : Option CrcPending) (s : State) :
    (s.setCrcPending p).dev.fifo = s.dev.fifo := rfl
@[simp] theorem State.setCrcPending_active (p : Option CrcPending) (s : State) :
    (s.setCrcPending p).dev.active = s.dev.active := rfl
@[simp] theorem State.setCrcPending_txArmed (p : Option CrcPending) (s : State) :
    (s.setCrcPending p).dev.txArmed = s.dev.txArmed := rfl
@[simp] theorem State.setCrcPending_crcAcc (p : Option CrcPending) (s : State) :
    (s.setCrcPending p).dev.crcAcc = s.dev.crcAcc := rfl
@[simp] theorem State.setCrcPending_crcResult (p : Option CrcPending) (s : State) :
    (s.setCrcPending p).dev.crcResult = s.dev.crcResult := rfl
@[simp] theorem State.setCrcPending_crcPending (p : Option CrcPending) (s : State) :
    (s.setCrcPending p).dev.crcPending = p := rfl
@[simp] theorem State.setCrcPending_pending (p : Option CrcPending) (s : State) :
    (s.setCrcPending p).dev.pending = s.dev.pending := rfl
@[simp] theorem State.setCrcPending_x (p : Option CrcPending) (s : State) (r : Reg) :
    (s.setCrcPending p).x r = s.x r := rfl

/-! ### Setting and clearing bits -/

@[simp] theorem State.orX_eq (r : Reg) (m : Byte) (s : State) :
    s.orX r m = s.setX r (s.x r ||| m) := rfl

@[simp] theorem State.clearX_eq (r : Reg) (m : Byte) (s : State) :
    s.clearX r m = s.setX r (s.x r &&& ~~~m) := rfl

/-! ### Reset -/

@[simp] theorem deviceReset_dev (s : State) : (deviceReset s).dev = Device.reset s.cfg := rfl

@[simp] theorem deviceReset_cfg (s : State) : (deviceReset s).cfg = s.cfg := rfl
@[simp] theorem deviceReset_ctl (s : State) : (deviceReset s).ctl = s.ctl := rfl
@[simp] theorem deviceReset_rst (s : State) : (deviceReset s).rst = s.rst := rfl
@[simp] theorem deviceReset_trace (s : State) : (deviceReset s).trace = s.trace := rfl
@[simp] theorem deviceReset_faults (s : State) : (deviceReset s).faults = s.faults := rfl
@[simp] theorem deviceReset_oracle (s : State) : (deviceReset s).oracle = s.oracle := rfl
@[simp] theorem deviceReset_inbox (s : State) : (deviceReset s).inbox = s.inbox := rfl

theorem driveReset_same (s : State) : driveReset s.rst s = s := by simp [driveReset]

theorem driveReset_edge {s : State} {l : Level} (h : s.rst ≠ l) :
    driveReset l s =
      { s with dev := Device.reset s.cfg, rst := l, trace := s.trace ++ [.rst l] } := by
  simp [driveReset, h, deviceReset, State.emit]

/-! ### The fault set -/

theorem State.addFault_mem (f : Fault) (s : State) : f ∈ (s.addFault f).faults := by
  unfold State.addFault; split <;> simp_all

theorem State.addFault_keeps {f g : Fault} {s : State} (h : g ∈ s.faults) :
    g ∈ (s.addFault f).faults := by
  unfold State.addFault; split <;> simp_all

theorem State.addFault_nodup {s : State} (h : s.faults.Nodup) (f : Fault) :
    (s.addFault f).faults.Nodup := by
  unfold State.addFault
  split
  · exact h
  · rename_i hf
    simpa [List.nodup_append] using ⟨h, fun a ha hfa => hf (hfa ▸ ha)⟩

end Sys2Proof.Machine
end

