-- ==== Sys2Proof/Laws/Device.lean ====
section
/-! SUPPORT. The shared operations of the device: pushes, rounds, outcomes, CRC processing, and the
end of a transaction. One lemma says everything each can do. -/

namespace Sys2Proof.Machine

/-! ### Pushing bytes -/

/-- Every push leaves everything but the FIFO, ErrorReg and ComIrqReg. -/
theorem fifoPushAll_frame (bs : List Byte) (s : State) :
    fifoPushAll bs s = { s with dev := { s.dev with
      fifo := (fifoPushAll bs s).dev.fifo, mem := (fifoPushAll bs s).dev.mem } } := by
  induction bs generalizing s with
  | nil => rfl
  | cons b bs ih =>
    rw [fifoPushAll, ih]
    unfold fifoPush
    split <;> simp [State.orX, State.setX, State.setAt, State.setFifo]

theorem fifoPushAll_fifo (bs : List Byte) {s : State} (h : s.dev.fifo.length ≤ s.cfg.fifoDepth) :
    (fifoPushAll bs s).dev.fifo = (s.dev.fifo ++ bs).take s.cfg.fifoDepth := by
  induction bs generalizing s with
  | nil => simp [fifoPushAll, List.take_of_length_le h]
  | cons b bs ih =>
    rw [fifoPushAll]
    by_cases hlt : s.dev.fifo.length < s.cfg.fifoDepth
    · rw [fifoPush, if_pos hlt, ih (by simpa using hlt)]
      simp
    · have he : s.dev.fifo.length = s.cfg.fifoDepth := by omega
      rw [fifoPush, if_neg hlt, ih (by simpa using h)]
      simp [← he]

/-- The registers after the pushes: an overflow sets BufferOvfl and ErrIRq, and nothing else. -/
theorem fifoPushAll_read (bs : List Byte) {s : State} (h : s.dev.fifo.length ≤ s.cfg.fifoDepth)
    (a : Nat) :
    (fifoPushAll bs s).dev.mem.read a =
      if s.cfg.fifoDepth < s.dev.fifo.length + bs.length then
        if a = (s.cfg.map.addr .error) then s.x .error ||| bufferOvfl
        else if a = (s.cfg.map.addr .comIrq) then s.x .comIrq ||| errIrq
        else s.dev.mem.read a
      else s.dev.mem.read a := by
  induction bs generalizing s with
  | nil => simp [fifoPushAll, Nat.not_lt.mpr h]
  | cons b bs ih =>
    rw [fifoPushAll]
    by_cases hlt : s.dev.fifo.length < s.cfg.fifoDepth
    · rw [fifoPush, if_pos hlt, ih (by simpa using hlt)]
      have hc : s.cfg.fifoDepth < (s.dev.fifo ++ [b]).length + bs.length ↔
          s.cfg.fifoDepth < s.dev.fifo.length + (b :: bs).length := by simp; omega
      simp only [State.setFifo_cfg, State.setFifo_fifo, State.setFifo_mem, State.setFifo_x, hc]
      rfl
    · have he : s.dev.fifo.length = s.cfg.fifoDepth := by omega
      rw [fifoPush, if_neg hlt, ih (by simpa using h)]
      have hin : s.cfg.fifoDepth < s.dev.fifo.length + (b :: bs).length := by simp; omega
      rw [if_pos hin]
      simp only [State.orX_eq, State.setX_cfg, State.setX_fifo, State.setX_mem, State.setX_x,
        Memory.read_write]
      split
      · split
        · simp [BitVec.or_assoc]
        · split <;> simp_all [BitVec.or_assoc]
      · split
        · simp_all
        · split <;> simp_all [State.x]

/-! ### The parts of an outcome -/

@[simp] theorem fifoPushAll_cfg (bs : List Byte) (s : State) :
    (fifoPushAll bs s).cfg = s.cfg := by rw [fifoPushAll_frame]
@[simp] theorem fifoPushAll_ctl (bs : List Byte) (s : State) :
    (fifoPushAll bs s).ctl = s.ctl := by rw [fifoPushAll_frame]
@[simp] theorem fifoPushAll_rst (bs : List Byte) (s : State) :
    (fifoPushAll bs s).rst = s.rst := by rw [fifoPushAll_frame]
@[simp] theorem fifoPushAll_trace (bs : List Byte) (s : State) :
    (fifoPushAll bs s).trace = s.trace := by rw [fifoPushAll_frame]
@[simp] theorem fifoPushAll_faults (bs : List Byte) (s : State) :
    (fifoPushAll bs s).faults = s.faults := by rw [fifoPushAll_frame]
@[simp] theorem fifoPushAll_oracle (bs : List Byte) (s : State) :
    (fifoPushAll bs s).oracle = s.oracle := by rw [fifoPushAll_frame]
@[simp] theorem fifoPushAll_inbox (bs : List Byte) (s : State) :
    (fifoPushAll bs s).inbox = s.inbox := by rw [fifoPushAll_frame]
@[simp] theorem fifoPushAll_active (bs : List Byte) (s : State) :
    (fifoPushAll bs s).dev.active = s.dev.active := by rw [fifoPushAll_frame]
@[simp] theorem fifoPushAll_txArmed (bs : List Byte) (s : State) :
    (fifoPushAll bs s).dev.txArmed = s.dev.txArmed := by rw [fifoPushAll_frame]
@[simp] theorem fifoPushAll_crcAcc (bs : List Byte) (s : State) :
    (fifoPushAll bs s).dev.crcAcc = s.dev.crcAcc := by rw [fifoPushAll_frame]
@[simp] theorem fifoPushAll_crcResult (bs : List Byte) (s : State) :
    (fifoPushAll bs s).dev.crcResult = s.dev.crcResult := by rw [fifoPushAll_frame]
@[simp] theorem fifoPushAll_crcPending (bs : List Byte) (s : State) :
    (fifoPushAll bs s).dev.crcPending = s.dev.crcPending := by rw [fifoPushAll_frame]
@[simp] theorem fifoPushAll_pending (bs : List Byte) (s : State) :
    (fifoPushAll bs s).dev.pending = s.dev.pending := by rw [fifoPushAll_frame]

/-- What a response leaves but for the registers it writes and the FIFO. -/
theorem receiveResponse_frame (bytes : List Byte) (lb : BitVec 3) (errs : Errs) (s : State) :
    receiveResponse bytes lb errs s = { s with dev := { s.dev with
      fifo := (receiveResponse bytes lb errs s).dev.fifo
      mem := (receiveResponse bytes lb errs s).dev.mem } } := by
  unfold receiveResponse
  rw [fifoPushAll_frame]
  simp only
  split <;> simp [State.orX, State.setX, State.setAt]

theorem receiveResponse_fifo (bytes : List Byte) (lb : BitVec 3) (errs : Errs) {s : State}
    (h : s.dev.fifo.length ≤ s.cfg.fifoDepth) :
    (receiveResponse bytes lb errs s).dev.fifo =
      (s.dev.fifo ++ bytes).take s.cfg.fifoDepth := by
  have hp := fifoPushAll_fifo bytes (s := s.orX .comIrq rxIrq) (by simpa using h)
  simp only [State.orX_eq, State.setX_fifo, State.setX_cfg] at hp
  unfold receiveResponse
  simp only
  split <;> simpa using hp

/-- The registers a response writes (R193): ComIrqReg, ErrorReg and ControlReg. -/
theorem receiveResponse_read (bytes : List Byte) (lb : BitVec 3) (errs : Errs) {s : State}
    (h : s.dev.fifo.length ≤ s.cfg.fifoDepth) (a : Nat) :
    (receiveResponse bytes lb errs s).dev.mem.read a =
      let full := decide (s.cfg.fifoDepth < s.dev.fifo.length + bytes.length)
      if a = (s.cfg.map.addr .comIrq) then
        s.x .comIrq ||| rxIrq ||| (if errs != Errs.none || full then errIrq else 0x00)
      else if a = (s.cfg.map.addr .error) then
        s.x .error ||| errs.bits ||| (if full then bufferOvfl else 0x00)
      else if a = (s.cfg.map.addr .control) then controlWithLastBits (s.x .control) lb
      else s.dev.mem.read a := by
  have h' : (s.orX .comIrq rxIrq).dev.fifo.length ≤ (s.orX .comIrq rxIrq).cfg.fifoDepth := by
    simpa using h
  have hp := fifoPushAll_read bytes h'
  simp only [State.orX_eq, State.setX_cfg, State.setX_fifo, State.setX_mem, State.setX_x,
    Memory.read_write] at hp
  have hx : ∀ r : Reg, (fifoPushAll bytes (s.setX .comIrq (s.x .comIrq ||| rxIrq))).x r =
      (fifoPushAll bytes (s.setX .comIrq (s.x .comIrq ||| rxIrq))).dev.mem.read (s.cfg.map.addr r) :=
    fun _ => by rw [State.x, fifoPushAll_cfg, State.setX_cfg]
  unfold receiveResponse
  by_cases hover : s.cfg.fifoDepth < s.dev.fifo.length + bytes.length
  · simp only [hover, decide_true, Bool.or_true, if_true, State.orX_eq, State.setX_mem,
      State.setX_x, Memory.read_write, hx, hp]
    by_cases h1 : a = (s.cfg.map.addr .comIrq)
    · subst h1; simp [BitVec.or_assoc]
    · by_cases h2 : a = (s.cfg.map.addr .error)
      · subst h2; simp
        ac_rfl
      · by_cases h3 : a = (s.cfg.map.addr .control)
        · subst h3; simp [State.x]
        · simp [h1, h2, h3]
  · simp only [hover, decide_false, Bool.or_false, if_false, State.orX_eq, Bool.false_eq_true]
    by_cases he : errs != Errs.none <;>
      simp only [he, if_true, if_false, State.setX_mem, State.setX_x,
        Memory.read_write, hx, hp, hover, Bool.false_eq_true] <;>
    (by_cases h1 : a = (s.cfg.map.addr .comIrq)
     · subst h1; simp
     · by_cases h2 : a = (s.cfg.map.addr .error)
       · subst h2; simp [State.x]
       · by_cases h3 : a = (s.cfg.map.addr .control)
         · subst h3; simp [State.x]
         · simp [h1, h2, h3])

/-! ### Outcomes -/

/-- An outcome writes the trace, and of the device only its registers, the FIFO, the active command
and `tx_armed` (R193 to R197). -/
theorem applyOutcome_frame (o : LinkOutcome) (s : State) :
    applyOutcome o s = { s with
      trace := s.trace ++ [.outcome o]
      dev := { s.dev with
        fifo := (applyOutcome o s).dev.fifo
        mem := (applyOutcome o s).dev.mem
        active := (applyOutcome o s).dev.active
        txArmed := (applyOutcome o s).dev.txArmed } } := by
  unfold applyOutcome
  simp only
  split <;> try rfl
  · rw [receiveResponse_frame]; rfl
  · rw [receiveResponse_frame]; rfl

@[simp] theorem applyOutcome_cfg (o : LinkOutcome) (s : State) :
    (applyOutcome o s).cfg = s.cfg := by rw [applyOutcome_frame]
@[simp] theorem applyOutcome_ctl (o : LinkOutcome) (s : State) :
    (applyOutcome o s).ctl = s.ctl := by rw [applyOutcome_frame]
@[simp] theorem applyOutcome_rst (o : LinkOutcome) (s : State) :
    (applyOutcome o s).rst = s.rst := by rw [applyOutcome_frame]
@[simp] theorem applyOutcome_trace (o : LinkOutcome) (s : State) :
    (applyOutcome o s).trace = s.trace ++ [.outcome o] := by rw [applyOutcome_frame]
@[simp] theorem applyOutcome_faults (o : LinkOutcome) (s : State) :
    (applyOutcome o s).faults = s.faults := by rw [applyOutcome_frame]
@[simp] theorem applyOutcome_oracle (o : LinkOutcome) (s : State) :
    (applyOutcome o s).oracle = s.oracle := by rw [applyOutcome_frame]
@[simp] theorem applyOutcome_inbox (o : LinkOutcome) (s : State) :
    (applyOutcome o s).inbox = s.inbox := by rw [applyOutcome_frame]
@[simp] theorem applyOutcome_crcAcc (o : LinkOutcome) (s : State) :
    (applyOutcome o s).dev.crcAcc = s.dev.crcAcc := by rw [applyOutcome_frame]
@[simp] theorem applyOutcome_crcResult (o : LinkOutcome) (s : State) :
    (applyOutcome o s).dev.crcResult = s.dev.crcResult := by rw [applyOutcome_frame]
@[simp] theorem applyOutcome_crcPending (o : LinkOutcome) (s : State) :
    (applyOutcome o s).dev.crcPending = s.dev.crcPending := by rw [applyOutcome_frame]
@[simp] theorem applyOutcome_pending (o : LinkOutcome) (s : State) :
    (applyOutcome o s).dev.pending = s.dev.pending := by rw [applyOutcome_frame]

/-- The FIFO, command and `tx_armed` after an outcome that Transceive or MFAuthent admits, with the
FIFO empty before it. -/
theorem applyOutcome_dev {a : Active} {o : LinkOutcome} {s : State} (ha : s.dev.active = a)
    (ho : admitted a o = true) (hf : s.dev.fifo = []) :
    (applyOutcome o s).dev.active = activeAfter a o ∧
    (applyOutcome o s).dev.txArmed = (if a = .transceive then true else s.dev.txArmed) ∧
    (applyOutcome o s).dev.fifo = receivedBytes s.cfg.fifoDepth o := by
  unfold applyOutcome
  simp only [State.emit_dev, ha]
  cases a <;> cases o <;> (first | exact (Bool.false_ne_true ho).elim | skip) <;>
    simp_all [activeAfter, receivedBytes]
  refine ⟨by rw [receiveResponse_frame]; simp [ha], ?_⟩
  rw [receiveResponse_fifo _ _ _ (by simp [hf])]
  simp [hf]

/-- The registers after such an outcome. -/
theorem applyOutcome_read {a : Active} {o : LinkOutcome} {s : State} (ha : s.dev.active = a)
    (ho : admitted a o = true) (hf : s.dev.fifo = []) (r : Nat) :
    (applyOutcome o s).dev.mem.read r =
      if r = (s.cfg.map.addr .comIrq) then s.x .comIrq ||| irqOf a s.cfg.fifoDepth o
      else if r = (s.cfg.map.addr .error) then s.x .error ||| errorOf s.cfg.fifoDepth o
      else if r = (s.cfg.map.addr .control) then controlAfter (s.x .control) o
      else if r = (s.cfg.map.addr .status2) ∧ o = .authOk then s.x .status2 ||| mfCrypto1On
      else s.dev.mem.read r := by
  unfold applyOutcome
  simp only [State.emit_dev, ha]
  cases a <;> cases o <;> (first | exact (Bool.false_ne_true ho).elim | skip) <;>
    simp only [irqOf, errIrqOf, errorOf, controlAfter, State.orX_eq, State.setX_mem, State.emit_x,
      State.setX_x, State.setTxArmed_mem, State.setActive_mem, State.emit_dev,
      Memory.read_write]
  case transceive.resp bytes lb errs =>
    rw [receiveResponse_read _ _ _ (by simp [hf])]
    by_cases h1 : r = (s.cfg.map.addr .comIrq)
    · simp [h1, hf, BitVec.or_assoc]
    · by_cases h2 : r = (s.cfg.map.addr .error)
      · simp [h2, hf, BitVec.or_assoc, State.setX_x]
      · by_cases h3 : r = (s.cfg.map.addr .control)
        · simp [h3, State.setX_x]
        · simp [h1, h2, h3, Memory.read_write]
  all_goals
    by_cases h1 : r = (s.cfg.map.addr .comIrq)
    · subst h1; simp [BitVec.or_assoc]
    by_cases h2 : r = (s.cfg.map.addr .error)
    · subst h2; simp [State.x]
    by_cases h3 : r = (s.cfg.map.addr .control)
    · subst h3; simp [State.x]
    simp [h1, h2, h3] <;> rfl

end Sys2Proof.Machine
end

