-- ==== Sys2Proof/Laws/Bus.lean ====
section
/-! SUPPORT. Bus transactions of a quiet device: what each register access the tasks make does when
no pending item can apply at its end. -/

namespace Sys2Proof.Machine

/-! ### Quiet states -/

theorem State.Quiet.of_eq {s t : State} (h : s.Quiet) (hr : t.rst = s.rst)
    (hp : t.dev.pending = s.dev.pending) (hc : t.dev.crcPending = s.dev.crcPending) : t.Quiet :=
  ⟨hr.trans h.high, hp.trans h.pending, hc.trans h.crcPending⟩

theorem endOfTransaction_none {s : State} (hp : s.dev.pending = none)
    (hc : s.dev.crcPending = none) : endOfTransaction s = s := by
  simp [endOfTransaction, tickPending, tickCrc, hp, hc]

theorem State.Quiet.endOfTransaction {s : State} (h : s.Quiet) :
    Sys2Proof.Machine.endOfTransaction s = s := endOfTransaction_none h.pending h.crcPending

/-! ### Transactions that reach the device -/

theorem regWrite_high {s : State} (h : s.rst = .high) (r : Reg) (v : Byte) :
    regWrite r v s = endOfTransaction (deviceWrite (s.cfg.map.addr r) v (s.emit (.bus .w (s.cfg.map.addr r) v))) := by
  simp [regWrite, busWrite, h]

theorem regRead_high {s : State} (h : s.rst = .high) (r : Reg) :
    regRead r s =
      ((deviceRead (s.cfg.map.addr r) s).1,
        endOfTransaction ((deviceRead (s.cfg.map.addr r) s).2.emit (.bus .r (s.cfg.map.addr r) (deviceRead (s.cfg.map.addr r) s).1))) := by
  simp [regRead, busRead, h]

/-- A write whose device effect leaves the device quiet. -/
theorem regWrite_quiet {s t : State} (h : s.rst = .high) (r : Reg) (v : Byte)
    (ht : deviceWrite (s.cfg.map.addr r) v (s.emit (.bus .w (s.cfg.map.addr r) v)) = t) (hp : t.dev.pending = none)
    (hc : t.dev.crcPending = none) : regWrite r v s = t := by
  rw [regWrite_high h, ht, endOfTransaction_none hp hc]

/-- A read that only looks. -/
theorem regRead_quiet {s : State} (h : s.Quiet) (r : Reg) (v : Byte)
    (hv : deviceRead (s.cfg.map.addr r) s = (v, s)) :
    regRead r s = (v, s.emit (.bus .r (s.cfg.map.addr r) v)) := by
  rw [regRead_high h.high, hv]
  simp only [Prod.mk.injEq, true_and]
  exact endOfTransaction_none h.pending h.crcPending

theorem regWrite_comIEn {s : State} (h : s.Quiet) (v : Byte) :
    regWrite .comIEn v s = (s.emit (.bus .w (s.cfg.map.addr .comIEn) v)).setX .comIEn v :=
  regWrite_quiet h.high _ _ (by simp [deviceWrite]) (by simp [h.pending]) (by simp [h.crcPending])

theorem regWrite_comIrq {s : State} (h : s.Quiet) (v : Byte) :
    regWrite .comIrq v s =
      (s.emit (.bus .w (s.cfg.map.addr .comIrq) v)).setX .comIrq (comIrqAfter (s.x .comIrq) v) :=
  regWrite_quiet h.high _ _ (by simp [deviceWrite]) (by simp [h.pending]) (by simp [h.crcPending])

theorem regWrite_divIrq {s : State} (h : s.Quiet) (v : Byte) :
    regWrite .divIrq v s =
      (s.emit (.bus .w (s.cfg.map.addr .divIrq) v)).setX .divIrq (divIrqAfter (s.x .divIrq) v) :=
  regWrite_quiet h.high _ _ (by simp [deviceWrite]) (by simp [h.pending]) (by simp [h.crcPending])

theorem regWrite_flush {s : State} (h : s.Quiet) :
    regWrite .fifoLevel 0x80 s =
      ((s.emit (.bus .w (s.cfg.map.addr .fifoLevel) 0x80)).setFifo []).clearX .error bufferOvfl :=
  regWrite_quiet h.high _ _ (by simp [deviceWrite, writeFifoLevel]) (by simp [h.pending])
    (by simp [h.crcPending])

theorem fifoPush_room {s : State} (h : s.dev.fifo.length < s.cfg.fifoDepth) (v : Byte) :
    fifoPush v s = s.setFifo (s.dev.fifo ++ [v]) := by simp [fifoPush, h]

theorem regWrite_fifoData {s : State} (h : s.Quiet) (hn : s.dev.active ≠ .calcCrc) (v : Byte)
    (hroom : s.dev.fifo.length < s.cfg.fifoDepth) :
    regWrite .fifoData v s =
      (s.emit (.bus .w (s.cfg.map.addr .fifoData) v)).setFifo (s.dev.fifo ++ [v]) :=
  regWrite_quiet h.high _ _ (by simp [deviceWrite, writeFifoData, fifoPush, hroom, hn])
    (by simp [h.pending]) (by simp [h.crcPending])

/-- A BitFramingReg write that starts no round: StartSend is 0. -/
theorem regWrite_bitFraming {s : State} (h : s.Quiet) {v : Byte} (hv : v.getLsbD 7 = false) :
    regWrite .bitFraming v s =
      (s.emit (.bus .w (s.cfg.map.addr .bitFraming) v)).setX .bitFraming v := by
  have hv' : v[7] = false := by simpa using hv
  exact regWrite_quiet h.high _ _ (by simp [deviceWrite, writeBitFraming, hv'])
    (by simp [h.pending]) (by simp [h.crcPending])

/-- The state after the common steps of a CommandReg write. -/
theorem terminateCommand_eq (s : State) :
    terminateCommand s =
      { s with dev := { s.dev with
          mem := s.dev.mem.write (s.cfg.map.addr .command) (s.x .command &&& ~~~0x30)
          txArmed := false, pending := none, crcPending := none } } := rfl

@[simp] theorem terminateCommand_cfg (s : State) : (terminateCommand s).cfg = s.cfg := rfl
@[simp] theorem terminateCommand_ctl (s : State) : (terminateCommand s).ctl = s.ctl := rfl
@[simp] theorem terminateCommand_rst (s : State) : (terminateCommand s).rst = s.rst := rfl
@[simp] theorem terminateCommand_trace (s : State) : (terminateCommand s).trace = s.trace := rfl
@[simp] theorem terminateCommand_faults (s : State) : (terminateCommand s).faults = s.faults := rfl
@[simp] theorem terminateCommand_oracle (s : State) : (terminateCommand s).oracle = s.oracle := rfl
@[simp] theorem terminateCommand_inbox (s : State) : (terminateCommand s).inbox = s.inbox := rfl
@[simp] theorem terminateCommand_mem (s : State) : (terminateCommand s).dev.mem =
    s.dev.mem.write (s.cfg.map.addr .command) (s.x .command &&& ~~~0x30) := rfl
@[simp] theorem terminateCommand_fifo (s : State) :
    (terminateCommand s).dev.fifo = s.dev.fifo := rfl
@[simp] theorem terminateCommand_active (s : State) :
    (terminateCommand s).dev.active = s.dev.active := rfl
@[simp] theorem terminateCommand_txArmed (s : State) :
    (terminateCommand s).dev.txArmed = false := rfl
@[simp] theorem terminateCommand_crcAcc (s : State) :
    (terminateCommand s).dev.crcAcc = s.dev.crcAcc := rfl
@[simp] theorem terminateCommand_crcResult (s : State) :
    (terminateCommand s).dev.crcResult = s.dev.crcResult := rfl
@[simp] theorem terminateCommand_crcPending (s : State) :
    (terminateCommand s).dev.crcPending = none := rfl
@[simp] theorem terminateCommand_pending (s : State) :
    (terminateCommand s).dev.pending = none := rfl
theorem terminateCommand_x (s : State) (q : Reg) :
    (terminateCommand s).x q = if q = .command then s.x .command &&& ~~~0x30 else s.x q := by
  simp [State.x, Memory.read_write]

theorem deviceWrite_command (v : Byte) (s : State) :
    deviceWrite (s.cfg.map.addr .command) v s = writeCommand v s := by
  simp [deviceWrite]

theorem regWrite_idle {s : State} (h : s.rst = .high) :
    regWrite .command (Command.byte (.start .idle)) s =
      (terminateCommand (s.emit (.bus .w (s.cfg.map.addr .command) 0x00))).setActive .idle :=
  regWrite_quiet h _ _ ((deviceWrite_command _ (s.emit _)).trans rfl) rfl rfl

theorem regWrite_transceive {s : State} (h : s.rst = .high) :
    regWrite .command (Command.byte (.start .transceive)) s =
      ((terminateCommand (s.emit (.bus .w (s.cfg.map.addr .command) 0x0C))).setActive .transceive).setTxArmed
        true :=
  regWrite_quiet h _ _ ((deviceWrite_command _ (s.emit _)).trans rfl) rfl rfl

theorem regWrite_calcCrc {s : State} (h : s.rst = .high) :
    regWrite .command (Command.byte (.start .calcCrc)) s =
      endOfTransaction (startCalcCrc
        ((terminateCommand (s.emit (.bus .w (s.cfg.map.addr .command) 0x03))).setActive .calcCrc)) := by
  rw [regWrite_high h]
  exact congrArg endOfTransaction ((deviceWrite_command _ (s.emit _)).trans rfl)

theorem regWrite_mfAuthent {s : State} (h : s.rst = .high) :
    regWrite .command (Command.byte (.start .mfAuthent)) s =
      endOfTransaction (startRound .mfAuthent
        ((terminateCommand (s.emit (.bus .w (s.cfg.map.addr .command) 0x0E))).setActive .mfAuthent)) := by
  rw [regWrite_high h]
  exact congrArg endOfTransaction ((deviceWrite_command _ (s.emit _)).trans rfl)

/-- The StartSend write that starts a round (R191). -/
theorem regWrite_startSend {s : State} (h : s.rst = .high) {v : Byte} (hv : v.getLsbD 7 = true)
    (ha : s.dev.active = .transceive) (hx : s.dev.txArmed = true) :
    regWrite .bitFraming v s =
      endOfTransaction (startRound .transceive
        (((s.emit (.bus .w (s.cfg.map.addr .bitFraming) v)).setX .bitFraming v).setTxArmed false)) := by
  have hv' : v[7] = true := by simpa using hv
  rw [regWrite_high h]
  simp [deviceWrite, writeBitFraming, hv', ha, hx]

/-! ### Reads -/

theorem regRead_comIrq {s : State} (h : s.Quiet) :
    regRead .comIrq s =
      (s.x .comIrq &&& 0x7F, s.emit (.bus .r (s.cfg.map.addr .comIrq) (s.x .comIrq &&& 0x7F))) :=
  regRead_quiet h _ _ (by simp [deviceRead])

theorem regRead_divIrq {s : State} (h : s.Quiet) :
    regRead .divIrq s =
      (s.x .divIrq &&& 0x14, s.emit (.bus .r (s.cfg.map.addr .divIrq) (s.x .divIrq &&& 0x14))) :=
  regRead_quiet h _ _ (by simp [deviceRead])

theorem regRead_error {s : State} (h : s.Quiet) :
    regRead .error s =
      (s.x .error &&& 0xDF, s.emit (.bus .r (s.cfg.map.addr .error) (s.x .error &&& 0xDF))) :=
  regRead_quiet h _ _ (by simp [deviceRead])

theorem regRead_bitFraming {s : State} (h : s.Quiet) :
    regRead .bitFraming s =
      (s.x .bitFraming, s.emit (.bus .r (s.cfg.map.addr .bitFraming) (s.x .bitFraming))) :=
  regRead_quiet h _ _ (by simp [deviceRead])

theorem regRead_control {s : State} (h : s.Quiet) :
    regRead .control s =
      (0x10 ||| (s.x .control &&& 0x07),
        s.emit (.bus .r (s.cfg.map.addr .control) (0x10 ||| (s.x .control &&& 0x07)))) :=
  regRead_quiet h _ _ (by simp [deviceRead])

/-- FIFOLevelReg: the length below 128, and bit 7 reads 0 whatever the length. -/
theorem fifoLevelByte_spec (n : Nat) :
    (n < 128 → fifoLevelByte n = BitVec.ofNat 8 n) ∧ (fifoLevelByte n).getLsbD 7 = false := by
  unfold fifoLevelByte
  split
  · rename_i h
    exact ⟨fun _ => rfl, by simp only [BitVec.getLsbD_ofNat, Nat.testBit_lt_two_pow (i := 7) h, Bool.and_false]⟩
  · rename_i h
    exact ⟨fun k => absurd k h, by simp⟩

theorem regRead_fifoLevel {s : State} (h : s.Quiet) :
    regRead .fifoLevel s =
      (fifoLevelByte s.dev.fifo.length,
        s.emit (.bus .r (s.cfg.map.addr .fifoLevel) (fifoLevelByte s.dev.fifo.length))) :=
  regRead_quiet h _ _ (by simp [deviceRead])

theorem regRead_crcLow {s : State} (h : s.Quiet) :
    regRead .crcResultL s =
      (lowByte s.dev.crcResult,
        s.emit (.bus .r (s.cfg.map.addr .crcResultL) (lowByte s.dev.crcResult))) :=
  regRead_quiet h _ _ (by simp [deviceRead])

theorem regRead_crcHigh {s : State} (h : s.Quiet) :
    regRead .crcResultM s =
      (highByte s.dev.crcResult,
        s.emit (.bus .r (s.cfg.map.addr .crcResultM) (highByte s.dev.crcResult))) :=
  regRead_quiet h _ _ (by simp [deviceRead])

theorem regRead_fifoData_cons {s : State} (h : s.Quiet) {v : Byte} {vs : List Byte}
    (hf : s.dev.fifo = v :: vs) :
    regRead .fifoData s = (v, (s.setFifo vs).emit (.bus .r (s.cfg.map.addr .fifoData) v)) := by
  rw [regRead_high h.high]
  simp only [deviceRead, AddressMap.regAt_addr, readFifoData, hf, Prod.mk.injEq, true_and]
  exact endOfTransaction_none (by simp [h.pending]) (by simp [h.crcPending])

theorem regRead_fifoData_nil {s : State} (h : s.Quiet) (hf : s.dev.fifo = []) :
    regRead .fifoData s =
      (s.draw.1, s.draw.2.emit (.bus .r (s.cfg.map.addr .fifoData) s.draw.1)) := by
  rw [regRead_high h.high]
  simp only [deviceRead, AddressMap.regAt_addr, readFifoData, hf, Prod.mk.injEq, true_and]
  exact endOfTransaction_none (by simp [h.pending]) (by simp [h.crcPending])

end Sys2Proof.Machine
end

