-- ==== Sys2Proof/Laws/Program.lean ====
section
/-! SUPPORT. Running task pseudocode: sequencing, the FIFO loops and the bounded poll. -/

namespace Sys2Proof.Machine

variable {α β : Type}

@[simp] theorem Prog.run_ret (a : α) (s : State) : (Prog.ret a).run s = (s, .ok a) := rfl
@[simp] theorem Prog.run_raise (f : Failure) (s : State) :
    (Prog.raise f : Prog α).run s = (s, .error f) := rfl
@[simp] theorem Prog.run_write (r : Reg) (v : Byte) (rest : Prog α) (s : State) :
    (Prog.write r v rest).run s = rest.run (regWrite r v s) := rfl
@[simp] theorem Prog.run_read (r : Reg) (rest : Byte → Prog α) (s : State) :
    (Prog.read r rest).run s = (rest (regRead r s).1).run (regRead r s).2 := rfl
@[simp] theorem Prog.run_act (a : Act) (rest : Prog α) (s : State) :
    (Prog.act a rest).run s = rest.run (doAct a s) := rfl

/-- A callee runs first; a raise in it ends the caller (R344, R352). -/
theorem Prog.run_bind (p : Prog α) (f : α → Prog β) (s : State) :
    (p.bind f).run s =
      match p.run s with
      | (t, .ok a) => (f a).run t
      | (t, .error e) => (t, .error e) := by
  induction p generalizing s with
  | ret a => rfl
  | raise e => rfl
  | write addr v rest ih => exact ih _
  | read addr rest ih => exact ih _ _
  | act a rest ih => exact ih _

theorem Prog.run_bind_ok {p : Prog α} {f : α → Prog β} {s t : State} {a : α}
    (h : p.run s = (t, .ok a)) : (p.bind f).run s = (f a).run t := by
  rw [Prog.run_bind, h]

theorem Prog.run_bind_error {p : Prog α} {f : α → Prog β} {s t : State} {e : Failure}
    (h : p.run s = (t, .error e)) : (p.bind f).run s = (t, .error e) := by
  rw [Prog.run_bind, h]

/-- A task runs its program and then records how it ended. -/
theorem Prog.run_asTask (name : TaskName) (res : α → Result) (p : Prog α) (s : State) :
    (p.asTask name res).run s =
      match p.run s with
      | (t, .ok a) => (t.emit (.ret name (res a)), .ok a)
      | (t, .error e) => (t.emit (.raised name e), .error e) := by
  induction p generalizing s with
  | ret a => rfl
  | raise e => rfl
  | write addr v rest ih => exact ih _
  | read addr rest ih => exact ih _ _
  | act a rest ih => exact ih _

theorem Prog.run_asTask_ok {name : TaskName} {res : α → Result} {p : Prog α} {s t : State} {a : α}
    (h : p.run s = (t, .ok a)) :
    (p.asTask name res).run s = (t.emit (.ret name (res a)), .ok a) := by
  rw [Prog.run_asTask, h]

theorem asWholeTask_run_ok {name : TaskName} {res : α → Result} {p : Prog α} {s t : State} {a : α}
    (h : p.run s = (t, .ok a)) :
    (asWholeTask name res p).run s = (t.emit (.ret name (res a)), .ok ()) := by
  simp [asWholeTask, Prog.run_bind, Prog.run_asTask_ok h]

theorem asWholeTask_run_error {name : TaskName} {res : α → Result} {p : Prog α} {s t : State}
    {e : Failure} (h : p.run s = (t, .error e)) :
    (asWholeTask name res p).run s = (t.emit (.raised name e), .error e) := by
  simp [asWholeTask, Prog.run_bind, Prog.run_asTask, h]

/-! ### Loops -/

/-- Loading the FIFO of a quiet device that is not in CalcCRC. -/
theorem Prog.run_loadFifo (rest : Prog α) (bs : List Byte) {s : State} (h : s.Quiet)
    (hn : s.dev.active ≠ .calcCrc) (hroom : s.dev.fifo.length + bs.length ≤ s.cfg.fifoDepth) :
    (Prog.loadFifo bs rest).run s =
      rest.run { s with
        trace := s.trace ++ bs.map (Event.bus .w (s.cfg.map.addr .fifoData))
        dev := { s.dev with fifo := s.dev.fifo ++ bs } } := by
  induction bs generalizing s with
  | nil => simp [Prog.loadFifo]
  | cons b bs ih =>
    have hlt : s.dev.fifo.length < s.cfg.fifoDepth := by simp at hroom; omega
    have hroom' : (s.dev.fifo ++ [b]).length + bs.length ≤ s.cfg.fifoDepth := by
      simp at hroom ⊢; omega
    have hq : ((s.emit (.bus .w (s.cfg.map.addr .fifoData) b)).setFifo (s.dev.fifo ++ [b])).Quiet :=
      State.Quiet.of_eq h rfl rfl rfl
    rw [Prog.loadFifo, Prog.run_write, regWrite_fifoData h hn b hlt, ih hq hn hroom']
    simp [State.setFifo, State.emit, List.append_assoc]

/-- Draining `m` bytes from a quiet device that holds them. -/
theorem Prog.run_drainFifo (m : Nat) {s : State} (h : s.Quiet) (hm : m ≤ s.dev.fifo.length) :
    (Prog.drainFifo m).run s =
      ({ s with
          trace := s.trace ++ (s.dev.fifo.take m).map (Event.bus .r (s.cfg.map.addr .fifoData))
          dev := { s.dev with fifo := s.dev.fifo.drop m } }, .ok (s.dev.fifo.take m)) := by
  induction m generalizing s with
  | zero => simp [Prog.drainFifo]
  | succ m ih =>
    match hf : s.dev.fifo with
    | [] => simp [hf] at hm
    | v :: vs =>
      have hm' : m ≤ ((s.setFifo vs).emit (.bus .r (s.cfg.map.addr .fifoData) v)).dev.fifo.length := by
        simpa [hf] using hm
      have hq : ((s.setFifo vs).emit (.bus .r (s.cfg.map.addr .fifoData) v)).Quiet :=
        State.Quiet.of_eq h rfl rfl rfl
      rw [Prog.drainFifo, Prog.run_read, regRead_fifoData_cons h hf]
      simp only
      rw [Prog.run_bind_ok (ih hq hm')]
      simp [State.setFifo, State.emit, List.append_assoc]

/-- Draining one byte from an empty FIFO takes a draw (43_transceive.md rule R270). -/
theorem Prog.run_drainFifo_empty {s : State} (h : s.Quiet) (hf : s.dev.fifo = []) :
    (Prog.drainFifo 1).run s =
      (s.draw.2.emit (.bus .r (s.cfg.map.addr .fifoData) s.draw.1), .ok [s.draw.1]) := by
  simp [Prog.drainFifo, regRead_fifoData_nil h hf, Prog.bind]

theorem Prog.run_poll_hit {r : Reg} {hit : Byte → Bool} {budget : Nat} {s : State}
    (h : hit (regRead r s).1 = true) :
    (Prog.poll r hit (budget + 1)).run s = ((regRead r s).2, .ok (some (regRead r s).1)) := by
  simp [Prog.poll, h]

theorem Prog.run_poll_miss {r : Reg} {hit : Byte → Bool} {budget : Nat} {s : State}
    (h : hit (regRead r s).1 = false) :
    (Prog.poll r hit (budget + 1)).run s = (Prog.poll r hit budget).run (regRead r s).2 := by
  simp [Prog.poll, h]

/-- `n` reads of a register that returned `v`, as they stand in the trace. -/
def State.addReads (s : State) (r : Reg) (v : Byte) (n : Nat) : State :=
  { s with trace := s.trace ++ List.replicate n (.bus .r (s.cfg.map.addr r) v) }

@[simp] theorem State.addReads_cfg (s : State) (r : Reg) (v : Byte) (n : Nat) :
    (s.addReads r v n).cfg = s.cfg := rfl

@[simp] theorem State.addReads_trace (s : State) (r : Reg) (v : Byte) (n : Nat) :
    (s.addReads r v n).trace = s.trace ++ List.replicate n (.bus .r (s.cfg.map.addr r) v) := rfl

theorem State.addReads_succ (s : State) (r : Reg) (v : Byte) (n : Nat) :
    ((s.emit (.bus .r (s.cfg.map.addr r) v)).addReads r v n) = s.addReads r v (n + 1) := by
  simp [State.addReads, State.emit, List.replicate_succ]

end Sys2Proof.Machine
end

