-- ==== Sys2Proof/Laws/Round.lean ====
section
/-! SUPPORT. A round from its start to its outcome, and the poll that waits for it. -/

namespace Sys2Proof.Machine

/-! ### The start of a round -/

theorem State.nextAnswer_eq (a : Active) (frame : List Byte) (s : State) :
    s.nextAnswer a frame =
      (s.answerTo a frame ((s.x .bitFraming).setWidth 3),
        { s with oracle := ⟨s.oracle.rounds.tail, s.oracle.draws, s.oracle.made + 1⟩ }) := by
  unfold State.nextAnswer State.answerTo
  split <;> simp_all

theorem State.draw_eq (s : State) :
    s.draw =
      ((match s.oracle.draws with | b :: _ => b | [] => Config.freeByte s.oracle.made),
        { s with oracle := ⟨s.oracle.rounds, s.oracle.draws.tail, s.oracle.made + 1⟩ }) := by
  unfold State.draw
  split <;> simp_all

/-- A state just after a round's start, with its answer not yet recorded. -/
def State.started (s : State) : State :=
  { s with
    trace := s.trace ++ [.tx s.dev.fifo ((s.x .bitFraming).setWidth 3)]
    dev := { s.dev with
      fifo := []
      mem := s.dev.mem.write (s.cfg.map.addr .error) (s.x .error &&& ~~~0x0F)
      pending := none }
    oracle := ⟨s.oracle.rounds.tail, s.oracle.draws, s.oracle.made + 1⟩ }

@[simp] theorem State.started_cfg (s : State) : s.started.cfg = s.cfg := rfl

/-- The state while `d` more transactions must pass before `o` applies. -/
def State.counting (s : State) (d : Nat) (o : LinkOutcome) : State :=
  if d = 0 then applyOutcome o s else s.setPending (some ⟨.after d o, false⟩)

/-- The state after a round's start, by the answer. -/
def State.afterStart (s : State) : Answer → State
  | .never => s.setPending (some ⟨.never, false⟩)
  | .after d o => s.counting d o

theorem startRound_eq (a : Active) (s : State) :
    startRound a s = s.started.setPending (some
      ⟨limitAnswer a s.dev.fifo s.started
        (s.answerTo a s.dev.fifo ((s.x .bitFraming).setWidth 3)), true⟩) := by
  simp only [startRound, askOracle, State.nextAnswer_eq]
  simp [clearRoundErrors, State.started, State.setX, State.setAt, State.setFifo, State.emit,
    State.setPending, State.x, Memory.read_write, State.answerTo, limitAnswer, admissible,
    fieldOn, rxOn, tAuto]

theorem endOfTransaction_startRound (a : Active) {s : State} (hc : s.dev.crcPending = none) :
    endOfTransaction (startRound a s) =
      s.started.afterStart (limitAnswer a s.dev.fifo s.started
        (s.answerTo a s.dev.fifo ((s.x .bitFraming).setWidth 3))) := by
  rw [startRound_eq]
  have hp : s.started.dev.pending = none := rfl
  generalize limitAnswer a s.dev.fifo s.started _ = ans
  match ans with
  | .never =>
    simp [endOfTransaction, tickPending, tickCrc, State.afterStart, State.setPending,
      State.started, hc]
  | .after d o =>
    simp only [endOfTransaction, tickPending, State.setPending_pending, if_true]
    have hid : (s.started.setPending (some ⟨.after d o, true⟩)).setPending none = s.started := by
      simp [State.setPending, State.started]
    by_cases hd : d = 0
    · subst hd
      simp only [if_true, hid]
      rw [tickCrc]
      simp [State.started, hc, State.afterStart, State.counting]
    · rw [if_neg hd, tickCrc]
      simp [State.started, hc, State.afterStart, State.counting, hd, State.setPending]

/-- Within the limits of R198, with the field and the receiver on and TAuto = 1, the oracle may give
exactly the admitted outcomes. -/
theorem limitAnswer_eq {a : Active} {frame : List Byte} {s : State}
    (ha : a = .transceive ∨ (a = .mfAuthent ∧ frame.length = 12))
    (hf : fieldOn s = true) (hr : rxOn s = true) (ht : tAuto s = true) (ans : Answer) :
    limitAnswer a frame s ans =
      match ans with
      | .never => .never
      | .after d o => if admitted a o then .after d o else .never := by
  cases ans with
  | never => rfl
  | after d o =>
    have : admissible a frame s o = admitted a o := by
      rcases ha with rfl | ⟨rfl, hl⟩ <;> cases o <;> simp_all [admissible, admitted]
    simp [limitAnswer, this]

/-! ### The poll -/

/-- The match condition of the bounded poll (R263). -/
def pollHit (wait irq : Byte) : Bool := irq &&& 0x01 != 0 || irq &&& wait != 0

theorem State.addReads_zero (s : State) (r : Reg) (v : Byte) : s.addReads r v 0 = s := by
  simp [State.addReads]

/-- A transaction that creates nothing counts the pending outcome down (40_bus.md rule R166). -/
theorem endOfTransaction_counting {u : State} (hq : u.Quiet) (d : Nat) (o : LinkOutcome) :
    endOfTransaction (u.counting (d + 1) o) = u.counting d o := by
  have hid : (u.counting (d + 1) o).setPending none = u := by
    have := hq.pending
    cases u; rename_i dev _ _ _ _ _; cases dev
    simp_all [State.counting, State.setPending]
  have hp : (u.counting (d + 1) o).dev.pending = some ⟨.after (d + 1) o, false⟩ := rfl
  rw [endOfTransaction, tickPending, hp]
  by_cases hd : d = 0
  · subst hd
    simp only [hid]
    simp [tickCrc, hq.crcPending, State.counting]
  · simp [tickCrc, hd, State.counting, State.setPending, hq.crcPending]

theorem regRead_counting {u : State} (hq : u.Quiet) (d : Nat) (o : LinkOutcome) :
    regRead .comIrq (u.counting (d + 1) o) =
      (u.x .comIrq &&& 0x7F,
        (u.emit (.bus .r (u.cfg.map.addr .comIrq) (u.x .comIrq &&& 0x7F))).counting d o) := by
  rw [regRead_high (s := u.counting (d + 1) o) hq.high]
  have hx : (u.counting (d + 1) o).x .comIrq = u.x .comIrq := rfl
  simp only [deviceRead, AddressMap.regAt_addr, hx, Prod.mk.injEq, true_and]
  exact endOfTransaction_counting (u := u.emit _) (hq.of_eq rfl rfl rfl) d o

/-- Polling while an outcome counts down: each read misses, until the outcome applies. -/
theorem poll_counting {u : State} (hq : u.Quiet) {hit : Byte → Bool}
    (hm : hit (u.x .comIrq &&& 0x7F) = false) (o : LinkOutcome) :
    ∀ d budget, d ≤ budget →
      (Prog.poll .comIrq hit budget).run (u.counting d o) =
        (Prog.poll .comIrq hit (budget - d)).run
          (applyOutcome o (u.addReads .comIrq (u.x .comIrq &&& 0x7F) d)) := by
  intro d
  induction d generalizing u with
  | zero => intro budget _; simp [State.addReads_zero, State.counting]
  | succ d ih =>
    intro budget hb
    obtain ⟨b, rfl⟩ : ∃ b, budget = b + 1 := ⟨budget - 1, by omega⟩
    have hq' : (u.emit (.bus .r (u.cfg.map.addr .comIrq) (u.x .comIrq &&& 0x7F))).Quiet :=
      hq.of_eq rfl rfl rfl
    rw [Prog.run_poll_miss (by rw [regRead_counting hq]; exact hm), regRead_counting hq]
    simp only
    rw [ih hq' (by simpa using hm) b (by omega)]
    simp only [State.emit_x, State.addReads_succ, Nat.add_sub_add_right]

/-- Polling past the budget: every read misses and the outcome is still to come. -/
theorem poll_late {u : State} (hq : u.Quiet) {hit : Byte → Bool}
    (hm : hit (u.x .comIrq &&& 0x7F) = false) (o : LinkOutcome) :
    ∀ budget d, budget ≤ d →
      (Prog.poll .comIrq hit budget).run (u.counting d o) =
        ((u.addReads .comIrq (u.x .comIrq &&& 0x7F) budget).counting (d - budget) o, .ok none) := by
  intro budget
  induction budget generalizing u with
  | zero => intro d _; simp [State.addReads_zero, Prog.poll]
  | succ b ih =>
    intro d hb
    obtain ⟨e, rfl⟩ : ∃ e, d = e + 1 := ⟨d - 1, by omega⟩
    have hq' : (u.emit (.bus .r (u.cfg.map.addr .comIrq) (u.x .comIrq &&& 0x7F))).Quiet :=
      hq.of_eq rfl rfl rfl
    rw [Prog.run_poll_miss (by rw [regRead_counting hq]; exact hm), regRead_counting hq]
    simp only
    rw [ih hq' (by simpa using hm) e (by omega)]
    simp only [State.emit_x, State.addReads_succ, Nat.add_sub_add_right]

/-- Polling a wedged chip. -/
theorem poll_never {u : State} (hq : u.Quiet) {hit : Byte → Bool}
    (hm : hit (u.x .comIrq &&& 0x7F) = false) (budget : Nat) :
    (Prog.poll .comIrq hit budget).run (u.setPending (some ⟨.never, false⟩)) =
      ((u.addReads .comIrq (u.x .comIrq &&& 0x7F) budget).setPending (some ⟨.never, false⟩),
        .ok none) := by
  induction budget generalizing u with
  | zero => simp [State.addReads_zero, Prog.poll]
  | succ b ih =>
    have hq' : (u.emit (.bus .r (u.cfg.map.addr .comIrq) (u.x .comIrq &&& 0x7F))).Quiet :=
      hq.of_eq rfl rfl rfl
    have hr : regRead .comIrq (u.setPending (some ⟨.never, false⟩)) =
        (u.x .comIrq &&& 0x7F,
          (u.emit (.bus .r (u.cfg.map.addr .comIrq) (u.x .comIrq &&& 0x7F))).setPending
            (some ⟨.never, false⟩)) := by
      rw [regRead_high (s := u.setPending (some ⟨.never, false⟩)) hq.high]
      simp [deviceRead, endOfTransaction, tickPending, tickCrc, hq.crcPending, State.setPending,
        State.emit, State.x]
    rw [Prog.run_poll_miss (by rw [hr]; exact hm), hr]
    simp only
    rw [ih hq' (by simpa using hm)]
    simp only [State.emit_x, State.addReads_succ]

end Sys2Proof.Machine
end

