-- ==== Sys2Proof/Laws/Trace.lean ====
section
/-! SUPPORT. Counting transactions, frames and an operation's own events in a list of events. -/

namespace Sys2Proof.Machine

@[simp] theorem transactions_nil : transactions [] = 0 := rfl
@[simp] theorem transactions_append (es fs : List Event) :
    transactions (es ++ fs) = transactions es + transactions fs := by simp [transactions]
@[simp] theorem transactions_bus (d : Dir) (a : Nat) (v : Byte) (es : List Event) :
    transactions (.bus d a v :: es) = transactions es + 1 := by simp [transactions]
@[simp] theorem transactions_tx (bs : List Byte) (lb : BitVec 3) (es : List Event) :
    transactions (.tx bs lb :: es) = transactions es := by simp [transactions]
@[simp] theorem transactions_outcome (o : LinkOutcome) (es : List Event) :
    transactions (.outcome o :: es) = transactions es := by simp [transactions]
@[simp] theorem transactions_log (m : LogMsg) (es : List Event) :
    transactions (.log m :: es) = transactions es := by simp [transactions]
@[simp] theorem transactions_rst (l : Level) (es : List Event) :
    transactions (.rst l :: es) = transactions es := by simp [transactions]
@[simp] theorem transactions_ret (n : TaskName) (r : Result) (es : List Event) :
    transactions (.ret n r :: es) = transactions es := by simp [transactions]
@[simp] theorem transactions_raised (n : TaskName) (f : Failure) (es : List Event) :
    transactions (.raised n f :: es) = transactions es := by simp [transactions]
@[simp] theorem transactions_map_bus (d : Dir) (a : Nat) (bs : List Byte) :
    transactions (bs.map (Event.bus d a)) = bs.length := by
  induction bs <;> simp_all
@[simp] theorem transactions_replicate_bus (n : Nat) (d : Dir) (a : Nat) (v : Byte) :
    transactions (List.replicate n (.bus d a v)) = n := by
  induction n <;> simp_all [List.replicate_succ]

@[simp] theorem txFrames_nil : txFrames [] = [] := rfl
@[simp] theorem txFrames_append (es fs : List Event) :
    txFrames (es ++ fs) = txFrames es ++ txFrames fs := by simp [txFrames]
@[simp] theorem txFrames_bus (d : Dir) (a : Nat) (v : Byte) (es : List Event) :
    txFrames (.bus d a v :: es) = txFrames es := by simp [txFrames]
@[simp] theorem txFrames_tx (bs : List Byte) (lb : BitVec 3) (es : List Event) :
    txFrames (.tx bs lb :: es) = (bs, lb) :: txFrames es := by simp [txFrames]
@[simp] theorem txFrames_outcome (o : LinkOutcome) (es : List Event) :
    txFrames (.outcome o :: es) = txFrames es := by simp [txFrames]
@[simp] theorem txFrames_log (m : LogMsg) (es : List Event) :
    txFrames (.log m :: es) = txFrames es := by simp [txFrames]
@[simp] theorem txFrames_rst (l : Level) (es : List Event) :
    txFrames (.rst l :: es) = txFrames es := by simp [txFrames]
@[simp] theorem txFrames_ret (n : TaskName) (r : Result) (es : List Event) :
    txFrames (.ret n r :: es) = txFrames es := by simp [txFrames]
@[simp] theorem txFrames_raised (n : TaskName) (f : Failure) (es : List Event) :
    txFrames (.raised n f :: es) = txFrames es := by simp [txFrames]
@[simp] theorem txFrames_map_bus (d : Dir) (a : Nat) (bs : List Byte) :
    txFrames (bs.map (Event.bus d a)) = [] := by
  induction bs <;> simp_all
@[simp] theorem txFrames_replicate_bus (n : Nat) (d : Dir) (a : Nat) (v : Byte) :
    txFrames (List.replicate n (.bus d a v)) = [] := by
  induction n <;> simp_all [List.replicate_succ]

@[simp] theorem ownEvents_nil : ownEvents [] = [] := rfl
@[simp] theorem ownEvents_append (es fs : List Event) :
    ownEvents (es ++ fs) = ownEvents es ++ ownEvents fs := by simp [ownEvents]
@[simp] theorem ownEvents_bus (d : Dir) (a : Nat) (v : Byte) (es : List Event) :
    ownEvents (.bus d a v :: es) = ownEvents es := by simp [ownEvents]
@[simp] theorem ownEvents_tx (bs : List Byte) (lb : BitVec 3) (es : List Event) :
    ownEvents (.tx bs lb :: es) = ownEvents es := by simp [ownEvents]
@[simp] theorem ownEvents_outcome (o : LinkOutcome) (es : List Event) :
    ownEvents (.outcome o :: es) = ownEvents es := by simp [ownEvents]
@[simp] theorem ownEvents_rst (l : Level) (es : List Event) :
    ownEvents (.rst l :: es) = ownEvents es := by simp [ownEvents]
@[simp] theorem ownEvents_log (m : LogMsg) (es : List Event) :
    ownEvents (.log m :: es) = .log m :: ownEvents es := by simp [ownEvents]

end Sys2Proof.Machine
end

