-- ==== Sys2Proof/Laws/Transceive.lean ====
section
/-! SUPPORT. The transceive task from a quiet device: set-up, round, poll and drain. -/

namespace Sys2Proof.Machine

variable {α : Type}

/-! ### Set-up (R262) -/

/-- The state when the set-up has loaded the FIFO. -/
def State.afterSetup (s : State) (en : Byte) (send : List Byte) : State :=
  { s with
    trace := s.trace ++ ([.bus .w (s.cfg.map.addr .comIEn) (0x80 ||| en), .bus .w (s.cfg.map.addr .comIrq) 0x7F, .bus .w (s.cfg.map.addr .fifoLevel) 0x80,
      .bus .w (s.cfg.map.addr .command) 0x00] ++ send.map (Event.bus .w (s.cfg.map.addr .fifoData)))
    dev := { s.dev with
      mem := (((s.dev.mem.write (s.cfg.map.addr .comIEn) (0x80 ||| en)).write (s.cfg.map.addr .comIrq)
        (comIrqAfter (s.x .comIrq) 0x7F)).write (s.cfg.map.addr .error)
          (s.x .error &&& ~~~bufferOvfl)).write (s.cfg.map.addr .command) (s.x .command &&& ~~~0x30)
      fifo := send
      active := .idle
      txArmed := false } }

theorem run_setup (rest : Prog α) (en : Byte) (send : List Byte) {s : State} (h : s.Quiet)
    (hroom : send.length ≤ s.cfg.fifoDepth) :
    (Prog.write .comIEn (0x80 ||| en) <| .clearComIrq <| .flushFifo <|
      .setCommand (.start .idle) <| .loadFifo send rest).run s = rest.run (s.afterSetup en send) := by
  have h1 : (regWrite .comIEn (0x80 ||| en) s).Quiet := by
    rw [regWrite_comIEn h]; exact h.of_eq rfl rfl rfl
  have h2 : (regWrite .comIrq 0x7F (regWrite .comIEn (0x80 ||| en) s)).Quiet := by
    rw [regWrite_comIrq h1]; exact h1.of_eq rfl rfl rfl
  simp only [Prog.clearComIrq, Prog.flushFifo, Prog.setCommand, Prog.run_write]
  rw [regWrite_flush h2, regWrite_comIrq h1, regWrite_comIEn h, regWrite_idle (by simp [h.high])]
  rw [Prog.run_loadFifo]
  · simp [State.afterSetup, terminateCommand_eq, State.setActive, State.setX, State.setAt,
      State.emit, State.setFifo, State.x, Memory.read_write, h.pending, h.crcPending]
  · exact ⟨by simp [h.high], by simp, by simp⟩
  · simp
  · simpa using hroom

@[simp] theorem State.afterSetup_cfg (s : State) (en : Byte) (send : List Byte) :
    (s.afterSetup en send).cfg = s.cfg := rfl

theorem State.Quiet.afterSetup {s : State} (h : s.Quiet) (en : Byte) (send : List Byte) :
    (s.afterSetup en send).Quiet := h.of_eq rfl rfl rfl

/-- The device as Transceive's StartSend write finds it. -/
def State.atTransceive (s : State) (en : Byte) (send : List Byte) : State :=
  { s with
    trace := s.trace ++ ([.bus .w (s.cfg.map.addr .comIEn) (0x80 ||| en), .bus .w (s.cfg.map.addr .comIrq) 0x7F, .bus .w (s.cfg.map.addr .fifoLevel) 0x80,
      .bus .w (s.cfg.map.addr .command) 0x00] ++ send.map (Event.bus .w (s.cfg.map.addr .fifoData)) ++
      [.bus .w (s.cfg.map.addr .command) 0x0C, .bus .r (s.cfg.map.addr .bitFraming) (s.x .bitFraming),
        .bus .w (s.cfg.map.addr .bitFraming) (s.x .bitFraming ||| 0x80)])
    dev := { s.dev with
      mem := (((((s.dev.mem.write (s.cfg.map.addr .comIEn) (0x80 ||| en)).write (s.cfg.map.addr .comIrq)
        (comIrqAfter (s.x .comIrq) 0x7F)).write (s.cfg.map.addr .error)
          (s.x .error &&& ~~~bufferOvfl)).write (s.cfg.map.addr .command)
            (s.x .command &&& ~~~0x30)).write (s.cfg.map.addr .command)
              (s.x .command &&& ~~~0x30)).write (s.cfg.map.addr .bitFraming) (s.x .bitFraming ||| 0x80)
      fifo := send
      active := .transceive
      txArmed := false } }

theorem run_startTransceive (rest : Prog α) (en : Byte) (send : List Byte) {s : State}
    (h : s.Quiet) :
    (Prog.setCommand (.start .transceive) (.setBits .bitFraming 0x80 rest)).run
        (s.afterSetup en send) =
      rest.run (endOfTransaction (startRound .transceive (s.atTransceive en send))) := by
  have hs := h.afterSetup en send
  simp only [Prog.setCommand, Prog.setBits, Prog.run_write, Prog.run_read]
  rw [regWrite_transceive hs.high]
  simp only [State.afterSetup_cfg]
  have hq : (((terminateCommand ((s.afterSetup en send).emit
      (.bus .w (s.cfg.map.addr .command) 0x0C))).setActive .transceive).setTxArmed true).Quiet :=
    ⟨by simpa using hs.high, by simp, by simp⟩
  rw [regRead_bitFraming hq]
  simp only
  rw [regWrite_startSend (by simpa using hs.high) (by simp) (by simp) (by simp)]
  refine congrArg (fun t => rest.run (endOfTransaction (startRound .transceive t))) ?_
  simp [State.afterSetup, State.atTransceive, terminateCommand_eq, State.setActive,
    State.setTxArmed, State.setX, State.setAt, State.emit, State.x, Memory.read_write, h.pending,
    h.crcPending, BitVec.and_assoc]

/-- The device as MFAuthent's command write finds it. -/
def State.atAuthenticate (s : State) (en : Byte) (send : List Byte) : State :=
  { s with
    trace := s.trace ++ ([.bus .w (s.cfg.map.addr .comIEn) (0x80 ||| en), .bus .w (s.cfg.map.addr .comIrq) 0x7F, .bus .w (s.cfg.map.addr .fifoLevel) 0x80,
      .bus .w (s.cfg.map.addr .command) 0x00] ++ send.map (Event.bus .w (s.cfg.map.addr .fifoData)) ++ [.bus .w (s.cfg.map.addr .command) 0x0E])
    dev := { s.dev with
      mem := ((((s.dev.mem.write (s.cfg.map.addr .comIEn) (0x80 ||| en)).write (s.cfg.map.addr .comIrq)
        (comIrqAfter (s.x .comIrq) 0x7F)).write (s.cfg.map.addr .error)
          (s.x .error &&& ~~~bufferOvfl)).write (s.cfg.map.addr .command)
            (s.x .command &&& ~~~0x30)).write (s.cfg.map.addr .command) (s.x .command &&& ~~~0x30)
      fifo := send
      active := .mfAuthent
      txArmed := false } }

theorem run_startAuthenticate (rest : Prog α) (en : Byte) (send : List Byte) {s : State}
    (h : s.Quiet) :
    (Prog.setCommand (.start .mfAuthent) rest).run (s.afterSetup en send) =
      rest.run (endOfTransaction (startRound .mfAuthent (s.atAuthenticate en send))) := by
  have hs := h.afterSetup en send
  simp only [Prog.setCommand, Prog.run_write]
  rw [regWrite_mfAuthent hs.high]
  refine congrArg (fun t => rest.run (endOfTransaction (startRound .mfAuthent t))) ?_
  simp [State.afterSetup, State.atAuthenticate, terminateCommand_eq, State.setActive,
    State.emit, State.x, h.pending, h.crcPending, BitVec.and_assoc]

/-! ### After the poll (R265 to R269) -/

/-- The state after the matching read, step 4 and the error read. -/
def State.afterPoll (A : State) : State :=
  { A with
    trace := A.trace ++ [.bus .r (A.cfg.map.addr .comIrq) (A.x .comIrq &&& 0x7F), .bus .r (A.cfg.map.addr .bitFraming) (A.x .bitFraming),
      .bus .w (A.cfg.map.addr .bitFraming) (A.x .bitFraming &&& ~~~0x80), .bus .r (A.cfg.map.addr .error) (A.x .error &&& 0xDF)]
    dev := { A.dev with
      mem := A.dev.mem.write (A.cfg.map.addr .bitFraming) (A.x .bitFraming &&& ~~~0x80) } }

@[simp] theorem State.afterPoll_cfg (A : State) : A.afterPoll.cfg = A.cfg := rfl

theorem startSend_cleared (f : Byte) : (f &&& ~~~0x80).getLsbD 7 = false := by
  revert f; decide

/-- A poll whose next read matches, with the rest of the task (R263 to R268). -/
theorem run_matched (cfg : Config) (cmd : Command) {A : State} (h : A.Quiet) (b : Nat)
    (hm : pollHit (waitMask cfg cmd) (A.x .comIrq &&& 0x7F) = true) :
    ((Prog.poll .comIrq (pollHit (waitMask cfg cmd)) (b + 1)).bind fun matched =>
        .clearBits .bitFraming 0x80 <|
          match matched with
          | none => .ret ⟨.timeout, [], 0⟩
          | some irq => afterMatch cfg cmd irq).run A =
      (if (A.x .error &&& 0xDF) &&& cfg.errorMask != 0 then Prog.ret ⟨.error, [], 0⟩
        else
          let status : Status :=
            if (A.x .comIrq &&& 0x7F) &&& enableMask cfg cmd &&& cfg.noTagBit != 0 then .noTag
            else .ok
          if cmd = .start .transceive then receiveDrain status else .ret ⟨status, [], 0⟩).run
        A.afterPoll := by
  have hr : regRead .comIrq A = _ := regRead_comIrq h
  rw [Prog.run_bind_ok (Prog.run_poll_hit (by rw [hr]; exact hm)), hr]
  have h1 : (A.emit (.bus .r (A.cfg.map.addr .comIrq) (A.x .comIrq &&& 0x7F))).Quiet := h.of_eq rfl rfl rfl
  simp only [Prog.clearBits, Prog.run_read, Prog.run_write]
  rw [regRead_bitFraming h1]
  simp only [State.emit_x, State.emit_cfg]
  have h2 : ((A.emit (.bus .r (A.cfg.map.addr .comIrq) (A.x .comIrq &&& 0x7F))).emit
      (.bus .r (A.cfg.map.addr .bitFraming) (A.x .bitFraming))).Quiet := h.of_eq rfl rfl rfl
  rw [regWrite_bitFraming h2 (startSend_cleared _)]
  simp only [State.emit_cfg]
  have h3 : (State.setX .bitFraming (A.x .bitFraming &&& ~~~0x80)
      (((A.emit (.bus .r (A.cfg.map.addr .comIrq) (A.x .comIrq &&& 0x7F))).emit
        (.bus .r (A.cfg.map.addr .bitFraming) (A.x .bitFraming))).emit
          (.bus .w (A.cfg.map.addr .bitFraming) (A.x .bitFraming &&& ~~~0x80)))).Quiet := h.of_eq rfl rfl rfl
  simp only [afterMatch, Prog.run_read]
  rw [regRead_error h3]
  have hx : ∀ e, ((State.setX .bitFraming (A.x .bitFraming &&& ~~~0x80) e).x .error) = e.x .error :=
    fun e => State.setX_x_ne (by decide) _ _
  simp only [hx, State.emit_x]
  congr 1
  simp [State.afterPoll, State.setX, State.setAt, State.emit]

/-- Draining a response (R269): the FIFO is not empty. -/
theorem run_receiveDrain {E : State} (h : E.Quiet) (hne : E.dev.fifo ≠ [])
    (hlen : E.dev.fifo.length < 128) (status : Status) :
    (receiveDrain status).run E =
      ({ E with
          trace := E.trace ++ ([.bus .r (E.cfg.map.addr .fifoLevel) (BitVec.ofNat 8 E.dev.fifo.length),
            .bus .r (E.cfg.map.addr .control) (0x10 ||| (E.x .control &&& 0x07))] ++
              (E.dev.fifo.take 16).map (Event.bus .r (E.cfg.map.addr .fifoData)))
          dev := { E.dev with fifo := E.dev.fifo.drop 16 } },
        .ok ⟨status, E.dev.fifo.take 16,
          bitLength (BitVec.ofNat 8 E.dev.fifo.length) (E.x .control &&& 0x07)⟩) := by
  have hc : (0x10 ||| (E.x .control &&& 0x07)) &&& 0x07 = E.x .control &&& 0x07 := by
    generalize E.x .control = c
    revert c; decide
  have hd : drainCount (BitVec.ofNat 8 E.dev.fifo.length) = min E.dev.fifo.length 16 := by
    have : 0 < E.dev.fifo.length := List.length_pos_iff.mpr hne
    simp only [drainCount, BitVec.toNat_ofNat]
    rw [Nat.mod_eq_of_lt (by omega), max_eq_left (by omega)]
  simp only [receiveDrain, Prog.run_read]
  rw [regRead_fifoLevel h, fifoLevelByte, if_pos (by omega)]
  have h1 : (E.emit (.bus .r (E.cfg.map.addr .fifoLevel) (BitVec.ofNat 8 E.dev.fifo.length))).Quiet :=
    h.of_eq rfl rfl rfl
  rw [regRead_control h1]
  simp only [State.emit_x, State.emit_cfg, hc, hd]
  have h2 : ((E.emit (.bus .r (E.cfg.map.addr .fifoLevel) (BitVec.ofNat 8 E.dev.fifo.length))).emit
      (.bus .r (E.cfg.map.addr .control) (0x10 ||| (E.x .control &&& 0x07)))).Quiet := h.of_eq rfl rfl rfl
  rw [Prog.run_bind_ok (Prog.run_drainFifo _ h2 (by simp))]
  have ht : List.take (min E.dev.fifo.length 16) E.dev.fifo = E.dev.fifo.take 16 := by
    rcases Nat.le_total E.dev.fifo.length 16 with hle | hle
    · rw [min_eq_left hle, List.take_of_length_le hle, List.take_of_length_le (Nat.le_refl _)]
    · rw [min_eq_right hle]
  have hdr : List.drop (min E.dev.fifo.length 16) E.dev.fifo = E.dev.fifo.drop 16 := by
    rcases Nat.le_total E.dev.fifo.length 16 with hle | hle
    · rw [min_eq_left hle, List.drop_of_length_le hle, List.drop_of_length_le (Nat.le_refl _)]
    · rw [min_eq_right hle]
  simp [State.emit, ht, hdr]

/-- Draining a silent card (R270): one draw. -/
theorem run_receiveDrain_empty {E : State} (h : E.Quiet) (hf : E.dev.fifo = [])
    (status : Status) :
    (receiveDrain status).run E =
      ({ E with
          trace := E.trace ++ [.bus .r (E.cfg.map.addr .fifoLevel) 0x00, .bus .r (E.cfg.map.addr .control) (0x10 ||| (E.x .control &&& 0x07)),
            .bus .r (E.cfg.map.addr .fifoData) E.draw.1]
          oracle := ⟨E.oracle.rounds, E.oracle.draws.tail, E.oracle.made + 1⟩ },
        .ok ⟨status, [E.draw.1], bitLength 0x00 (E.x .control &&& 0x07)⟩) := by
  have hc : (0x10 ||| (E.x .control &&& 0x07)) &&& 0x07 = E.x .control &&& 0x07 := by
    generalize E.x .control = c
    revert c; decide
  simp only [receiveDrain, Prog.run_read]
  rw [regRead_fifoLevel h]
  simp only [hf, List.length_nil, show fifoLevelByte 0 = 0x00 from rfl]
  have h1 : (E.emit (.bus .r (E.cfg.map.addr .fifoLevel) 0x00)).Quiet :=
    h.of_eq rfl rfl rfl
  rw [regRead_control h1]
  simp only [State.emit_x, State.emit_cfg, hc]
  have h2 : ((E.emit (.bus .r (E.cfg.map.addr .fifoLevel) 0x00)).emit
      (.bus .r (E.cfg.map.addr .control) (0x10 ||| (E.x .control &&& 0x07)))).Quiet := h.of_eq rfl rfl rfl
  rw [show drainCount 0x00 = 1 from by decide,
    Prog.run_bind_ok (Prog.run_drainFifo_empty h2 (by simpa using hf))]
  simp [State.draw_eq, State.emit]

end Sys2Proof.Machine
end

