-- ==== Sys2Proof/Laws/Exchange.lean ====
section
/-! SUPPORT. What one exchange with the card leaves and returns (43_transceive.md rules R272 to R274). -/

namespace Sys2Proof.Machine

/-! ### Bit facts -/

theorem comIrqAfter_clear (old : Byte) : comIrqAfter old 0x7F = old &&& 0x80 := by
  revert old; decide

theorem error_cleared (old : Byte) : (old &&& ~~~bufferOvfl) &&& ~~~0x0F = old &&& 0xE0 := by
  revert old; decide

theorem startSend_masked (f : Byte) : (f ||| 0x80) &&& ~~~0x80 = f &&& 0x7F := by
  revert f; decide

theorem and_not_startSend (f : Byte) : f &&& ~~~0x80 = f &&& 0x7F := by revert f; decide

theorem lastBits_startSend (f : Byte) :
    (f ||| 0x80).setWidth 3 = (f.setWidth 3 : BitVec 3) := by revert f; decide

theorem and_not_command (f : Byte) : f &&& ~~~0x30 = f &&& 0xCF := by revert f; decide

theorem irq_cleared (old w : Byte) : ((old &&& 0x80) ||| w) &&& 0x7F = w &&& 0x7F := by
  rw [BitVec.and_or_distrib_right]
  simp [BitVec.and_assoc]

theorem error_masked (old w : Byte) : (((old &&& 0xE0) ||| w) &&& 0xDF) &&& 0x07 = w &&& 0x07 := by
  rw [BitVec.and_assoc, BitVec.and_or_distrib_right]
  simp [BitVec.and_assoc]

theorem errs_masked (errs : Errs) (full : Prop) [Decidable full] :
    ((errs.bits ||| (if full then bufferOvfl else 0x00)) &&& 0x07 != 0) = errs.masked := by
  obtain ⟨p, q, r, c⟩ := errs
  by_cases h : full <;> cases p <;> cases q <;> cases r <;> cases c <;>
    simp [h, Errs.bits, Errs.masked]

/-! ### The round -/

/-- How the device stands at the start of a round: the registers, from those of `s`. -/
structure AtRound (s S : State) (a : Active) (en bf : Byte) (send : List Byte) (es : List Event) :
    Prop where
  frame : S = { s with
    trace := s.trace ++ es
    dev := { s.dev with
      mem := S.dev.mem, fifo := send, active := a, txArmed := false } }
  read : ∀ r, S.dev.mem.read r =
    if r = (s.cfg.map.addr .comIEn) then 0x80 ||| en
    else if r = (s.cfg.map.addr .comIrq) then s.x .comIrq &&& 0x80
    else if r = (s.cfg.map.addr .error) then s.x .error &&& ~~~bufferOvfl
    else if r = (s.cfg.map.addr .command) then s.x .command &&& 0xCF
    else if r = (s.cfg.map.addr .bitFraming) then bf
    else s.dev.mem.read r

theorem atTransceive_atRound (s : State) (en : Byte) (send : List Byte) :
    AtRound s (s.atTransceive en send) .transceive en (s.x .bitFraming ||| 0x80) send
      ([.bus .w (s.cfg.map.addr .comIEn) (0x80 ||| en), .bus .w (s.cfg.map.addr .comIrq) 0x7F, .bus .w (s.cfg.map.addr .fifoLevel) 0x80,
        .bus .w (s.cfg.map.addr .command) 0x00] ++ send.map (Event.bus .w (s.cfg.map.addr .fifoData)) ++
        [.bus .w (s.cfg.map.addr .command) 0x0C, .bus .r (s.cfg.map.addr .bitFraming) (s.x .bitFraming),
          .bus .w (s.cfg.map.addr .bitFraming) (s.x .bitFraming ||| 0x80)]) where
  frame := rfl
  read r := by
    simp only [State.atTransceive, Memory.read_write, comIrqAfter_clear, and_not_command]
    rcases eq_or_ne r (s.cfg.map.addr .comIEn) with rfl | h1
    · simp
    rcases eq_or_ne r (s.cfg.map.addr .comIrq) with rfl | h2
    · simp
    rcases eq_or_ne r (s.cfg.map.addr .error) with rfl | h3
    · simp
    rcases eq_or_ne r (s.cfg.map.addr .command) with rfl | h4
    · simp
    rcases eq_or_ne r (s.cfg.map.addr .bitFraming) with rfl | h5
    · simp [State.x]
    simp [h1, h2, h3, h4, h5]

theorem atAuthenticate_atRound (s : State) (en : Byte) (send : List Byte) :
    AtRound s (s.atAuthenticate en send) .mfAuthent en (s.x .bitFraming) send
      ([.bus .w (s.cfg.map.addr .comIEn) (0x80 ||| en), .bus .w (s.cfg.map.addr .comIrq) 0x7F, .bus .w (s.cfg.map.addr .fifoLevel) 0x80,
        .bus .w (s.cfg.map.addr .command) 0x00] ++ send.map (Event.bus .w (s.cfg.map.addr .fifoData)) ++ [.bus .w (s.cfg.map.addr .command) 0x0E]) where
  frame := rfl
  read r := by
    simp only [State.atAuthenticate, Memory.read_write, comIrqAfter_clear, and_not_command]
    rcases eq_or_ne r (s.cfg.map.addr .comIEn) with rfl | h1
    · simp
    rcases eq_or_ne r (s.cfg.map.addr .comIrq) with rfl | h2
    · simp
    rcases eq_or_ne r (s.cfg.map.addr .error) with rfl | h3
    · simp
    rcases eq_or_ne r (s.cfg.map.addr .command) with rfl | h4
    · simp
    rcases eq_or_ne r (s.cfg.map.addr .bitFraming) with rfl | h5
    · simp [State.x]
    simp [h1, h2, h3, h4, h5]

variable {s S : State} {a : Active} {en bf : Byte} {send : List Byte} {es : List Event}

theorem AtRound.cfg (h : AtRound s S a en bf send es) : S.cfg = s.cfg := by rw [h.frame]

/-- The stored value of a register of `S`, by its address in `s`. -/
theorem AtRound.x_read (h : AtRound s S a en bf send es) (q : Reg) :
    S.x q = S.dev.mem.read (s.cfg.map.addr q) := by rw [State.x, h.cfg]

theorem AtRound.x (h : AtRound s S a en bf send es) (q : Reg) :
    S.x q = if q = .comIEn then 0x80 ||| en
      else if q = .comIrq then s.x .comIrq &&& 0x80
      else if q = .error then s.x .error &&& ~~~bufferOvfl
      else if q = .command then s.x .command &&& 0xCF
      else if q = .bitFraming then bf
      else s.x q := by
  have := h.read (s.cfg.map.addr q)
  rw [h.x_read]
  simpa only [State.x, AddressMap.addr_eq_iff] using this

theorem AtRound.answerTo (h : AtRound s S a en bf send es) (c : Active) (f : List Byte)
    (lb : BitVec 3) : S.answerTo c f lb = s.answerTo c f lb := by
  rw [h.frame]; rfl

/-- The registers once the outcome has applied and the poll has ended (R263 to R267). -/
theorem AtRound.afterPoll_read (h : AtRound s S a en bf send es) {o : LinkOutcome}
    (ho : admitted a o = true) (d : Nat) (r : Nat) :
    (applyOutcome o (S.started.addReads .comIrq 0 d)).afterPoll.dev.mem.read r =
      if r = (s.cfg.map.addr .bitFraming) then bf &&& ~~~0x80
      else if r = (s.cfg.map.addr .comIrq) then (s.x .comIrq &&& 0x80) ||| irqOf a s.cfg.fifoDepth o
      else if r = (s.cfg.map.addr .error) then (s.x .error &&& 0xE0) ||| errorOf s.cfg.fifoDepth o
      else if r = (s.cfg.map.addr .control) then controlAfter (s.x .control) o
      else if r = (s.cfg.map.addr .status2) ∧ o = .authOk then s.x .status2 ||| mfCrypto1On
      else if r = (s.cfg.map.addr .comIEn) then 0x80 ||| en
      else if r = (s.cfg.map.addr .command) then s.x .command &&& 0xCF
      else s.dev.mem.read r := by
  have hact : (S.started.addReads .comIrq 0 d).dev.active = a := by
    simp only [State.addReads, State.started]; rw [h.frame]
  have hcfg : (S.started.addReads .comIrq 0 d).cfg = s.cfg := by
    simp only [State.addReads, State.started]; rw [h.frame]
  have hread := applyOutcome_read (s := S.started.addReads .comIrq 0 d) hact ho rfl
  have hmem : ∀ r, (S.started.addReads .comIrq 0 d).dev.mem.read r =
      if r = (s.cfg.map.addr .error) then s.x .error &&& 0xE0 else S.dev.mem.read r := by
    intro r
    simp only [State.addReads, State.started, Memory.read_write, h.x, ← error_cleared, h.cfg]
    simp
  have hx : ∀ q : Reg, (S.started.addReads .comIrq 0 d).x q =
      if q = .error then s.x .error &&& 0xE0 else S.x q := by
    intro q
    rw [State.x, hcfg, h.x_read]
    simpa using hmem (s.cfg.map.addr q)
  simp only [hx, hcfg, h.x, if_true] at hread
  have hbf : (applyOutcome o (S.started.addReads .comIrq 0 d)).x .bitFraming = bf := by
    have := hread (s.cfg.map.addr .bitFraming)
    simp only [hmem, h.read] at this
    simpa [State.x, h.cfg] using this
  have hcfg' : (applyOutcome o (S.started.addReads .comIrq 0 d)).cfg = s.cfg := by
    rw [applyOutcome_cfg, hcfg]
  simp only [State.afterPoll, Memory.read_write, hbf, hread, hmem, h.read, hcfg']
  rcases eq_or_ne r (s.cfg.map.addr .bitFraming) with rfl | h1
  · simp
  rcases eq_or_ne r (s.cfg.map.addr .comIrq) with rfl | h2
  · simp
  rcases eq_or_ne r (s.cfg.map.addr .error) with rfl | h3
  · simp
  rcases eq_or_ne r (s.cfg.map.addr .control) with rfl | h4
  · simp
  simp only [h1, h2, h3, h4, if_false]
  clear hread hmem hx
  rcases eq_or_ne r (s.cfg.map.addr .status2) with rfl | h5
  · rcases eq_or_ne o .authOk with rfl | h6
    · simp
    · simp [h6]
  rcases eq_or_ne r (s.cfg.map.addr .comIEn) with rfl | h6
  · simp
  rcases eq_or_ne r (s.cfg.map.addr .command) with rfl | h7
  · simp
  simp [h5, h6, h7]

/-- Everything else once the outcome has applied and the poll has ended. -/
theorem AtRound.afterPoll_frame (h : AtRound s S a en bf send es) (hq : s.Quiet) {o : LinkOutcome}
    (ho : admitted a o = true) (d : Nat) :
    ∃ tail, transactions tail = d + 4 ∧ txFrames tail = [] ∧
    (applyOutcome o (S.started.addReads .comIrq 0 d)).afterPoll = { s with
      trace := s.trace ++ es ++ [.tx send ((S.x .bitFraming).setWidth 3)] ++ tail
      dev := { s.dev with
        mem := (applyOutcome o (S.started.addReads .comIrq 0 d)).afterPoll.dev.mem
        fifo := receivedBytes s.cfg.fifoDepth o
        active := activeAfter a o
        txArmed := (a == .transceive) }
      oracle := ⟨s.oracle.rounds.tail, s.oracle.draws, s.oracle.made + 1⟩ } := by
  have hact : (S.started.addReads .comIrq 0 d).dev.active = a := by
    simp only [State.addReads, State.started]; rw [h.frame]
  have hcfg : (S.started.addReads .comIrq 0 d).cfg = s.cfg := by
    simp only [State.addReads, State.started]; rw [h.frame]
  have harm : (S.started.addReads .comIrq 0 d).dev.txArmed = false := by
    simp only [State.addReads, State.started]; rw [h.frame]
  have hdev := applyOutcome_dev (s := S.started.addReads .comIrq 0 d) hact ho rfl
  rw [hcfg, harm] at hdev
  obtain ⟨hd1, hd2, hd3⟩ := hdev
  have hS : S.dev.fifo = send := by rw [h.frame]
  refine ⟨List.replicate d (.bus .r (s.cfg.map.addr .comIrq) 0) ++ [.outcome o,
    .bus .r (s.cfg.map.addr .comIrq) ((applyOutcome o (S.started.addReads .comIrq 0 d)).x .comIrq &&& 0x7F),
    .bus .r (s.cfg.map.addr .bitFraming) ((applyOutcome o (S.started.addReads .comIrq 0 d)).x .bitFraming),
    .bus .w (s.cfg.map.addr .bitFraming) ((applyOutcome o (S.started.addReads .comIrq 0 d)).x .bitFraming &&& ~~~0x80),
    .bus .r (s.cfg.map.addr .error) ((applyOutcome o (S.started.addReads .comIrq 0 d)).x .error &&& 0xDF)],
    by simp, by simp, ?_⟩
  have e1 : S.trace = s.trace ++ es := by rw [h.frame]
  have e2 : S.dev.crcAcc = s.dev.crcAcc := by rw [h.frame]
  have e3 : S.dev.crcResult = s.dev.crcResult := by rw [h.frame]
  have e4 : S.dev.crcPending = s.dev.crcPending := by rw [h.frame]
  have e5 : S.oracle = s.oracle := by rw [h.frame]
  have e6 : S.cfg = s.cfg := by rw [h.frame]
  have e7 : S.ctl = s.ctl := by rw [h.frame]
  have e8 : S.rst = s.rst := by rw [h.frame]
  have e9 : S.faults = s.faults := by rw [h.frame]
  have e10 : S.inbox = s.inbox := by rw [h.frame]
  generalize hX : applyOutcome o (S.started.addReads .comIrq 0 d) = X at *
  have hf := applyOutcome_frame o (S.started.addReads .comIrq 0 d)
  rw [hX] at hf
  simp only [State.addReads, State.started, hd1, hd2, hd3, e1, e2, e3, e4, e5, e6, e7, e8, e9, e10,
    hS] at hf
  simp only [State.afterPoll]
  rw [hf]
  simp [hq.pending]
  rfl

/-- The limits of R198 at the round: the receiver is on since the command was written (R392). -/
theorem AtRound.limit (h : AtRound s S a en bf send es) (hf : fieldOn s = true)
    (ht : tAuto s = true) (ha : a = .transceive ∨ (a = .mfAuthent ∧ send.length = 12)) (ans : Answer) :
    limitAnswer a S.dev.fifo S.started ans =
      match ans with
      | .never => .never
      | .after d o => if admitted a o then .after d o else .never := by
  have hx : ∀ q : Reg, S.started.x q = if q = .error then S.x .error &&& ~~~0x0F else S.x q := by
    intro q; simp [State.started, State.x, Memory.read_write]
  have hfifo : S.dev.fifo = send := by rw [h.frame]
  apply limitAnswer_eq
  · simpa [hfifo] using ha
  · simpa [fieldOn, hx, h.x] using hf
  · simp only [rxOn, rxOnBit, hx, h.x]
    simp [BitVec.and_assoc]
  · simpa [tAuto, hx, h.x] using ht

theorem AtRound.started_quiet (h : AtRound s S a en bf send es) (hq : s.Quiet) :
    S.started.Quiet := by
  refine ⟨?_, rfl, ?_⟩
  · simp only [State.started]; rw [h.frame]; exact hq.high
  · simp only [State.started]; rw [h.frame]; exact hq.crcPending

theorem AtRound.started_irq (h : AtRound s S a en bf send es) :
    S.started.x .comIrq &&& 0x7F = 0 := by
  have : S.started.x .comIrq = s.x .comIrq &&& 0x80 := by
    have := h.x .comIrq
    simpa [State.started, State.x, Memory.read_write] using this
  rw [this, BitVec.and_assoc]
  simp

/-- What the task's last part does when the outcome `o` arrives within the budget. -/
theorem AtRound.run_arrives (h : AtRound s S a en bf send es) (hq : s.Quiet)
    (hf : fieldOn s = true) (ht : tAuto s = true)
    (ha : a = .transceive ∨ (a = .mfAuthent ∧ send.length = 12)) (cfg : Config) {o : LinkOutcome}
    (hhit : pollHit (waitMask cfg (.start a)) (irqOf a s.cfg.fifoDepth o &&& 0x7F) = true)
    (harr : arrives a (s.answerTo a send ((S.x .bitFraming).setWidth 3)) = some o) :
    admitted a o = true ∧ ∃ d, d ≤ 1999 ∧
      s.answerTo a send ((S.x .bitFraming).setWidth 3) = .after d o ∧
      (pollAndFinish cfg (.start a)).run (endOfTransaction (startRound a S)) =
      (if ((applyOutcome o (S.started.addReads .comIrq 0 d)).x .error &&& 0xDF) &&&
          cfg.errorMask != 0 then Prog.ret ⟨.error, [], 0⟩
        else
          let status : Status :=
            if (irqOf a s.cfg.fifoDepth o &&& 0x7F) &&& enableMask cfg (.start a) &&&
              cfg.noTagBit != 0 then .noTag else .ok
          if (Command.start a) = .start .transceive then receiveDrain status
          else .ret ⟨status, [], 0⟩).run
        (applyOutcome o (S.started.addReads .comIrq 0 d)).afterPoll := by
  have hfifo : S.dev.fifo = send := by rw [h.frame]
  match hans : s.answerTo a send ((S.x .bitFraming).setWidth 3) with
  | .never => simp [hans, arrives] at harr
  | .after d o' =>
    rw [hans] at harr
    simp only [arrives] at harr
    split at harr
    · rename_i hc
      obtain rfl : o' = o := by simpa using harr
      simp only [Bool.and_eq_true, decide_eq_true_eq] at hc
      obtain ⟨hadm, hd⟩ := hc
      refine ⟨hadm, d, hd, rfl, ?_⟩
      have hcp : S.dev.crcPending = none := by rw [h.frame]; exact hq.crcPending
      rw [endOfTransaction_startRound a hcp, h.limit hf ht ha, h.answerTo, hfifo, hans]
      simp only [hadm, if_true, State.afterStart]
      have hm : pollHit (waitMask cfg (.start a)) (S.started.x .comIrq &&& 0x7F) = false := by
        rw [h.started_irq]; simp [pollHit]
      have hA : (applyOutcome o' (S.started.addReads .comIrq 0 d)).Quiet :=
        State.Quiet.of_eq (h.started_quiet hq) (by simp [State.addReads])
          (by simp [State.addReads]) (by simp [State.addReads])
      have hirq : (applyOutcome o' (S.started.addReads .comIrq 0 d)).x .comIrq &&& 0x7F =
          irqOf a s.cfg.fifoDepth o' &&& 0x7F := by
        have := h.afterPoll_read hadm d (s.cfg.map.addr .comIrq)
        have hc : (applyOutcome o' (S.started.addReads .comIrq 0 d)).cfg = s.cfg := by
          rw [applyOutcome_cfg]; exact h.cfg
        simp only [State.afterPoll, Memory.read_write, hc, AddressMap.addr_eq_iff, reduceCtorEq,
          if_false, if_true] at this
        rw [State.x, hc, this, irq_cleared]
      have hfin : pollAndFinish cfg (.start a) =
          (Prog.poll .comIrq (pollHit (waitMask cfg (.start a))) 2000).bind fun matched =>
            .clearBits .bitFraming 0x80 <|
              match matched with
              | none => .ret ⟨.timeout, [], 0⟩
              | some irq => afterMatch cfg (.start a) irq := rfl
      obtain ⟨b, hb⟩ : ∃ b, 2000 - d = b + 1 := ⟨2000 - d - 1, by omega⟩
      have hpoll := poll_counting (h.started_quiet hq) hm o' d 2000 (by omega)
      rw [h.started_irq, hb] at hpoll
      rw [hfin, Prog.run_bind, hpoll, ← Prog.run_bind]
      refine (run_matched cfg (.start a) hA b (by rw [hirq]; exact hhit)).trans ?_
      rw [hirq]
    · simp at harr

end Sys2Proof.Machine
end

