-- ==== Sys2Proof/Laws/Late.lean ====
section
/-! SUPPORT. What step 4 of transceive does while an outcome is late (43_transceive.md rules R265, R266):
the outcome applies in one of its two transactions, or stays pending. -/

namespace Sys2Proof.Machine

variable {α : Type}

theorem regRead_bitFraming_counting {u : State} (hq : u.Quiet) (d : Nat) (o : LinkOutcome) :
    regRead .bitFraming (u.counting (d + 1) o) =
      (u.x .bitFraming,
        (u.emit (.bus .r (u.cfg.map.addr .bitFraming) (u.x .bitFraming))).counting d o) := by
  rw [regRead_high (s := u.counting (d + 1) o) hq.high]
  have hx : (u.counting (d + 1) o).x .bitFraming = u.x .bitFraming := rfl
  simp only [deviceRead, AddressMap.regAt_addr, hx, Prod.mk.injEq, true_and]
  exact endOfTransaction_counting (u := u.emit _) (hq.of_eq rfl rfl rfl) d o

theorem deviceWrite_bitFraming {s : State} {v : Byte} (hv : v.getLsbD 7 = false) :
    deviceWrite (s.cfg.map.addr .bitFraming) v s = s.setX .bitFraming v := by
  have hv' : v[7] = false := by simpa using hv
  simp [deviceWrite, writeBitFraming, hv']

theorem regWrite_bitFraming_counting {u : State} (hq : u.Quiet) {v : Byte}
    (hv : v.getLsbD 7 = false) (d : Nat) (o : LinkOutcome) :
    regWrite .bitFraming v (u.counting (d + 1) o) =
      ((u.emit (.bus .w (u.cfg.map.addr .bitFraming) v)).setX .bitFraming v).counting d o := by
  rw [regWrite_high (s := u.counting (d + 1) o) hq.high]
  refine (congrArg endOfTransaction (deviceWrite_bitFraming (s := State.emit _ _) hv)).trans ?_
  exact endOfTransaction_counting (u := (u.emit _).setX .bitFraming v) (hq.of_eq rfl rfl rfl) d o

theorem endOfTransaction_never {u : State} (hq : u.Quiet) :
    endOfTransaction (u.setPending (some ⟨.never, false⟩)) = u.setPending (some ⟨.never, false⟩) := by
  simp [endOfTransaction, tickPending, tickCrc, State.setPending, hq.crcPending]

/-- The two transactions of step 4 as they stand in the state: StartSend is cleared. -/
def State.cleared (s : State) : State :=
  ((s.emit (.bus .r (s.cfg.map.addr .bitFraming) (s.x .bitFraming))).emit
    (.bus .w (s.cfg.map.addr .bitFraming) (s.x .bitFraming &&& ~~~0x80))).setX .bitFraming
      (s.x .bitFraming &&& ~~~0x80)

/-- Step 4 on a quiet device. -/
theorem run_clear_quiet (rest : Prog α) {u : State} (hq : u.Quiet) :
    (Prog.clearBits .bitFraming 0x80 rest).run u = rest.run u.cleared := by
  have h1 : (u.emit (.bus .r (u.cfg.map.addr .bitFraming) (u.x .bitFraming))).Quiet :=
    hq.of_eq rfl rfl rfl
  simp only [Prog.clearBits, Prog.run_read, Prog.run_write]
  rw [regRead_bitFraming hq]
  exact congrArg rest.run (regWrite_bitFraming h1 (startSend_cleared _))

/-- Step 4 on a wedged chip. -/
theorem run_clear_never (rest : Prog α) {u : State} (hq : u.Quiet) :
    (Prog.clearBits .bitFraming 0x80 rest).run (u.setPending (some ⟨.never, false⟩)) =
      rest.run (u.cleared.setPending (some ⟨.never, false⟩)) := by
  have hr : regRead .bitFraming (u.setPending (some ⟨.never, false⟩)) =
      (u.x .bitFraming, (u.emit (.bus .r (u.cfg.map.addr .bitFraming)
        (u.x .bitFraming))).setPending (some ⟨.never, false⟩)) := by
    rw [regRead_high (s := u.setPending (some ⟨.never, false⟩)) hq.high]
    have hx : (u.setPending (some ⟨.never, false⟩)).x .bitFraming = u.x .bitFraming := rfl
    simp only [deviceRead, AddressMap.regAt_addr, hx, Prod.mk.injEq, true_and]
    exact endOfTransaction_never (u := u.emit _) (hq.of_eq rfl rfl rfl)
  simp only [Prog.clearBits, Prog.run_read, Prog.run_write]
  rw [hr]
  refine congrArg rest.run ?_
  rw [regWrite_high (s := (u.emit (.bus .r (u.cfg.map.addr .bitFraming)
    (u.x .bitFraming))).setPending (some ⟨.never, false⟩)) hq.high]
  refine (congrArg endOfTransaction
    (deviceWrite_bitFraming (s := State.emit _ _) (startSend_cleared _))).trans ?_
  exact endOfTransaction_never (u := (State.emit _ (u.emit _)).setX .bitFraming _)
    (hq.of_eq rfl rfl rfl)

/-- Step 4 while an outcome is more than two transactions away, or exactly two. -/
theorem run_clear_counting (rest : Prog α) {u : State} (hq : u.Quiet) (d : Nat) (o : LinkOutcome) :
    (Prog.clearBits .bitFraming 0x80 rest).run (u.counting (d + 2) o) =
      rest.run (u.cleared.counting d o) := by
  have h1 : (u.emit (.bus .r (u.cfg.map.addr .bitFraming) (u.x .bitFraming))).Quiet :=
    hq.of_eq rfl rfl rfl
  simp only [Prog.clearBits, Prog.run_read, Prog.run_write]
  rw [regRead_bitFraming_counting hq]
  exact congrArg rest.run (regWrite_bitFraming_counting h1 (startSend_cleared _) d o)

/-- Step 4 when the outcome applies at the end of its read. -/
theorem run_clear_between (rest : Prog α) {u : State} (hq : u.Quiet) (o : LinkOutcome) :
    (Prog.clearBits .bitFraming 0x80 rest).run (u.counting 1 o) =
      rest.run (((applyOutcome o (u.emit (.bus .r (u.cfg.map.addr .bitFraming)
        (u.x .bitFraming)))).emit (.bus .w (u.cfg.map.addr .bitFraming)
          (u.x .bitFraming &&& ~~~0x80))).setX .bitFraming (u.x .bitFraming &&& ~~~0x80)) := by
  have h1 : (applyOutcome o (u.emit (.bus .r (u.cfg.map.addr .bitFraming)
      (u.x .bitFraming)))).Quiet := hq.of_eq (by simp) (by simp) (by simp)
  simp only [Prog.clearBits, Prog.run_read, Prog.run_write]
  rw [regRead_bitFraming_counting hq]
  have := regWrite_bitFraming h1 (startSend_cleared (u.x .bitFraming))
  rw [applyOutcome_cfg] at this
  exact congrArg rest.run this

variable {s S : State} {a : Active} {en bf : Byte} {send : List Byte} {es : List Event}

/-- The state when a round has run out of budget, step 4 done: `o` has applied if it is one, and `p` is
pending. -/
structure LateLeft (s S t : State) (a : Active) (w : Byte) (o : Option LinkOutcome)
    (p : Option Pending) (n : Nat) : Prop where
  frame : t = { S.started with
    trace := t.trace
    dev := { S.started.dev with
      mem := t.dev.mem
      fifo := (o.map (receivedBytes s.cfg.fifoDepth)).getD []
      active := (o.map (activeAfter a)).getD a
      txArmed := a == .transceive && o.isSome
      pending := p } }
  read : ∀ r, t.dev.mem.read r =
    if r = s.cfg.map.addr .bitFraming then w
    else if r = s.cfg.map.addr .comIrq then
      (s.x .comIrq &&& 0x80) ||| (o.map (irqOf a s.cfg.fifoDepth)).getD 0x00
    else if r = s.cfg.map.addr .error then
      (s.x .error &&& 0xE0) ||| (o.map (errorOf s.cfg.fifoDepth)).getD 0x00
    else if r = s.cfg.map.addr .control then
      (o.map (controlAfter (s.x .control))).getD (s.x .control)
    else if r = s.cfg.map.addr .status2 ∧ o = some .authOk then s.x .status2 ||| mfCrypto1On
    else S.dev.mem.read r
  trace : ∃ ev, t.trace = S.started.trace ++ ev ∧ txFrames ev = [] ∧ transactions ev = n

theorem AtRound.started_read (h : AtRound s S a en bf send es) (r : Nat) :
    S.started.dev.mem.read r =
      if r = s.cfg.map.addr .error then s.x .error &&& 0xE0 else S.dev.mem.read r := by
  simp only [State.started, Memory.read_write, h.cfg, h.x, ← error_cleared]
  simp

/-- The registers an outcome writes, at the start of a round. -/
theorem AtRound.read_reg (h : AtRound s S a en bf send es) (q : Reg) :
    S.dev.mem.read (s.cfg.map.addr q) = S.x q := by rw [h.x_read]

/-- What is left where nothing has applied. -/
theorem AtRound.late_pending (h : AtRound s S a en bf send es) {t : State} {w : Byte}
    {p : Option Pending} {n : Nat}
    (hf : t = { S.started with
      trace := t.trace, dev := { S.started.dev with mem := t.dev.mem, pending := p } })
    (hm : ∀ r, t.dev.mem.read r =
      if r = s.cfg.map.addr .bitFraming then w else S.started.dev.mem.read r)
    (htr : ∃ ev, t.trace = S.started.trace ++ ev ∧ txFrames ev = [] ∧ transactions ev = n) :
    LateLeft s S t a w none p n where
  frame := by
    have h1 : S.started.dev.active = a := by simp only [State.started]; rw [h.frame]
    have h2 : S.started.dev.txArmed = false := by simp only [State.started]; rw [h.frame]
    have h3 : S.started.dev.fifo = [] := rfl
    refine hf.trans ?_
    simp only [Option.map_none, Option.getD_none, Option.isSome_none, Bool.and_false]
    rw [← h1, ← h2, ← h3]
  read r := by
    rw [hm, h.started_read]
    split
    · rfl
    rcases eq_or_ne r (s.cfg.map.addr .error) with rfl | h2
    · simp
    rcases eq_or_ne r (s.cfg.map.addr .comIrq) with rfl | h1
    · rw [if_neg h2, h.read_reg, h.x]; simp
    rcases eq_or_ne r (s.cfg.map.addr .control) with rfl | h3
    · rw [if_neg h2, h.read_reg, h.x]; simp
    simp [h1, h2, h3]
  trace := htr

/-- What is left where the outcome has applied: to `Y`, a state of the round. -/
theorem AtRound.late_applied (h : AtRound s S a en bf send es) {t Y : State} {w w0 : Byte}
    {o : LinkOutcome} {n : Nat} (ho : admitted a o = true)
    (hY : Y = { S.started with
      trace := Y.trace, dev := { S.started.dev with mem := Y.dev.mem } })
    (hYm : ∀ r, Y.dev.mem.read r =
      if r = s.cfg.map.addr .bitFraming then w0 else S.started.dev.mem.read r)
    (hf : t = { applyOutcome o Y with
      trace := t.trace, dev := { (applyOutcome o Y).dev with mem := t.dev.mem } })
    (hm : ∀ r, t.dev.mem.read r =
      if r = s.cfg.map.addr .bitFraming then w else (applyOutcome o Y).dev.mem.read r)
    (htr : ∃ ev, t.trace = S.started.trace ++ ev ∧ txFrames ev = [] ∧ transactions ev = n) :
    LateLeft s S t a w (some o) none n := by
  have hcfg : Y.cfg = s.cfg := by rw [hY]; exact h.cfg
  have hact : Y.dev.active = a := by rw [hY]; simp only [State.started]; rw [h.frame]
  have harm : Y.dev.txArmed = false := by rw [hY]; simp only [State.started]; rw [h.frame]
  have hfifo : Y.dev.fifo = [] := by rw [hY]; rfl
  obtain ⟨d1, d2, d3⟩ := applyOutcome_dev hact ho hfifo
  have hread := applyOutcome_read hact ho hfifo
  rw [hcfg] at hread d3
  have hx : ∀ q : Reg, q ≠ .bitFraming → Y.x q =
      if q = .error then s.x .error &&& 0xE0 else S.x q := by
    intro q hq
    have := hYm (s.cfg.map.addr q)
    rw [h.started_read, h.read_reg] at this
    rw [State.x, hcfg, this]
    simp [hq]
  constructor
  case frame =>
    have f1 : Y.cfg = S.started.cfg := by rw [hY]
    have f2 : Y.ctl = S.started.ctl := by rw [hY]
    have f3 : Y.rst = S.started.rst := by rw [hY]
    have f4 : Y.faults = S.started.faults := by rw [hY]
    have f5 : Y.oracle = S.started.oracle := by rw [hY]
    have f6 : Y.inbox = S.started.inbox := by rw [hY]
    have f7 : Y.dev.crcAcc = S.started.dev.crcAcc := by rw [hY]
    have f8 : Y.dev.crcResult = S.started.dev.crcResult := by rw [hY]
    have f9 : Y.dev.crcPending = S.started.dev.crcPending := by rw [hY]
    have f10 : Y.dev.pending = none := by rw [hY]; rfl
    have harmed : (if a = .transceive then true else false) = (a == .transceive) := by
      cases a <;> rfl
    refine hf.trans ?_
    simp only [applyOutcome_cfg, applyOutcome_ctl, applyOutcome_rst, applyOutcome_faults,
      applyOutcome_oracle, applyOutcome_inbox, applyOutcome_crcAcc, applyOutcome_crcResult,
      applyOutcome_crcPending, applyOutcome_pending, d1, d2, d3, harm, harmed, f1, f2, f3, f4, f5, f6,
      f7, f8, f9, f10, Option.map_some, Option.getD_some, Option.isSome_some, Bool.and_true]
  case read =>
    intro r
    rw [hm, hread, hYm, h.started_read]
    by_cases hb : r = s.cfg.map.addr .bitFraming
    · simp [hb]
    rw [if_neg hb, if_neg hb, if_neg hb, hx _ (by decide), hx _ (by decide), hx _ (by decide),
      hx _ (by decide), h.x, h.x .control, h.x .status2]
    simp only [reduceCtorEq, if_false, if_true]
    rcases eq_or_ne r (s.cfg.map.addr .error) with rfl | h2
    · simp
    rw [if_neg h2, if_neg h2, if_neg h2]
    simp
  case trace => exact htr

/-- BitFramingReg while the poll reads. -/
theorem AtRound.reads_bitFraming (h : AtRound s S a en bf send es) (n : Nat) :
    (S.started.addReads .comIrq 0 n).x .bitFraming = bf := by
  have := h.started_read (s.cfg.map.addr .bitFraming)
  rw [h.read_reg, h.x] at this
  rw [State.x, State.addReads_cfg, State.started_cfg, h.cfg]
  simpa [State.addReads] using this

/-- The state when the budget is spent and step 4 done, by what the limits of R198 left of the answer. -/
theorem AtRound.run_clear_late (h : AtRound s S a en bf send es) (hq : s.Quiet) (rest : Prog α)
    {o : LinkOutcome} (ho : admitted a o = true) (c n : Nat) :
    ∃ t, (Prog.clearBits .bitFraming 0x80 rest).run
        ((S.started.addReads .comIrq 0 n).counting c o) = rest.run t ∧
      LateLeft s S t a (bf &&& ~~~0x80) (if c ≤ 2 then some o else none)
        (if c ≤ 2 then none else some ⟨.after (c - 2) o, false⟩) (n + 2) := by
  have hU : (S.started.addReads .comIrq 0 n).Quiet :=
    (h.started_quiet hq).of_eq rfl rfl rfl
  have hUx := h.reads_bitFraming n
  match c with
  | 0 =>
    have hA : (applyOutcome o (S.started.addReads .comIrq 0 n)).Quiet :=
      hU.of_eq (by simp) (by simp) (by simp)
    have hAx : (applyOutcome o (S.started.addReads .comIrq 0 n)).x .bitFraming = bf := by
      rw [State.x, applyOutcome_cfg, applyOutcome_read (a := a) (by
        simp only [State.addReads, State.started]; rw [h.frame]) ho rfl]
      simpa [State.x, h.cfg] using hUx
    refine ⟨_, (congrArg _ (if_pos rfl)).trans (run_clear_quiet rest hA), ?_⟩
    simp only [Nat.zero_le, if_true]
    refine h.late_applied (Y := S.started.addReads .comIrq 0 n) (w0 := bf) ho rfl ?_ rfl ?_ ?_
    · intro r
      by_cases hr : r = s.cfg.map.addr .bitFraming
      · subst hr; simpa [State.x, h.cfg] using hUx
      · simp [hr, State.addReads]
    · intro r
      simp only [State.cleared, State.setX_mem, State.emit_dev, State.emit_cfg, applyOutcome_cfg,
        State.addReads_cfg, State.started_cfg, h.cfg, Memory.read_write, hAx]
    · exact ⟨List.replicate n (.bus .r (s.cfg.map.addr .comIrq) 0) ++ [.outcome o,
        .bus .r (s.cfg.map.addr .bitFraming) bf, .bus .w (s.cfg.map.addr .bitFraming) (bf &&& ~~~0x80)],
        by simp only [State.cleared, applyOutcome_cfg, applyOutcome_trace, hAx, State.setX_trace, State.emit_trace,
      State.addReads_cfg, State.addReads_trace, State.started_cfg, h.cfg, List.append_assoc,
      List.cons_append, List.nil_append], by simp, by simp⟩
  | 1 =>
    refine ⟨_, run_clear_between rest hU o, ?_⟩
    simp only [Nat.one_le_ofNat, if_true]
    refine h.late_applied (Y := (S.started.addReads .comIrq 0 n).emit (.bus .r
      ((S.started.addReads .comIrq 0 n).cfg.map.addr .bitFraming)
        ((S.started.addReads .comIrq 0 n).x .bitFraming))) (w0 := bf) ho rfl ?_ rfl ?_ ?_
    · intro r
      by_cases hr : r = s.cfg.map.addr .bitFraming
      · subst hr; simpa [State.x, h.cfg] using hUx
      · simp [hr, State.addReads]
    · intro r
      simp only [State.setX_mem, State.emit_dev, State.emit_cfg, applyOutcome_cfg,
        State.addReads_cfg, State.started_cfg, h.cfg, Memory.read_write, hUx]
    · exact ⟨List.replicate n (.bus .r (s.cfg.map.addr .comIrq) 0) ++ [
        .bus .r (s.cfg.map.addr .bitFraming) bf, .outcome o,
        .bus .w (s.cfg.map.addr .bitFraming) (bf &&& ~~~0x80)],
        by simp only [applyOutcome_trace, hUx, State.setX_trace, State.emit_trace,
      State.addReads_cfg, State.addReads_trace, State.started_cfg, h.cfg, List.append_assoc,
      List.cons_append, List.nil_append], by simp, by simp⟩
  | c + 2 =>
    refine ⟨_, run_clear_counting rest hU c o, ?_⟩
    have hcl : ∀ r, (S.started.addReads .comIrq 0 n).cleared.dev.mem.read r =
        if r = s.cfg.map.addr .bitFraming then bf &&& ~~~0x80 else S.started.dev.mem.read r := by
      intro r
      simp only [State.cleared, State.setX_mem, State.emit_dev, State.emit_cfg,
        State.addReads_cfg, State.started_cfg, h.cfg, Memory.read_write, hUx]
      rfl
    have htr : (S.started.addReads .comIrq 0 n).cleared.trace = S.started.trace ++
        (List.replicate n (.bus .r (s.cfg.map.addr .comIrq) 0) ++ [
          .bus .r (s.cfg.map.addr .bitFraming) bf,
          .bus .w (s.cfg.map.addr .bitFraming) (bf &&& ~~~0x80)]) := by
      simp only [State.cleared, hUx, State.setX_trace, State.emit_trace,
      State.addReads_cfg, State.addReads_trace, State.started_cfg, h.cfg, List.append_assoc,
      List.cons_append, List.nil_append]
    match c with
    | 0 =>
      simp only [Nat.le_refl, if_true]
      refine h.late_applied (Y := (S.started.addReads .comIrq 0 n).cleared)
        (w0 := bf &&& ~~~0x80) ho rfl hcl rfl ?_ ?_
      · intro r
        rw [State.counting, if_pos rfl]
        split
        · rename_i hr
          rw [applyOutcome_read (a := a) (by
            simp only [State.cleared, State.addReads, State.started]
            simp only [State.setX_active, State.emit_dev]
            rw [h.frame]) ho rfl]
          subst hr
          simp only [State.cleared, State.setX_cfg, State.setX_mem, State.emit_dev, State.emit_cfg,
            State.addReads_cfg, State.started_cfg, h.cfg, Memory.read_write, hUx,
            AddressMap.addr_eq_iff, reduceCtorEq, if_false, false_and, if_true]
        · rfl
      · exact ⟨_, by rw [State.counting, if_pos rfl, applyOutcome_trace, htr, List.append_assoc],
          by simp, by simp⟩
    | c + 1 =>
      rw [if_neg (by omega), if_neg (by omega)]
      have hs : c + 1 + 2 - 2 = c + 1 := by omega
      rw [hs]
      refine h.late_pending rfl hcl ⟨_, htr, by simp, by simp⟩

/-- A late outcome applies if it comes at most two transactions after the last poll read. -/
theorem lateOutcome_add {o : LinkOutcome} (ho : admitted a o = true) (c : Nat) :
    lateOutcome a (.after (2000 + c) o) = if c ≤ 2 then some o else none := by
  simp only [lateOutcome, ho, Bool.true_and, decide_eq_true_eq]
  congr 1
  exact propext (by omega)

theorem stillPending_add {o : LinkOutcome} (ho : admitted a o = true) (c : Nat) :
    stillPending a (.after (2000 + c) o) =
      if c ≤ 2 then none else some ⟨.after (c - 2) o, false⟩ := by
  simp only [stillPending, ho, if_true]
  rw [show 2000 + c - 2002 = c - 2 by omega]
  congr 1
  exact propext (by omega)

/-- Step 4 on a wedged chip, or one whose answer the limits of R198 turned into none. -/
theorem AtRound.run_clear_wedged (h : AtRound s S a en bf send es) (hq : s.Quiet) (rest : Prog α)
    (n : Nat) :
    ∃ t, (Prog.clearBits .bitFraming 0x80 rest).run
        ((S.started.addReads .comIrq 0 n).setPending (some ⟨.never, false⟩)) = rest.run t ∧
      LateLeft s S t a (bf &&& ~~~0x80) none (some ⟨.never, false⟩) (n + 2) := by
  refine ⟨_, run_clear_never rest ((h.started_quiet hq).of_eq rfl rfl rfl), ?_⟩
  refine h.late_pending rfl (fun r => ?_) ⟨List.replicate n (.bus .r (s.cfg.map.addr .comIrq) 0) ++ [
    .bus .r (s.cfg.map.addr .bitFraming) bf,
    .bus .w (s.cfg.map.addr .bitFraming) (bf &&& ~~~0x80)], ?_, by simp, by simp⟩
  · simp only [State.cleared, State.setPending_mem, State.setX_mem, State.emit_dev, State.emit_cfg,
      State.addReads_cfg, State.started_cfg, h.cfg, Memory.read_write, h.reads_bitFraming]
    rfl
  · simp only [State.cleared, State.setPending_trace, h.reads_bitFraming, State.setX_trace, State.emit_trace,
      State.addReads_cfg, State.addReads_trace, State.started_cfg, h.cfg, List.append_assoc,
      List.cons_append, List.nil_append]

/-- The last part of the task when no outcome arrives within the budget (R265, R266). -/
theorem AtRound.run_late (h : AtRound s S a en bf send es) (hq : s.Quiet)
    (hf : fieldOn s = true) (ht : tAuto s = true)
    (ha : a = .transceive ∨ (a = .mfAuthent ∧ send.length = 12)) (cfg : Config) {ans : Answer}
    (hans : s.answerTo a send ((S.x .bitFraming).setWidth 3) = ans) (harr : arrives a ans = none) :
    ∃ t, (pollAndFinish cfg (.start a)).run (endOfTransaction (startRound a S)) =
        (t, .ok ⟨.timeout, [], 0⟩) ∧
      LateLeft s S t a (bf &&& ~~~0x80) (lateOutcome a ans) (stillPending a ans) 2002 := by
  have hfifo : S.dev.fifo = send := by rw [h.frame]
  have hcp : S.dev.crcPending = none := by rw [h.frame]; exact hq.crcPending
  have hm : pollHit (waitMask cfg (.start a)) (S.started.x .comIrq &&& 0x7F) = false := by
    rw [h.started_irq]; simp [pollHit]
  have hsq := h.started_quiet hq
  have hfin : pollAndFinish cfg (.start a) =
      (Prog.poll .comIrq (pollHit (waitMask cfg (.start a))) 2000).bind fun matched =>
        .clearBits .bitFraming 0x80 <|
          match matched with
          | none => .ret ⟨.timeout, [], 0⟩
          | some irq => afterMatch cfg (.start a) irq := rfl
  have hnever := h.run_clear_wedged hq (.ret (⟨.timeout, [], 0⟩ : TxRx)) 2000
  rw [endOfTransaction_startRound a hcp, h.limit hf ht ha, h.answerTo, hfifo, hans, hfin,
    Prog.run_bind]
  match ans with
  | .never =>
    simp only [State.afterStart]
    rw [poll_never hsq hm 2000, h.started_irq]
    exact hnever
  | .after d o =>
    by_cases hadm : admitted a o = true
    · have hd : 2000 ≤ d := by
        by_contra hlt
        simp [arrives, hadm, show d ≤ 1999 by omega] at harr
      obtain ⟨c, rfl⟩ := Nat.exists_eq_add_of_le hd
      simp only [hadm, if_true, State.afterStart]
      rw [poll_late hsq hm o 2000 _ hd, h.started_irq, Nat.add_sub_cancel_left,
        lateOutcome_add hadm, stillPending_add hadm]
      exact h.run_clear_late hq (.ret (⟨.timeout, [], 0⟩ : TxRx)) hadm c 2000
    · simp only [hadm, Bool.false_eq_true, if_false, State.afterStart]
      rw [poll_never hsq hm 2000, h.started_irq]
      simp only [lateOutcome, stillPending, hadm, Bool.false_and, Bool.false_eq_true, if_false]
      exact hnever

end Sys2Proof.Machine
end

