-- ==== Sys2Proof/Laws/Answered.lean ====
section
/-! SUPPORT. The results of the transceive task by the oracle's answer (43_transceive.md rules R272 to
R274), for TRANSCEIVE and AUTHENTICATE. -/

namespace Sys2Proof.Machine

variable {s S : State} {a : Active} {en bf : Byte} {send : List Byte} {es : List Event}

/-- The final state of an exchange, from the state after the poll. -/
theorem AtRound.exchanged (h : AtRound s S a en bf send es) (hq : s.Quiet) {o : LinkOutcome}
    (ho : admitted a o = true) (d : Nat) {framing : Byte} (hbf : bf &&& ~~~0x80 = framing &&& 0x7F)
    {t : State} {tail : List Event}
    (ht : t = { (applyOutcome o (S.started.addReads .comIrq 0 d)).afterPoll with
      trace := (applyOutcome o (S.started.addReads .comIrq 0 d)).afterPoll.trace ++ tail
      dev := { (applyOutcome o (S.started.addReads .comIrq 0 d)).afterPoll.dev with
        fifo := leftInFifo s.cfg.fifoDepth o }
      oracle := ⟨s.oracle.rounds.tail,
        if a = .transceive ∧ o = .noResp then s.oracle.draws.tail else s.oracle.draws,
        s.oracle.made + (if a = .transceive ∧ o = .noResp then 2 else 1)⟩ }) :
    Exchanged s t a en framing none o ∧ t.ctl.awaiting = s.ctl.awaiting := by
  obtain ⟨mid, _, _, hE⟩ := h.afterPoll_frame hq ho d
  have hread := h.afterPoll_read ho d
  generalize (applyOutcome o (S.started.addReads .comIrq 0 d)).afterPoll = E at *
  have hmem : t.dev.mem = E.dev.mem := by rw [ht]
  have hcfg : t.cfg = s.cfg := by rw [ht, hE]
  have hx : ∀ q : Reg, t.x q = E.dev.mem.read (s.cfg.map.addr q) := fun q => by
    rw [State.x, hmem, hcfg]
  rw [hE] at ht
  refine ⟨?_, by rw [ht]⟩
  constructor
  case others =>
    intro r hr
    rw [hmem, hread]
    simp only [exchangeRegs, List.map_cons, List.map_nil, List.mem_cons, List.not_mem_nil, not_or]
      at hr
    simp [hr]
  case command => rw [hx, hread]; simp
  case comIEn => rw [hx, hread]; simp
  case comIrq => rw [hx, hread]; simp
  case divIrq => rw [hx, hread]; simp [State.x]
  case error => rw [hx, hread]; simp
  case status1 => rw [hx, hread]; simp [State.x]
  case status2 =>
    rw [hx, hread]
    by_cases ho' : o = .authOk
    · simp [ho']
    · simp [ho', State.x]
  case control => rw [hx, hread]; simp
  case bitFraming => rw [hx, hread, if_pos rfl, hbf]
  all_goals first
    | (rw [ht]; done)
    | (rw [ht]; exact hq.pending)
    | (rw [ht]; exact hq.crcPending)
    | (rw [ht]; rfl)

theorem setWidth_three_zero (c : Byte) : (c &&& 0x07 = 0) ↔ (c.setWidth 3 : BitVec 3) = 0 := by
  revert c; decide

theorem and_seven_toNat (c : Byte) : (c &&& 0x07).toNat = (c.setWidth 3 : BitVec 3).toNat := by
  revert c; decide

theorem control_lastBits (old : Byte) (lb : BitVec 3) :
    (controlWithLastBits old lb).setWidth 3 = lb := by
  revert old lb; decide

/-- `bitlen` in terms of RxLastBits (R269). -/
theorem bitLength_eq (n c : Byte) (lb : BitVec 3) (h : (c.setWidth 3 : BitVec 3) = lb) :
    bitLength n (c &&& 0x07) =
      if lb = 0 then (n.toNat : Int) * 8 else ((n.toNat : Int) - 1) * 8 + lb.toNat := by
  subst h
  simp only [bitLength, ne_eq, setWidth_three_zero, and_seven_toNat, ite_not]

/-- TRANSCEIVE with an outcome that arrives within the budget (R272): what it returns, what it
leaves, and what it sends. -/
theorem transceive_arrives {s : State} (hq : s.Quiet) (hf : fieldOn s = true) (ht : tAuto s = true)
    (hm : s.cfg.SourceMasks) (hd : 18 ≤ s.cfg.fifoDepth ∧ s.cfg.fifoDepth < 128)
    {send : List Byte} (hroom : send.length ≤ s.cfg.fifoDepth) {o : LinkOutcome}
    (harr : arrives .transceive
      (s.answerTo .transceive send ((s.x .bitFraming).setWidth 3)) = some o) :
    ∃ t es,
      (transceive s.cfg (.start .transceive) send).run s =
        (t, .ok (txrxOf s.cfg.fifoDepth ((s.x .control).setWidth 3) s.drawAfterAnswer (some o))) ∧
      Exchanged s t .transceive 0x31 (s.x .bitFraming) none o ∧
      t.ctl.awaiting = s.ctl.awaiting ∧
      t.trace = s.trace ++ es ∧
      txFrames es = [(send, (s.x .bitFraming).setWidth 3)] ∧
      ∃ d, s.answerTo .transceive send ((s.x .bitFraming).setWidth 3) = .after d o ∧
        transactions es = send.length + d + 11 + drainCost s.cfg.fifoDepth o := by
  have hat := atTransceive_atRound s 0x31 send
  have hlb : ((s.atTransceive 0x31 send).x .bitFraming).setWidth 3 =
      ((s.x .bitFraming).setWidth 3 : BitVec 3) := by
    rw [hat.x]; simp
  have hen : enableMask s.cfg (.start .transceive) = 0x31 := hm.transceiveEnable
  have hwt : waitMask s.cfg (.start .transceive) = 0x31 := hm.transceiveWait
  have hhit : pollHit (waitMask s.cfg (.start .transceive))
      (irqOf .transceive s.cfg.fifoDepth o &&& 0x7F) = true := by
    rw [hwt]
    have : admitted .transceive o = true := by
      revert harr
      cases s.answerTo .transceive send ((s.x .bitFraming).setWidth 3) with
      | never => simp [arrives]
      | after d o' =>
        simp only [arrives]
        split
        · rename_i hc
          intro he
          obtain rfl : o' = o := by simpa using he
          simp only [Bool.and_eq_true] at hc
          exact hc.1
        · simp
    cases o <;> simp [admitted] at this
    · simp only [irqOf, errIrqOf]
      split <;> decide
    · simp only [irqOf, errIrqOf]
      decide
  obtain ⟨hadm, d, hd1, hans, hrun⟩ := hat.run_arrives hq hf ht (.inl rfl) s.cfg hhit
    (by rw [hlb]; exact harr)
  obtain ⟨mid, hmid1, hmid2, hE⟩ := hat.afterPoll_frame hq hadm d
  have hread := hat.afterPoll_read hadm d
  have hexch := fun t tail => hat.exchanged hq hadm d (startSend_masked (s.x .bitFraming))
    (t := t) (tail := tail)
  have hall : (transceive s.cfg (.start .transceive) send).run s =
      match (pollAndFinish s.cfg (.start .transceive)).run
        (endOfTransaction (startRound .transceive (s.atTransceive 0x31 send))) with
      | (t, .ok r) => (t.emit (.ret .transceive (.txrx r.status r.rx r.bitlen)), .ok r)
      | (t, .error e) => (t.emit (.raised .transceive e), .error e) := by
    rw [transceive, Prog.run_asTask, hen, run_setup _ _ _ hq hroom, if_pos rfl,
      run_startTransceive _ _ _ hq]
    rcases (pollAndFinish s.cfg (.start .transceive)).run
      (endOfTransaction (startRound .transceive (s.atTransceive 0x31 send))) with ⟨t, e | r⟩ <;> rfl
  rw [hrun] at hall
  have herr : (((applyOutcome o ((s.atTransceive 0x31 send).started.addReads .comIrq 0 d)).x .error
      &&& 0xDF) &&& s.cfg.errorMask != 0) =
      ((errorOf s.cfg.fifoDepth o &&& 0x07) != 0) := by
    have := hread (s.cfg.map.addr .error)
    simp only [State.afterPoll, Memory.read_write, applyOutcome_cfg, State.addReads_cfg,
      State.started_cfg, hat.cfg, AddressMap.addr_eq_iff, reduceCtorEq, if_false, if_true] at this
    rw [State.x, applyOutcome_cfg, State.addReads_cfg, State.started_cfg, hat.cfg, this, hm.error,
      error_masked]
  rw [herr, hen, hm.noTag] at hall
  have hEq : (applyOutcome o ((s.atTransceive 0x31 send).started.addReads .comIrq 0 d)).afterPoll.Quiet := by
    rw [hE]; exact ⟨hq.high, hq.pending, hq.crcPending⟩
  have hctl : (applyOutcome o ((s.atTransceive 0x31 send).started.addReads .comIrq 0 d)).afterPoll.x
      .control = controlAfter (s.x .control) o := by
    rw [State.x, State.afterPoll_cfg, applyOutcome_cfg, State.addReads_cfg, State.started_cfg,
      hat.cfg, hread]
    simp
  simp only [if_true] at hall
  generalize (applyOutcome o ((s.atTransceive 0x31 send).started.addReads .comIrq 0 d)).afterPoll
    = E at *
  have hfifo : E.dev.fifo = receivedBytes s.cfg.fifoDepth o := by rw [hE]
  have horacle : E.oracle = ⟨s.oracle.rounds.tail, s.oracle.draws, s.oracle.made + 1⟩ := by rw [hE]
  have htrace : E.trace = s.trace ++ ([.bus .w (s.cfg.map.addr .comIEn) (0x80 ||| 0x31), .bus .w (s.cfg.map.addr .comIrq) 0x7F,
      .bus .w (s.cfg.map.addr .fifoLevel) 0x80, .bus .w (s.cfg.map.addr .command) 0x00] ++ send.map (Event.bus .w (s.cfg.map.addr .fifoData)) ++
      [.bus .w (s.cfg.map.addr .command) 0x0C, .bus .r (s.cfg.map.addr .bitFraming) (s.x .bitFraming), .bus .w (s.cfg.map.addr .bitFraming) (s.x .bitFraming ||| 0x80)] ++
      [.tx send ((s.x .bitFraming).setWidth 3)] ++ mid) := by
    rw [hE, hlb]; simp only [List.append_assoc]
  obtain ⟨pre, hpre, htx, hcost⟩ : ∃ pre, E.trace = s.trace ++ pre ∧
      txFrames pre = [(send, (s.x .bitFraming).setWidth 3)] ∧
      transactions pre = send.length + d + 11 :=
    ⟨_, htrace, by simp [hmid2], by simp [hmid1]; omega⟩
  -- the drain leaves `E` but for the trace, the FIFO and the oracle
  have hdone : ∀ (t : State) (tail : List Event) (r : TxRx),
      t = { E with
        trace := E.trace ++ tail
        dev := { E.dev with fifo := leftInFifo s.cfg.fifoDepth o }
        oracle := ⟨s.oracle.rounds.tail,
          if (.transceive : Active) = .transceive ∧ o = .noResp then s.oracle.draws.tail
            else s.oracle.draws,
          s.oracle.made + (if (.transceive : Active) = .transceive ∧ o = .noResp then 2 else 1)⟩ } →
      txFrames tail = [] → transactions tail = drainCost s.cfg.fifoDepth o →
      (transceive s.cfg (.start .transceive) send).run s = (t, .ok r) →
      r = txrxOf s.cfg.fifoDepth ((s.x .control).setWidth 3) s.drawAfterAnswer (some o) →
      ∃ t es, (transceive s.cfg (.start .transceive) send).run s =
        (t, .ok (txrxOf s.cfg.fifoDepth ((s.x .control).setWidth 3) s.drawAfterAnswer (some o))) ∧
      Exchanged s t .transceive 0x31 (s.x .bitFraming) none o ∧
      t.ctl.awaiting = s.ctl.awaiting ∧ t.trace = s.trace ++ es ∧
      txFrames es = [(send, (s.x .bitFraming).setWidth 3)] ∧
      ∃ d, s.answerTo .transceive send ((s.x .bitFraming).setWidth 3) = .after d o ∧
        transactions es = send.length + d + 11 + drainCost s.cfg.fifoDepth o := by
    intro t tail r h1 h2 h2' h3 h4
    obtain ⟨hx, haw⟩ := hexch t tail h1
    refine ⟨t, pre ++ tail, by rw [h3, h4], hx, haw, ?_, by simp [htx, h2], d, ?_,
      by simp [hcost, h2']⟩
    rotate_left
    · rw [← hlb]; exact hans
    rw [h1]; simp only [hpre, List.append_assoc]
  cases o with
  | resp bytes lb errs =>
    simp only [errorOf, errs_masked] at hall
    by_cases hmask : errs.masked = true
    · simp only [hmask, if_true, Prog.run_ret] at hall
      refine hdone _ [.ret .transceive (.txrx .error [] 0)] _ ?_ (by simp)
        (by simp [drainCost, hmask]) hall (by simp [txrxOf, hmask])
      · simp only [State.emit, leftInFifo, hmask, if_true, reduceCtorEq, and_false, if_false,
          ← horacle]
        simp only [receivedBytes] at hfifo
        rw [← hfifo]
    · have hne : E.dev.fifo ≠ [] := by
        simp [hfifo, receivedBytes]
        simp [admitted] at hadm
        exact ⟨by omega, hadm⟩
      have hlen : E.dev.fifo.length < 128 := by simp [hfifo, receivedBytes]; omega
      have hst : (irqOf .transceive s.cfg.fifoDepth (.resp bytes lb errs) &&& 0x7F &&& 0x31 &&& 0x01
          != 0) = false := by
        simp only [irqOf, errIrqOf]
        split <;> decide
      simp only [hmask, hst, if_false, Bool.false_eq_true, run_receiveDrain hEq hne hlen] at hall
      refine hdone _ (([.bus .r (E.cfg.map.addr .fifoLevel) (BitVec.ofNat 8 E.dev.fifo.length),
            .bus .r (E.cfg.map.addr .control) (0x10 ||| (E.x .control &&& 0x07))] ++
              (E.dev.fifo.take 16).map (Event.bus .r (E.cfg.map.addr .fifoData))) ++ [.ret .transceive (.txrx .ok
                (E.dev.fifo.take 16)
                (bitLength (BitVec.ofNat 8 E.dev.fifo.length) (E.x .control &&& 0x07)))])
        _ ?_ (by rw [txFrames_append, txFrames_append, txFrames_map_bus]; simp) ?_ hall ?_
      · simp only [State.emit, leftInFifo, hmask, Bool.false_eq_true, reduceCtorEq, and_false,
          if_false, ← horacle, List.append_assoc]
        simp only [receivedBytes] at hfifo
        rw [← hfifo]
      · rw [transactions_append, transactions_append, transactions_map_bus]
        simp only [List.length_take, hfifo, receivedBytes, drainCost, hmask, Bool.false_eq_true,
          if_false, transactions_bus, transactions_ret, transactions_nil]
        omega
      · have hl : ((E.x .control).setWidth 3 : BitVec 3) = lb := by
          rw [hctl]; exact control_lastBits _ _
        rw [bitLength_eq _ _ _ hl]
        have hn : (BitVec.ofNat 8 E.dev.fifo.length).toNat = min bytes.length s.cfg.fifoDepth := by
          rw [BitVec.toNat_ofNat, Nat.mod_eq_of_lt (by omega), hfifo, receivedBytes,
            List.length_take, Nat.min_comm]
        have htk : E.dev.fifo.take 16 = bytes.take 16 := by
          rw [hfifo, receivedBytes, List.take_take, Nat.min_eq_left (by omega)]
        simp only [hn, htk, txrxOf, hmask, Bool.false_eq_true, if_false]
  | noResp =>
    have h0 : (errorOf s.cfg.fifoDepth .noResp &&& 0x07 != 0) = false := by simp [errorOf]
    have hst : (irqOf .transceive s.cfg.fifoDepth .noResp &&& 0x7F &&& 0x31 &&& 0x01 != 0) =
        true := by simp only [irqOf, errIrqOf]; decide
    have hdraw : E.draw.1 = s.drawAfterAnswer := by
      rw [State.draw_eq, horacle]; rfl
    simp only [h0, hst, if_true, Bool.false_eq_true, if_false, run_receiveDrain_empty hEq hfifo,
      hdraw] at hall
    refine hdone _ ([.bus .r (E.cfg.map.addr .fifoLevel) 0x00, .bus .r (E.cfg.map.addr .control) (0x10 ||| (E.x .control &&& 0x07)),
            .bus .r (E.cfg.map.addr .fifoData) s.drawAfterAnswer] ++ [.ret .transceive (.txrx .noTag [s.drawAfterAnswer]
              (bitLength 0x00 (E.x .control &&& 0x07)))]) _ ?_ (by simp) (by simp [drainCost]) hall ?_
    · simp only [State.emit, List.append_assoc, horacle, leftInFifo, and_self, if_true,
        Nat.add_assoc]
      simp only [receivedBytes] at hfifo
      rw [← hfifo]
    · have hl : ((E.x .control).setWidth 3 : BitVec 3) = (s.x .control).setWidth 3 := by
        rw [hctl]; rfl
      rw [bitLength_eq _ _ _ hl]
      simp only [txrxOf, TxRx.mk.injEq, true_and]
      split
      · simp
      · simp
        omega
  | authOk => simp [admitted] at hadm
  | authErr e => simp [admitted] at hadm
  | txDone => simp [admitted] at hadm

theorem arrives_admitted {a : Active} {ans : Answer} {o : LinkOutcome}
    (h : arrives a ans = some o) : admitted a o = true := by
  cases ans with
  | never => simp [arrives] at h
  | after d o' =>
    simp only [arrives] at h
    split at h
    · rename_i hc
      obtain rfl : o' = o := by simpa using h
      simp only [Bool.and_eq_true] at hc
      exact hc.1
    · simp at h

/-- AUTHENTICATE with an outcome that arrives within the budget (R272). -/
theorem authenticate_arrives {s : State} (hq : s.Quiet) (hf : fieldOn s = true)
    (ht : tAuto s = true) (hm : s.cfg.SourceMasks) (hd : 18 ≤ s.cfg.fifoDepth)
    {send : List Byte} (hlen : send.length = 12) {o : LinkOutcome}
    (harr : arrives .mfAuthent
      (s.answerTo .mfAuthent send ((s.x .bitFraming).setWidth 3)) = some o) :
    ∃ t es,
      (transceive s.cfg (.start .mfAuthent) send).run s = (t, .ok ⟨authStatusOf (some o), [], 0⟩) ∧
      Exchanged s t .mfAuthent 0x11 (s.x .bitFraming) none o ∧
      t.ctl.awaiting = s.ctl.awaiting ∧
      t.trace = s.trace ++ es ∧
      txFrames es = [(send, (s.x .bitFraming).setWidth 3)] ∧
      ∃ d, s.answerTo .mfAuthent send ((s.x .bitFraming).setWidth 3) = .after d o ∧
        transactions es = 21 + d := by
  have hat := atAuthenticate_atRound s 0x11 send
  have hbf : (s.atAuthenticate 0x11 send).x .bitFraming = s.x .bitFraming := by rw [hat.x]; simp
  have hen : enableMask s.cfg (.start .mfAuthent) = 0x11 := hm.authEnable
  have hwt : waitMask s.cfg (.start .mfAuthent) = 0x11 := hm.authWait
  have hadm := arrives_admitted harr
  have hhit : pollHit (waitMask s.cfg (.start .mfAuthent))
      (irqOf .mfAuthent s.cfg.fifoDepth o &&& 0x7F) = true := by
    rw [hwt]
    cases o <;> simp [admitted] at hadm <;> simp only [irqOf, errIrqOf] <;> decide
  obtain ⟨-, d, hd1, hans, hrun⟩ := hat.run_arrives hq hf ht (.inr ⟨rfl, hlen⟩) s.cfg hhit
    (by rw [hbf]; exact harr)
  obtain ⟨mid, hmid1, hmid2, hE⟩ := hat.afterPoll_frame hq hadm d
  have hread := hat.afterPoll_read hadm d
  have hexch := fun t tail => hat.exchanged hq hadm d (and_not_startSend (s.x .bitFraming))
    (t := t) (tail := tail)
  have hall : (transceive s.cfg (.start .mfAuthent) send).run s =
      match (pollAndFinish s.cfg (.start .mfAuthent)).run
        (endOfTransaction (startRound .mfAuthent (s.atAuthenticate 0x11 send))) with
      | (t, .ok r) => (t.emit (.ret .transceive (.txrx r.status r.rx r.bitlen)), .ok r)
      | (t, .error e) => (t.emit (.raised .transceive e), .error e) := by
    rw [transceive, Prog.run_asTask, hen, run_setup _ _ _ hq (by omega), if_neg (by decide),
      run_startAuthenticate _ _ _ hq]
    rcases (pollAndFinish s.cfg (.start .mfAuthent)).run
      (endOfTransaction (startRound .mfAuthent (s.atAuthenticate 0x11 send))) with ⟨t, e | r⟩ <;> rfl
  rw [hrun] at hall
  have herr : (((applyOutcome o ((s.atAuthenticate 0x11 send).started.addReads .comIrq 0 d)).x
      .error &&& 0xDF) &&& s.cfg.errorMask != 0) =
      ((errorOf s.cfg.fifoDepth o &&& 0x07) != 0) := by
    have := hread (s.cfg.map.addr .error)
    simp only [State.afterPoll, Memory.read_write, applyOutcome_cfg, State.addReads_cfg,
      State.started_cfg, hat.cfg, AddressMap.addr_eq_iff, reduceCtorEq, if_false, if_true] at this
    rw [State.x, applyOutcome_cfg, State.addReads_cfg, State.started_cfg, hat.cfg, this, hm.error,
      error_masked]
  rw [herr, hen, hm.noTag, if_neg (show ¬ Command.start .mfAuthent = .start .transceive by decide)]
    at hall
  generalize (applyOutcome o ((s.atAuthenticate 0x11 send).started.addReads .comIrq 0 d)).afterPoll
    = E at *
  have hfifo : E.dev.fifo = leftInFifo s.cfg.fifoDepth o := by
    rw [hE]; cases o <;> simp [admitted] at hadm <;> rfl
  have horacle : E.oracle = ⟨s.oracle.rounds.tail, s.oracle.draws, s.oracle.made + 1⟩ := by rw [hE]
  have htrace : E.trace = s.trace ++ ([.bus .w (s.cfg.map.addr .comIEn) (0x80 ||| 0x11), .bus .w (s.cfg.map.addr .comIrq) 0x7F,
      .bus .w (s.cfg.map.addr .fifoLevel) 0x80, .bus .w (s.cfg.map.addr .command) 0x00] ++ send.map (Event.bus .w (s.cfg.map.addr .fifoData)) ++
      [.bus .w (s.cfg.map.addr .command) 0x0E] ++ [.tx send ((s.x .bitFraming).setWidth 3)] ++ mid) := by
    rw [hE, hbf]; simp only [List.append_assoc]
  obtain ⟨st, hst, hrun'⟩ : ∃ st, st = authStatusOf (some o) ∧
      (transceive s.cfg (.start .mfAuthent) send).run s =
        (E.emit (.ret .transceive (.txrx st [] 0)), .ok ⟨st, [], 0⟩) := by
    cases o with
    | resp bytes lb errs => simp [admitted] at hadm
    | txDone => simp [admitted] at hadm
    | noResp =>
      refine ⟨_, rfl, ?_⟩
      have h0 : (errorOf s.cfg.fifoDepth .noResp &&& 0x07 != 0) = false := by simp [errorOf]
      have h1 : (irqOf .mfAuthent s.cfg.fifoDepth .noResp &&& 0x7F &&& 0x11 &&& 0x01 != 0) =
        true := by simp only [irqOf, errIrqOf]; decide
      simpa only [h0, h1, Bool.false_eq_true, if_false, if_true, Prog.run_ret, authStatusOf] using hall
    | authOk =>
      refine ⟨_, rfl, ?_⟩
      have h0 : (errorOf s.cfg.fifoDepth .authOk &&& 0x07 != 0) = false := by simp [errorOf]
      have h1 : (irqOf .mfAuthent s.cfg.fifoDepth .authOk &&& 0x7F &&& 0x11 &&& 0x01 != 0) =
        false := by simp only [irqOf, errIrqOf]; decide
      simpa only [h0, h1, Bool.false_eq_true, if_false, if_true, Prog.run_ret, authStatusOf] using hall
    | authErr errs =>
      refine ⟨_, rfl, ?_⟩
      have h0 : (errorOf s.cfg.fifoDepth (.authErr errs) &&& 0x07 != 0) = errs.masked := by
        simpa [errorOf] using errs_masked errs False
      have h1 : (irqOf .mfAuthent s.cfg.fifoDepth (.authErr errs) &&& 0x7F &&& 0x11 &&& 0x01 != 0)
        = false := by simp only [irqOf, errIrqOf]; decide
      by_cases hmask : errs.masked = true
      · simpa only [h0, h1, hmask, Bool.false_eq_true, if_false, if_true, Prog.run_ret,
          authStatusOf] using hall
      · simpa only [h0, h1, hmask, Bool.false_eq_true, if_false, if_true, Prog.run_ret,
          authStatusOf] using hall
  subst hst
  obtain ⟨hx, haw⟩ := hexch (E.emit (.ret .transceive (.txrx (authStatusOf (some o)) [] 0)))
    [.ret .transceive (.txrx (authStatusOf (some o)) [] 0)] (by
      simp only [State.emit, reduceCtorEq, false_and, if_false, ← horacle, ← hfifo])
  refine ⟨_, _, hrun', hx, haw, by
    simp only [State.emit_trace, htrace, List.append_assoc]; rfl, ?_, d, ?_, ?_⟩
  · simp [hmid2]
  · rw [← hbf]; exact hans
  · simp [hmid1, hlen]; omega

/-! ### No answer in time -/

/-- The final state of a timeout. -/
theorem AtRound.timedOut (h : AtRound s S a en bf send es) (hq : s.Quiet) {framing : Byte}
    (hbf : bf &&& ~~~0x80 = framing &&& 0x7F) {t : State} (e : Event) {ans : Answer}
    (hl : LateLeft s S t a (bf &&& ~~~0x80) (lateOutcome a ans) (stillPending a ans) 2002) :
    TimedOut s (t.emit e) a en framing none ans ∧ t.ctl.awaiting = s.ctl.awaiting ∧
      ∃ ev, t.trace = s.trace ++ (es ++ [.tx send ((S.x .bitFraming).setWidth 3)] ++ ev) ∧
        txFrames ev = [] ∧ transactions ev = 2002 := by
  have hf := hl.frame
  have hcfg : t.cfg = s.cfg := by rw [hf]; exact h.cfg
  have hx : ∀ q : Reg, (t.emit e).x q = t.dev.mem.read (s.cfg.map.addr q) := fun q => by
    rw [State.emit_x, State.x, hcfg]
  have hS := h.frame
  have h1 : S.trace = s.trace ++ es := by rw [hS]
  have h2 : S.dev.fifo = send := by rw [hS]
  have hctl : t.ctl = s.ctl := by rw [hf]; simp only [State.started]; rw [hS]
  refine ⟨?_, by rw [hctl], ?_⟩
  · constructor
    case others =>
      intro r hr
      simp only [exchangeRegs, List.map_cons, List.map_nil, List.mem_cons, List.not_mem_nil,
        not_or] at hr
      rw [State.emit_dev, hl.read, h.read]
      simp [hr]
    case command => rw [hx, hl.read, h.read_reg, h.x]; simp
    case comIEn => rw [hx, hl.read, h.read_reg, h.x]; simp
    case comIrq => rw [hx, hl.read]; simp
    case divIrq => rw [hx, hl.read, h.read_reg, h.x]; simp
    case error => rw [hx, hl.read]; simp
    case status1 => rw [hx, hl.read, h.read_reg, h.x]; simp
    case status2 =>
      rw [hx, hl.read, h.read_reg, h.x]
      by_cases ho : lateOutcome a ans = some .authOk <;> simp [ho]
    case control => rw [hx, hl.read]; simp
    case bitFraming => rw [hx, hl.read, if_pos rfl, hbf]
    case running => rw [State.emit_ctl, hctl]
    case closed => rw [State.emit_ctl, hctl]
    case exhausted => rw [State.emit_ctl, hctl]
    case crcPending => rw [State.emit_dev, hf]; simp only [State.started]; rw [hS]; exact hq.crcPending
    all_goals
      first
        | (rw [State.emit_dev, hf]; done)
        | (simp only [State.emit]
           rw [hf]; simp only [State.started]; rw [hS]; done)
        | (simp only [State.emit]
           rw [hf]; simp only [State.started]; rw [hS]; rfl)
  · obtain ⟨ev, he, hfr, hn⟩ := hl.trace
    refine ⟨ev, ?_, hfr, hn⟩
    rw [he]
    simp [State.started, h1, h2, List.append_assoc]

/-- TRANSCEIVE with no answer in time (R266). -/
theorem transceive_timeout {s : State} (hq : s.Quiet) (hf : fieldOn s = true) (ht : tAuto s = true)
    (hm : s.cfg.SourceMasks) {send : List Byte} (hroom : send.length ≤ s.cfg.fifoDepth)
    (harr : arrives .transceive
      (s.answerTo .transceive send ((s.x .bitFraming).setWidth 3)) = none) :
    ∃ t es, (transceive s.cfg (.start .transceive) send).run s = (t, .ok ⟨.timeout, [], 0⟩) ∧
      TimedOut s t .transceive 0x31 (s.x .bitFraming) none
        (s.answerTo .transceive send ((s.x .bitFraming).setWidth 3)) ∧
      t.ctl.awaiting = s.ctl.awaiting ∧
      t.trace = s.trace ++ es ∧
      txFrames es = [(send, (s.x .bitFraming).setWidth 3)] ∧
      transactions es = send.length + 2009 := by
  have hat := atTransceive_atRound s 0x31 send
  have hlb : ((s.atTransceive 0x31 send).x .bitFraming).setWidth 3 =
      ((s.x .bitFraming).setWidth 3 : BitVec 3) := by
    rw [hat.x]; simp
  have hen : enableMask s.cfg (.start .transceive) = 0x31 := hm.transceiveEnable
  obtain ⟨t, hrun, hd⟩ := hat.run_late hq hf ht (.inl rfl) s.cfg (congrArg _ hlb) harr
  have hall : (transceive s.cfg (.start .transceive) send).run s =
      (t.emit (.ret .transceive (.txrx .timeout [] 0)), .ok ⟨.timeout, [], 0⟩) := by
    rw [transceive]
    refine Prog.run_asTask_ok (t := t) (a := (⟨.timeout, [], 0⟩ : TxRx)) ?_
    rw [hen, run_setup _ _ _ hq hroom, if_pos rfl, run_startTransceive _ _ _ hq, hrun]
  obtain ⟨hto, haw, ev, he, hev, hn⟩ := hat.timedOut hq (startSend_masked _) (.ret .transceive (.txrx .timeout [] 0))
    hd
  rw [hlb] at he
  refine ⟨_, _, hall, hto, haw, by rw [State.emit_trace, he, List.append_assoc], ?_, ?_⟩
  · simp [hev]
  · simp [hn]

/-- AUTHENTICATE with no answer in time (R266). -/
theorem authenticate_timeout {s : State} (hq : s.Quiet) (hf : fieldOn s = true)
    (ht : tAuto s = true) (hm : s.cfg.SourceMasks) (hd : 18 ≤ s.cfg.fifoDepth)
    {send : List Byte} (hlen : send.length = 12)
    (harr : arrives .mfAuthent
      (s.answerTo .mfAuthent send ((s.x .bitFraming).setWidth 3)) = none) :
    ∃ t es, (transceive s.cfg (.start .mfAuthent) send).run s = (t, .ok ⟨.timeout, [], 0⟩) ∧
      TimedOut s t .mfAuthent 0x11 (s.x .bitFraming) none
        (s.answerTo .mfAuthent send ((s.x .bitFraming).setWidth 3)) ∧
      t.ctl.awaiting = s.ctl.awaiting ∧
      t.trace = s.trace ++ es ∧
      txFrames es = [(send, (s.x .bitFraming).setWidth 3)] ∧
      transactions es = 2019 := by
  have hat := atAuthenticate_atRound s 0x11 send
  have hbf : (s.atAuthenticate 0x11 send).x .bitFraming = s.x .bitFraming := by rw [hat.x]; simp
  have hen : enableMask s.cfg (.start .mfAuthent) = 0x11 := hm.authEnable
  obtain ⟨t, hrun, hdr⟩ := hat.run_late hq hf ht (.inr ⟨rfl, hlen⟩) s.cfg
    (by rw [hbf]) harr
  have hall : (transceive s.cfg (.start .mfAuthent) send).run s =
      (t.emit (.ret .transceive (.txrx .timeout [] 0)), .ok ⟨.timeout, [], 0⟩) := by
    rw [transceive]
    refine Prog.run_asTask_ok (t := t) (a := (⟨.timeout, [], 0⟩ : TxRx)) ?_
    rw [hen, run_setup _ _ _ hq (by omega), if_neg (by decide), run_startAuthenticate _ _ _ hq, hrun]
  obtain ⟨hto, haw, ev, he, hev, hn⟩ := hat.timedOut hq (and_not_startSend _) (.ret .transceive (.txrx .timeout [] 0))
    hdr
  rw [hbf] at he
  refine ⟨_, _, hall, hto, haw, by rw [State.emit_trace, he, List.append_assoc], ?_, ?_⟩
  · simp [hev]
  · simp [hn, hlen]

end Sys2Proof.Machine
end

