-- ==== Sys2Proof/Laws/ComputeCrc.lean ====
section
/-! SUPPORT. The compute_crc task on a quiet device (42_crc.md rules R234, R235, R245, R246, R248). -/

namespace Sys2Proof.Machine

/-- The state once CRC processing has applied, MSBFirst being 0 (R235). -/
def State.crcDone (u : State) : State :=
  { u with dev := { u.dev with
    crcAcc := crc16 u.dev.crcAcc u.dev.fifo
    crcResult := crc16 u.dev.crcAcc u.dev.fifo
    fifo := []
    mem := (u.dev.mem.write (u.cfg.map.addr .status1) (u.x .status1 ||| crcReady)).write (u.cfg.map.addr .divIrq)
      (u.x .divIrq ||| crcIrq) } }

theorem processCrc_eq {u : State} (h : (u.x .mode).getLsbD 7 = false) :
    processCrc u = u.crcDone := by
  unfold processCrc
  rw [if_neg (by rw [h]; decide)]
  simp [State.crcDone, State.orX, State.setX, State.setAt, State.x, Memory.read_write]

/-- The state while `k` more transactions must pass before CRC processing applies. -/
def State.crcCounting (u : State) (k : Nat) : State :=
  if k = 0 then u.crcDone else u.setCrcPending (some ⟨k, false⟩)

theorem endOfTransaction_scheduleCrc {u : State} (hp : u.dev.pending = none)
    (hc : u.dev.crcPending = none) (h : (u.x .mode).getLsbD 7 = false) :
    endOfTransaction (scheduleCrc u) = u.crcCounting u.cfg.crcLatency := by
  have hid : (u.setCrcPending (some ⟨u.cfg.crcLatency, true⟩)).setCrcPending none = u := by
    cases u; rename_i dev _ _ _ _ _; cases dev
    simp_all [State.setCrcPending]
  simp only [endOfTransaction, scheduleCrc, tickPending, State.setCrcPending_pending, hp, tickCrc,
    State.setCrcPending_crcPending, if_true, hid]
  unfold State.crcCounting
  split
  · exact processCrc_eq h
  · simp [State.setCrcPending]

theorem regRead_crcCounting {u : State} (hq : u.Quiet) (h : (u.x .mode).getLsbD 7 = false)
    (k : Nat) (r : Reg) (v : Byte)
    (hv : deviceRead (u.cfg.map.addr r) (u.crcCounting (k + 1)) = (v, u.crcCounting (k + 1))) :
    regRead r (u.crcCounting (k + 1)) = (v, (u.emit (.bus .r (u.cfg.map.addr r) v)).crcCounting k) := by
  have hcfg : (u.crcCounting (k + 1)).cfg = u.cfg := rfl
  rw [regRead_high (show (u.crcCounting (k + 1)).rst = .high from hq.high), hcfg, hv]
  simp only [Prod.mk.injEq, true_and]
  have hid : ((u.crcCounting (k + 1)).emit (.bus .r (u.cfg.map.addr r) v)).setCrcPending none =
      u.emit (.bus .r (u.cfg.map.addr r) v) := by
    have := hq.crcPending
    cases u; rename_i dev _ _ _ _ _; cases dev
    simp_all [State.crcCounting, State.setCrcPending, State.emit]
  have hp : ((u.crcCounting (k + 1)).emit (.bus .r (u.cfg.map.addr r) v)).dev.pending = none := hq.pending
  have hc : ((u.crcCounting (k + 1)).emit (.bus .r (u.cfg.map.addr r) v)).dev.crcPending =
      some ⟨k + 1, false⟩ := rfl
  simp only [endOfTransaction, tickPending, hp, tickCrc, hc, Bool.false_eq_true, if_false, hid,
    Nat.add_sub_cancel]
  unfold State.crcCounting
  split
  · exact processCrc_eq h
  · rename_i hk
    simp [State.setCrcPending, State.emit]

theorem deviceRead_divIrq_counting (u : State) (k : Nat) :
    deviceRead (u.cfg.map.addr .divIrq) (u.crcCounting (k + 1)) =
      (u.x .divIrq &&& 0x14, u.crcCounting (k + 1)) := by
  simp [deviceRead, State.crcCounting]

/-- Polling for CRCIRq while CRC processing counts down. -/
theorem pollCrc_counting {u : State} (hq : u.Quiet) (h : (u.x .mode).getLsbD 7 = false)
    {hit : Byte → Bool} (hm : hit (u.x .divIrq &&& 0x14) = false) :
    ∀ k budget, k ≤ budget →
      (Prog.poll .divIrq hit budget).run (u.crcCounting k) =
        (Prog.poll .divIrq hit (budget - k)).run
          (u.addReads .divIrq (u.x .divIrq &&& 0x14) k).crcDone := by
  intro k
  induction k generalizing u with
  | zero => intro budget _; simp [State.addReads_zero, State.crcCounting]
  | succ k ih =>
    intro budget hb
    obtain ⟨b, rfl⟩ : ∃ b, budget = b + 1 := ⟨budget - 1, by omega⟩
    have hq' : (u.emit (.bus .r (u.cfg.map.addr .divIrq) (u.x .divIrq &&& 0x14))).Quiet := hq.of_eq rfl rfl rfl
    have hr := regRead_crcCounting hq h k .divIrq _ (deviceRead_divIrq_counting u k)
    rw [Prog.run_poll_miss (by rw [hr]; exact hm), hr]
    simp only
    rw [ih hq' (by simpa using h) (by simpa using hm) b (by omega)]
    simp only [State.emit_x, State.addReads_succ, Nat.add_sub_add_right]

/-- Polling past the budget. -/
theorem pollCrc_late {u : State} (hq : u.Quiet) (h : (u.x .mode).getLsbD 7 = false)
    {hit : Byte → Bool} (hm : hit (u.x .divIrq &&& 0x14) = false) :
    ∀ budget k, budget ≤ k →
      (Prog.poll .divIrq hit budget).run (u.crcCounting k) =
        ((u.addReads .divIrq (u.x .divIrq &&& 0x14) budget).crcCounting (k - budget), .ok none) := by
  intro budget
  induction budget generalizing u with
  | zero => intro k _; simp [State.addReads_zero, Prog.poll]
  | succ b ih =>
    intro k hb
    obtain ⟨e, rfl⟩ : ∃ e, k = e + 1 := ⟨k - 1, by omega⟩
    have hq' : (u.emit (.bus .r (u.cfg.map.addr .divIrq) (u.x .divIrq &&& 0x14))).Quiet := hq.of_eq rfl rfl rfl
    have hr := regRead_crcCounting hq h e .divIrq _ (deviceRead_divIrq_counting u e)
    rw [Prog.run_poll_miss (by rw [hr]; exact hm), hr]
    simp only
    rw [ih hq' (by simpa using h) (by simpa using hm) e (by omega)]
    simp only [State.emit_x, State.addReads_succ, Nat.add_sub_add_right]

/-- The state as CRC processing finds it, the FIFO loaded and CalcCRC started. -/
def State.atCalcCrc (s : State) (buf : List Byte) : State :=
  { s with
    trace := s.trace ++ ([.bus .w (s.cfg.map.addr .divIrq) 0x04, .bus .w (s.cfg.map.addr .fifoLevel) 0x80] ++ buf.map (Event.bus .w (s.cfg.map.addr .fifoData)) ++
      [.bus .w (s.cfg.map.addr .command) 0x03])
    dev := { s.dev with
      mem := (((s.dev.mem.write (s.cfg.map.addr .divIrq) (divIrqAfter (s.x .divIrq) 0x04)).write
        (s.cfg.map.addr .error) (s.x .error &&& ~~~bufferOvfl)).write (s.cfg.map.addr .command)
          (s.x .command &&& ~~~0x30)).write (s.cfg.map.addr .status1) (s.x .status1 &&& ~~~crcReady)
      fifo := buf
      active := .calcCrc
      txArmed := false
      crcAcc := crcPreset ((s.x .mode).setWidth 2) } }

theorem run_startCalcCrc {α : Type} (rest : Prog α) (buf : List Byte) {s : State} (h : s.Quiet)
    (hn : s.dev.active ≠ .calcCrc) (hl : (s.x .mode).getLsbD 7 = false)
    (hroom : buf.length ≤ s.cfg.fifoDepth) :
    (Prog.clearCrcIrq <| .flushFifo <| .loadFifo buf <| .setCommand (.start .calcCrc) rest).run s =
      rest.run ((s.atCalcCrc buf).crcCounting s.cfg.crcLatency) := by
  have h1 : (regWrite .divIrq 0x04 s).Quiet := by
    rw [regWrite_divIrq h]; exact h.of_eq rfl rfl rfl
  simp only [Prog.clearCrcIrq, Prog.flushFifo, Prog.run_write]
  rw [regWrite_flush h1, regWrite_divIrq h]
  rw [Prog.run_loadFifo _ _ ⟨by simp [h.high], by simp [h.pending], by simp [h.crcPending]⟩
    (by simpa using hn) (by simpa using hroom)]
  simp only [Prog.setCommand, Prog.run_write]
  rw [regWrite_calcCrc (by simp [h.high])]
  refine congrArg (fun t => rest.run t) ?_
  have hat : ∀ u : State, startCalcCrc u = scheduleCrc
      { u with dev := { u.dev with
          crcAcc := crcPreset ((u.x .mode).setWidth 2)
          mem := u.dev.mem.write (u.cfg.map.addr .status1) (u.x .status1 &&& ~~~crcReady) } } :=
    fun _ => rfl
  rw [hat, endOfTransaction_scheduleCrc]
  · simp [State.atCalcCrc, terminateCommand_eq, State.setActive, State.setX, State.setAt,
      State.emit, State.setFifo, State.x, Memory.read_write, h.pending, h.crcPending]
  · simp
  · simp
  · have : ∀ u : State, ({ u with dev := { u.dev with
          crcAcc := crcPreset ((u.x .mode).setWidth 2)
          mem := u.dev.mem.write (u.cfg.map.addr .status1) (u.x .status1 &&& ~~~crcReady) } } : State).x .mode
        = u.x .mode := by
      intro u
      simp [State.x, Memory.read_write]
    rw [this]
    simpa [State.x, Memory.read_write] using hl

theorem and_not_command' (f : Byte) : f &&& ~~~0x30 = f &&& 0xCF := by revert f; decide

theorem divIrqAfter_clear (old : Byte) :
    divIrqAfter old 0x04 &&& 0x14 &&& crcIrq = 0 := by revert old; decide

theorem divIrq_set (old : Byte) : divIrqAfter old 0x04 ||| crcIrq = old ||| crcIrq := by
  revert old; decide

theorem status1_set (old : Byte) : (old &&& ~~~crcReady) ||| crcReady = old ||| crcReady := by
  revert old; decide

/-- What compute_crc leaves when the latency is within the budget. -/
structure CrcComputed (s t : State) (buf : List Byte) : Prop where
  frame : t = { s with
    trace := t.trace
    dev := { s.dev with
      mem := t.dev.mem
      fifo := []
      active := .calcCrc
      txArmed := false
      crcAcc := crc16 (crcPreset ((s.x .mode).setWidth 2)) buf
      crcResult := crc16 (crcPreset ((s.x .mode).setWidth 2)) buf } }
  read : ∀ r, t.dev.mem.read r =
    if r = (s.cfg.map.addr .divIrq) then s.x .divIrq ||| crcIrq
    else if r = (s.cfg.map.addr .status1) then s.x .status1 ||| crcReady
    else if r = (s.cfg.map.addr .command) then s.x .command &&& 0xCF
    else if r = (s.cfg.map.addr .error) then s.x .error &&& ~~~bufferOvfl
    else s.dev.mem.read r

/-- compute_crc within its poll budget (R245, R246, R248). -/
theorem computeCrc_run {s : State} (h : s.Quiet) (hn : s.dev.active ≠ .calcCrc)
    (hl : (s.x .mode).getLsbD 7 = false) (hk : s.cfg.crcLatency ≤ 254) {buf : List Byte}
    (hroom : buf.length ≤ s.cfg.fifoDepth) :
    ∃ t es,
      (computeCrc buf).run s =
        (t, .ok (lowByte (crc16 (crcPreset ((s.x .mode).setWidth 2)) buf),
          highByte (crc16 (crcPreset ((s.x .mode).setWidth 2)) buf))) ∧
      CrcComputed s t buf ∧ t.trace = s.trace ++ es ∧ txFrames es = [] ∧
      transactions es = buf.length + s.cfg.crcLatency + 6 := by
  generalize hcv : crc16 (crcPreset ((s.x .mode).setWidth 2)) buf = c
  have hu : (s.atCalcCrc buf).Quiet := h.of_eq rfl rfl rfl
  have hux : ∀ q : Reg, (s.atCalcCrc buf).x q =
      if q = .status1 then s.x .status1 &&& ~~~crcReady
      else if q = .command then s.x .command &&& ~~~0x30
      else if q = .error then s.x .error &&& ~~~bufferOvfl
      else if q = .divIrq then divIrqAfter (s.x .divIrq) 0x04
      else s.x q := by
    intro q
    simp only [State.x, State.atCalcCrc, Memory.read_write, AddressMap.addr_eq_iff]
  have hul : ((s.atCalcCrc buf).x .mode).getLsbD 7 = false := by
    rw [hux]; simpa using hl
  have hdv : (s.atCalcCrc buf).x .divIrq = divIrqAfter (s.x .divIrq) 0x04 := by rw [hux]; simp
  have hmiss : ((s.atCalcCrc buf).x .divIrq &&& 0x14 &&& crcIrq != 0) = false := by
    rw [hdv, divIrqAfter_clear]; rfl
  obtain ⟨b, hb⟩ : ∃ b, 255 - s.cfg.crcLatency = b + 1 := ⟨255 - s.cfg.crcLatency - 1, by omega⟩
  have hpoll := pollCrc_counting hu hul (hit := fun n => n &&& crcIrq != 0) hmiss
    s.cfg.crcLatency 255 (by omega)
  rw [hb] at hpoll
  generalize hA : ((s.atCalcCrc buf).addReads .divIrq ((s.atCalcCrc buf).x .divIrq &&& 0x14)
    s.cfg.crcLatency).crcDone = A at hpoll
  have hAq : A.Quiet := by rw [← hA]; exact ⟨h.high, h.pending, h.crcPending⟩
  have hAc : A.cfg = s.cfg := by rw [← hA]; rfl
  have hAr : A.dev.crcResult = c := by rw [← hA, ← hcv]; rfl
  have hAread : ∀ r, A.dev.mem.read r =
      if r = (s.cfg.map.addr .divIrq) then s.x .divIrq ||| crcIrq
      else if r = (s.cfg.map.addr .status1) then s.x .status1 ||| crcReady
      else if r = (s.cfg.map.addr .command) then s.x .command &&& 0xCF
      else if r = (s.cfg.map.addr .error) then s.x .error &&& ~~~bufferOvfl
      else s.dev.mem.read r := by
    intro r
    have hadd : ∀ q : Reg, ((s.atCalcCrc buf).addReads .divIrq
        ((s.atCalcCrc buf).x .divIrq &&& 0x14) s.cfg.crcLatency).x q = (s.atCalcCrc buf).x q :=
      fun _ => rfl
    have hmem : ((s.atCalcCrc buf).addReads .divIrq
        ((s.atCalcCrc buf).x .divIrq &&& 0x14) s.cfg.crcLatency).dev.mem =
          (s.atCalcCrc buf).dev.mem := rfl
    rw [← hA]
    unfold State.crcDone
    have hcfg : (s.atCalcCrc buf).cfg = s.cfg := rfl
    rw [hadd, hadd, hmem, hux, hux, State.addReads_cfg, hcfg]
    simp only [State.atCalcCrc, Memory.read_write]
    rcases eq_or_ne r (s.cfg.map.addr .divIrq) with rfl | h1
    · simpa using divIrq_set (s.x .divIrq)
    rcases eq_or_ne r (s.cfg.map.addr .status1) with rfl | h2
    · simpa using status1_set (s.x .status1)
    rcases eq_or_ne r (s.cfg.map.addr .command) with rfl | h3
    · simp
    rcases eq_or_ne r (s.cfg.map.addr .error) with rfl | h4
    · simp
    simp [h1, h2, h3, h4]
  have hirq : A.x .divIrq &&& 0x14 &&& crcIrq != 0 := by
    have : A.x .divIrq = s.x .divIrq ||| crcIrq := by rw [State.x, hAc, hAread]; simp
    rw [this]
    generalize s.x .divIrq = v
    revert v; decide
  have hrA := regRead_divIrq hAq
  rw [hAc] at hrA
  have hrun : (computeCrc buf).run s =
      ((((A.emit (.bus .r (s.cfg.map.addr .divIrq) (A.x .divIrq &&& 0x14))).emit
        (.bus .r (s.cfg.map.addr .crcResultL) (lowByte c))).emit
          (.bus .r (s.cfg.map.addr .crcResultM) (highByte c))).emit
            (.ret .computeCrc (.crc (lowByte c) (highByte c))),
        .ok (lowByte c, highByte c)) := by
    rw [computeCrc]
    refine Prog.run_asTask_ok (a := (lowByte c, highByte c)) ?_
    rw [run_startCalcCrc _ _ h hn hl hroom, Prog.run_bind]
    rw [show pollBudgetCrc = 255 from rfl, hpoll, Prog.run_poll_hit (by rw [hrA]; exact hirq), hrA]
    simp only [Prog.run_read]
    have q1 : (A.emit (.bus .r (s.cfg.map.addr .divIrq) (A.x .divIrq &&& 0x14))).Quiet := hAq.of_eq rfl rfl rfl
    rw [regRead_crcLow q1]
    simp only [State.emit_dev, State.emit_cfg, hAr, hAc]
    have q2 : ((A.emit (.bus .r (s.cfg.map.addr .divIrq) (A.x .divIrq &&& 0x14))).emit
        (.bus .r (s.cfg.map.addr .crcResultL) (lowByte c))).Quiet := hAq.of_eq rfl rfl rfl
    rw [regRead_crcHigh q2]
    simp only [State.emit_dev, State.emit_cfg, hAr, hAc, Prog.run_ret]
  have htrace : A.trace = s.trace ++ ([.bus .w (s.cfg.map.addr .divIrq) 0x04, .bus .w (s.cfg.map.addr .fifoLevel) 0x80] ++
      buf.map (Event.bus .w (s.cfg.map.addr .fifoData)) ++ [.bus .w (s.cfg.map.addr .command) 0x03] ++
      List.replicate s.cfg.crcLatency (.bus .r (s.cfg.map.addr .divIrq) ((s.atCalcCrc buf).x .divIrq &&& 0x14))) := by
    rw [← hA]; simp only [State.crcDone, State.addReads, State.atCalcCrc, List.append_assoc]
  generalize hes : [.bus .w (s.cfg.map.addr .divIrq) 0x04, .bus .w (s.cfg.map.addr .fifoLevel) 0x80] ++
      buf.map (Event.bus .w (s.cfg.map.addr .fifoData)) ++ [.bus .w (s.cfg.map.addr .command) 0x03] ++
      List.replicate s.cfg.crcLatency
        (Event.bus .r (s.cfg.map.addr .divIrq) ((s.atCalcCrc buf).x .divIrq &&& 0x14)) = es at htrace
  have hf : txFrames es = [] := by rw [← hes]; simp
  have hn : transactions es = buf.length + s.cfg.crcLatency + 3 := by rw [← hes]; simp; omega
  refine ⟨_, es ++ [.bus .r (s.cfg.map.addr .divIrq) (A.x .divIrq &&& 0x14),
    .bus .r (s.cfg.map.addr .crcResultL) (lowByte c), .bus .r (s.cfg.map.addr .crcResultM) (highByte c),
    .ret .computeCrc (.crc (lowByte c) (highByte c))], hrun, ⟨?_, hAread⟩, ?_, ?_, ?_⟩
  · rw [hcv]
    simp only [State.emit]
    rw [← hA]
    simp [State.crcDone, State.addReads, State.atCalcCrc, hcv]
  · simp only [State.emit_trace, htrace, List.append_assoc]; rfl
  · simp [hf]
  · simp [hn]

end Sys2Proof.Machine
end

