-- ==== Sys2Proof/Laws/Keeps.lean ====
section
/-! SUPPORT. One induction for every relation that each transaction, each pseudocode line and each of
the controller's own changes keeps: then every program and every step keeps it. -/

namespace Sys2Proof.Machine

variable {α : Type} {R : State → State → Prop}

/-- A relation from a state to a later one. -/
structure Later (R : State → State → Prop) : Prop where
  refl : ∀ s, R s s
  trans : ∀ s t u, R s t → R t u → R s u
  write : ∀ a v s, R s (busWrite a v s)
  read : ∀ a s, R s (busRead a s).2
  act : ∀ a s, R s (doAct a s)
  ctl : ∀ c s, R s { s with ctl := c }
  inbox : ∀ i s, R s { s with inbox := i }
  fault : ∀ f s, R s (s.addFault f)

theorem Prog.run_later (h : Later R) (p : Prog α) (s : State) : R s (p.run s).1 := by
  induction p generalizing s with
  | ret a => exact h.refl s
  | raise e => exact h.refl s
  | write addr v rest ih => exact h.trans _ _ _ (h.write _ v s) (ih _)
  | read addr rest ih => exact h.trans _ _ _ (h.read _ s) (ih _ _)
  | act a rest ih => exact h.trans _ _ _ (h.act a s) (ih _)

theorem Prog.tick_later (h : Later R) (p : Prog α) (s : State) : R s (p.tick s).2 := by
  induction p generalizing s with
  | ret a => exact h.refl s
  | raise e => exact h.refl s
  | write addr v rest ih => exact h.write _ v s
  | read addr rest ih => exact h.read _ s
  | act a rest ih => exact h.trans _ _ _ (h.act a s) (ih _)

theorem Prog.finish_later (h : Later R) (p : Prog α) {s t : State} (hf : p.finish s = some t) :
    R s t := by
  induction p generalizing s with
  | ret a => cases hf; exact h.refl _
  | raise e => cases hf; exact h.refl _
  | write r v rest ih => exact nomatch hf
  | read r rest ih => exact nomatch hf
  | act a rest ih => exact h.trans _ _ _ (h.act a s) (ih hf)

theorem whenOpen_later (h : Later R) {f : State → State} (hf : ∀ s, R s (f s)) (s : State) :
    R s (whenOpen f s) := by
  unfold whenOpen
  split
  · exact h.fault _ s
  · exact hf s

theorem runJob_later (h : Later R) (j : Job) (s : State) : R s (runJob j s) :=
  whenOpen_later h (fun s => h.trans _ _ _ (h.ctl _ s) (Prog.run_later h _ _)) s

theorem tickJob_later (h : Later R) (r : Running) (s : State) : R s (tickJob r s) := by
  have ht := Prog.tick_later h ((jobProg s.cfg r.job).resume r.moved) s
  unfold tickJob
  simp only
  split
  · rename_i he
    rw [he] at ht
    exact h.trans _ _ _ ht (h.ctl _ _)
  · rename_i he
    rw [he] at ht
    split
    · rename_i hf
      exact h.trans _ _ _ ht (h.trans _ _ _ (Prog.finish_later h _ hf) (h.ctl _ _))
    · exact h.trans _ _ _ ht (h.ctl _ _)

theorem startJob_later (h : Later R) (j : Job) (s : State) : R s (startJob j s) :=
  whenOpen_later h (fun s => h.trans _ _ _ (h.ctl _ s) (tickJob_later h _ _)) s

theorem exec_later (h : Later R) {i : Instr} {s t : State} (he : exec i s = .next t) : R s t := by
  cases i <;> simp only [exec, execWriteReg, execReadReg, execPcdIdle, execPcdCalcCrc,
    execPcdTransmit, execPcdReceive, execPcdTransceive, execPcdMfAuthent, execPcdSoftReset,
    execRequestIdle, execRequestAll, execAnticollision, execSelect, execAuthA, execAuthB, execRead,
    execWrite, execDecrement, execIncrement, execTransfer, execWriteData, execValueOperand,
    Host.Outcome.next.injEq] at he
  case writeReg a d => rw [← he]; exact whenOpen_later h (h.write a d) s
  case readReg a => rw [← he]; exact whenOpen_later h (h.read a) s
  case writeData =>
    split at he
    · rw [← Host.Outcome.next.inj he]; exact runJob_later h _ s
    · exact nomatch he
  case valueOperand =>
    split at he
    · rw [← Host.Outcome.next.inj he]; exact runJob_later h _ s
    · rw [← Host.Outcome.next.inj he]; exact runJob_later h _ s
    · exact nomatch he
  all_goals first
    | (rw [← he]; exact whenOpen_later h (h.write _ _) s)
    | (rw [← he]; exact runJob_later h _ s)

/-- Every step keeps such a relation. -/
theorem step_later (h : Later R) {s t : State} (hs : step s = .next t) : R s t := by
  unfold step at hs
  split at hs
  · rename_i r _
    rw [← Host.Outcome.next.inj hs]
    exact tickJob_later h r s
  · split at hs
    · rw [← Host.Outcome.next.inj hs]; exact h.refl s
    · rename_i e rest _
      refine h.trans _ _ _ (h.inbox rest s) ?_
      unfold runWord at hs
      split at hs
      · split at hs
        · rw [← Host.Outcome.next.inj hs]; exact startJob_later h _ _
        · exact exec_later h hs
      · rename_i why _
        cases why with
        | badFrame b0 => rw [← Host.Outcome.next.inj hs]; exact h.fault _ _
        | noCommand c =>
          rw [← Host.Outcome.next.inj hs]; exact whenOpen_later h (h.write _ _) _
        | noFrame bytes => exact nomatch hs
    · rename_i task rest _
      rw [← Host.Outcome.next.inj hs]
      exact h.trans _ _ _ (h.inbox rest s) (startJob_later h _ _)

end Sys2Proof.Machine
end

