-- ==== Sys2Proof/Laws/Silent.lean ====
section
/-! SUPPORT. What the trace gains: a transaction appends no event of an operation's own, so neither
does a program of transactions alone (10_state.md rule R33, 60_exceptions.md rule R345). -/

namespace Sys2Proof.Machine

variable {α β : Type}

/-- `t`'s trace is `s`'s with events appended, none of them an operation's own. -/
def Quietly (s t : State) : Prop := ∃ es, t.trace = s.trace ++ es ∧ ownEvents es = []

theorem Quietly.of_eq {s t : State} (h : t.trace = s.trace) : Quietly s t := ⟨[], by simp [h], rfl⟩

theorem Quietly.trans {s t u : State} (h : Quietly s t) (k : Quietly t u) : Quietly s u := by
  obtain ⟨e, he, hl⟩ := h
  obtain ⟨f, hf, hm⟩ := k
  exact ⟨e ++ f, by rw [hf, he, List.append_assoc], by simp [hl, hm]⟩

theorem Quietly.emit {e : Event} (h : ownEvents [e] = []) (s : State) : Quietly s (s.emit e) :=
  ⟨[e], rfl, h⟩

/-- What happens inside the device: neither an operation's own events nor transactions. -/
def Inward (s t : State) : Prop :=
  ∃ es, t.trace = s.trace ++ es ∧ ownEvents es = [] ∧ transactions es = 0

theorem Inward.of_eq {s t : State} (h : t.trace = s.trace) : Inward s t := ⟨[], by simp [h], rfl, rfl⟩

theorem Inward.trans {s t u : State} (h : Inward s t) (k : Inward t u) : Inward s u := by
  obtain ⟨e, he, hl, hn⟩ := h
  obtain ⟨f, hf, hm, hk⟩ := k
  exact ⟨e ++ f, by rw [hf, he, List.append_assoc], by simp [hl, hm], by simp [hn, hk]⟩

theorem addFault_trace (f : Fault) (s : State) : (s.addFault f).trace = s.trace := by
  unfold State.addFault; split <;> rfl

theorem draw_trace (s : State) : s.draw.2.trace = s.trace := by
  rw [State.draw_eq]

theorem applyOutcome_inward (o : LinkOutcome) (s : State) : Inward s (applyOutcome o s) :=
  ⟨[.outcome o], by simp, rfl, rfl⟩

theorem processCrc_trace (s : State) : (processCrc s).trace = s.trace := by
  unfold processCrc
  split
  · exact addFault_trace _ _
  · simp

theorem tickPending_inward (s : State) : Inward s (tickPending s) := by
  unfold tickPending
  split
  · exact .of_eq rfl
  · exact .of_eq rfl
  · rename_i c o fresh _
    simp only
    generalize (if fresh = true then c else c - 1) = c'
    split
    · exact (Inward.of_eq rfl).trans (applyOutcome_inward _ (s.setPending none))
    · exact .of_eq rfl

theorem endOfTransaction_inward (s : State) : Inward s (endOfTransaction s) := by
  refine (tickPending_inward s).trans ?_
  show Inward _ (tickCrc _)
  unfold tickCrc
  split
  · exact .of_eq rfl
  · rename_i c fresh _
    simp only
    generalize (if fresh = true then c else c - 1) = c'
    split
    · exact .of_eq ((processCrc_trace _).trans rfl)
    · exact .of_eq rfl

theorem startRound_inward (a : Active) (s : State) : Inward s (startRound a s) := by
  rw [startRound_eq]
  exact ⟨[.tx s.dev.fifo ((s.x .bitFraming).setWidth 3)], rfl, rfl, rfl⟩

theorem askOracle_trace (a : Active) (frame : List Byte) (s : State) :
    (askOracle a frame s).trace = s.trace := by
  simp [askOracle, State.nextAnswer_eq]

theorem startCommand_inward (c : Command) (s : State) : Inward s (startCommand c s) := by
  cases c with
  | softReset => exact .of_eq rfl
  | start a =>
    cases a
    · exact .of_eq rfl
    · exact .of_eq rfl
    · exact (Inward.of_eq rfl).trans (startRound_inward _ _)
    · exact .of_eq (askOracle_trace _ _ _)
    · exact .of_eq rfl
    · exact (Inward.of_eq rfl).trans (startRound_inward _ _)

theorem fifoPush_trace (v : Byte) (s : State) : (fifoPush v s).trace = s.trace := by
  unfold fifoPush; split <;> simp

theorem deviceWrite_inward (a : Nat) (v : Byte) (s : State) : Inward s (deviceWrite a v s) := by
  unfold deviceWrite
  split <;> try exact .of_eq rfl
  · unfold writeCommand
    split
    · exact .of_eq (addFault_trace _ _)
    · exact (Inward.of_eq rfl).trans (startCommand_inward _ _)
  · refine .of_eq ?_
    unfold writeFifoData
    simp only
    split
    · exact (fifoPush_trace v s)
    · exact fifoPush_trace v s
  · unfold writeFifoLevel
    split <;> exact .of_eq rfl
  · unfold writeBitFraming
    simp only
    split
    · exact (Inward.of_eq rfl).trans (startRound_inward _ _)
    · exact .of_eq rfl

theorem deviceRead_trace (a : Nat) (s : State) : (deviceRead a s).2.trace = s.trace := by
  unfold deviceRead
  split <;> try rfl
  · unfold readFifoData; split
    · rfl
    · exact draw_trace s
  · exact draw_trace s
  · unfold readStatus2; split
    · rfl
    · exact draw_trace s
  · exact draw_trace s
  · exact draw_trace s

/-- A transaction that names an address appends its event, and what follows inside the device. -/
def Transacts (d : Dir) (a : Nat) (v : Byte) (s t : State) : Prop :=
  ∃ es, t.trace = s.trace ++ .bus d a v :: es ∧ ownEvents es = [] ∧ transactions es = 0

theorem Transacts.of_emit {d : Dir} {a : Nat} {v : Byte} {s t u : State} (ht : t.trace = s.trace)
    (h : Inward (t.emit (.bus d a v)) u) : Transacts d a v s u := by
  obtain ⟨es, he, hl⟩ := h
  refine ⟨es, ?_, hl⟩
  rw [he]; simp [State.emit, ht]

theorem Transacts.quietly {d : Dir} {a : Nat} {v : Byte} {s t : State} (h : Transacts d a v s t) :
    Quietly s t := by
  obtain ⟨es, he, hl, -⟩ := h
  exact ⟨_, he, by simpa using hl⟩

theorem busWrite_transacts (s : State) {a : Nat} (ha : a < s.cfg.map.limit) (v : Byte) :
    Transacts .w a v s (busWrite a v s) := by
  unfold busWrite
  rw [if_neg (Nat.not_le.2 ha)]
  refine .of_emit rfl ?_
  simp only
  split
  · exact (deviceWrite_inward _ _ _).trans (endOfTransaction_inward _)
  · exact endOfTransaction_inward _

theorem busRead_transacts (s : State) {a : Nat} (ha : a < s.cfg.map.limit) :
    Transacts .r a (busRead a s).1 s (busRead a s).2 := by
  unfold busRead
  rw [if_neg (Nat.not_le.2 ha)]
  refine .of_emit ?_ (endOfTransaction_inward _)
  split
  · exact deviceRead_trace a s
  · exact draw_trace s

theorem regWrite_transacts (r : Reg) (v : Byte) (s : State) :
    Transacts .w (s.cfg.map.addr r) v s (regWrite r v s) :=
  busWrite_transacts s (s.cfg.map.addr_lt r) v

theorem regRead_transacts (r : Reg) (s : State) :
    Transacts .r (s.cfg.map.addr r) (regRead r s).1 s (regRead r s).2 :=
  busRead_transacts s (s.cfg.map.addr_lt r)

/-- A program that records nothing of its own and raises nothing. -/
def Prog.silent : Prog α → Prop
  | .ret _ => True
  | .raise _ => False
  | .write _ _ rest => rest.silent
  | .read _ rest => ∀ v, (rest v).silent
  | .act a rest => (∀ m, a ≠ .log m) ∧ (∀ n r, a = .returned n r → ownEvents [.ret n r] = []) ∧
      (∀ n f, a ≠ .raised n f) ∧ rest.silent

theorem doAct_quietly {a : Act} (h : ∀ m, a ≠ .log m)
    (h' : ∀ n r, a = .returned n r → ownEvents [.ret n r] = []) (h'' : ∀ n f, a ≠ .raised n f)
    (s : State) :
    Quietly s (doAct a s) := by
  cases a with
  | log m => exact absurd rfl (h m)
  | returned n r => exact .emit (h' n r rfl) s
  | raised n f => exact absurd rfl (h'' n f)
  | countExhausted => exact .of_eq rfl
  | releaseReset =>
    show Quietly s (driveReset .high s)
    unfold driveReset
    split
    · exact .of_eq rfl
    · exact ⟨[.rst .high], rfl, rfl⟩
  | closeBus => exact .of_eq rfl
  | await w => exact .of_eq rfl

theorem Prog.silent.run {p : Prog α} (h : p.silent) (s : State) : Quietly s (p.run s).1 := by
  induction p generalizing s with
  | ret a => exact .of_eq rfl
  | raise e => exact .of_eq rfl
  | write addr v rest ih => exact (regWrite_transacts addr v s).quietly.trans (ih h _)
  | read addr rest ih => exact (regRead_transacts addr s).quietly.trans (ih _ (h _) _)
  | act a rest ih => exact (doAct_quietly h.1 h.2.1 h.2.2.1 s).trans (ih h.2.2.2 _)

theorem Prog.silent.bind {p : Prog α} {f : α → Prog β} (h : p.silent) (k : ∀ a, (f a).silent) :
    (p.bind f).silent := by
  induction p with
  | ret a => exact k a
  | raise e => exact h.elim
  | write addr v rest ih => exact ih h
  | read addr rest ih => exact fun v => ih v (h v)
  | act a rest ih => exact ⟨h.1, h.2.1, h.2.2.1, ih h.2.2.2⟩

theorem Prog.silent.asTask {p : Prog α} (h : p.silent) {name : TaskName}
    {res : α → Result} (hn : ∀ r, ownEvents [.ret name r] = []) :
    (p.asTask name res).silent := by
  induction p with
  | ret a => exact ⟨by simp, by simpa using hn (res a), by simp, trivial⟩
  | raise e => exact h.elim
  | write addr v rest ih => exact ih h
  | read addr rest ih => exact fun v => ih v (h v)
  | act a rest ih => exact ⟨h.1, h.2.1, h.2.2.1, ih h.2.2.2⟩

theorem Prog.silent.loadFifo {rest : Prog α} (h : rest.silent) (bs : List Byte) :
    (Prog.loadFifo bs rest).silent := by
  induction bs with
  | nil => exact h
  | cons b bs ih => exact ih

theorem Prog.silent_drainFifo (m : Nat) : (Prog.drainFifo m).silent := by
  induction m with
  | zero => trivial
  | succ m ih => exact fun v => ih.bind fun _ => trivial

theorem Prog.silent_poll (a : Reg) (hit : Byte → Bool) (budget : Nat) :
    (Prog.poll a hit budget).silent := by
  induction budget with
  | zero => trivial
  | succ n ih =>
    intro v
    show (if hit v then Prog.ret (some v) else Prog.poll a hit n).silent
    split
    · trivial
    · exact ih

theorem computeCrc_silent (buf : List Byte) : (computeCrc buf).silent := by
  refine Prog.silent.asTask (Prog.silent.loadFifo ?_ buf) fun _ => rfl
  refine (Prog.silent_poll _ _ _).bind fun matched => ?_
  cases matched
  · exact ⟨by simp, by simp, by simp, fun _ _ => trivial⟩
  · exact fun _ _ => trivial

theorem pollAndFinish_silent (cfg : Config) (cmd : Command) : (pollAndFinish cfg cmd).silent := by
  refine (Prog.silent_poll _ _ _).bind fun matched => fun _ => ?_
  cases matched with
  | none => trivial
  | some irq =>
    intro err
    show (if err &&& cfg.errorMask != 0 then Prog.ret (⟨.error, [], 0⟩ : TxRx)
      else if cmd = .start .transceive then receiveDrain _ else Prog.ret _).silent
    split
    · trivial
    · split
      · exact fun n c => (Prog.silent_drainFifo _).bind fun _ => trivial
      · trivial

theorem transceive_silent (cfg : Config) (cmd : Command) (send : List Byte) :
    (transceive cfg cmd send).silent := by
  refine Prog.silent.asTask (Prog.silent.loadFifo ?_ send) fun _ => rfl
  show (if cmd = .start .transceive then
    Prog.setBits .bitFraming 0x80 (pollAndFinish cfg cmd) else pollAndFinish cfg cmd).silent
  split
  · exact fun _ => pollAndFinish_silent cfg cmd
  · exact pollAndFinish_silent cfg cmd

theorem sendWithCrc_silent (cfg : Config) (buf : List Byte) : (sendWithCrc cfg buf).silent :=
  (computeCrc_silent buf).bind fun _ => transceive_silent _ _ _

/-- Such a program appends no event of its own. -/
theorem Prog.silent.own {p : Prog α} (h : p.silent) {s t : State} {r : Except Failure α}
    {es : List Event} (hrun : p.run s = (t, r)) (ht : t.trace = s.trace ++ es) :
    ownEvents es = [] := by
  obtain ⟨fs, hf, hl⟩ := h.run s
  rw [hrun, ht] at hf
  rwa [List.append_cancel_left hf]

end Sys2Proof.Machine
end

