-- ==== Sys2Proof/Laws/Inv.lean ====
section
/-! SUPPORT. The invariant through the device's own changes and through a transaction. -/

namespace Sys2Proof.Machine

/-- The device's invariant while a transaction is under way: as between transactions, but an item the
transaction created may be fresh, and may be due. -/
structure Device.Busy (cfg : Config) (d : Device) : Prop where
  mem : d.mem.wf = true
  below : d.mem.below cfg.map.limit = true
  fifo : d.fifo.length ≤ cfg.fifoDepth
  armed : armedInv d.txArmed d.pending.isSome d.active = true
  pending : ∀ p, d.pending = some p →
    match p.answer with
    | .never => startsRounds d.active = true
    | .after c o => awaitsOutcome d.active o = true ∧ (p.fresh = true ∨ 0 < c)
  crcPending : ∀ p, d.crcPending = some p → d.active = .calcCrc ∧ (p.fresh = true ∨ 0 < p.count)

theorem Device.Inv.busy {cfg : Config} {d : Device} (h : d.Inv cfg) : d.Busy cfg where
  mem := h.mem
  below := h.below
  fifo := h.fifo
  armed := h.armed
  pending p hp := by
    have := h.pending
    rw [hp] at this
    obtain ⟨a, f⟩ := p
    cases a <;> simp_all [pendingInv]
  crcPending p hp := by
    have := h.crcPending
    rw [hp] at this
    obtain ⟨c, f⟩ := p
    simp_all [crcPendingInv]

/-- A stored register changes. -/
theorem Device.Busy.setAt {a : Nat} {s : State} (h : s.dev.Busy s.cfg) (ha : a < s.cfg.map.limit)
    (v : Byte) : (s.setAt a v).dev.Busy s.cfg :=
  { h with mem := Memory.wf_write h.mem a v, below := Memory.below_write h.below ha v }

theorem Device.Busy.setX {s : State} (h : s.dev.Busy s.cfg) (r : Reg) (v : Byte) :
    (s.setX r v).dev.Busy s.cfg := h.setAt (s.cfg.map.addr_lt r) v

theorem Device.Busy.fifoPush {s : State} (h : s.dev.Busy s.cfg) (v : Byte) :
    (fifoPush v s).dev.Busy s.cfg := by
  unfold Machine.fifoPush
  split
  · rename_i hlt
    exact { h with fifo := by simp; omega }
  · exact (h.setX .error (s.x .error ||| bufferOvfl)).setX (s := s.orX .error bufferOvfl) _ _

/-- Memory in canonical form, within the address space, and the FIFO within its depth. -/
structure Bounded (s : State) : Prop where
  mem : s.dev.mem.wf = true
  below : s.dev.mem.below s.cfg.map.limit = true
  fifo : s.dev.fifo.length ≤ s.cfg.fifoDepth

theorem Device.Busy.bounded {s : State} (h : s.dev.Busy s.cfg) : Bounded s :=
  ⟨h.mem, h.below, h.fifo⟩

theorem Bounded.setX {s : State} (h : Bounded s) (r : Reg) (v : Byte) : Bounded (s.setX r v) :=
  ⟨Memory.wf_write h.mem _ v, Memory.below_write h.below (s.cfg.map.addr_lt r) v, h.fifo⟩

theorem Bounded.emit {s : State} (h : Bounded s) (e : Event) : Bounded (s.emit e) :=
  ⟨h.mem, h.below, h.fifo⟩

theorem Bounded.fifoPushAll (bs : List Byte) {s : State} (h : Bounded s) :
    Bounded (fifoPushAll bs s) := by
  induction bs generalizing s with
  | nil => exact h
  | cons b bs ih =>
    refine ih ?_
    unfold fifoPush
    split
    · rename_i hlt
      exact ⟨h.mem, h.below, by simp; omega⟩
    · exact (h.setX .error (s.x .error ||| bufferOvfl)).setX _ _

theorem Bounded.receiveResponse {s : State} (h : Bounded s) (bytes : List Byte)
    (lb : BitVec 3) (errs : Errs) : Bounded (receiveResponse bytes lb errs s) := by
  unfold Machine.receiveResponse
  simp only
  split
  · exact (((Bounded.fifoPushAll bytes (h.setX .comIrq (s.x .comIrq ||| rxIrq))).setX .control
      _).setX .error _).setX _ _
  · exact ((Bounded.fifoPushAll bytes (h.setX .comIrq (s.x .comIrq ||| rxIrq))).setX .control
      _).setX .error _

theorem Bounded.setTxArmed {s : State} (h : Bounded s) (b : Bool) : Bounded (s.setTxArmed b) :=
  ⟨h.mem, h.below, h.fifo⟩

theorem Bounded.setActive {s : State} (h : Bounded s) (a : Active) : Bounded (s.setActive a) :=
  ⟨h.mem, h.below, h.fifo⟩

theorem Bounded.applyOutcome {s : State} (h : Bounded s) (o : LinkOutcome) :
    Bounded (applyOutcome o s) := by
  have he := h.emit (.outcome o)
  unfold Machine.applyOutcome
  simp only
  split
  · exact ((he.setX _ _).receiveResponse _ _ _).setTxArmed _
  · exact ((he.setX .comIrq _).setX .comIrq _).setTxArmed _
  · exact (((he.receiveResponse _ _ _).setTxArmed _).setX .comIrq _).setActive _
  · exact he.setX _ _
  · exact he.setX _ _
  · exact ((he.setX .status2 _).setX .comIrq _).setActive _
  · exact (((he.setX .error _).setX .comIrq _).setX .comIrq _).setActive _
  · exact ((he.setX .comIrq _).setX .comIrq _).setActive _
  · exact he

theorem limitAnswer_awaits {a : Active} {frame : List Byte} {s : State} (ans : Answer)
    (ha : startsRounds a = true) :
    match limitAnswer a frame s ans with
    | .never => startsRounds a = true
    | .after _ o => awaitsOutcome a o = true := by
  cases ans with
  | never => exact ha
  | after d o =>
    unfold limitAnswer
    by_cases hadm : admissible a frame s o = true
    · simp only [hadm, if_true]
      cases a <;> cases o <;> simp_all [admissible, awaitsOutcome]
    · simpa only [hadm, Bool.false_eq_true, if_false] using ha

/-- Asking the oracle for a round of the active command. -/
theorem askOracle_busy {s : State} {a : Active} (ha : startsRounds a = true)
    (hs : s.dev.active = a) (hb : Bounded s)
    (harm : s.dev.txArmed = false) (hcrc : s.dev.crcPending = none) (frame : List Byte) :
    (askOracle a frame s).dev.Busy s.cfg := by
  have hq : (s.nextAnswer a frame).2.dev = s.dev := by rw [State.nextAnswer_eq]
  unfold Machine.askOracle
  simp only
  constructor
  · simpa [hq] using hb.mem
  · simpa [hq] using hb.below
  · simpa [hq] using hb.fifo
  · simp only [State.setPending_txArmed, State.setPending_pending, State.setPending_active, hq, harm]
    cases s.dev.active <;> rfl
  · intro p hp
    simp only [State.setPending_pending, Option.some.injEq] at hp
    subst hp
    have := limitAnswer_awaits (frame := frame) (s := s) (s.nextAnswer a frame).1 ha
    simp only [State.setPending_active, hq, hs]
    generalize limitAnswer a frame s (s.nextAnswer a frame).1 = l at this ⊢
    cases l
    · exact this
    · exact ⟨this, .inl trivial⟩
  · intro p hp
    simp [hcrc] at hp

theorem startRound_busy {s : State} {a : Active} (ha : startsRounds a = true)
    (hs : s.dev.active = a) (hb : Bounded s) (harm : s.dev.txArmed = false)
    (hcrc : s.dev.crcPending = none) : (startRound a s).dev.Busy s.cfg := by
  unfold Machine.startRound
  have hb' : Bounded ((s.setFifo []).emit (.tx s.dev.fifo ((s.x .bitFraming).setWidth 3))) :=
    ⟨hb.mem, hb.below, Nat.zero_le _⟩
  exact askOracle_busy (s := clearRoundErrors ((s.setFifo []).emit _)) ha hs
    (hb'.setX .error _) harm hcrc _

theorem Device.Busy.of_inv_ticked {cfg : Config} {d : Device} (h : d.Busy cfg)
    (hp : ∀ p, d.pending = some p → p.fresh = false)
    (hc : ∀ p, d.crcPending = some p → p.fresh = false) : d.Inv cfg where
  mem := h.mem
  below := h.below
  fifo := h.fifo
  armed := h.armed
  pending := by
    cases hpe : d.pending with
    | none => rfl
    | some p =>
      have h1 := h.pending p hpe
      have h2 := hp p hpe
      obtain ⟨a, f⟩ := p
      cases a <;> simp_all [pendingInv]
  crcPending := by
    cases hpe : d.crcPending with
    | none => rfl
    | some p =>
      have h1 := h.crcPending p hpe
      have h2 := hc p hpe
      obtain ⟨a, f⟩ := p
      simp_all [crcPendingInv]

/-- An outcome the active command waits for, applied with nothing left pending. -/
theorem Device.Busy.applyOutcome {s : State} (h : s.dev.Busy s.cfg) {o : LinkOutcome}
    (hp : ∃ p, s.dev.pending = some p) (hw : awaitsOutcome s.dev.active o = true) :
    (applyOutcome o (s.setPending none)).dev.Busy s.cfg := by
  have harm : s.dev.txArmed = false := by
    obtain ⟨p, hp⟩ := hp
    have := h.armed
    rw [hp] at this
    cases ha : s.dev.active <;> simp_all [armedInv, awaitsOutcome]
  have hcrc : s.dev.crcPending = none := by
    cases hc : s.dev.crcPending with
    | none => rfl
    | some q =>
      have := (h.crcPending q hc).1
      rw [this] at hw; cases o <;> simp [awaitsOutcome] at hw
  have hb : Bounded (Machine.applyOutcome o (s.setPending none)) :=
    Bounded.applyOutcome (s := s.setPending none) ⟨h.mem, h.below, h.fifo⟩ o
  have hc : (Machine.applyOutcome o (s.setPending none)).cfg = s.cfg := by simp
  refine ⟨hb.mem, hc ▸ hb.below, hc ▸ hb.fifo, ?_, ?_, ?_⟩
  · have hpend : (Machine.applyOutcome o (s.setPending none)).dev.pending = none := by simp
    rw [hpend]
    unfold Machine.applyOutcome
    simp only [State.emit_dev, State.setPending_active]
    have hrr : ∀ bytes lb errs (u : State), (receiveResponse bytes lb errs u).dev.active = u.dev.active ∧
        (receiveResponse bytes lb errs u).dev.txArmed = u.dev.txArmed := by
      intro bytes lb errs u
      rw [receiveResponse_frame]; exact ⟨rfl, rfl⟩
    cases hact : s.dev.active <;> cases o <;> simp [hact, awaitsOutcome] at hw ⊢ <;>
      simp [harm, hact, hrr, armedInv]
  · intro p hp; simp at hp
  · intro p hp; simp [hcrc] at hp

theorem tickPending_inv {s : State} (h : s.dev.Busy s.cfg) :
    (tickPending s).dev.Busy s.cfg ∧ (tickPending s).cfg = s.cfg ∧
      ∀ p, (tickPending s).dev.pending = some p → p.fresh = false := by
  unfold tickPending
  split
  · rename_i hp; exact ⟨h, rfl, fun p hp' => by rw [hp] at hp'; cases hp'⟩
  · rename_i f hp
    have h1 := h.pending _ hp
    refine ⟨⟨h.mem, h.below, h.fifo, ?_, ?_, h.crcPending⟩, rfl, ?_⟩
    · have := h.armed; simp [hp] at this ⊢; exact this
    · intro p hp'; cases hp'; exact h1
    · intro p hp'; cases hp'; rfl
  · rename_i c o f hp
    have h1 := h.pending _ hp
    simp only at h1 ⊢
    by_cases hz : (if f = true then c else c - 1) = 0
    · rw [if_pos hz]
      exact ⟨h.applyOutcome ⟨_, hp⟩ h1.1, by simp, fun p hp' => by simp at hp'⟩
    · rw [if_neg hz]
      refine ⟨⟨h.mem, h.below, h.fifo, ?_, ?_, h.crcPending⟩, rfl, ?_⟩
      · have := h.armed; simp [hp] at this ⊢; exact this
      · intro p hp'; cases hp'; exact ⟨h1.1, .inr (Nat.pos_of_ne_zero hz)⟩
      · intro p hp'; cases hp'; rfl

theorem processCrc_dev_pending (s : State) : (processCrc s).dev.pending = s.dev.pending ∧
    (processCrc s).dev.active = s.dev.active ∧ (processCrc s).dev.txArmed = s.dev.txArmed ∧
    (processCrc s).dev.crcPending = s.dev.crcPending ∧ (processCrc s).cfg = s.cfg := by
  unfold processCrc
  split
  · unfold State.addFault; split <;> exact ⟨rfl, rfl, rfl, rfl, rfl⟩
  · exact ⟨rfl, rfl, rfl, rfl, rfl⟩

theorem Bounded.processCrc {s : State} (h : Bounded s) : Bounded (processCrc s) := by
  unfold Machine.processCrc
  split
  · unfold State.addFault; split <;> exact ⟨h.mem, h.below, h.fifo⟩
  · refine Bounded.setX (Bounded.setX ?_ _ _) _ _
    exact ⟨h.mem, h.below, Nat.zero_le _⟩

theorem tickCrc_inv {s : State} (h : s.dev.Busy s.cfg) :
    (tickCrc s).dev.Busy s.cfg ∧ (tickCrc s).cfg = s.cfg ∧
      (tickCrc s).dev.pending = s.dev.pending ∧
      ∀ p, (tickCrc s).dev.crcPending = some p → p.fresh = false := by
  unfold tickCrc
  split
  · rename_i hp; exact ⟨h, rfl, rfl, fun p hp' => by rw [hp] at hp'; cases hp'⟩
  · rename_i c f hp
    have h1 := h.crcPending _ hp
    simp only at h1 ⊢
    by_cases hz : (if f = true then c else c - 1) = 0
    · rw [if_pos hz]
      obtain ⟨k1, k2, k3, k4, k5⟩ := processCrc_dev_pending (s.setCrcPending none)
      have hb := Bounded.processCrc (s := s.setCrcPending none) ⟨h.mem, h.below, h.fifo⟩
      refine ⟨⟨hb.mem, k5 ▸ hb.below, k5 ▸ hb.fifo, ?_, ?_, ?_⟩, k5, k1, ?_⟩
      · rw [k1, k2, k3]; exact h.armed
      · rw [k1, k2]; exact h.pending
      · rw [k4]; intro p hp'; cases hp'
      · rw [k4]; intro p hp'; cases hp'
    · rw [if_neg hz]
      refine ⟨⟨h.mem, h.below, h.fifo, h.armed, h.pending, ?_⟩, rfl, rfl, ?_⟩
      · intro p hp'; cases hp'; exact ⟨h1.1, .inr (Nat.pos_of_ne_zero hz)⟩
      · intro p hp'; cases hp'; rfl

/-- The end of a transaction settles the device. -/
theorem endOfTransaction_inv {s : State} (h : s.dev.Busy s.cfg) :
    (endOfTransaction s).dev.Inv s.cfg ∧ (endOfTransaction s).cfg = s.cfg := by
  obtain ⟨h1, h2, h3⟩ := tickPending_inv h
  obtain ⟨k1, k2, k3, k4⟩ := tickCrc_inv (s := tickPending s) (by rw [h2]; exact h1)
  refine ⟨?_, k2.trans h2⟩
  have k1' : (endOfTransaction s).dev.Busy s.cfg := by rw [h2] at k1; exact k1
  refine k1'.of_inv_ticked ?_ k4
  intro p hp
  exact h3 p (k3 ▸ hp)

/-- The parameters give the reset state of the device its invariant. -/
theorem Config.wf_reset {cfg : Config} (h : cfg.wf = true) : (Device.reset cfg).Inv cfg := by
  simp only [Config.wf, Bool.and_eq_true] at h
  exact ⟨h.1.2, h.2, Nat.zero_le _, rfl, rfl, rfl⟩

/-- A register write leaves the device between its two invariants. -/
theorem deviceWrite_busy {s : State} (h : s.dev.Inv s.cfg) (hm : s.cfg.wf = true) {a : Nat}
    (ha : a < s.cfg.map.limit) (v : Byte) : (deviceWrite a v s).dev.Busy s.cfg := by
  have hb := h.busy
  unfold deviceWrite
  split <;> try exact hb.setX _ _
  · -- CommandReg
    unfold writeCommand
    split
    · unfold State.addFault; split <;> exact hb
    · rename_i c _
      have hter : Bounded (terminateCommand s) :=
        Bounded.setX (s := ((s.setPending none).setCrcPending none).setTxArmed false)
          ⟨h.mem, h.below, h.fifo⟩ .command _
      have ht : ∀ act, act ≠ .transceive → ((terminateCommand s).setActive act).dev.Busy s.cfg := by
        intro act hne
        refine ⟨hter.mem, hter.below, hter.fifo, ?_, fun _ hp => (nomatch hp),
          fun _ hp => (nomatch hp)⟩
        cases act <;> first | rfl | exact absurd rfl hne
      cases c with
      | softReset => exact (Config.wf_reset hm).busy
      | start act =>
        cases act
        · exact ht _ (by decide)
        · have := (ht .calcCrc (by decide)).setX (s := (terminateCommand s).setActive .calcCrc)
            .status1 ((s.x .status1) &&& ~~~crcReady)
          have hb' := (hter.setActive .calcCrc).setX .status1
            (((terminateCommand s).setActive .calcCrc).x .status1 &&& ~~~crcReady)
          refine ⟨hb'.mem, hb'.below, hb'.fifo, this.armed, fun _ hp => (nomatch hp), ?_⟩
          intro p hp; cases hp; exact ⟨rfl, .inl rfl⟩
        · exact startRound_busy (s := (terminateCommand s).setActive .transmit) rfl rfl
            (hter.setActive _) rfl rfl
        · exact askOracle_busy (s := clearRoundErrors ((terminateCommand s).setActive .receive)) rfl
            rfl ((hter.setActive .receive).setX .error _) rfl rfl []
        · exact ⟨hter.mem, hter.below, hter.fifo, rfl, fun _ hp => (nomatch hp),
            fun _ hp => (nomatch hp)⟩
        · exact startRound_busy (s := (terminateCommand s).setActive .mfAuthent) rfl rfl
            (hter.setActive _) rfl rfl
  · -- FIFODataReg
    have hp := hb.fifoPush v
    unfold writeFifoData
    simp only
    split
    · rename_i hc
      refine ⟨hp.mem, hp.below, hp.fifo, hp.armed, hp.pending, ?_⟩
      intro p hp'; cases hp'; exact ⟨hc.1, .inl rfl⟩
    · exact hp
  · unfold writeFifoLevel
    split
    · exact (show (s.setFifo []).dev.Busy s.cfg from { hb with fifo := Nat.zero_le _ }).setX
        (s := s.setFifo []) _ _
    · exact hb
  all_goals try exact hb
  · unfold writeBitFraming
    simp only
    split
    · rename_i hc
      have hcn : s.dev.crcPending = none := by
        cases hcp : s.dev.crcPending with
        | none => rfl
        | some q =>
          have := (hb.crcPending q hcp).1
          have h2 : s.dev.active = .transceive := hc.2.1
          rw [h2] at this; cases this
      exact startRound_busy (s := (s.setX .bitFraming v).setTxArmed false) rfl hc.2.1
        ((hb.bounded.setX .bitFraming v).setTxArmed false) rfl hcn
    · exact hb.setX _ _
  · exact hb.setAt ha v

/-- A register read leaves the device as it was but for a popped byte, and nothing is fresh. -/
theorem deviceRead_inv {s : State} {n : Config} (h : s.dev.Inv n) (a : Nat) :
    (deviceRead a s).2.dev.Inv n ∧ (deviceRead a s).2.cfg = s.cfg ∧
      (deviceRead a s).2.rst = s.rst ∧ (deviceRead a s).2.faults = s.faults := by
  have hd : s.draw.2.dev.Inv n ∧ s.draw.2.cfg = s.cfg ∧ s.draw.2.rst = s.rst ∧
      s.draw.2.faults = s.faults := by
    unfold State.draw; split <;> exact ⟨h, rfl, rfl, rfl⟩
  unfold deviceRead
  split <;> try exact ⟨h, rfl, rfl, rfl⟩
  · unfold readFifoData
    split
    · rename_i v rest hf
      refine ⟨{ h with fifo := ?_ }, rfl, rfl, rfl⟩
      have := h.fifo; rw [hf] at this; simp at this ⊢; omega
    · exact hd
  · exact hd
  · unfold readStatus2; split
    · exact ⟨h, rfl, rfl, rfl⟩
    · exact hd
  · exact hd
  · exact hd

theorem addFault_inv {s : State} (h : s.Inv) (f : Fault) : (s.addFault f).Inv := by
  unfold State.addFault
  split
  · exact h
  · rename_i hn
    exact ⟨h.cfg, h.dev, h.held, by
      simpa [List.nodup_append, h.faults] using fun a ha (hc : a = f) => hn (hc ▸ ha)⟩

/-- What the device never changes: the reset line, the parameters, and that no fault stands twice. -/
structure Steady (s t : State) : Prop where
  rst : t.rst = s.rst
  cfg : t.cfg = s.cfg
  faults : s.faults.Nodup → t.faults.Nodup

theorem Steady.refl (s : State) : Steady s s := ⟨rfl, rfl, id⟩

theorem Steady.trans {s t u : State} (h : Steady s t) (k : Steady t u) : Steady s u :=
  ⟨k.rst.trans h.rst, k.cfg.trans h.cfg, fun hn => k.faults (h.faults hn)⟩

theorem Steady.addFault (f : Fault) (s : State) : Steady s (s.addFault f) :=
  ⟨by simp, by simp, fun h => State.addFault_nodup h f⟩

theorem askOracle_steady (a : Active) (frame : List Byte) (s : State) :
    Steady s (askOracle a frame s) := by
  unfold askOracle
  exact ⟨by simp, by simp, by simp⟩

theorem clearRoundErrors_steady (s : State) : Steady s (clearRoundErrors s) := ⟨rfl, rfl, id⟩

theorem startRound_steady (a : Active) (s : State) : Steady s (startRound a s) := by
  unfold startRound
  simp only
  refine Steady.trans (t := (s.setFifo []).emit (.tx s.dev.fifo ((s.x .bitFraming).setWidth 3)))
    ⟨rfl, rfl, id⟩ ?_
  exact (clearRoundErrors_steady _).trans (askOracle_steady _ _ _)

theorem setActive_steady (a : Active) (s : State) : Steady s (s.setActive a) := ⟨rfl, rfl, id⟩

theorem startActive_steady (a : Active) (s : State) : Steady s (startActive a s) := by
  unfold startActive
  cases a
  · exact setActive_steady _ s
  · exact ⟨rfl, rfl, id⟩
  · exact (setActive_steady _ s).trans (startRound_steady _ _)
  · exact ((setActive_steady _ s).trans (clearRoundErrors_steady _)).trans (askOracle_steady _ _ _)
  · exact ⟨rfl, rfl, id⟩
  · exact (setActive_steady _ s).trans (startRound_steady _ _)

theorem deviceWrite_steady (a : Nat) (v : Byte) (s : State) : Steady s (deviceWrite a v s) := by
  unfold deviceWrite
  split <;> try exact Steady.refl _
  all_goals try exact ⟨rfl, rfl, id⟩
  · unfold writeCommand
    split
    · exact Steady.addFault _ s
    · rename_i c _
      have ht : Steady s (terminateCommand s) := ⟨rfl, rfl, id⟩
      refine ht.trans ?_
      cases c with
      | softReset => exact ⟨rfl, rfl, id⟩
      | start act =>
        exact startActive_steady act _
  · unfold writeFifoData
    have hp : Steady s (fifoPush v s) := by
      unfold fifoPush; split <;> exact ⟨rfl, rfl, id⟩
    simp only
    split
    · exact hp.trans ⟨rfl, rfl, id⟩
    · exact hp
  · unfold writeFifoLevel
    split <;> exact ⟨rfl, rfl, id⟩
  · unfold writeBitFraming
    simp only
    split
    · exact Steady.trans (t := (s.setX .bitFraming v).setTxArmed false) ⟨rfl, rfl, id⟩
        (startRound_steady _ _)
    · exact ⟨rfl, rfl, id⟩

theorem applyOutcome_steady (o : LinkOutcome) (s : State) : Steady s (applyOutcome o s) :=
  ⟨by simp, by simp, by simp⟩

theorem endOfTransaction_steady (s : State) : Steady s (endOfTransaction s) := by
  have h1 : Steady s (tickPending s) := by
    unfold tickPending
    split
    · exact Steady.refl s
    · exact ⟨rfl, rfl, id⟩
    · rename_i c o fresh _
      simp only
      generalize (if fresh = true then c else c - 1) = n
      split
      · exact Steady.trans (t := s.setPending none) ⟨rfl, rfl, id⟩ (applyOutcome_steady _ _)
      · exact ⟨rfl, rfl, id⟩
  refine h1.trans ?_
  show Steady _ (tickCrc _)
  unfold tickCrc
  split
  · exact Steady.refl _
  · rename_i c fresh _
    simp only
    generalize (if fresh = true then c else c - 1) = n
    split
    · refine Steady.trans (t := (tickPending s).setCrcPending none) ⟨rfl, rfl, id⟩ ?_
      unfold processCrc
      split
      · exact Steady.addFault _ _
      · exact ⟨rfl, rfl, id⟩
    · exact ⟨rfl, rfl, id⟩

/-- The device in reset settles at once. -/
theorem endOfTransaction_held {s : State} (h : s.dev = Device.reset s.cfg) :
    endOfTransaction s = s := by
  have h1 : s.dev.pending = none := by rw [h]; rfl
  have h2 : s.dev.crcPending = none := by rw [h]; rfl
  unfold endOfTransaction tickPending
  rw [h1]
  unfold tickCrc
  rw [h2]

/-- A bus write keeps the invariant. -/
theorem busWrite_inv {s : State} (h : s.Inv) (a : Nat) (v : Byte) : (busWrite a v s).Inv := by
  unfold busWrite
  split
  · exact addFault_inv h _
  · rename_i ha
    simp only
    split
    · rename_i hr
      have hd := deviceWrite_busy (s := s.emit (.bus .w a v)) h.dev h.cfg (Nat.not_le.mp ha) v
      have hst := (deviceWrite_steady a v (s.emit (.bus .w a v)))
      have hse := endOfTransaction_steady (deviceWrite a v (s.emit (.bus .w a v)))
      have hfin := hst.trans hse
      have he := endOfTransaction_inv (s := deviceWrite a v (s.emit (.bus .w a v))) (by rw [hst.cfg]; exact hd)
      refine ⟨?_, ?_, ?_, ?_⟩
      · rw [hfin.cfg]; exact h.cfg
      · rw [hfin.cfg]; have := he.1; rw [hst.cfg] at this; exact this
      · intro hl; rw [hfin.rst] at hl; rw [hl] at hr; cases hr
      · exact hfin.faults h.faults
    · rename_i hr
      have hl : s.rst = .low := by
        cases hh : s.rst with
        | low => rfl
        | high => exact absurd hh hr
      rw [endOfTransaction_held (s := s.emit _) (h.held hl)]
      exact ⟨h.cfg, h.dev, h.held, h.faults⟩

theorem draw_inv {s : State} (h : s.Inv) : s.draw.2.Inv := by
  unfold State.draw
  split <;> exact ⟨h.cfg, h.dev, h.held, h.faults⟩

/-- A bus read keeps the invariant. -/
theorem busRead_inv {s : State} (h : s.Inv) (a : Nat) : (busRead a s).2.Inv := by
  unfold busRead
  split
  · exact draw_inv (addFault_inv h _)
  · simp only
    split
    · rename_i hr
      obtain ⟨k1, k2, k3, k4⟩ := deviceRead_inv h.dev a
      generalize (deviceRead a s).2 = u at *
      generalize (deviceRead a s).1 = v at *
      have hb : (u.emit (.bus .r a v)).dev.Busy (u.emit (.bus .r a v)).cfg := by
        rw [State.emit_cfg, k2]; exact k1.busy
      have hi := endOfTransaction_inv hb
      have hse := endOfTransaction_steady (u.emit (.bus .r a v))
      refine ⟨?_, ?_, ?_, ?_⟩
      · rw [hse.cfg]; show u.cfg.wf = true; rw [k2]; exact h.cfg
      · rw [hse.cfg]; exact hi.1
      · intro hl; rw [hse.rst] at hl; change u.rst = _ at hl; rw [k3] at hl; rw [hl] at hr; cases hr
      · refine hse.faults ?_; show u.faults.Nodup; rw [k4]; exact h.faults
    · rename_i hr
      have hl : s.rst = .low := by
        cases hh : s.rst with
        | low => rfl
        | high => exact absurd hh hr
      have hd : s.draw.2.Inv := draw_inv h
      rw [endOfTransaction_held (s := s.draw.2.emit _)]
      · exact ⟨hd.cfg, hd.dev, hd.held, hd.faults⟩
      · have := h.held hl
        simpa using this

/-- A line of pseudocode that is no transaction keeps the invariant. -/
theorem doAct_inv {s : State} (h : s.Inv) (a : Act) : (doAct a s).Inv := by
  cases a
  · exact ⟨h.cfg, h.dev, h.held, h.faults⟩
  · exact ⟨h.cfg, h.dev, h.held, h.faults⟩
  · exact ⟨h.cfg, h.dev, h.held, h.faults⟩
  · exact ⟨h.cfg, h.dev, h.held, h.faults⟩
  · unfold doAct driveReset; simp only; split
    · exact h
    · exact ⟨h.cfg, Config.wf_reset h.cfg, fun _ => rfl, h.faults⟩
  · exact ⟨h.cfg, h.dev, h.held, h.faults⟩
  · exact ⟨h.cfg, h.dev, h.held, h.faults⟩

end Sys2Proof.Machine
end

