-- ==== Sys2Proof/Laws/Ctl.lean ====
section
/-! SUPPORT. What a transaction and a program leave of the controller and the parameters. -/

namespace Sys2Proof.Machine

theorem endOfTransaction_ctl (s : State) : (endOfTransaction s).ctl = s.ctl := by
  have h1 : (tickPending s).ctl = s.ctl := by
    unfold tickPending; split <;> try rfl
    simp only
    rename_i c o fresh _
    generalize (if fresh = true then c else c - 1) = n
    split
    · rw [applyOutcome_frame]; rfl
    · rfl
  unfold endOfTransaction tickCrc
  split
  · exact h1
  · simp only
    rename_i c fresh _
    generalize (if fresh = true then c else c - 1) = n
    split
    · unfold processCrc; split
      · unfold State.addFault; split <;> exact h1
      · exact h1
    · exact h1

theorem askOracle_ctl (a : Active) (f : List Byte) (s : State) : (askOracle a f s).ctl = s.ctl := by
  unfold askOracle; simp
theorem startRound_ctl (a : Active) (s : State) : (startRound a s).ctl = s.ctl := by
  unfold startRound; simp only; rw [askOracle_ctl]; rfl
theorem deviceWrite_ctl (a : Nat) (v : Byte) (s : State) : (deviceWrite a v s).ctl = s.ctl := by
  unfold deviceWrite
  split <;> try rfl
  · unfold writeCommand; split
    · unfold State.addFault; split <;> rfl
    · rename_i c _
      cases c with
      | softReset => rfl
      | start act => cases act <;> simp only [startCommand, startActive] <;> try rfl
                     · rw [startRound_ctl]; rfl
                     · rw [askOracle_ctl]; rfl
                     · rw [startRound_ctl]; rfl
  · unfold writeFifoData fifoPush; simp only; split <;> split <;> rfl
  · unfold writeFifoLevel; split <;> rfl
  · unfold writeBitFraming; simp only; split
    · rw [startRound_ctl]; rfl
    · rfl
theorem busWrite_ctl (a : Nat) (v : Byte) (s : State) : (busWrite a v s).ctl = s.ctl := by
  unfold busWrite; split
  · unfold State.addFault; split <;> rfl
  · simp only; rw [endOfTransaction_ctl]; split
    · rw [deviceWrite_ctl]; rfl
    · rfl
theorem draw_ctl (s : State) : s.draw.2.ctl = s.ctl := by unfold State.draw; split <;> rfl
theorem busRead_ctl (a : Nat) (s : State) : (busRead a s).2.ctl = s.ctl := by
  unfold busRead; split
  · rw [draw_ctl]; unfold State.addFault; split <;> rfl
  · simp only; rw [endOfTransaction_ctl]; split
    · show (deviceRead a s).2.ctl = _
      unfold deviceRead; split <;> try first | rfl | exact draw_ctl s
      · unfold readFifoData; split <;> first | rfl | exact draw_ctl s
      · unfold readStatus2; split <;> first | rfl | exact draw_ctl s
    · exact draw_ctl s
theorem busWrite_cfg_any (a : Nat) (v : Byte) (s : State) : (busWrite a v s).cfg = s.cfg := by
  unfold busWrite; split
  · simp
  · simp only; rw [(endOfTransaction_steady _).cfg]; split
    · rw [(deviceWrite_steady _ _ _).cfg]; rfl
    · rfl
theorem busRead_cfg_any (a : Nat) (s : State) : (busRead a s).2.cfg = s.cfg := by
  unfold busRead; split
  · simp
  · simp only; rw [(endOfTransaction_steady _).cfg]; split
    · show (deviceRead a s).2.cfg = _
      have hd : s.draw.2.cfg = s.cfg := by simp
      unfold deviceRead; split <;> try first | rfl | exact hd
      · unfold readFifoData; split <;> first | rfl | exact hd
      · unfold readStatus2; split <;> first | rfl | exact hd
    · simp
theorem doAct_cfg (a : Act) (s : State) : (doAct a s).cfg = s.cfg := by
  cases a <;> try rfl
  unfold doAct driveReset; simp only; split <;> rfl
theorem regWrite_ctl (r : Reg) (v : Byte) (s : State) : (regWrite r v s).ctl = s.ctl :=
  busWrite_ctl _ v s
theorem regRead_ctl (r : Reg) (s : State) : (regRead r s).2.ctl = s.ctl := busRead_ctl _ s
theorem regWrite_cfg (r : Reg) (v : Byte) (s : State) : (regWrite r v s).cfg = s.cfg :=
  busWrite_cfg_any _ v s
theorem regRead_cfg (r : Reg) (s : State) : (regRead r s).2.cfg = s.cfg := busRead_cfg_any _ s

/-- No program changes the parameters. -/
theorem Prog.run_cfg {α : Type} (p : Prog α) (s : State) : (p.run s).1.cfg = s.cfg := by
  induction p generalizing s with
  | ret a => rfl
  | raise e => rfl
  | write r v rest ih => exact (ih _).trans (regWrite_cfg r v s)
  | read r rest ih => exact (ih _ _).trans (regRead_cfg r s)
  | act a rest ih => exact (ih _).trans (doAct_cfg a s)

/-- A program that neither closes the controller nor leaves a second frame to wait for. -/
inductive Prog.Plain {α : Type} : Prog α → Prop
  | ret a : Prog.Plain (.ret a)
  | raise a : Prog.Plain (.raise a)
  | write a v {r} : Prog.Plain r → Prog.Plain (.write a v r)
  | read a {r} : (∀ v, Prog.Plain (r v)) → Prog.Plain (.read a r)
  | act a {r} : (a ≠ .closeBus ∧ ∀ w, a ≠ .await w) → Prog.Plain r → Prog.Plain (.act a r)

/-- What such a program leaves of the controller. -/
theorem Prog.Plain.run_ctl {α : Type} {p : Prog α} (h : Prog.Plain p) (s : State) :
    (p.run s).1.ctl.closed = s.ctl.closed ∧ (p.run s).1.ctl.awaiting = s.ctl.awaiting := by
  induction h generalizing s with
  | ret a => exact ⟨rfl, rfl⟩
  | raise e => exact ⟨rfl, rfl⟩
  | write r v _ ih => exact regWrite_ctl r v s ▸ ih (regWrite r v s)
  | read r _ ih => exact regRead_ctl r s ▸ ih (regRead r s).1 (regRead r s).2
  | act a hne _ ih =>
    refine ⟨(ih _).1.trans ?_, (ih _).2.trans ?_⟩ <;> cases a <;> try rfl
    · unfold doAct driveReset; simp only; split <;> rfl
    · exact absurd rfl hne.1
    · unfold doAct driveReset; simp only; split <;> rfl
    · exact absurd rfl (hne.2 _)

theorem Prog.Plain.bind {α β : Type} {p : Prog α} {f : α → Prog β} (h : Prog.Plain p) (hf : ∀ a, Prog.Plain (f a)) : Prog.Plain (p.bind f) := by
  induction h with
  | ret a => exact hf a
  | raise e => exact .raise e
  | write addr v _ ih => exact .write _ _ ih
  | read addr _ ih => exact .read _ ih
  | act a hne _ ih => exact .act _ hne ih
theorem Prog.Plain.asTask {α : Type} {p : Prog α} (n : TaskName) (res : α → Result) (h : Prog.Plain p)  : Prog.Plain (p.asTask n res) := by
  induction h with
  | ret a => exact .act _ (by simp) (.ret _)
  | raise e => exact .act _ (by simp) (.raise e)
  | write addr v _ ih => exact .write _ _ ih
  | read addr _ ih => exact .read _ ih
  | act a hne _ ih => exact .act _ hne ih
theorem Prog.Plain.poll (a : Reg) (hit : Byte → Bool) (n : Nat) : Prog.Plain (Prog.poll a hit n) := by
  induction n with
  | zero => exact .ret _
  | succ n ih => exact .read _ fun v => by split; exact .ret _; exact ih
theorem Prog.Plain.load {α : Type} {p : Prog α} (h : Prog.Plain p) (bs : List Byte) : Prog.Plain (Prog.loadFifo bs p) := by
  induction bs with
  | nil => exact h
  | cons b bs ih => exact .write _ _ ih
theorem Prog.Plain.drain (n : Nat) : Prog.Plain (Prog.drainFifo n) := by
  induction n with
  | zero => exact .ret _
  | succ n ih => exact .read _ fun v => ih.bind fun _ => .ret _
theorem computeCrc_plain (buf : List Byte) : Prog.Plain (computeCrc buf) := by
  refine Prog.Plain.asTask _ _ (.write _ _ (.write _ _ (Prog.Plain.load (.write _ _ ((Prog.Plain.poll _ _ _).bind ?_)) _)))
  intro m; cases m
  · exact .act _ (by simp) (.read _ fun _ => .read _ fun _ => .ret _)
  · exact (.read _ fun _ => .read _ fun _ => .ret _)
theorem pollAndFinish_plain (cfg : Config) (c : Command) : Prog.Plain (pollAndFinish cfg c) := by
  refine (Prog.Plain.poll _ _ _).bind fun m => .read _ fun _ => .write _ _ ?_
  cases m
  · exact .ret _
  · refine .read _ fun _ => ?_
    split
    · exact .ret _
    · simp only; split
      · exact .read _ fun _ => .read _ fun _ => (Prog.Plain.drain _).bind fun _ => .ret _
      · exact .ret _
theorem transceive_plain (cfg : Config) (c : Command) (send : List Byte) : Prog.Plain (transceive cfg c send) := by
  refine Prog.Plain.asTask _ _ (.write _ _ (.write _ _ (.write _ _ (.write _ _ (Prog.Plain.load (.write _ _ ?_) _)))))
  split
  · exact .read _ fun _ => .write _ _ (pollAndFinish_plain _ _)
  · exact pollAndFinish_plain _ _
theorem commandPhase_plain (cfg : Config) (op b : Byte) (m : LogMsg) : Prog.Plain (commandPhase cfg op b m) := by
  refine ((computeCrc_plain _).bind fun r => transceive_plain _ _ _).bind fun r => ?_
  split
  · exact .ret _
  · exact .act _ (by simp) (.ret _)
theorem writeCommandPhase_plain (cfg : Config) (b : Byte) : Prog.Plain (writeCommandPhase cfg b) := by
  have h := commandPhase_plain cfg 0xA0 b (.writeCommandNotAcknowledged b)
  unfold writeCommandPhase; simp only
  split <;> split
  · exact .act _ (by simp) (.act _ (by simp) h)
  · exact .act _ (by simp) h
  · exact .act _ (by simp) h
  · exact h

end Sys2Proof.Machine
end

