-- ==== Sys2Proof/Laws/SendWithCrc.lean ====
section
/-! SUPPORT. An operation whose frame ends in a CRC: one compute_crc call, then one TRANSCEIVE
(44_picc_operations.md rule R290). -/

namespace Sys2Proof.Machine

theorem CrcComputed.cfg {s t : State} {buf : List Byte} (h : CrcComputed s t buf) :
    t.cfg = s.cfg := by rw [h.frame]

theorem CrcComputed.x {s t : State} {buf : List Byte} (h : CrcComputed s t buf) (q : Reg) :
    t.x q =
      if q = .divIrq then s.x .divIrq ||| crcIrq
      else if q = .status1 then s.x .status1 ||| crcReady
      else if q = .command then s.x .command &&& 0xCF
      else if q = .error then s.x .error &&& ~~~bufferOvfl
      else s.x q := by
  simp only [State.x, h.cfg, h.read, AddressMap.addr_eq_iff]

theorem CrcComputed.ctl {s t : State} {buf : List Byte} (h : CrcComputed s t buf) :
    t.ctl = s.ctl := by rw [h.frame]

theorem CrcComputed.oracle {s t : State} {buf : List Byte} (h : CrcComputed s t buf) :
    t.oracle = s.oracle := by rw [h.frame]

theorem CrcComputed.quiet {s t : State} {buf : List Byte} (h : CrcComputed s t buf)
    (hq : s.Quiet) : t.Quiet := by
  rw [h.frame]; exact ⟨hq.high, hq.pending, hq.crcPending⟩

theorem CrcComputed.answerTo {s t : State} {buf : List Byte} (h : CrcComputed s t buf)
    (a : Active) (frame : List Byte) (lb : BitVec 3) :
    t.answerTo a frame lb = s.answerTo a frame lb := by
  simp only [State.answerTo, h.oracle]

theorem CrcComputed.drawAfterAnswer {s t : State} {buf : List Byte} (h : CrcComputed s t buf) :
    t.drawAfterAnswer = s.drawAfterAnswer := by
  simp only [State.drawAfterAnswer, h.oracle]

theorem error_after_crc (old : Byte) : (old &&& ~~~bufferOvfl) &&& 0xE0 = old &&& 0xE0 := by
  revert old; decide

theorem command_after_crc (old : Byte) : (old &&& 0xCF) &&& 0xCF = old &&& 0xCF := by
  revert old; decide

variable {s t u : State} {buf : List Byte} {en framing : Byte} {o : LinkOutcome}

/-- An exchange after compute_crc, from the state before compute_crc. -/
theorem Exchanged.afterCrc (h : CrcComputed s t buf)
    (hp : crcPreset ((s.x .mode).setWidth 2) = 0x6363) {a : Active}
    (hx : Exchanged t u a en framing none o) : Exchanged s u a en framing (some buf) o := by
  have hf := h.frame
  constructor
  case cfg => rw [hx.cfg, h.cfg]
  case rst => rw [hx.rst, hf]
  case faults => rw [hx.faults, hf]
  case inbox => rw [hx.inbox, hf]
  case running => rw [hx.running, h.ctl]
  case closed => rw [hx.closed, h.ctl]
  case exhausted => rw [hx.exhausted, h.ctl]
  case others =>
    intro r hr
    rw [hx.others r (by rw [h.cfg]; exact hr), h.read]
    simp only [exchangeRegs, List.map_cons, List.map_nil, List.mem_cons, List.not_mem_nil, not_or]
      at hr
    simp [hr]
  case command => rw [hx.command, h.x]; simpa using command_after_crc _
  case comIEn => exact hx.comIEn
  case comIrq => rw [hx.comIrq, h.x, h.cfg]; simp
  case divIrq => rw [hx.divIrq, h.x]; simp
  case error => rw [hx.error, h.x, h.cfg]; simpa using congrArg (· ||| _) (error_after_crc _)
  case status1 => rw [hx.status1, h.x]; simp
  case status2 => rw [hx.status2, h.x]; simp
  case control => rw [hx.control, h.x]; simp
  case bitFraming => exact hx.bitFraming
  case fifo => rw [hx.fifo, h.cfg]
  case active => exact hx.active
  case txArmed => exact hx.txArmed
  case crcAcc => rw [hx.crcAcc, hf]; simp [crcA, hp]
  case crcResult => rw [hx.crcResult, hf]; simp [crcA, hp]
  case crcPending => exact hx.crcPending
  case pending => exact hx.pending
  case rounds => rw [hx.rounds, h.oracle]
  case draws => rw [hx.draws, h.oracle]
  case made => rw [hx.made, h.oracle]

/-- A timeout after compute_crc, from the state before compute_crc. -/
theorem TimedOut.afterCrc (h : CrcComputed s t buf)
    (hp : crcPreset ((s.x .mode).setWidth 2) = 0x6363)
    {a : Active} {ans : Answer} (hx : TimedOut t u a en framing none ans) :
    TimedOut s u a en framing (some buf) ans := by
  have hf := h.frame
  constructor
  case cfg => rw [hx.cfg, h.cfg]
  case rst => rw [hx.rst, hf]
  case faults => rw [hx.faults, hf]
  case inbox => rw [hx.inbox, hf]
  case running => rw [hx.running, h.ctl]
  case closed => rw [hx.closed, h.ctl]
  case exhausted => rw [hx.exhausted, h.ctl]
  case others =>
    intro r hr
    rw [hx.others r (by rw [h.cfg]; exact hr), h.read]
    simp only [exchangeRegs, List.map_cons, List.map_nil, List.mem_cons, List.not_mem_nil, not_or]
      at hr
    simp [hr]
  case command => rw [hx.command, h.x]; simpa using command_after_crc _
  case comIEn => exact hx.comIEn
  case divIrq => rw [hx.divIrq, h.x]; simp
  case status1 => rw [hx.status1, h.x]; simp
  case bitFraming => exact hx.bitFraming
  case crcAcc => rw [hx.crcAcc, hf]; simp [crcA, hp]
  case crcResult => rw [hx.crcResult, hf]; simp [crcA, hp]
  case crcPending => exact hx.crcPending
  case rounds => rw [hx.rounds, h.oracle]
  case draws => rw [hx.draws, h.oracle]
  case made => rw [hx.made, h.oracle]
  case comIrq => rw [hx.comIrq, h.x, h.cfg]; simp
  case error => rw [hx.error, h.x, h.cfg]; simpa using congrArg (· ||| _) (error_after_crc _)
  case status2 => rw [hx.status2, h.x]; simp
  case control => rw [hx.control, h.x]; simp
  case fifo => rw [hx.fifo, h.cfg]
  case active => exact hx.active
  case txArmed => exact hx.txArmed
  case pending => exact hx.pending

/-- `sendWithCrc` from a ready state: its result, what it leaves and what it sends. -/
theorem sendWithCrc_run (h : s.Ready) (hroom : buf.length + 2 ≤ s.cfg.fifoDepth) :
    ∃ t es,
      (sendWithCrc s.cfg buf).run s =
        (t, .ok (s.exchange (buf ++ crcSuffix buf) ((s.x .bitFraming).setWidth 3))) ∧
      Leaves s t .transceive 0x31 (s.x .bitFraming) (some buf)
        (s.answerTo .transceive (buf ++ crcSuffix buf) ((s.x .bitFraming).setWidth 3)) ∧
      t.ctl.awaiting = s.ctl.awaiting ∧
      t.trace = s.trace ++ es ∧
      txFrames es = [(buf ++ crcSuffix buf, (s.x .bitFraming).setWidth 3)] ∧
      ownEvents es = [] := by
  suffices h' : ∃ t es,
      (sendWithCrc s.cfg buf).run s =
        (t, .ok (s.exchange (buf ++ crcSuffix buf) ((s.x .bitFraming).setWidth 3))) ∧
      Leaves s t .transceive 0x31 (s.x .bitFraming) (some buf)
        (s.answerTo .transceive (buf ++ crcSuffix buf) ((s.x .bitFraming).setWidth 3)) ∧
      t.ctl.awaiting = s.ctl.awaiting ∧
      t.trace = s.trace ++ es ∧
      txFrames es = [(buf ++ crcSuffix buf, (s.x .bitFraming).setWidth 3)] by
    obtain ⟨t, es, hr, hl, ha, ht, hf⟩ := h'
    exact ⟨t, es, hr, hl, ha, ht, hf, (sendWithCrc_silent _ _).own hr ht⟩
  obtain ⟨t, es, hrun, hc, htr, hfr, -⟩ :=
    computeCrc_run h.quiet h.notCrc h.lsbFirst h.latency (buf := buf) (by omega)
  rw [h.preset] at hrun
  have hq := hc.quiet h.quiet
  have hbf : t.x .bitFraming = s.x .bitFraming := by rw [hc.x]; simp
  have hctl : t.x .control = s.x .control := by rw [hc.x]; simp
  have hfield : fieldOn t = true := by
    have := h.field
    simp only [fieldOn] at this ⊢
    rw [hc.x]; simpa using this
  have hauto : tAuto t = true := by
    have := h.timer
    simp only [tAuto] at this ⊢
    rw [hc.x]; simpa using this
  have hm : t.cfg.SourceMasks := by rw [hc.cfg]; exact h.masks
  have hd : 18 ≤ t.cfg.fifoDepth ∧ t.cfg.fifoDepth < 128 := by rw [hc.cfg]; exact h.depth
  have hlen : (buf ++ crcSuffix buf).length ≤ t.cfg.fifoDepth := by
    rw [hc.cfg]; simpa [crcSuffix] using hroom
  have hsend : (sendWithCrc s.cfg buf).run s =
      (transceive t.cfg (.start .transceive) (buf ++ crcSuffix buf)).run t := by
    rw [sendWithCrc, Prog.run_bind_ok hrun, hc.cfg]; rfl
  rw [hsend]
  match harr : arrives .transceive
      (s.answerTo .transceive (buf ++ crcSuffix buf) ((s.x .bitFraming).setWidth 3)) with
  | some o =>
    obtain ⟨u, es', hr, hx, haw, htr', hfr', -⟩ := transceive_arrives hq hfield hauto hm hd hlen
      (o := o) (by rw [hc.answerTo, hbf]; exact harr)
    rw [hbf] at hx hfr'
    refine ⟨u, es ++ es', ?_, by rw [Leaves, harr]; exact hx.afterCrc hc h.preset, by rw [haw, hc.ctl],
      by rw [htr', htr, List.append_assoc], by simp [hfr, hfr']⟩
    rw [hr, State.exchange, harr, hc.cfg, hctl, hc.drawAfterAnswer]
  | none =>
    obtain ⟨u, es', hr, hx, haw, htr', hfr', -⟩ := transceive_timeout hq hfield hauto hm hlen
      (by rw [hc.answerTo, hbf]; exact harr)
    rw [hbf] at hx hfr'
    rw [hc.answerTo] at hx
    refine ⟨u, es ++ es', ?_, by rw [Leaves, harr]; exact hx.afterCrc hc h.preset, by rw [haw, hc.ctl],
      by rw [htr', htr, List.append_assoc], by simp [hfr, hfr']⟩
    rw [hr, State.exchange, harr]; rfl

end Sys2Proof.Machine
end

