-- ==== Sys2Proof/Laws/Operation.lean ====
section
/-! SUPPORT. The exchange of a protocol operation as `Made`, from a ready state, and what the lines
after it add (44_picc_operations.md rule R290). -/

namespace Sys2Proof.Machine

variable {s t u : State} {e : Exchange} {own : List Event}

@[simp] theorem State.setAwaiting_cfg (w : Option Awaiting) (s : State) :
    (s.setAwaiting w).cfg = s.cfg := rfl
@[simp] theorem State.setAwaiting_dev (w : Option Awaiting) (s : State) :
    (s.setAwaiting w).dev = s.dev := rfl
@[simp] theorem State.setAwaiting_trace (w : Option Awaiting) (s : State) :
    (s.setAwaiting w).trace = s.trace := rfl
@[simp] theorem State.setAwaiting_x (w : Option Awaiting) (s : State) (r : Reg) :
    (s.setAwaiting w).x r = s.x r := rfl
@[simp] theorem State.setAwaiting_awaiting (w : Option Awaiting) (s : State) :
    (s.setAwaiting w).ctl.awaiting = w := rfl

theorem State.Ready.setAwaiting (h : s.Ready) (w : Option Awaiting) : (s.setAwaiting w).Ready where
  isOpen := h.isOpen
  quiet := h.quiet.of_eq rfl rfl rfl
  notCrc := h.notCrc
  preset := h.preset
  lsbFirst := h.lsbFirst
  timer := h.timer
  field := h.field
  masks := h.masks
  latency := h.latency
  depth := h.depth

theorem runJob_open (j : Job) (h : s.ctl.closed = false) :
    runJob j s = runProg (jobProg s.cfg j) (s.setAwaiting none) := by
  simp [runJob, whenOpen, h]

theorem runTask_open (task : Task) (h : s.ctl.closed = false) :
    runTask task s = runProg (taskProg s.cfg task) (s.setAwaiting none) := runJob_open _ h

/-- An instruction that is a whole task, from its program's run. -/
theorem exec_of_run {α : Type} {i : Instr} {task : Task} {name : TaskName} {res : α → Result}
    {p : Prog α} {a : α} (hi : exec i s = .next (runTask task s)) (h : s.ctl.closed = false)
    (hp : taskProg s.cfg task = asWholeTask name res p)
    (hrun : p.run (s.setAwaiting none) = (t, .ok a)) :
    exec i s = .next (t.emit (.ret name (res a))) := by
  rw [hi, runTask_open _ h, hp, runProg, asWholeTask_run_ok hrun]

/-- What an exchange leaves does not look at what waits for its second frame. -/
theorem Leaves.of_setAwaiting {w : Option Awaiting} {a : Active} {en fr : Byte}
    {c : Option (List Byte)} {ans : Answer}
    (h : Leaves (s.setAwaiting w) t a en fr c ans) : Leaves s t a en fr c ans := by
  unfold Leaves at *
  split at h <;> exact { h with }

theorem Leaves.setAwaiting {w : Option Awaiting} {a : Active} {en fr : Byte}
    {c : Option (List Byte)} {ans : Answer} (h : Leaves s t a en fr c ans) :
    Leaves s (t.setAwaiting w) a en fr c ans := by
  unfold Leaves at *
  split at h <;> exact { h with }

/-- Nor at the trace. -/
theorem Leaves.emit {a : Active} {en fr : Byte} {c : Option (List Byte)} {ans : Answer}
    (h : Leaves s t a en fr c ans) (ev : Event) : Leaves s (t.emit ev) a en fr c ans := by
  unfold Leaves at *
  split at h <;> exact { h with }

theorem Leaves.of_emit {a : Active} {en fr : Byte} {c : Option (List Byte)} {ans : Answer}
    {ev : Event} (h : Leaves (s.emit ev) t a en fr c ans) : Leaves s t a en fr c ans := by
  unfold Leaves at *
  split at h <;> exact { h with }

theorem Made.setAwaiting (h : Made e s t own) (w : Option Awaiting) :
    Made e s (t.setAwaiting w) own := ⟨h.leaves.setAwaiting, h.trace⟩

/-- An event the operation records after its exchange. -/
theorem Made.emit (h : Made e s t own) {ev : Event} (htx : txFrames [ev] = []) :
    Made e s (t.emit ev) (own ++ ownEvents [ev]) := by
  obtain ⟨es, ht, hf, ho⟩ := h.trace
  exact ⟨h.leaves.emit ev, es ++ [ev], by rw [State.emit_trace, ht, List.append_assoc],
    by rw [txFrames_append, hf, htx]; rfl, by rw [ownEvents_append, ho]⟩

/-- A log record before the exchange. -/
theorem Made.afterLog {m : LogMsg} (h : Made e (s.emit (.log m)) t own) :
    Made e s t (.log m :: own) := by
  obtain ⟨es, ht, hf, ho⟩ := h.trace
  exact ⟨h.leaves.of_emit, .log m :: es, by rw [ht]; simp [State.emit, List.append_assoc],
    by simpa using hf, by simp [ho]⟩

/-- The frame with its CRC, and what comes back. -/
theorem sendWithCrc_made (h : s.Ready) {body : List Byte} (hlen : body.length ≤ 16) :
    ∃ t, (sendWithCrc s.cfg body).run (s.setAwaiting none) =
        (t, .ok (s.reply (.withCrc (s.x .bitFraming) body))) ∧
      Made (.withCrc (s.x .bitFraming) body) s t [] ∧ t.ctl.awaiting = none := by
  obtain ⟨t, es, hr, hl, ha, ht, hf, ho⟩ := sendWithCrc_run (buf := body) (h.setAwaiting none)
    (by have := h.depth; simp only [State.setAwaiting_cfg]; omega)
  exact ⟨t, hr, ⟨hl.of_setAwaiting, es, ht, hf, ho⟩, ha⟩

/-- The state after a BitFramingReg write that starts nothing. -/
theorem framed_ready (h : s.Ready) {v : Byte} (hv : v.getLsbD 7 = false) :
    (regWrite .bitFraming v s).Ready ∧
      regWrite .bitFraming v s = (s.emit (.bus .w (s.cfg.map.addr .bitFraming) v)).setX .bitFraming v := by
  have heq := regWrite_bitFraming h.quiet hv
  have hx : ∀ q : Reg, q ≠ .bitFraming →
      (regWrite .bitFraming v s).x q = s.x q := fun q hq => by
    rw [heq, State.setX_x_ne hq]; rfl
  refine ⟨?_, heq⟩
  constructor
  · rw [heq]; exact h.isOpen
  · rw [heq]; exact h.quiet.of_eq rfl rfl rfl
  · rw [heq]; exact h.notCrc
  · rw [hx _ (by decide)]; exact h.preset
  · rw [hx _ (by decide)]; exact h.lsbFirst
  · simp only [tAuto, hx .tMode (by decide)]; exact h.timer
  · simp only [fieldOn, hx .txControl (by decide)]; exact h.field
  · rw [heq]; exact h.masks
  · rw [heq]; exact h.latency
  · rw [heq]; exact h.depth

/-- The frame without a CRC, after the BitFramingReg write of its operation, and what comes back. -/
theorem plainFrame_made (h : s.Ready) {v : Byte} (hv : v.getLsbD 7 = false) {frame : List Byte}
    (hlen : frame.length ≤ 16) :
    ∃ t, (Prog.write .bitFraming v (transceive s.cfg (.start .transceive) frame)).run
          (s.setAwaiting none) = (t, .ok (s.reply (.plain v frame))) ∧
      Made (.plain v frame) s t [] ∧ t.ctl.awaiting = none := by
  obtain ⟨hw, heq⟩ := framed_ready (h.setAwaiting none) hv
  generalize regWrite .bitFraming v (s.setAwaiting none) = w at hw heq
  have hcfg : w.cfg = s.cfg := by rw [heq]; rfl
  have hbf : w.x .bitFraming = v := by rw [heq, State.setX_x_same]
  have hctl : w.x .control = s.x .control := by rw [heq, State.setX_x_ne (by decide)]; rfl
  have hans : ∀ lb, w.answerTo .transceive frame lb = s.answerTo .transceive frame lb := by
    intro lb; rw [heq]; rfl
  have hdraw : w.drawAfterAnswer = s.drawAfterAnswer := by rw [heq]; rfl
  have htr : w.trace = s.trace ++ [.bus .w (s.cfg.map.addr .bitFraming) v] := by rw [heq]; rfl
  have hothers : ∀ r, r ≠ s.cfg.map.addr .bitFraming → w.dev.mem.read r = s.dev.mem.read r := fun r hr => by
    rw [heq]; exact Memory.read_write_ne _ v hr
  have hreg : ∀ q : Reg, q ≠ .bitFraming → w.x q = s.x q := fun q hq => by
    rw [heq, State.setX_x_ne hq]; rfl
  suffices hsuff : ∃ t es, (transceive w.cfg (.start .transceive) frame).run w =
        (t, .ok (s.reply (.plain v frame))) ∧
      Leaves w t .transceive 0x31 v none (s.answer (.plain v frame)) ∧
      t.ctl.awaiting = w.ctl.awaiting ∧ t.trace = w.trace ++ es ∧
      txFrames es = [(frame, v.setWidth 3)] by
    obtain ⟨t, es, hr, hl, ha, ht, hf⟩ := hsuff
    have ho := (transceive_silent w.cfg (.start .transceive) frame).own hr ht
    refine ⟨t, ?_, ⟨?_, .bus .w (s.cfg.map.addr .bitFraming) v :: es, ?_,
      (txFrames_bus _ _ _ _).trans hf, by simpa using ho⟩, ?_⟩
    · rw [Prog.run_write, ← hcfg, ← hr]
      rw [framed_ready (h.setAwaiting none) hv |>.2, ← heq]
    · have hof : ∀ r, r ∉ exchangeRegs s.cfg.map → r ≠ s.cfg.map.addr .bitFraming := by
        intro r hr he; exact hr (by rw [he]; simp [exchangeRegs])
      show Leaves s t .transceive 0x31 v none (s.answer (.plain v frame))
      unfold Leaves at *
      split at hl
      · exact {
          cfg := hl.cfg.trans hcfg
          rst := hl.rst.trans (by rw [heq]; rfl)
          faults := hl.faults.trans (by rw [heq]; rfl)
          inbox := hl.inbox.trans (by rw [heq]; rfl)
          running := hl.running.trans (by rw [heq]; rfl)
          closed := hl.closed.trans (by rw [heq]; rfl)
          exhausted := hl.exhausted.trans (by rw [heq]; rfl)
          others := fun r hr => (hl.others r (by rw [hcfg]; exact hr)).trans (hothers r (hof r hr))
          command := by rw [hl.command, hreg _ (by decide)]
          comIEn := hl.comIEn
          comIrq := by rw [hl.comIrq, hreg _ (by decide), hcfg]
          divIrq := by rw [hl.divIrq, hreg _ (by decide)]
          error := by rw [hl.error, hreg _ (by decide), hcfg]
          status1 := by rw [hl.status1, hreg _ (by decide)]
          status2 := by rw [hl.status2, hreg _ (by decide)]
          control := by rw [hl.control, hreg _ (by decide)]
          bitFraming := hl.bitFraming
          fifo := by rw [hl.fifo, hcfg]
          active := hl.active
          txArmed := hl.txArmed
          crcAcc := hl.crcAcc.trans (by rw [heq]; rfl)
          crcResult := hl.crcResult.trans (by rw [heq]; rfl)
          crcPending := hl.crcPending
          pending := hl.pending
          rounds := hl.rounds.trans (by rw [heq]; rfl)
          draws := hl.draws.trans (by rw [heq]; rfl)
          made := hl.made.trans (by rw [heq]; rfl) }
      · exact {
          cfg := hl.cfg.trans hcfg
          rst := hl.rst.trans (by rw [heq]; rfl)
          faults := hl.faults.trans (by rw [heq]; rfl)
          inbox := hl.inbox.trans (by rw [heq]; rfl)
          running := hl.running.trans (by rw [heq]; rfl)
          closed := hl.closed.trans (by rw [heq]; rfl)
          exhausted := hl.exhausted.trans (by rw [heq]; rfl)
          others := fun r hr => (hl.others r (by rw [hcfg]; exact hr)).trans (hothers r (hof r hr))
          command := by rw [hl.command, hreg _ (by decide)]
          comIEn := hl.comIEn
          divIrq := by rw [hl.divIrq, hreg _ (by decide)]
          status1 := by rw [hl.status1, hreg _ (by decide)]
          bitFraming := hl.bitFraming
          crcAcc := hl.crcAcc.trans (by rw [heq]; rfl)
          crcResult := hl.crcResult.trans (by rw [heq]; rfl)
          crcPending := hl.crcPending
          rounds := hl.rounds.trans (by rw [heq]; rfl)
          draws := hl.draws.trans (by rw [heq]; rfl)
          made := hl.made.trans (by rw [heq]; rfl)
          comIrq := by rw [hl.comIrq, hreg _ (by decide), hcfg]
          error := by rw [hl.error, hreg _ (by decide), hcfg]
          status2 := by rw [hl.status2, hreg _ (by decide)]
          control := by rw [hl.control, hreg _ (by decide)]
          fifo := by rw [hl.fifo, hcfg]
          active := hl.active
          txArmed := hl.txArmed
          pending := hl.pending }
    · rw [ht, htr, List.append_assoc]; rfl
    · rw [ha, heq]; rfl
  have hroom : frame.length ≤ w.cfg.fifoDepth := by have := hw.depth; omega
  cases hO : s.outcomeOf (.plain v frame) with
  | some o =>
    have hO' : arrives .transceive (s.answer (.plain v frame)) = some o := hO
    obtain ⟨t, es, hr, hx, haw, ht, hf, -⟩ := transceive_arrives hw.quiet hw.field hw.timer hw.masks
      hw.depth hroom (o := o) (by rw [hbf, hans]; exact hO)
    rw [hbf] at hx hf
    refine ⟨t, es, ?_, by rw [Leaves, hO']; exact hx, haw, ht, hf⟩
    rw [hr, hcfg, hctl, hdraw]
    show _ = (t, Except.ok (txrxOf _ _ _ (s.outcomeOf (.plain v frame))))
    rw [hO]
  | none =>
    have hO' : arrives .transceive (s.answer (.plain v frame)) = none := hO
    obtain ⟨t, es, hr, hx, haw, ht, hf, -⟩ := transceive_timeout hw.quiet hw.field hw.timer hw.masks
      hroom (by rw [hbf, hans]; exact hO)
    rw [hbf] at hx hf
    rw [hans] at hx
    refine ⟨t, es, ?_, by rw [Leaves, hO']; exact hx, haw, ht, hf⟩
    rw [hr]
    show _ = (t, Except.ok (txrxOf _ _ _ (s.outcomeOf (.plain v frame))))
    rw [hO]; rfl

/-- The authentication frame, and the status that comes back. -/
theorem authFrame_made (h : s.Ready) {frame : List Byte} (hlen : frame.length = 12) :
    ∃ t, (transceive s.cfg (.start .mfAuthent) frame).run (s.setAwaiting none) =
        (t, .ok (s.reply (.auth (s.x .bitFraming) frame))) ∧
      Made (.auth (s.x .bitFraming) frame) s t [] ∧ t.ctl.awaiting = none := by
  have hw := h.setAwaiting none
  suffices hsuff : ∃ t es, (transceive s.cfg (.start .mfAuthent) frame).run (s.setAwaiting none) =
        (t, .ok (s.reply (.auth (s.x .bitFraming) frame))) ∧
      Leaves (s.setAwaiting none) t .mfAuthent 0x11 (s.x .bitFraming) none
        (s.answer (.auth (s.x .bitFraming) frame)) ∧
      t.ctl.awaiting = none ∧ t.trace = s.trace ++ es ∧
      txFrames es = [(frame, (s.x .bitFraming).setWidth 3)] by
    obtain ⟨t, es, hr, hl, ha, ht, hf⟩ := hsuff
    exact ⟨t, hr, ⟨hl.of_setAwaiting, es, ht, hf, (transceive_silent _ _ _).own hr ht⟩, ha⟩
  cases hO : s.outcomeOf (.auth (s.x .bitFraming) frame) with
  | some o =>
    have hO' : arrives .mfAuthent (s.answer (.auth (s.x .bitFraming) frame)) = some o := hO
    obtain ⟨t, es, hr, hx, haw, ht, hf, -⟩ := authenticate_arrives hw.quiet hw.field hw.timer hw.masks
      hw.depth.1 hlen (o := o) hO
    refine ⟨t, es, ?_, by rw [Leaves, hO']; exact hx, haw, ht, hf⟩
    refine hr.trans ?_
    show _ = (t, Except.ok (⟨authStatusOf (s.outcomeOf (.auth (s.x .bitFraming) frame)), [], 0⟩ : TxRx))
    rw [hO]
  | none =>
    have hO' : arrives .mfAuthent (s.answer (.auth (s.x .bitFraming) frame)) = none := hO
    obtain ⟨t, es, hr, hx, haw, ht, hf, -⟩ := authenticate_timeout hw.quiet hw.field hw.timer hw.masks
      hw.depth.1 hlen hO
    refine ⟨t, es, ?_, by rw [Leaves, hO']; exact hx, haw, ht, hf⟩
    refine hr.trans ?_
    show _ = (t, Except.ok (⟨authStatusOf (s.outcomeOf (.auth (s.x .bitFraming) frame)), [], 0⟩ : TxRx))
    rw [hO]; rfl

/-- A register no exchange writes. -/
theorem Exchanged.x_other {a : Active} {en framing : Byte} {crcOver : Option (List Byte)}
    {o : LinkOutcome} (hx : Exchanged s t a en framing crcOver o) {q : Reg}
    (hq : q ∉ [Reg.command, .comIEn, .comIrq, .divIrq, .error, .status1, .status2, .control,
      .bitFraming]) : t.x q = s.x q := by
  rw [State.x, hx.cfg]
  refine hx.others _ fun hm => hq ?_
  obtain ⟨r, hr, he⟩ := List.mem_map.mp hm
  rwa [← AddressMap.addr_inj he]

/-- An answered exchange leaves the machine ready for the next operation. -/
theorem Exchanged.ready {a : Active} {en framing : Byte} {crcOver : Option (List Byte)}
    {o : LinkOutcome} (hx : Exchanged s t a en framing crcOver o) (h : s.Ready) (ha : a ≠ .calcCrc) :
    t.Ready where
  isOpen := by rw [hx.closed, h.isOpen]
  quiet := ⟨by rw [hx.rst, h.quiet.high], hx.pending, hx.crcPending⟩
  notCrc := by rw [hx.active]; cases o <;> simp [activeAfter, ha]
  preset := by rw [hx.x_other (by decide)]; exact h.preset
  lsbFirst := by rw [hx.x_other (by decide)]; exact h.lsbFirst
  timer := by simp only [tAuto]; rw [hx.x_other (by decide)]; exact h.timer
  field := by simp only [fieldOn]; rw [hx.x_other (by decide)]; exact h.field
  masks := by rw [hx.cfg]; exact h.masks
  latency := by rw [hx.cfg]; exact h.latency
  depth := by rw [hx.cfg]; exact h.depth

/-! ### The bus instructions where the bus reaches the device -/

theorem exec_writeReg_high (ho : s.ctl.closed = false) (hr : s.rst = .high) {a : Nat} (ha : a < s.cfg.map.limit)
    (d : Byte) : exec (.writeReg a d) s =
      .next (endOfTransaction (deviceWrite a d (s.emit (.bus .w a d)))) := by
  simp [exec, execWriteReg, whenOpen, ho, busWrite, Nat.not_le.mpr ha, State.emit_rst, hr]

theorem exec_readReg_high (ho : s.ctl.closed = false) (hr : s.rst = .high) {a : Nat} (ha : a < s.cfg.map.limit) :
    exec (.readReg a) s =
      .next (endOfTransaction ((deviceRead a s).2.emit (.bus .r a (deviceRead a s).1))) := by
  simp [exec, execReadReg, whenOpen, ho, busRead, Nat.not_le.mpr ha, hr]

/-- A draw: the scripted byte where one is scripted, and one more choice counted. -/
theorem State.draw_spec (s : State) : ∃ v, s.draw = (v, { s with
      oracle := { s.oracle with draws := s.oracle.draws.tail, made := s.oracle.made + 1 } }) ∧
    ∀ b bs, s.oracle.draws = b :: bs → v = b := by
  unfold State.draw
  cases h : s.oracle.draws with
  | nil => exact ⟨_, by simp only [List.tail_nil]; rw [← h], fun _ _ h => by cases h⟩
  | cons b bs => exact ⟨b, rfl, fun _ _ h => by cases h; rfl⟩

end Sys2Proof.Machine
end

