-- ==== Sys2Proof/Laws/PerInstr.lean ====
section
/-! SUPPORT. Per-instruction families: each well-formed instruction's encoding has the length its row
of the opcode table has. -/

namespace Sys2Proof.Laws.EncodeLength

/-- The encoding of a well-formed instruction has the length of its row (30_encoding.md rules R133,
R136, R142). -/
def Statement (i : Instr) : Prop := i.wellFormed = true → (encode i).size = i.size

theorem writeReg (a : Nat) (d : Byte) : Statement (.writeReg a d) := fun _ => rfl
theorem readReg (a : Nat) : Statement (.readReg a) := fun _ => rfl
theorem pcdIdle : Statement .pcdIdle := fun _ => rfl
theorem pcdCalcCrc : Statement .pcdCalcCrc := fun _ => rfl
theorem pcdTransmit : Statement .pcdTransmit := fun _ => rfl
theorem pcdReceive : Statement .pcdReceive := fun _ => rfl
theorem pcdTransceive : Statement .pcdTransceive := fun _ => rfl
theorem pcdMfAuthent : Statement .pcdMfAuthent := fun _ => rfl
theorem pcdSoftReset : Statement .pcdSoftReset := fun _ => rfl
theorem requestIdle : Statement .requestIdle := fun _ => rfl
theorem requestAll : Statement .requestAll := fun _ => rfl
theorem anticollision : Statement .anticollision := fun _ => rfl
theorem select (uid : List Byte) (cl ch : Byte) : Statement (.select uid cl ch) := by
  intro h
  simp only [Instr.wellFormed, Bool.and_eq_true, beq_iff_eq] at h
  simp [encode, Encoded.size, Instr.size, h.1]
theorem authA (b : Byte) (key uid : List Byte) : Statement (.authA b key uid) := by
  intro h
  simp only [Instr.wellFormed, Bool.and_eq_true, beq_iff_eq] at h
  simp [encode, Encoded.size, Instr.size, h.1, h.2]
theorem authB (b : Byte) (key uid : List Byte) : Statement (.authB b key uid) := by
  intro h
  simp only [Instr.wellFormed, Bool.and_eq_true, beq_iff_eq] at h
  simp [encode, Encoded.size, Instr.size, h.1, h.2]
theorem read (b cl ch : Byte) : Statement (.read b cl ch) := fun _ => rfl
theorem write (b cl ch : Byte) : Statement (.write b cl ch) := fun _ => rfl
theorem decrement (b cl ch : Byte) : Statement (.decrement b cl ch) := fun _ => rfl
theorem increment (b cl ch : Byte) : Statement (.increment b cl ch) := fun _ => rfl
theorem transfer (b cl ch : Byte) : Statement (.transfer b cl ch) := fun _ => rfl
theorem writeData (data : List Byte) (cl ch : Byte) : Statement (.writeData data cl ch) := by
  intro h
  simp only [Instr.wellFormed, Bool.and_eq_true, beq_iff_eq] at h
  simp [encode, Encoded.size, Instr.size, h.1]
theorem valueOperand (v : BitVec 32) (cl ch : Byte) : Statement (.valueOperand v cl ch) :=
  fun _ => rfl

end Sys2Proof.Laws.EncodeLength
end

