-- ==== Sys2Proof/Laws/Running.lean ====
section
/-! SUPPORT. A job in progress: its steps one by one against its run to completion. -/

namespace Sys2Proof.Machine

theorem Prog.resume_append {α : Type} (p : Prog α) (xs ys : List Byte) : p.resume (xs ++ ys) = (p.resume xs).resume ys := by
  induction p generalizing xs with
  | ret a => cases xs <;> cases ys <;> rfl
  | raise a => cases xs <;> cases ys <;> rfl
  | write a v r ih => cases xs with
    | nil => rfl
    | cons x xs => exact ih xs
  | read a r ih => cases xs with
    | nil => rfl
    | cons x xs => exact ih x xs
  | act a r ih => cases xs with
    | nil => rfl
    | cons x xs => exact ih (x :: xs)

theorem doAct_setRunning (a : Act) (s : State) (r : Option Running) :
   doAct a { s with ctl := { s.ctl with running := r } } = { doAct a s with ctl := { (doAct a s).ctl with running := r } } := by
  cases a <;> try rfl
  unfold doAct driveReset; simp only; split <;> rfl

theorem doAct_ctl_running (a : Act) (s : State) : (doAct a s).ctl.running = s.ctl.running := by
  cases a <;> try rfl
  unfold doAct driveReset; simp only; split <;> rfl

theorem Prog.run_ctl_running {α : Type} (p : Prog α) (s : State) : (p.run s).1.ctl.running = s.ctl.running := by
  induction p generalizing s with
  | ret a => rfl
  | raise e => rfl
  | write addr v rest ih => exact (ih _).trans (by rw [regWrite_ctl])
  | read addr rest ih => exact (ih _ _).trans (by rw [regRead_ctl])
  | act a rest ih => exact (ih _).trans (doAct_ctl_running _ _)

/-! No transaction and no program reads or writes `ctl.running`. -/

theorem State.draw_setRunning (r : Option Running) (s : State) : (State.setRunning r s).draw = (s.draw.1, State.setRunning r s.draw.2) := by
  unfold State.draw; cases h : s.oracle.draws <;> simp only [State.setRunning, h]
theorem State.addFault_setRunning (r : Option Running) (f : Fault) (s : State) : (State.setRunning r s).addFault f = State.setRunning r (s.addFault f) := by
  unfold State.addFault; by_cases h : f ∈ s.faults <;> simp [State.setRunning, h]
theorem askOracle_setRunning (r : Option Running) (a : Active) (f : List Byte) (s : State) : askOracle a f (State.setRunning r s) = State.setRunning r (askOracle a f s) := by
  unfold askOracle State.nextAnswer
  cases h : s.oracle.rounds <;> simp only [State.setRunning, h] <;> rfl
theorem startRound_setRunning (r : Option Running) (a : Active) (s : State) : startRound a (State.setRunning r s) = State.setRunning r (startRound a s) := by
  exact askOracle_setRunning r a s.dev.fifo (clearRoundErrors ((s.setFifo []).emit (.tx s.dev.fifo ((s.x .bitFraming).setWidth 3))))
theorem fifoPush_setRunning (r : Option Running) (v : Byte) (s : State) : fifoPush v (State.setRunning r s) = State.setRunning r (fifoPush v s) := by
  unfold fifoPush
  rw [show (State.setRunning r s).dev = s.dev from rfl, show (State.setRunning r s).cfg = s.cfg from rfl]
  by_cases h : s.dev.fifo.length < s.cfg.fifoDepth
  · rw [if_pos h, if_pos h]; rfl
  · rw [if_neg h, if_neg h]; rfl
theorem fifoPushAll_setRunning (r : Option Running) (bs : List Byte) (s : State) : fifoPushAll bs (State.setRunning r s) = State.setRunning r (fifoPushAll bs s) := by
  induction bs generalizing s with
  | nil => rfl
  | cons b bs ih => simp only [fifoPushAll, fifoPush_setRunning, ih]
theorem receiveResponse_setRunning (r : Option Running) (bs lb e) (s : State) : receiveResponse bs lb e (State.setRunning r s) = State.setRunning r (receiveResponse bs lb e s) := by
  unfold receiveResponse
  simp only
  have h1 := fifoPushAll_setRunning r bs (s.orX .comIrq rxIrq)
  rw [show (State.setRunning r s).orX .comIrq rxIrq = State.setRunning r (s.orX .comIrq rxIrq) from rfl, h1]
  generalize fifoPushAll bs (s.orX .comIrq rxIrq) = u
  have : decide ((State.setRunning r s).cfg.fifoDepth < (State.setRunning r s).dev.fifo.length + bs.length) = decide (s.cfg.fifoDepth < s.dev.fifo.length + bs.length) := rfl
  rw [this]
  cases (e != Errs.none || decide (s.cfg.fifoDepth < s.dev.fifo.length + bs.length)) <;> rfl
theorem applyOutcome_setRunning (r : Option Running) (o : LinkOutcome) (s : State) : applyOutcome o (State.setRunning r s) = State.setRunning r (applyOutcome o s) := by
  unfold applyOutcome
  simp only
  have : ((State.setRunning r s).emit (.outcome o)).dev.active = (s.emit (.outcome o)).dev.active := rfl
  rw [this]
  cases (s.emit (.outcome o)).dev.active <;> cases o <;> simp only <;> try rfl
  · exact (congrArg (fun u => ((u.setTxArmed true).orX .comIrq idleIrq).setActive .idle) (receiveResponse_setRunning r _ _ _ (s.emit _)))
  · exact (congrArg (fun u => u.setTxArmed true) (receiveResponse_setRunning r _ _ _ ((s.emit _).orX .comIrq txIrq)))
theorem processCrc_setRunning (r : Option Running) (s : State) : processCrc (State.setRunning r s) = State.setRunning r (processCrc s) := by
  unfold processCrc
  rw [show (State.setRunning r s).x .mode = s.x .mode from rfl]
  split
  · exact State.addFault_setRunning _ _ _
  · rfl
theorem endOfTransaction_setRunning (r : Option Running) (s : State) : endOfTransaction (State.setRunning r s) = State.setRunning r (endOfTransaction s) := by
  have h1 : tickPending (State.setRunning r s) = State.setRunning r (tickPending s) := by
    unfold tickPending
    rw [show (State.setRunning r s).dev.pending = s.dev.pending from rfl]
    cases s.dev.pending with
    | none => rfl
    | some p =>
      obtain ⟨a, fr⟩ := p
      cases a with
      | never => rfl
      | after c o =>
        simp only
        generalize (if fr = true then c else c - 1) = n
        by_cases hn : n = 0
        · rw [if_pos hn, if_pos hn]; exact applyOutcome_setRunning r o (s.setPending none)
        · rw [if_neg hn, if_neg hn]; rfl
  unfold endOfTransaction
  rw [h1]
  generalize tickPending s = u
  unfold tickCrc
  rw [show (State.setRunning r u).dev.crcPending = u.dev.crcPending from rfl]
  cases u.dev.crcPending with
  | none => rfl
  | some p =>
    obtain ⟨c, fr⟩ := p
    simp only
    generalize (if fr = true then c else c - 1) = n
    by_cases hn : n = 0
    · rw [if_pos hn, if_pos hn]; exact processCrc_setRunning r (u.setCrcPending none)
    · rw [if_neg hn, if_neg hn]; rfl
theorem deviceWrite_setRunning (r : Option Running) (a : Nat) (v : Byte) (s : State) : deviceWrite a v (State.setRunning r s) = State.setRunning r (deviceWrite a v s) := by
  unfold deviceWrite
  rw [show (State.setRunning r s).cfg = s.cfg from rfl]
  cases hreg : s.cfg.map.regAt a with
  | none => rfl
  | some reg =>
    cases reg <;> try rfl
    · simp only; unfold writeCommand
      cases Command.ofByte v with
      | none => exact State.addFault_setRunning _ _ _
      | some c => cases c with
        | softReset => rfl
        | start act => cases act <;> try rfl
                       · exact startRound_setRunning r _ ((terminateCommand s).setActive .transmit)
                       · exact askOracle_setRunning r _ _ (clearRoundErrors ((terminateCommand s).setActive .receive))
                       · exact startRound_setRunning r _ ((terminateCommand s).setActive .mfAuthent)
    · simp only; unfold writeFifoData; rw [fifoPush_setRunning]; simp only
      rw [show (State.setRunning r (fifoPush v s)).dev = (fifoPush v s).dev from rfl]
      split <;> rfl
    · simp only; unfold writeFifoLevel; split <;> rfl
    · simp only; unfold writeBitFraming; simp only
      rw [show ((State.setRunning r s).setX .bitFraming v).dev = ((s.setX .bitFraming v)).dev from rfl]
      split
      · exact startRound_setRunning r _ ((s.setX .bitFraming v).setTxArmed false)
      · rfl
theorem deviceRead_setRunning (r : Option Running) (a : Nat) (s : State) : deviceRead a (State.setRunning r s) = ((deviceRead a s).1, State.setRunning r (deviceRead a s).2) := by
  unfold deviceRead
  rw [show (State.setRunning r s).cfg = s.cfg from rfl]
  cases hreg : s.cfg.map.regAt a with
  | none => rfl
  | some reg =>
    cases reg <;> try rfl
    · simp only; unfold readStatus1; rw [State.draw_setRunning]; rfl
    · simp only; unfold readStatus2; rw [State.draw_setRunning]; rw [show (State.setRunning r s).dev = s.dev from rfl]; split <;> rfl
    · simp only; unfold readFifoData; rw [show (State.setRunning r s).dev = s.dev from rfl]; cases s.dev.fifo
      · exact State.draw_setRunning _ _
      · rfl
    · exact State.draw_setRunning _ _
    · exact State.draw_setRunning _ _
theorem busWrite_setRunning (r : Option Running) (a : Nat) (v : Byte) (s : State) : busWrite a v (State.setRunning r s) = State.setRunning r (busWrite a v s) := by
  unfold busWrite
  rw [show (State.setRunning r s).cfg = s.cfg from rfl]
  split
  · exact State.addFault_setRunning _ _ _
  · simp only
    rw [show ((State.setRunning r s).emit (.bus .w a v)) = State.setRunning r (s.emit (.bus .w a v)) from rfl, deviceWrite_setRunning]
    rw [show (State.setRunning r (s.emit (.bus .w a v))).rst = (s.emit (.bus .w a v)).rst from rfl]
    split <;> exact endOfTransaction_setRunning _ _
theorem busRead_setRunning (r : Option Running) (a : Nat) (s : State) : busRead a (State.setRunning r s) = ((busRead a s).1, State.setRunning r (busRead a s).2) := by
  unfold busRead
  rw [show (State.setRunning r s).cfg = s.cfg from rfl]
  split
  · rw [State.addFault_setRunning, State.draw_setRunning]
  · simp only
    rw [deviceRead_setRunning, State.draw_setRunning]
    rw [show (State.setRunning r s).rst = s.rst from rfl]
    split <;> exact Prod.ext rfl (endOfTransaction_setRunning r (State.emit _ _))

theorem regWrite_setRunning (o : Option Running) (r : Reg) (v : Byte) (s : State) :
    regWrite r v (State.setRunning o s) = State.setRunning o (regWrite r v s) :=
  busWrite_setRunning o _ v s
theorem regRead_setRunning (o : Option Running) (r : Reg) (s : State) :
    regRead r (State.setRunning o s) = ((regRead r s).1, State.setRunning o (regRead r s).2) :=
  busRead_setRunning o _ s

theorem Prog.run_setRunning {α : Type} (r : Option Running) (p : Prog α) (s : State) : p.run (State.setRunning r s) = (State.setRunning r (p.run s).1, (p.run s).2) := by
  induction p generalizing s with
  | ret a => rfl
  | raise e => rfl
  | write addr v rest ih => simp only [Prog.run, regWrite_setRunning, ih]
  | read addr rest ih => simp only [Prog.run, regRead_setRunning, ih]
  | act a rest ih => simp only [Prog.run]; rw [show doAct a (State.setRunning r s) = State.setRunning r (doAct a s) from doAct_setRunning a s r, ih]

theorem core_run_succ {s t : State} (k : Nat) (h : step s = .next t) : Host.Core.run core (k+1) s = Host.Core.run core k t := by
  refine (Host.Core.run.eq_2 core s k).trans ?_
  rw [show core.step s = Host.Outcome.next t from h]

theorem Prog.resume_nil {α : Type} (p : Prog α) : p.resume [] = p := by cases p <;> rfl

/-- The end of a program that has no transaction left is its run to completion. -/
theorem Prog.finish_run {α : Type} {p : Prog α} {s u : State} (h : p.finish s = some u) :
    (p.run s).1 = u := by
  induction p generalizing s with
  | ret a => exact Option.some.inj h
  | raise e => exact Option.some.inj h
  | write r v rest ih => exact nomatch h
  | read r rest ih => exact nomatch h
  | act a rest ih => exact ih h

/-- The state is reached in `n` steps, with a job in progress before the last of them. -/
def Goes (n : Nat) (s t : State) : Prop :=
  Host.Core.run core n s = .next t ∧
    ∀ k < n, ∃ u, Host.Core.run core k s = .next u ∧ u.ctl.running ≠ none

theorem Goes.zero (s : State) : Goes 0 s s := ⟨rfl, fun _ h => absurd h (Nat.not_lt_zero _)⟩

/-- A step that leaves a job in progress, and then the rest. -/
theorem Goes.succ {n : Nat} {s t u : State} (hr : s.ctl.running ≠ none) (h : step s = .next t)
    (k : Goes n t u) : Goes (n + 1) s u := by
  refine ⟨(core_run_succ n h).trans k.1, fun m hm => ?_⟩
  cases m with
  | zero => exact ⟨s, rfl, hr⟩
  | succ m =>
    obtain ⟨v, hv, hn⟩ := k.2 m (by omega)
    exact ⟨v, (core_run_succ m h).trans hv, hn⟩

theorem step_running {s : State} {r : Running} (h : s.ctl.running = some r) :
    step s = .next (tickJob r s) := by
  unfold step; rw [h]

/-- The transactions of a job carry its program to its end: `p` run from `s` is what is left of it. -/
theorem tickJob_goes (j : Job) (p : Prog Unit) : ∀ (s₀ s : State) (moved : List Byte),
    s.cfg = s₀.cfg →
    ((jobProg s₀.cfg j).resume moved).tick s₀ = p.tick s →
    (∀ v, (jobProg s₀.cfg j).resume (moved ++ [v]) = p.resume [v]) →
    ∃ n, Goes n (tickJob ⟨j, moved⟩ s₀) ((p.run s).1.setRunning none) := by
  -- what follows a transaction that moved `v` and left `t`, `rest` being left of the program
  have after : ∀ (rest : Prog Unit) (s₀ t : State) (moved : List Byte) (v : Byte),
      (∀ (s₀ s : State) (moved : List Byte), s.cfg = s₀.cfg →
        ((jobProg s₀.cfg j).resume moved).tick s₀ = rest.tick s →
        (∀ v, (jobProg s₀.cfg j).resume (moved ++ [v]) = rest.resume [v]) →
        ∃ n, Goes n (tickJob ⟨j, moved⟩ s₀) ((rest.run s).1.setRunning none)) →
      ((jobProg s₀.cfg j).resume moved).tick s₀ = (some v, t) → t.cfg = s₀.cfg →
      (jobProg s₀.cfg j).resume (moved ++ [v]) = rest →
      ∃ n, Goes n (tickJob ⟨j, moved⟩ s₀) ((rest.run t).1.setRunning none) := by
    intro rest s₀ t moved v ih ht hc hres
    have heq : tickJob ⟨j, moved⟩ s₀ =
        match rest.finish t with
        | some u => u.setRunning none
        | none => t.setRunning (some ⟨j, moved ++ [v]⟩) := by
      unfold tickJob; simp only; rw [ht]; simp only; rw [hres] <;> rfl
    rw [heq]
    cases hf : rest.finish t with
    | some u => rw [Prog.finish_run hf]; exact ⟨0, .zero _⟩
    | none =>
      have hc' : (t.setRunning (some ⟨j, moved ++ [v]⟩)).cfg = s₀.cfg := hc
      obtain ⟨n, hn⟩ := ih (t.setRunning (some ⟨j, moved ++ [v]⟩))
        (t.setRunning (some ⟨j, moved ++ [v]⟩)) (moved ++ [v]) rfl (by rw [hc', hres])
        (by intro w; rw [hc', Prog.resume_append, hres])
      refine ⟨n + 1, .succ (by simp [State.setRunning]) (step_running rfl) ?_⟩
      rwa [Prog.run_setRunning] at hn
  induction p with
  | ret a =>
    intro s₀ s moved hc ht hres
    refine ⟨0, ?_⟩
    unfold tickJob; simp only; rw [ht]; exact .zero _
  | raise a =>
    intro s₀ s moved hc ht hres
    refine ⟨0, ?_⟩
    unfold tickJob; simp only; rw [ht]; exact .zero _
  | write r v rest ih =>
    intro s₀ s moved hc ht hres
    exact after rest s₀ _ moved v ih ht ((regWrite_cfg r v s).trans hc)
      ((hres v).trans (Prog.resume_nil _))
  | read r rest ih =>
    intro s₀ s moved hc ht hres
    exact after (rest (regRead r s).1) s₀ _ moved _ (ih _) ht ((regRead_cfg r s).trans hc)
      ((hres _).trans (Prog.resume_nil _))
  | act a rest ih =>
    intro s₀ s moved hc ht hres
    exact ih s₀ (doAct a s) moved ((doAct_cfg a s).trans hc) ht hres

/-- A first step, and then a job carried out. -/
theorem StepsTo.of_goes {n : Nat} {s t u : State} (h : step s = .next t) (k : Goes n t u) :
    StepsTo (n + 1) s u := by
  refine ⟨(core_run_succ n h).trans k.1, fun m hm hn => ?_⟩
  obtain ⟨m, rfl⟩ := Nat.exists_eq_succ_of_ne_zero hm.ne'
  obtain ⟨v, hv, hr⟩ := k.2 m (by omega)
  exact ⟨v, (core_run_succ m h).trans hv, hr⟩

/-- A job started, and carried out one transaction a step, does what it does run whole. -/
theorem startJob_goes (j : Job) (s : State) (h : s.ctl.running = none) :
    ∃ n, Goes n (startJob j s) (runJob j s) := by
  unfold startJob runJob whenOpen
  split
  · exact ⟨0, .zero _⟩
  · obtain ⟨n, hn⟩ := tickJob_goes j (jobProg s.cfg j) (s.setAwaiting none) (s.setAwaiting none) []
      rfl (congrArg (Prog.tick · _) (Prog.resume_nil _)) (fun _ => rfl)
    refine ⟨n, ?_⟩
    have hr := (Prog.run_ctl_running (jobProg s.cfg j) (s.setAwaiting none)).trans
      (show (s.setAwaiting none).ctl.running = none from h)
    have hset : (runProg (jobProg s.cfg j) (s.setAwaiting none)).setRunning none =
        runProg (jobProg s.cfg j) (s.setAwaiting none) := by
      unfold runProg
      generalize ((jobProg s.cfg j).run (s.setAwaiting none)).1 = u at hr
      cases u; rename_i ctl _ _ _ _ _ _; cases ctl
      simp_all [State.setRunning]
    show Goes n _ (runProg (jobProg s.cfg j) (s.setAwaiting none))
    rwa [← hset]

/-! Steps and transactions (00_scope.md rule R9). -/

/-- A line of pseudocode is no transaction. -/
theorem doAct_noTransaction (a : Act) (s : State) :
    ∃ es, (doAct a s).trace = s.trace ++ es ∧ transactions es = 0 := by
  cases a with
  | releaseReset =>
    show ∃ es, (driveReset .high s).trace = _ ∧ _
    unfold driveReset
    split
    · exact ⟨[], by simp, rfl⟩
    · exact ⟨[.rst .high], rfl, rfl⟩
  | log m => exact ⟨[.log m], rfl, rfl⟩
  | returned n r => exact ⟨[.ret n r], rfl, rfl⟩
  | raised n f => exact ⟨[.raised n f], rfl, rfl⟩
  | countExhausted => exact ⟨[], by simp [doAct], rfl⟩
  | closeBus => exact ⟨[], by simp [doAct], rfl⟩
  | await w => exact ⟨[], by simp [doAct], rfl⟩

theorem Transacts.count {d : Dir} {a : Nat} {v : Byte} {s t : State} (h : Transacts d a v s t) :
    ∃ es, t.trace = s.trace ++ es ∧ transactions es = 1 := by
  obtain ⟨es, he, -, hn⟩ := h
  exact ⟨_, he, by simp [hn]⟩

/-- Carrying a program to its next transaction makes one transaction, or none where it ends. -/
theorem Prog.tick_transactions {α : Type} (p : Prog α) (s : State) :
    ∃ es, (p.tick s).2.trace = s.trace ++ es ∧
      transactions es = if (p.tick s).1.isSome then 1 else 0 := by
  induction p generalizing s with
  | ret a => exact ⟨[], (List.append_nil _).symm, rfl⟩
  | raise f => exact ⟨[], (List.append_nil _).symm, rfl⟩
  | write r v rest ih => exact (regWrite_transacts r v s).count
  | read r rest ih => exact (regRead_transacts r s).count
  | act a rest ih =>
    obtain ⟨e, he, hn⟩ := doAct_noTransaction a s
    obtain ⟨f, hf, hm⟩ := ih (doAct a s)
    refine ⟨e ++ f, ?_, ?_⟩
    · show (rest.tick (doAct a s)).2.trace = _
      rw [hf, he, List.append_assoc]
    · rw [transactions_append, hn, hm, Nat.zero_add]; rfl

theorem Prog.finish_transactions {α : Type} {p : Prog α} {s t : State} (h : p.finish s = some t) :
    ∃ es, t.trace = s.trace ++ es ∧ transactions es = 0 := by
  induction p generalizing s with
  | ret a => obtain rfl := Option.some.inj h; exact ⟨[], (List.append_nil _).symm, rfl⟩
  | raise f => obtain rfl := Option.some.inj h; exact ⟨[], (List.append_nil _).symm, rfl⟩
  | write r v rest ih => exact nomatch h
  | read r rest ih => exact nomatch h
  | act a rest ih =>
    obtain ⟨e, he, hn⟩ := doAct_noTransaction a s
    obtain ⟨f, hf, hm⟩ := ih h
    exact ⟨e ++ f, by rw [hf, he, List.append_assoc], by rw [transactions_append, hn, hm]⟩

/-- A step of a job makes at most one transaction, and exactly one if the job goes on. -/
theorem tickJob_transactions (r : Running) (s : State) :
    ∃ es, (tickJob r s).trace = s.trace ++ es ∧ transactions es ≤ 1 ∧
      ((tickJob r s).ctl.running ≠ none → transactions es = 1) := by
  unfold tickJob
  obtain ⟨e, he, hn⟩ := Prog.tick_transactions ((jobProg s.cfg r.job).resume r.moved) s
  simp only
  rcases hx : ((jobProg s.cfg r.job).resume r.moved).tick s with ⟨v, t⟩
  rw [hx] at he hn
  cases v with
  | none => exact ⟨e, he, by simp_all, fun h => absurd rfl h⟩
  | some v =>
    simp only
    cases hf : ((jobProg s.cfg r.job).resume (r.moved ++ [v])).finish t with
    | none => exact ⟨e, he, by simp_all, fun _ => by simp_all⟩
    | some u =>
      obtain ⟨f, hf, hm⟩ := Prog.finish_transactions hf
      refine ⟨e ++ f, ?_, by simp_all, fun h => absurd rfl h⟩
      show u.trace = _
      rw [hf, he, List.append_assoc]

end Sys2Proof.Machine
end

