-- ==== Sys2Proof/Tests/Slice0.lean ====
section
/-! SUPPORT. Tests. Expected values are the spec's own: the worked encodings of 30_encoding.md, the
vectors of 95_test_vectors.md and the examples of the rules, or calculated from them by hand. -/

namespace Sys2Proof.Tests

set_option maxRecDepth 100000

open Sys2Proof.Machine

/-! ### Helpers -/

/-- The state after init (70_reset_and_hazards.md rule R374), with the oracle's answers to the coming
rounds and one draw. -/
def ready (rounds : List Answer) : State :=
  { State.reset with
    rst := .high
    dev := { State.reset.dev with
      mem := [(0x11, 0x3D), (0x14, 0x83), (0x15, 0x40), (0x26, 0x70), (0x2A, 0x8D), (0x2B, 0x3E),
        (0x2D, 0x1E)] }
    oracle := ⟨rounds, [0xAB], 0⟩ }

/-- That state with a two-phase operation waiting for its second frame. -/
def waiting (w : Awaiting) (rounds : List Answer) : State := (ready rounds).setAwaiting (some w)

/-- That state with an active command and a FIFO. -/
def running (a : Active) (fifo : List Byte) (rounds : List Answer) : State :=
  { ready rounds with dev := { (ready rounds).dev with active := a, fifo := fifo } }

/-- That state with an input waiting. -/
def given (s : State) (i : Input) : State := { s with inbox := [i] }

/-- A card's reply, at once. -/
def reply (bytes : List Byte) (lastBits : BitVec 3) : Answer := .after 0 (.resp bytes lastBits Errs.none)

/-- `RESP([0A], 4, {})`. -/
def acked : Answer := reply [0x0A] 4

/-- `RESP([04], 4, {})`. -/
def nak : Answer := reply [0x04] 4

/-- The bytes 00 to 0F. -/
def sixteen : List Byte :=
  [0x00, 0x01, 0x02, 0x03, 0x04, 0x05, 0x06, 0x07, 0x08, 0x09, 0x0A, 0x0B, 0x0C, 0x0D, 0x0E, 0x0F]

def keyFF : List Byte := [0xFF, 0xFF, 0xFF, 0xFF, 0xFF, 0xFF]
def uid5 : List Byte := [0xDE, 0xAD, 0xBE, 0xEF, 0x22]
def uid4 : List Byte := [0xDE, 0xAD, 0xBE, 0xEF]
def authFrame : List Byte := [0x60, 0x04] ++ keyFF ++ uid4

/-- What is seen of a next state. -/
def seen {α : Type} (f : State → α) : Host.Outcome State Fault Refusal → Option α
  | .next t => some (f t)
  | .fault _ => none
  | .refused _ => none

/-- The frames sent, and the operation's own events. -/
def sent (t : State) : List (List Byte × BitVec 3) × List Event := (txFrames t.trace, ownEvents t.trace)

/-- The next state of an outcome that has one. -/
def after : Host.Outcome State Fault Refusal → State
  | .next t => t
  | .fault _ => State.reset
  | .refused _ => State.reset

/-! ### Well-formedness: each check refuses an ill-formed term -/

theorem test_illFormed_writeReg_address : (Instr.writeReg 0x40 0x00).wellFormed = false := by
  decide
theorem test_illFormed_readReg_address : (Instr.readReg 0x40).wellFormed = false := by
  decide
theorem test_illFormed_select_length : (Instr.select uid4 0xB9 0x9C).wellFormed = false := by
  decide
theorem test_illFormed_select_crc : (Instr.select uid5 0xB9 0x9D).wellFormed = false := by
  decide
theorem test_illFormed_authA_key : (Instr.authA 0x04 uid5 uid4).wellFormed = false := by
  decide
theorem test_illFormed_authA_uid : (Instr.authA 0x04 keyFF uid5).wellFormed = false := by
  decide
theorem test_illFormed_authB_key : (Instr.authB 0x04 uid5 uid4).wellFormed = false := by
  decide
theorem test_illFormed_authB_uid : (Instr.authB 0x04 keyFF uid5).wellFormed = false := by
  decide
theorem test_illFormed_read_crc : (Instr.read 0x04 0xEE 0x26).wellFormed = false := by
  decide
theorem test_illFormed_write_crc : (Instr.write 0x04 0xF7 0x7B).wellFormed = false := by
  decide
theorem test_illFormed_decrement_crc : (Instr.decrement 0x05 0x83 0xA7).wellFormed = false := by
  decide
theorem test_illFormed_increment_crc : (Instr.increment 0x05 0x9A 0x7F).wellFormed = false := by
  decide
theorem test_illFormed_transfer_crc : (Instr.transfer 0x05 0x73 0x63).wellFormed = false := by
  decide
theorem test_illFormed_writeData_length :
    (Instr.writeData keyFF 0x77 0xF5).wellFormed = false := by decide
theorem test_illFormed_writeData_crc :
    (Instr.writeData sixteen 0xF5 0x77).wellFormed = false := by decide
theorem test_illFormed_valueOperand_crc : (Instr.valueOperand 1 0x4A 0xBB).wellFormed = false := by
  decide

/-! ### Decoding: a word of every row, from the spec's encoding

Bus words are written in bits: `r`, six address bits, `0`, eight data bits (30_encoding.md rule R130).
A longer row's word has its first byte lowest. -/

theorem test_decode_writeReg :
    decodeTableWord 16 0b0000001000001100 = some (.writeReg 0x01 0x0C) := by decide
theorem test_decode_readReg : decodeTableWord 16 0b1000001000000000 = some (.readReg 0x01) := by decide
theorem test_decode_readReg_last : decodeTableWord 16 0b1111111000000000 = some (.readReg 0x3F) := by
  decide
theorem test_decode_badFrame : decode (.bus 0b10000011 0x00) = .reject (.badFrame 0x83) := by decide
theorem test_decode_pcdIdle : decodeTableWord 8 0b00000000 = some .pcdIdle := by decide
theorem test_decode_pcdCalcCrc : decodeTableWord 8 0b00000011 = some .pcdCalcCrc := by decide
theorem test_decode_pcdTransmit : decodeTableWord 8 0b00000100 = some .pcdTransmit := by decide
theorem test_decode_pcdReceive : decodeTableWord 8 0b00001000 = some .pcdReceive := by decide
theorem test_decode_pcdTransceive : decodeTableWord 8 0b00001100 = some .pcdTransceive := by decide
theorem test_decode_pcdMfAuthent : decodeTableWord 8 0b00001110 = some .pcdMfAuthent := by decide
theorem test_decode_pcdSoftReset : decodeTableWord 8 0b00001111 = some .pcdSoftReset := by decide
theorem test_decode_reservedCommand : decode (.command 0b00000001) = .reject (.noCommand 0x01) := by
  decide
theorem test_decode_requestIdle : decodeTableWord 8 0x26 = some .requestIdle := by decide
theorem test_decode_requestAll : decodeTableWord 8 0x52 = some .requestAll := by decide
theorem test_decode_anticollision : decodeTableWord 16 0x9320 = some .anticollision := by decide
theorem test_decode_select :
    decodeTableWord 72 0x9CB922EFBEADDE7093 = some (.select uid5 0xB9 0x9C) := by decide
theorem test_decode_authA :
    decodeTableWord 96 0xEFBEADDEFFFFFFFFFFFF0460 = some (.authA 0x04 keyFF uid4) := by decide
theorem test_decode_authB :
    decodeTableWord 96 0xEFBEADDEFFFFFFFFFFFF0761 = some (.authB 0x07 keyFF uid4) := by decide
theorem test_decode_read : decodeTableWord 32 0xEE260430 = some (.read 0x04 0x26 0xEE) := by
  decide
theorem test_decode_write : decodeTableWord 32 0xF77B04A0 = some (.write 0x04 0x7B 0xF7) := by
  decide
theorem test_decode_decrement :
    decodeTableWord 32 0x83A705C0 = some (.decrement 0x05 0xA7 0x83) := by decide
theorem test_decode_increment :
    decodeTableWord 32 0x9A7F05C1 = some (.increment 0x05 0x7F 0x9A) := by decide
theorem test_decode_transfer :
    decodeTableWord 32 0x736305B0 = some (.transfer 0x05 0x63 0x73) := by decide
theorem test_decode_writeData :
    decodeTableWord 144 0xF5770F0E0D0C0B0A09080706050403020100 =
      some (.writeData sixteen 0x77 0xF5) := by decide
theorem test_decode_valueOperand :
    decodeTableWord 48 0xA599FFFFFFFF = some (.valueOperand 0xFFFFFFFF 0x99 0xA5) := by decide
theorem test_decode_noFrame : decode (.frame [0x50, 0x00]) = .reject (.noFrame [0x50, 0x00]) := by decide

/-! ### The CRC generator (42_crc.md rule R230; 95_test_vectors.md section 2.1) -/

theorem test_crc_check :
    crc16 0x6363 [0x31, 0x32, 0x33, 0x34, 0x35, 0x36, 0x37, 0x38, 0x39] = 0xBF05 := by decide
theorem test_crc_read : crcSuffix [0x30, 0x04] = [0x26, 0xEE] := by decide
theorem test_crc_negative_operand : crcSuffix [0xFF, 0xFF, 0xFF, 0xFF] = [0x99, 0xA5] := by
  decide

/-! ### Bus instructions -/

/-- `W ComIrqReg 0x7F` clears all seven bits (41_device_commands.md rule R204). -/
theorem test_writeReg_clears_comIrq :
    seen (fun t => (t.x .comIrq, t.trace)) (exec (.writeReg 0x04 0x7F) (ready [])) =
      some (0x00, [.bus .w 0x04 0x7F]) := by decide

/-- A push into a full FIFO loses the byte (41_device_commands.md rule R200). -/
theorem test_writeReg_overflow :
    seen (fun t => (t.dev.fifo.length, t.x .error, t.x .comIrq))
        (exec (.writeReg 0x09 0x55) (running .idle (List.replicate 64 0x11) [])) =
      some (64, 0x10, 0x16) := by decide

/-- The read of init's antenna_on (95_test_vectors.md program P5, second time round). -/
theorem test_readReg_txControl :
    seen (fun t => t.trace) (exec (.readReg 0x14) (ready [])) = some [.bus .r 0x14 0x83] := by
  decide

/-- A read pops the first byte in (41_device_commands.md rule R201). -/
theorem test_readReg_fifo :
    seen (fun t => (t.dev.fifo, t.trace)) (exec (.readReg 0x09) (running .idle [0x30, 0x04] [])) =
      some ([0x04], [.bus .r 0x09 0x30]) := by decide

/-- A byte 0 with bit 0 set only faults (30_encoding.md rule R131). -/
theorem test_step_badFrame :
    seen (fun t => (t.faults, t.trace)) (step (given (ready []) (.word (.bus 0x83 0x00)))) =
      some ([.badFrame 0x83], []) := by decide

/-! ### PCD commands -/

/-- The example of 41_device_commands.md rule R184. -/
theorem test_pcdIdle_drops_the_outcome :
    seen (fun t => (t.dev.active, t.dev.pending))
        (exec .pcdIdle ((running .transceive [] []).setPending (some ⟨.never, false⟩))) =
      some (.idle, none) := by decide

/-- compute_crc([30 00]) gives A802 (95_test_vectors.md program P1). -/
theorem test_pcdCalcCrc :
    seen (fun t => (t.dev.crcResult, t.dev.fifo, t.x .divIrq))
        (exec .pcdCalcCrc (running .idle [0x30, 0x00] [])) = some (0xA802, [], 0x04) := by
  decide

/-- TX_DONE sets TxIRq and IdleIRq (41_device_commands.md rule R196). -/
theorem test_pcdTransmit :
    seen (fun t => (t.x .comIrq, t.dev.active, txFrames t.trace))
        (exec .pcdTransmit (running .idle [0x26] [.after 0 .txDone])) =
      some (0x54, .idle, [([0x26], 0)]) := by decide

/-- RESP while Receive is active (41_device_commands.md rule R197). -/
theorem test_pcdReceive :
    seen (fun t => (t.x .comIrq, t.x .control, t.dev.fifo, t.dev.txArmed))
        (exec .pcdReceive (running .idle [0x01] [acked])) =
      some (0x34, 0x14, [0x01, 0x0A], true) := by decide

/-- Transceive waits for StartSend (41_device_commands.md rule R188). -/
theorem test_pcdTransceive :
    seen (fun t => (t.dev.active, t.dev.txArmed, t.dev.pending, t.x .command))
        (exec .pcdTransceive (ready [])) = some (.transceive, true, none, 0x00) := by decide

/-- AUTH_OK on a 12-byte frame (41_device_commands.md rule R195). -/
theorem test_pcdMfAuthent :
    seen (fun t => (t.x .status2, t.x .comIrq, t.dev.active))
        (exec .pcdMfAuthent (running .idle authFrame [.after 0 .authOk])) =
      some (0x08, 0x14, .idle) := by decide

/-- With eleven bytes AUTH_OK is not admitted (41_device_commands.md rule R198). -/
theorem test_pcdMfAuthent_short :
    seen (fun t => (t.x .status2, t.dev.pending))
        (exec .pcdMfAuthent (running .idle (authFrame.drop 1) [.after 0 .authOk])) =
      some (0x00, some ⟨.never, false⟩) := by decide

/-- The reset values are back (41_device_commands.md rule R190). -/
theorem test_pcdSoftReset :
    seen (fun t => (t.x .command, t.x .mode, t.x .comIrq, t.rst)) (exec .pcdSoftReset (ready [])) =
      some (0x20, 0x3F, 0x14, .high) := by decide

/-! ### PICC frames (95_test_vectors.md section 6.2) -/

theorem test_requestIdle :
    seen sent (exec .requestIdle (ready [reply [0x04, 0x00] 0])) =
      some ([([0x26], 7)], [.ret .request (.statusBits .ok 16)]) := by decide

theorem test_requestIdle_silent :
    seen sent (exec .requestIdle (ready [.after 0 .noResp])) =
      some ([([0x26], 7)], [.ret .request (.statusBits .error 0)]) := by decide

theorem test_requestAll :
    seen sent (exec .requestAll (ready [reply [0x44, 0x00] 0])) =
      some ([([0x52], 7)], [.ret .request (.statusBits .ok 16)]) := by decide

theorem test_anticollision :
    seen sent (exec .anticollision (ready [reply uid5 0])) =
      some ([([0x93, 0x20], 0)], [.ret .anticollision (.statusUid .ok uid5)]) := by decide

theorem test_anticollision_badBcc :
    seen sent (exec .anticollision (ready [reply [0xDE, 0xAD, 0xBE, 0xEF, 0x23] 0])) =
      some ([([0x93, 0x20], 0)],
        [.ret .anticollision (.statusUid .error [0xDE, 0xAD, 0xBE, 0xEF, 0x23])]) := by decide

theorem test_select :
    seen sent (exec (.select uid5 0xB9 0x9C) (ready [reply [0x08, 0xB6, 0xDD] 0])) =
      some ([([0x93, 0x70, 0xDE, 0xAD, 0xBE, 0xEF, 0x22, 0xB9, 0x9C], 0)],
        [.ret .select (.size 0x08)]) := by decide

theorem test_select_short :
    seen sent (exec (.select uid5 0xB9 0x9C) (ready [reply [0x08, 0xB6] 0])) =
      some ([([0x93, 0x70, 0xDE, 0xAD, 0xBE, 0xEF, 0x22, 0xB9, 0x9C], 0)],
        [.ret .select (.size 0x00)]) := by decide

theorem test_authA :
    seen (fun t => (sent t, t.x .status2)) (exec (.authA 0x04 keyFF uid4) (ready [.after 0 .authOk])) =
      some (([(authFrame, 0)], [.ret .authenticate (.status .ok)]), 0x08) := by decide

theorem test_authB :
    seen sent (exec (.authB 0x07 keyFF uid4) (ready [.after 0 (.authErr Errs.protocolOnly)])) =
      some ([([0x61, 0x07] ++ keyFF ++ uid4, 0)],
        [.log (.authenticationFailed 0x07), .ret .authenticate (.status .error)]) := by decide

theorem test_read :
    seen sent (exec (.read 0x04 0x26 0xEE) (ready [reply (sixteen ++ [0x77, 0xF5]) 0])) =
      some ([([0x30, 0x04, 0x26, 0xEE], 0)], [.ret .read (.data sixteen)]) := by decide

theorem test_read_silent :
    seen sent (exec (.read 0x04 0x26 0xEE) (ready [.after 0 .noResp])) =
      some ([([0x30, 0x04, 0x26, 0xEE], 0)], [.log (.readFailed 0x04), .ret .read (.noData .noTag)]) := by
  decide

theorem test_write_acknowledged :
    seen (fun t => (sent t, t.ctl.awaiting)) (exec (.write 0x07 0xE0 0xC5) (ready [acked])) =
      some (([([0xA0, 0x07, 0xE0, 0xC5], 0)], [.log .writingSectorTrailer]), some (.writeData 0x07)) := by
  decide

theorem test_write_refused_by_card :
    seen (fun t => (sent t, t.ctl.awaiting)) (exec (.write 0x04 0x7B 0xF7) (ready [nak])) =
      some (([([0xA0, 0x04, 0x7B, 0xF7], 0)],
        [.log (.writeCommandNotAcknowledged 0x04), .ret .write (.status .error)]), none) := by
  decide

theorem test_writeData :
    seen sent (exec (.writeData sixteen 0x77 0xF5) (waiting (.writeData 0x04) [acked])) =
      some ([(sixteen ++ [0x77, 0xF5], 0)], [.ret .write (.status .ok)]) := by decide

theorem test_writeData_out_of_position :
    exec (.writeData sixteen 0x77 0xF5) (waiting (.incrementOperand 0x04) [acked]) =
      .refused .noFirstPhase := rfl

theorem test_decrement :
    seen (fun t => (sent t, t.ctl.awaiting)) (exec (.decrement 0x05 0xA7 0x83) (ready [acked])) =
      some (([([0xC0, 0x05, 0xA7, 0x83], 0)], []), some (.decrementOperand 0x05)) := by decide

theorem test_increment :
    seen (fun t => (sent t, t.ctl.awaiting)) (exec (.increment 0x05 0x7F 0x9A) (ready [acked])) =
      some (([([0xC1, 0x05, 0x7F, 0x9A], 0)], []), some (.incrementOperand 0x05)) := by decide

theorem test_valueOperand_silent :
    seen sent (exec (.valueOperand 1 0xBB 0x4A) (waiting (.incrementOperand 0x05) [.after 0 .noResp])) =
      some ([([0x01, 0x00, 0x00, 0x00, 0xBB, 0x4A], 0)], [.ret .increment (.status .ok)]) := by
  decide

theorem test_valueOperand_refused_by_card :
    seen sent (exec (.valueOperand 1 0xBB 0x4A) (waiting (.decrementOperand 0x05) [nak])) =
      some ([([0x01, 0x00, 0x00, 0x00, 0xBB, 0x4A], 0)],
        [.log (.decrementOperandRejected 0x05), .ret .decrement (.status .error)]) := by decide

theorem test_transfer :
    seen sent (exec (.transfer 0x05 0x63 0x73) (ready [acked])) =
      some ([([0xB0, 0x05, 0x63, 0x73], 0)], [.ret .transfer (.status .ok)]) := by decide

theorem test_transfer_silent :
    seen sent (exec (.transfer 0x05 0x63 0x73) (ready [.after 0 .noResp])) =
      some ([([0xB0, 0x05, 0x63, 0x73], 0)],
        [.log (.transferNotAcknowledged 0x05), .ret .transfer (.status .error)]) := by decide

/-! ### Tasks and helpers -/

/-- 95_test_vectors.md program P5. -/
theorem test_init :
    runTask .init { State.reset with oracle := ⟨[], [0xAB], 0⟩ } =
      { ready [] with trace := [.rst .high, .bus .w 0x01 0x0F, .bus .w 0x2A 0x8D, .bus .w 0x2B 0x3E,
          .bus .w 0x2D 0x1E, .bus .w 0x2C 0x00, .bus .w 0x15 0x40, .bus .w 0x11 0x3D, .bus .w 0x26 0x70,
          .bus .r 0x14 0x80, .bus .w 0x14 0x83, .ret .antennaOn .unit, .ret .init .unit] } := by
  decide

/-- 95_test_vectors.md section 7.1. -/
theorem test_value_block :
    formatValueBlock (-5) 5 =
      .ok [0xFB, 0xFF, 0xFF, 0xFF, 0x04, 0x00, 0x00, 0x00, 0xFB, 0xFF, 0xFF, 0xFF, 0x05, 0xFA, 0x05, 0xFA] :=
  by rfl

/-- 95_test_vectors.md section 7.2. -/
theorem test_uid_strings :
    hexToUid ['d', 'e', 'a', 'd', 'b', 'e', 'e', 'f'] = .ok uid5 ∧
      uidToHex uid5 = .ok ['D', 'E', 'A', 'D', 'B', 'E', 'E', 'F'] := ⟨by rfl, by rfl⟩

/-! ### Witnesses: the hypotheses of the statements are met -/

/-- The state after init is ready. -/
theorem ready_ready (rounds : List Answer) : (ready rounds).Ready where
  isOpen := rfl
  quiet := ⟨rfl, rfl, rfl⟩
  notCrc := nofun
  preset := (by decide : crcPreset (((ready []).x .mode).setWidth 2) = 0x6363)
  lsbFirst := (by decide : ((ready []).x .mode).getLsbD 7 = false)
  timer := (by decide : tAuto (ready []) = true)
  field := (by decide : fieldOn (ready []) = true)
  masks := ⟨rfl, rfl, rfl, rfl, rfl, rfl, rfl, rfl⟩
  latency := (by decide : (ready []).cfg.crcLatency ≤ 254)
  depth := (by decide : 18 ≤ (ready []).cfg.fifoDepth ∧ (ready []).cfg.fifoDepth < 128)

theorem waiting_ready (w : Awaiting) (rounds : List Answer) : (waiting w rounds).Ready :=
  { ready_ready rounds with quiet := ⟨rfl, rfl, rfl⟩ }

theorem ready_inv : (ready []).Inv :=
  ⟨by decide, ⟨by decide, by decide, by decide, by decide, by decide, by decide⟩, nofun, by decide⟩

theorem witness_DecodeOfEncode :
    (Instr.writeReg 0x00 0xFF).wellFormed = true ∧ (Instr.readReg 0x3F).wellFormed = true ∧
      Instr.pcdIdle.wellFormed = true ∧ Instr.requestIdle.wellFormed = true ∧
      (Instr.select uid5 0xB9 0x9C).wellFormed = true ∧ (Instr.authA 0x00 keyFF uid4).wellFormed = true ∧
      (Instr.authB 0xFF keyFF uid4).wellFormed = true ∧ (Instr.read 0x04 0x26 0xEE).wellFormed = true ∧
      (Instr.write 0x04 0x7B 0xF7).wellFormed = true ∧
      (Instr.decrement 0x05 0xA7 0x83).wellFormed = true ∧
      (Instr.increment 0x05 0x7F 0x9A).wellFormed = true ∧
      (Instr.transfer 0x05 0x63 0x73).wellFormed = true ∧
      (Instr.writeData sixteen 0x77 0xF5).wellFormed = true ∧
      (Instr.valueOperand 0xFFFFFFFF 0x99 0xA5).wellFormed = true := by decide

theorem witness_EncodeOfDecode :
    decode (.bus 0x82 0x00) = .instr (.readReg 0x01) ∧ decode (.bus 0x82 0x55) = .instr (.readReg 0x01) ∧
      decode (.frame [0x26]) = .instr .requestIdle := by decide

theorem witness_BusFrameAssembly :
    (0x00 ≤ 0x3F ∧ 0x3F ≤ 0x3F) ∧
    ((0x7E#8).getLsbD 0 = false ∧ (0x7E#8).getLsbD 7 = false) ∧
    ((0xFE#8).getLsbD 0 = false ∧ (0xFE#8).getLsbD 7 = true) ∧
    ((0x01#8).getLsbD 0 = true ∧ (given (ready []) (.word (.bus 0x01 0x00))).ctl.running = none ∧
      (given (ready []) (.word (.bus 0x01 0x00))).inbox = [.word (.bus 0x01 0x00)]) := by decide

/-- A byte list of each kind of frame, and one of each length that is none. -/
theorem witness_OtherFramesAreRefused :
    FrameOfTable [0x52] ∧ FrameOfTable ([0x93, 0x70] ++ uid5 ++ [0xB9, 0x9C]) ∧
      FrameOfTable authFrame ∧ FrameOfTable [0xB0, 0x05, 0x63, 0x73] ∧
      FrameOfTable (sixteen ++ [0x77, 0xF5]) ∧ FrameOfTable [0x00, 0x00, 0x00, 0x00, 0x00, 0x00] ∧
      ¬FrameOfTable [] ∧ ¬FrameOfTable [0x50, 0x00] ∧ ¬FrameOfTable [0x50, 0x00, 0x57, 0xCD] ∧
      ¬FrameOfTable sixteen ∧
      (given (ready []) (.word (.frame [0x50, 0x00]))).ctl.running = none ∧
      (given (ready []) (.word (.frame [0x50, 0x00]))).inbox = [.word (.frame [0x50, 0x00])] := by
  refine ⟨?_, ?_, ?_, ?_, ?_, ?_, ?_, ?_, ?_, ?_, rfl, rfl⟩ <;> unfold FrameOfTable <;> decide

/-- One instruction that makes no exchange, and one that makes one. -/
theorem witness_StepRunsDecoded :
    let s := given (ready []) (.word (.command 0x0C))
    let u := given (ready [reply [0x04, 0x00] 0]) (.word (.frame [0x26]))
    (s.ctl.running = none ∧ s.inbox = [.word (.command 0x0C)] ∧
        decode (.command 0x0C) = .instr .pcdTransceive ∧ s.exchangeOf .pcdTransceive = none) ∧
      (u.ctl.running = none ∧ u.inbox = [.word (.frame [0x26])] ∧
        decode (.frame [0x26]) = .instr .requestIdle ∧ u.exchangeOf .requestIdle ≠ none) :=
  ⟨⟨rfl, rfl, by decide, rfl⟩, rfl, rfl, by decide, nofun⟩

theorem witness_PlacedWordRuns :
    (decodeTableWord 16 0x820 = some (.writeReg 0x04 0x20) ∧
        (ready []).exchangeOf (.writeReg 0x04 0x20) = none) ∧
      decodeTableWord 144 0 = some (.writeData (List.replicate 16 0x00) 0x00 0x00) ∧
      (waiting (.writeData 0) []).exchangeOf (.writeData (List.replicate 16 0x00) 0x00 0x00) ≠ none ∧
      decodeTableWord 48 0 = some (.valueOperand 0 0x00 0x00) ∧
      (waiting (.incrementOperand 0) []).exchangeOf (.valueOperand 0 0x00 0x00) ≠ none :=
  ⟨⟨by decide, rfl⟩, by decide, nofun, by decide, nofun⟩

theorem witness_EndOfTransactionRule :
    ((ready []).dev.pending = none ∧ (ready []).dev.crcPending = none) ∧
    (∀ p : Pending, ((running .transceive [] []).setPending (some p)).dev.pending = some p ∧
      ((running .transceive [] []).setPending (some p)).dev.crcPending = none) ∧
    (∀ c : CrcPending, ((running .calcCrc [] []).setCrcPending (some c)).dev.crcPending = some c ∧
      ((running .calcCrc [] []).setCrcPending (some c)).dev.pending = none) :=
  ⟨⟨rfl, rfl⟩, fun _ => ⟨rfl, rfl⟩, fun _ => ⟨rfl, rfl⟩⟩

theorem witness_BadAddressIsSticky :
    (ready []).ctl.closed = false ∧ 2 ^ (ready []).cfg.map.width ≤ 0x40 := by decide

theorem witness_HeldInReset :
    State.reset.Inv ∧ State.reset.ctl.closed = false ∧ State.reset.rst = .low ∧
      0x3F < State.reset.cfg.map.limit :=
  ⟨⟨by decide, ⟨by decide, by decide, by decide, by decide, by decide, by decide⟩, fun _ => rfl,
    by decide⟩, rfl, rfl, by decide⟩

/-- For every statement about one bus transaction or one PCD command: the bus reaches the device. -/
theorem witness_bus_reaches_the_device :
    (ready []).ctl.closed = false ∧ (ready []).rst = .high := by decide

theorem witness_StorageRegisters :
    let m := (ready []).cfg.map
    isStorage m 0x00 = true ∧ isStorage m 0x3F = true ∧ isStorage m 0x02 = true ∧
      isStorage m 0x0D = false ∧ isStorage m 0x40 = false ∧ (ready []).addr .bitFraming = 0x0D := by
  decide

theorem witness_ReadOnlyRegisters : (ready []).oracle.draws = 0xAB :: [] := rfl

theorem witness_Status2Register :
    (ready []).dev.active = .idle ∧ (running .transceive [] []).dev.active ≠ .idle ∧
      (running .transceive [] []).ctl.closed = false ∧ (running .transceive [] []).rst = .high := by
  decide

theorem witness_FifoRegisters :
    (running .idle [0x30] []).dev.fifo = 0x30 :: [] ∧ (ready []).dev.fifo = [] ∧
      (0x80#8).getLsbD 7 = true ∧ (0x7F#8).getLsbD 7 = false ∧
      (running .idle (List.replicate 127 0x00) []).dev.fifo.length < 128 ∧
      128 ≤ (running .idle (List.replicate 128 0x00) []).dev.fifo.length := by decide

theorem witness_ReadsChangeTheFifoAlone :
    0x00 < (ready []).cfg.map.limit ∧ (ready []).addr .fifoData < (ready []).cfg.map.limit ∧
      0x3F < (ready []).cfg.map.limit := by decide

theorem witness_StartSendStartsTheRound :
    let s := (running .transceive [0x26] []).setTxArmed true
    (s.ctl.closed = false ∧ s.rst = .high) ∧
      ((0x80#8).getLsbD 7 = true ∧ s.dev.active = .transceive ∧ s.dev.txArmed = true) ∧
      ¬((0x7F#8).getLsbD 7 = true ∧ s.dev.active = .transceive ∧ s.dev.txArmed = true) := by decide

theorem witness_ReservedCommandsFault :
    (0x10#8).extractLsb 7 4 ≠ 0 ∧ (0x80#8).extractLsb 7 4 ≠ 0 ∧
      (0x01#8).extractLsb 3 0 ∈ [0x1#4, 0x2#4, 0x5#4, 0x6#4, 0x7#4, 0x9#4, 0xA#4, 0xB#4, 0xD#4] ∧
      (0x0D#8).extractLsb 3 0 ∈ [0x1#4, 0x2#4, 0x5#4, 0x6#4, 0x7#4, 0x9#4, 0xA#4, 0xB#4, 0xD#4] ∧
      (given (ready []) (.word (.command 0x0D))).ctl.running = none ∧
      (given (ready []) (.word (.command 0x0D))).inbox = [.word (.command 0x0D)] := by
  decide

/-- An outcome each command admits from the state after init with CommandReg bit 5 clear, and one it
does not; and the reset values, with the antenna off and TAuto = 0. -/
theorem witness_AdmissibleOutcomes :
    let s := (ready []).setX .command 0x00
    ((s.x .txControl).extractLsb 1 0 ≠ 0 ∧ (s.x .command).getLsbD 5 = false ∧
      (s.x .tMode).getLsbD 7 = true ∧ authFrame.length = 12) ∧
    ((authFrame.drop 1).length ≠ 12 ∧ ([] : List Byte) = [] ∧ Errs.protocolOnly ≠ Errs.none) ∧
    (¬(State.reset.x .txControl).extractLsb 1 0 ≠ 0 ∧ ¬(State.reset.x .tMode).getLsbD 7 = true ∧
      Active.mfAuthent ≠ .transmit) := by
  decide

theorem witness_ResponseOutcomes :
    ((running .transceive [] []).dev.active = .transceive ∧
      (running .receive (List.replicate 64 0x00) []).dev.active = .receive) ∧
      (running .receive (List.replicate 64 0x00) []).dev.fifo.length ≤
        (running .receive (List.replicate 64 0x00) []).cfg.fifoDepth := by decide

theorem witness_OutcomesWithoutBytes (a : Active) : (running a [] []).dev.active = a := rfl

theorem witness_CrcGeneratorLaws :
    ([0x30, 0x04] : List Byte).length = ([0x93, 0x70] : List Byte).length ∧
      ([] : List Byte).length = ([] : List Byte).length := by decide

theorem witness_CrcProcessingApplies :
    let s := (running .calcCrc [0x30] []).setCrcPending (some ⟨1, false⟩)
    let n := (running .calcCrc [0x30] []).setCrcPending (some ⟨0, true⟩)
    let m := s.setX .mode 0x80
    (s.dev.pending = none ∧ s.dev.crcPending = some ⟨1, false⟩ ∧ (s.x .mode).getLsbD 7 = false) ∧
      (n.dev.pending = none ∧ n.dev.crcPending = some ⟨0, true⟩ ∧ (n.x .mode).getLsbD 7 = false) ∧
      (m.dev.pending = none ∧ m.dev.crcPending = some ⟨1, false⟩ ∧ (m.x .mode).getLsbD 7 = true) := by
  decide

/-- That state with another CRC latency. -/
def slow (a : Active) (latency : Nat) : State :=
  { running a [] [] with cfg := { defaultConfig with crcLatency := latency } }

theorem slow_quiet (a : Active) (latency : Nat) : (slow a latency).Quiet := ⟨rfl, rfl, rfl⟩

theorem witness_ComputeCrcReturnsTheCrc :
    (slow .idle 254).ctl.closed = false ∧ (slow .idle 254).Quiet ∧ (slow .idle 254).dev.active ≠ .calcCrc ∧
      ((slow .idle 254).x .mode).getLsbD 7 = false ∧ (slow .idle 254).cfg.crcLatency ≤ 254 ∧
      (List.replicate 64 (0x00 : Byte)).length ≤ (slow .idle 254).cfg.fifoDepth :=
  ⟨rfl, slow_quiet _ _, nofun, by decide, by decide, by decide⟩

theorem witness_ComputeCrcPastTheBudget :
    (slow .idle 255).ctl.closed = false ∧ (slow .idle 255).Quiet ∧ (slow .idle 255).dev.active ≠ .calcCrc ∧
      ((slow .idle 255).x .mode).getLsbD 7 = false ∧ 255 ≤ (slow .idle 255).cfg.crcLatency ∧
      ([] : List Byte).length ≤ (slow .idle 255).cfg.fifoDepth :=
  ⟨rfl, slow_quiet _ _, nofun, by decide, by decide, by decide⟩

theorem witness_ComputeCrcReentered :
    (slow .calcCrc 0).ctl.closed = false ∧ (slow .calcCrc 0).Quiet ∧
      (slow .calcCrc 0).dev.active = .calcCrc ∧ ((slow .calcCrc 0).x .mode).getLsbD 7 = false ∧
      (slow .calcCrc 0).cfg.crcLatency = 0 ∧ ([0x30] : List Byte) ≠ [] ∧
      1 ≤ (slow .calcCrc 0).cfg.fifoDepth :=
  ⟨rfl, slow_quiet _ _, rfl, by decide, rfl, by decide, by decide⟩

/-- The premises on the state are parts of `Ready`; the last poll read that can match is d = 1999. -/
theorem witness_TransceiveResultAndCost :
    let s := ready [.after 1999 .noResp]
    let u := ready [.after 1999 .authOk]
    s.Ready ∧ u.Ready ∧ ([] : List Byte).length ≤ s.cfg.fifoDepth ∧ authFrame.length = 12 ∧
      s.answerTo .transceive [] (Exchange.plain (s.x .bitFraming) []).lastBits = .after 1999 .noResp ∧
      s.outcomeOf (.plain (s.x .bitFraming) []) = some .noResp ∧
      u.answerTo .mfAuthent authFrame (Exchange.auth (u.x .bitFraming) authFrame).lastBits =
        .after 1999 .authOk ∧
      u.outcomeOf (.auth (u.x .bitFraming) authFrame) = some .authOk ∧
      (ready [.after 2000 .noResp]).outcomeOf (.plain 0x00 []) = none :=
  ⟨ready_ready _, ready_ready _, by decide, by decide, rfl, rfl, rfl, rfl, rfl⟩

/-- For every statement about a PICC frame: the state after init, whatever the oracle answers next. -/
theorem witness_frames_run (w : Awaiting) (rounds : List Answer) :
    (ready rounds).Ready ∧ (waiting w rounds).Ready ∧ (waiting w rounds).ctl.awaiting = some w :=
  ⟨ready_ready rounds, waiting_ready w rounds, rfl⟩

/-- The four ways an unanswered round ends: a late outcome at the first and the last transaction it can
apply in, one still pending after the task, and none. -/
theorem witness_late_outcomes :
    lateOutcome .transceive (.after 2000 .noResp) = some .noResp ∧
      lateOutcome .mfAuthent (.after 2002 .authOk) = some .authOk ∧
      stillPending .mfAuthent (.after 2002 .authOk) = none ∧
      lateOutcome .transceive (.after 2003 .noResp) = none ∧
      stillPending .transceive (.after 2003 .noResp) = some ⟨.after 1 .noResp, false⟩ ∧
      stillPending .transceive .never = some ⟨.never, false⟩ := by decide

theorem witness_operands :
    uid5.length = 5 ∧ keyFF.length = 6 ∧ uid4.length = 4 ∧ sixteen.length = 16 := by decide

theorem witness_AnticollisionRuns :
    ((ready [.after 0 .noResp]).reply (.plain 0x00 [0x93, 0x20])).status ≠ .ok ∧
      ((ready [reply uid5 0]).reply (.plain 0x00 [0x93, 0x20])).status = .ok := by decide

theorem witness_AckTest : (0x00#8).toNat < 8 ∧ (0x07#8).toNat < 8 := by decide

theorem witness_InstructionsRunInPosition :
    (ready []).OutOfPosition (.writeData sixteen 0x77 0xF5) ∧
      (waiting (.writeData 0x04) []).OutOfPosition (.valueOperand 1 0xBB 0x4A) ∧
      ¬(waiting (.writeData 0x04) []).OutOfPosition (.writeData sixteen 0x77 0xF5) ∧
      ¬(waiting (.decrementOperand 0x05) []).OutOfPosition (.valueOperand 1 0xBB 0x4A) ∧
      ¬(ready []).OutOfPosition .pcdIdle := by
  refine ⟨.inl ⟨_, _, _, rfl, fun _ => nofun⟩, .inr ⟨_, _, _, rfl, fun _ => ⟨nofun, nofun⟩⟩, ?_, ?_, ?_⟩
  · rintro (⟨_, _, _, -, h⟩ | ⟨_, _, _, h, -⟩)
    · exact h 0x04 rfl
    · exact nomatch h
  · rintro (⟨_, _, _, h, -⟩ | ⟨_, _, _, -, h⟩)
    · exact nomatch h
    · exact (h 0x05).2 rfl
  · rintro (⟨_, _, _, h, -⟩ | ⟨_, _, _, h, -⟩) <;> exact nomatch h

theorem witness_FramesAreSentAsEncoded :
    let s := ready [acked]
    let i := Instr.read 0x04 0x26 0xEE
    let w := waiting (.writeData 0x04) [acked]
    (s.Ready ∧ i.wellFormed = true ∧
        s.exchangeOf i = some (.withCrc (s.x .bitFraming) [0x30, 0x04])) ∧
      s.outcomeOf (.withCrc (s.x .bitFraming) [0x30, 0x04]) ≠ none ∧
      w.Ready ∧ w.exchangeOf (.writeData sixteen 0x77 0xF5) =
        some (.withCrc (w.x .bitFraming) sixteen) :=
  ⟨⟨ready_ready _, by decide, rfl⟩, nofun, waiting_ready _ _, rfl⟩

/-- Both ends of the delta range, and a first word acknowledged and one not. -/
theorem witness_TwoWordsMakeOneTask :
    (ready []).ctl.closed = false ∧ sixteen.length = 16 ∧
      ((-2147483648 : Int) ≤ -2147483648 ∧ (2147483647 : Int) ≤ 2147483647) ∧
      (after (exec (.write 0x04 0x7B 0xF7) (ready [acked]))).ctl.awaiting = some (.writeData 0x04) ∧
      (after (exec (.write 0x04 0x7B 0xF7) (ready [nak]))).ctl.awaiting ≠ some (.writeData 0x04) ∧
      (after (exec (.increment 0x05 0x7F 0x9A) (ready [acked]))).ctl.awaiting =
        some (.incrementOperand 0x05) ∧
      (after (exec (.increment 0x05 0x7F 0x9A) (ready [nak]))).ctl.awaiting ≠
        some (.incrementOperand 0x05) ∧
      (after (exec (.decrement 0x05 0xA7 0x83) (ready [acked]))).ctl.awaiting =
        some (.decrementOperand 0x05) ∧
      (after (exec (.decrement 0x05 0xA7 0x83) (ready [nak]))).ctl.awaiting ≠
        some (.decrementOperand 0x05) := by decide

/-- A step of the first clause that leaves a job in progress, and a call. -/
theorem witness_CallStepsRefineTheTask :
    let s := given State.reset (.call .init)
    s.ctl.running = none ∧ s.inbox = [.call .init] ∧ step s = .next (after (step s)) ∧
      (after (step s)).ctl.running ≠ none ∧ transactions (after (step s)).trace = 1 :=
  ⟨rfl, rfl, rfl, by decide, by decide⟩

theorem witness_RaisesBeforeBusTraffic :
    (ready []).ctl.closed = false ∧ (sixteen.drop 1).length ≠ 16 ∧ uid4.length ≠ 5 ∧
      (keyFF.drop 1).length ≠ 6 ∧ keyFF.length = 6 ∧ (uid4.drop 1).length < 4 ∧
      ((-2147483649 : Int) < -2147483648 ∧ (2147483647 : Int) < 2147483648) ∧
      (∀ k ∈ (Vector.replicate 16 (KeyPair.mk keyFF keyFF)).toList,
        k.keyA.length = 6 ∧ k.keyB.length = 6) ∧
      ¬(∀ k ∈ (Vector.replicate 16 (KeyPair.mk keyFF uid5)).toList,
        k.keyA.length = 6 ∧ k.keyB.length = 6) := by decide

theorem witness_DumpReturnsRisingBlocks :
    (ready []).ctl.closed = false ∧ keysWellFormed (.replicate 16 ⟨keyFF, keyFF⟩) = true ∧
      4 ≤ uid4.length := by decide

theorem witness_InitLeavesTheMachineReady :
    State.reset.ctl.closed = false ∧ State.reset.cfg = defaultConfig ∧ State.reset.rst = .low ∧
      (ready []).ctl.closed = false ∧ (ready []).cfg = defaultConfig ∧ (ready []).rst = .high :=
  ⟨rfl, rfl, rfl, rfl, rfl, rfl⟩

theorem witness_AntennaAndCryptoTasks :
    (ready []).ctl.closed = false ∧ (ready []).Quiet ∧ (ready []).dev.active = .idle ∧
      (running .transceive [] []).Quiet ∧ (running .transceive [] []).dev.active ≠ .idle :=
  ⟨rfl, ⟨rfl, rfl, rfl⟩, rfl, ⟨rfl, rfl, rfl⟩, nofun⟩

theorem witness_CloseEndsTheSession :
    (ready []).ctl.closed = false ∧ (runTask .close (ready [])).ctl.closed = true ∧
      (runTask .close (ready [])).OutOfPosition (.writeData sixteen 0x77 0xF5) ∧
      ¬(runTask .close (ready [])).OutOfPosition .pcdIdle := by
  refine ⟨rfl, rfl, .inl ⟨_, _, _, rfl, fun _ => nofun⟩, ?_⟩
  rintro (⟨_, _, _, h, -⟩ | ⟨_, _, _, h, -⟩) <;> exact nomatch h

/-- The ends of both ranges, and the integers next to them. -/
theorem witness_ValueBlocks :
    ((-2147483648 : Int) ≤ -2147483648 ∧ (2147483647 : Int) ≤ 2147483647 ∧ (0 : Int) ≤ 0 ∧
      (255 : Int) ≤ 255) ∧
    ((-2147483649 : Int) < -2147483648 ∧ (2147483647 : Int) < 2147483648 ∧ (-1 : Int) < 0 ∧
      (255 : Int) < 256) ∧
    keyFF.length ≠ 16 ∧ (15 < 16 ∧ (sixteen[15]? : Option Byte) ≠ some 0x00) := by decide

/-- A string accepted, one of another length and one with another character ('G', 'g', '/', ':'). -/
theorem witness_UidStrings :
    hexToUid ['0', '9', 'A', 'F', 'a', 'f', '0', '0'] = .ok [0x09, 0xAF, 0xAF, 0x00, 0x09] ∧
      uid4.length ≠ 5 ∧ ['1', '2', '3', '4', '5', '6', '7'].length ≠ 8 ∧
      ∀ c ∈ ['G', 'g', '/', ':', '@', '`'], c ∉ ['0', '1', '2', '3', '4', '5', '6', '7', '8', '9',
        'A', 'B', 'C', 'D', 'E', 'F', 'a', 'b', 'c', 'd', 'e', 'f'] :=
  ⟨by rfl, by decide, by decide, by simp⟩

theorem witness_EveryStepKeepsTheInvariant :
    (ready []).Inv ∧ step (ready []) = .next (ready []) ∧
      (given (ready []) (.word (.command 0x0C))).Inv ∧
      step (given (ready []) (.word (.command 0x0C))) = exec .pcdTransceive (ready []) :=
  ⟨ready_inv, rfl, { ready_inv with }, rfl⟩

theorem witness_TasksAfterInitCauseNoFault :
    State.reset.ctl.closed = false ∧ State.reset.cfg = defaultConfig ∧ State.reset.faults = [] ∧
      ∀ t ∈ [Task.request .idle, .computeCrc [0x30], .transceive .softReset []], t ≠ .close :=
  ⟨rfl, rfl, rfl, by decide⟩

/-- AUTH_OK applies at the end of a read of CommandReg. -/
theorem witness_CryptoTurnsOnOnlyByAuthOk :
    let s := given ((running .mfAuthent [] []).setPending (some ⟨.after 1 .authOk, false⟩))
      (.word (.bus 0x82 0x00))
    (Memory.read s.cfg.resetCells (s.addr .status2)).getLsbD 3 = false ∧ step s = .next (after (step s)) ∧
      (s.x .status2).getLsbD 3 = false ∧ ((after (step s)).x .status2).getLsbD 3 = true := by
  refine ⟨?_, rfl, ?_, ?_⟩ <;> decide

theorem witness_TraceIsInert :
    step (ready []) = .next (ready []) ∧
      step (given (ready []) (.word (.frame []))) = .refused (.noSuchFrame []) := ⟨rfl, rfl⟩

/-- The example path of a session: request, anticollision, select, authenticate of block 5, a read, and
stop_crypto; and a silent card at Requested (44_picc_operations.md rule R310). -/
theorem test_session :
    Session.run .idle [(.request .idle, .statusBits .ok 16), (.anticollision, .statusUid .ok uid5),
        (.select uid5, .size 0x08), (.authenticate .keyA 5 keyFF uid4, .status .ok)] =
      .authenticated 1 ∧
    Session.run (.authenticated 1) [(.read 5, .noData .error), (.stopCrypto, .unit)] = .idle ∧
    Session.run .requested [(.authenticate .keyA 5 keyFF uid4, .status .noTag)] = .idle := by decide

theorem witness_SessionProtocol : Status.timeout ≠ .ok ∧
    Session.selected.after (.authenticate .keyA 5 keyFF uid4) (.status .ok) = .authenticated 1 := by
  decide

end Sys2Proof.Tests
end

section
/-! PROOF. The steps of the machine against the meanings they carry out (00_scope.md rule R9,
10_state.md rule R31): a step makes at most one bus transaction, and the steps of a task call or of a
word end in the state its meaning answers. -/

namespace Sys2Proof.Machine

/-! ### An instruction's job, its exchange and its meaning -/

/-- WRITE_DATA runs its job where it has one, and is refused elsewhere. -/
theorem exec_writeData (s : State) (data : List Byte) (cl ch : Byte) :
    exec (.writeData data cl ch) s =
      (jobOf s.ctl.awaiting (.writeData data cl ch)).elim (.refused .noFirstPhase)
        fun j => .next (runJob j s) := by
  rcases hw : s.ctl.awaiting with _ | (b | b | b) <;> simp [exec, execWriteData, jobOf, hw]

/-- VALUE_OPERAND likewise. -/
theorem exec_valueOperand (s : State) (v : BitVec 32) (cl ch : Byte) :
    exec (.valueOperand v cl ch) s =
      (jobOf s.ctl.awaiting (.valueOperand v cl ch)).elim (.refused .noFirstPhase)
        fun j => .next (runJob j s) := by
  rcases hw : s.ctl.awaiting with _ | (b | b | b) <;> simp [exec, execValueOperand, jobOf, hw]

/-- The meaning of an instruction with a job is that job run whole. -/
theorem exec_eq_runJob_of_jobOf {s : State} {i : Instr} {j : Job}
    (h : jobOf s.ctl.awaiting i = some j) : exec i s = .next (runJob j s) := by
  cases i with
  | writeReg | readReg | pcdIdle | pcdCalcCrc | pcdTransmit | pcdReceive | pcdTransceive
  | pcdMfAuthent | pcdSoftReset => exact nomatch h
  | requestIdle | requestAll | anticollision | select | authA | authB | read | write | decrement
  | increment | transfer =>
    obtain rfl := Option.some.inj h
    rfl
  | writeData => simp only [exec_writeData, h, Option.elim_some]
  | valueOperand => simp only [exec_valueOperand, h, Option.elim_some]

/-- The meaning of an instruction without a job: one write or one read, which after close
faults instead, or the refusal of a second-phase frame out of position. -/
theorem exec_cases_of_jobOf_none {s : State} {i : Instr} (h : jobOf s.ctl.awaiting i = none) :
    (∃ a v, exec i s = .next (whenOpen (busWrite a v) s)) ∨
      (∃ a, exec i s = .next (whenOpen (fun t => (busRead a t).2) s)) ∨
      exec i s = .refused .noFirstPhase := by
  cases i with
  | writeReg a d => exact .inl ⟨a, d, rfl⟩
  | readReg a => exact .inr (.inl ⟨a, rfl⟩)
  | pcdIdle | pcdCalcCrc | pcdTransmit | pcdReceive | pcdTransceive | pcdMfAuthent
  | pcdSoftReset => exact .inl ⟨s.cfg.map.addr .command, _, rfl⟩
  | requestIdle | requestAll | anticollision | select | authA | authB | read | write | decrement
  | increment | transfer => exact nomatch h
  | writeData => exact .inr (.inr (by simp only [exec_writeData, h, Option.elim_none]))
  | valueOperand => exact .inr (.inr (by simp only [exec_valueOperand, h, Option.elim_none]))

/-- An instruction makes an exchange with the card exactly where it has a job. -/
theorem exchangeOf_eq_none_iff (s : State) (i : Instr) :
    s.exchangeOf i = none ↔ jobOf s.ctl.awaiting i = none := by
  cases i with
  | writeData | valueOperand =>
    rcases hw : s.ctl.awaiting with _ | (b | b | b) <;> simp [State.exchangeOf, jobOf, hw]
  | _ => simp [State.exchangeOf, jobOf]

/-! ### A step makes at most one transaction -/

/-- What a step may add to the trace: at most one transaction, and exactly one if a job goes on after
it (00_scope.md rule R9). -/
def AtMostOneTransaction (s t : State) : Prop :=
  ∃ es, t.trace = s.trace ++ es ∧ transactions es ≤ 1 ∧
    (t.ctl.running ≠ none → transactions es = 1)

theorem AtMostOneTransaction.of_trace_eq {s t : State} (h : t.trace = s.trace)
    (hr : t.ctl.running = none) : AtMostOneTransaction s t :=
  ⟨[], by simp [h], by simp, fun hn => absurd hr hn⟩

theorem Transacts.atMostOneTransaction {d : Dir} {a : Nat} {v : Byte} {s t : State}
    (h : Transacts d a v s t) : AtMostOneTransaction s t := by
  obtain ⟨es, he, hn⟩ := h.count
  exact ⟨es, he, hn.le, fun _ => hn⟩

theorem addFault_atMostOneTransaction {s : State} (h : s.ctl.running = none) (f : Fault) :
    AtMostOneTransaction s (s.addFault f) :=
  .of_trace_eq (by simp) (by simp [h])

theorem busWrite_atMostOneTransaction {s : State} (h : s.ctl.running = none) (a : Nat) (v : Byte) :
    AtMostOneTransaction s (busWrite a v s) := by
  by_cases ha : a < s.cfg.map.limit
  · exact (busWrite_transacts s ha v).atMostOneTransaction
  · rw [busWrite, if_pos (Nat.not_lt.1 ha)]
    exact addFault_atMostOneTransaction h _

theorem busRead_atMostOneTransaction {s : State} (h : s.ctl.running = none) (a : Nat) :
    AtMostOneTransaction s (busRead a s).2 := by
  by_cases ha : a < s.cfg.map.limit
  · exact (busRead_transacts s ha).atMostOneTransaction
  · rw [busRead, if_pos (Nat.not_lt.1 ha)]
    exact .of_trace_eq (by simp) (by simp [h])

theorem whenOpen_atMostOneTransaction {s : State} (h : s.ctl.running = none) {f : State → State}
    (hf : AtMostOneTransaction s (f s)) : AtMostOneTransaction s (whenOpen f s) := by
  unfold whenOpen
  split
  · exact addFault_atMostOneTransaction h _
  · exact hf

theorem startJob_atMostOneTransaction {s : State} (h : s.ctl.running = none) (j : Job) :
    AtMostOneTransaction s (startJob j s) :=
  whenOpen_atMostOneTransaction h (tickJob_transactions ⟨j, []⟩ (s.setAwaiting none))

theorem exec_atMostOneTransaction {s t : State} {i : Instr} (h : s.ctl.running = none)
    (hj : jobOf s.ctl.awaiting i = none) (he : exec i s = .next t) : AtMostOneTransaction s t := by
  rcases exec_cases_of_jobOf_none hj with ⟨a, v, hx⟩ | ⟨a, hx⟩ | hx <;> rw [hx] at he
  · obtain rfl := Host.Outcome.next.inj he
    exact whenOpen_atMostOneTransaction h (busWrite_atMostOneTransaction h a v)
  · obtain rfl := Host.Outcome.next.inj he
    exact whenOpen_atMostOneTransaction h (busRead_atMostOneTransaction h a)
  · exact nomatch he

theorem rejected_atMostOneTransaction {s t : State} {why : Reject} (h : s.ctl.running = none)
    (he : rejected why s = .next t) : AtMostOneTransaction s t := by
  cases why with
  | badFrame b0 =>
    obtain rfl := Host.Outcome.next.inj he
    exact addFault_atMostOneTransaction h _
  | noCommand c =>
    obtain rfl := Host.Outcome.next.inj he
    exact whenOpen_atMostOneTransaction h (busWrite_atMostOneTransaction h _ c)
  | noFrame bytes => exact nomatch he

/-! ### The step, by what stands next in the inbox -/

theorem runWord_of_job {s : State} {w : Encoded} {i : Instr} {j : Job} (hd : decode w = .instr i)
    (hj : jobOf s.ctl.awaiting i = some j) : runWord w s = .next (startJob j s) := by
  simp only [runWord, hd, hj]

theorem runWord_of_no_job {s : State} {w : Encoded} {i : Instr} (hd : decode w = .instr i)
    (hj : jobOf s.ctl.awaiting i = none) : runWord w s = exec i s := by
  simp only [runWord, hd, hj]

theorem runWord_of_reject {s : State} {w : Encoded} {why : Reject} (hd : decode w = .reject why) :
    runWord w s = rejected why s := by
  simp only [runWord, hd]

theorem runWord_atMostOneTransaction {s t : State} {w : Encoded} (h : s.ctl.running = none)
    (he : runWord w s = .next t) : AtMostOneTransaction s t := by
  cases hd : decode w with
  | instr i =>
    cases hj : jobOf s.ctl.awaiting i with
    | some j =>
      rw [runWord_of_job hd hj] at he
      obtain rfl := Host.Outcome.next.inj he
      exact startJob_atMostOneTransaction h j
    | none => exact exec_atMostOneTransaction h hj (runWord_of_no_job hd hj ▸ he)
  | reject why => exact rejected_atMostOneTransaction h (runWord_of_reject hd ▸ he)

theorem step_of_no_input {s : State} (h : s.ctl.running = none) (hi : s.inbox = []) :
    step s = .next s := by
  simp only [step, h, hi]

theorem step_of_word {s : State} {w : Encoded} {rest : List Input} (h : s.ctl.running = none)
    (hi : s.inbox = .word w :: rest) : step s = runWord w { s with inbox := rest } := by
  simp only [step, h, hi]

theorem step_of_call {s : State} {task : Task} {rest : List Input} (h : s.ctl.running = none)
    (hi : s.inbox = .call task :: rest) :
    step s = .next (startJob (.task task) { s with inbox := rest }) := by
  simp only [step, h, hi]

theorem step_atMostOneTransaction {s t : State} (hs : step s = .next t) :
    AtMostOneTransaction s t := by
  cases hr : s.ctl.running with
  | some r =>
    rw [step_running hr] at hs
    obtain rfl := Host.Outcome.next.inj hs
    exact tickJob_transactions r s
  | none =>
    rcases hi : s.inbox with _ | ⟨w | task, rest⟩
    · rw [step_of_no_input hr hi] at hs
      obtain rfl := Host.Outcome.next.inj hs
      exact .of_trace_eq rfl hr
    · exact runWord_atMostOneTransaction (s := { s with inbox := rest }) hr
        (step_of_word hr hi ▸ hs)
    · rw [step_of_call hr hi] at hs
      obtain rfl := Host.Outcome.next.inj hs
      exact startJob_atMostOneTransaction (s := { s with inbox := rest }) hr (.task task)

/-! ### The steps of a job and its run to completion -/

/-- Where a step starts a job, the steps carry it to the state it leaves run whole. -/
theorem exists_stepsTo_runJob {s u : State} {j : Job} (hr : u.ctl.running = none)
    (hs : step s = .next (startJob j u)) : ∃ n, StepsTo (n + 1) s (runJob j u) := by
  obtain ⟨n, hn⟩ := startJob_goes j u hr
  exact ⟨n, .of_goes hs hn⟩

/-- Settles O46: the step lemma for the transactions, and the simulation of a job's run by its steps
for a call. -/
theorem callStepsRefineTheTask : Obligations.CallStepsRefineTheTask :=
  ⟨fun _ _ => step_atMostOneTransaction, fun s _ rest hr hi =>
    exists_stepsTo_runJob (u := { s with inbox := rest }) hr (step_of_call hr hi)⟩

/-- Settles O6: a word without a job runs whole in its step, and one with a job is carried out as the
job its meaning runs. -/
theorem stepRunsDecoded : Obligations.StepRunsDecoded := by
  intro s w rest i hr hi hd
  have hs := step_of_word hr hi
  refine ⟨fun he => ?_, fun he => ?_⟩
  · have hj := (exchangeOf_eq_none_iff s i).1 he
    exact hs.trans (runWord_of_no_job (s := { s with inbox := rest }) hd hj)
  · obtain ⟨j, hj⟩ := Option.ne_none_iff_exists'.1 (mt (exchangeOf_eq_none_iff s i).2 he)
    obtain ⟨n, hn⟩ := exists_stepsTo_runJob (u := { s with inbox := rest }) hr
      (hs.trans (runWord_of_job (s := { s with inbox := rest }) hd hj))
    exact ⟨_, n, exec_eq_runJob_of_jobOf (s := { s with inbox := rest }) hj, hn⟩

/-! ### A word placed from outside -/

theorem decode_encodedOfWord {nbits w : Nat} {i : Instr} (h : decodeTableWord nbits w = some i) :
    decode (encodedOfWord nbits w) = .instr i := by
  unfold decodeTableWord at h
  cases hd : decode (encodedOfWord nbits w) with
  | instr k => simp_all
  | reject why => simp_all

/-- The state a placed word is taken from, the word being off the inbox again. -/
theorem withFetchWord_unplaced (s : State) {nbits w : Nat} {i : Instr}
    (h : decodeTableWord nbits w = some i) :
    { s.withFetchWord nbits w with inbox := s.inbox } =
      { s with ctl := { s.ctl with
        running := none, awaiting := positionFor s.ctl.awaiting (some i) } } := by
  simp only [State.withFetchWord, placeWord, h]

/-- Settles O7: the placed word is the next of an inbox with no job in progress, so O6 speaks of it. -/
theorem placedWordRuns : Obligations.PlacedWordRuns := by
  intro s nbits w i h placed
  have hplaced : placed = { s.withFetchWord nbits w with inbox := s.inbox } := by
    rw [withFetchWord_unplaced s h]
    cases i <;> rfl
  rw [hplaced]
  exact stepRunsDecoded (s.withFetchWord nbits w) (encodedOfWord nbits w) s.inbox i rfl rfl
    (decode_encodedOfWord h)

end Sys2Proof.Machine
end

section
/-! PROOF. The state invariant through every step (10_state.md rules R64 to R68). -/

namespace Sys2Proof.Machine

/-- Every transaction, every line of pseudocode and every change of the controller keeps the
invariant, which speaks of neither the controller nor the inbox. -/
theorem later_keepsInv : Later fun s t => s.Inv → t.Inv where
  refl _ := id
  trans _ _ _ h k := k ∘ h
  write a v _ h := busWrite_inv h a v
  read a _ h := busRead_inv h a
  act a _ h := doAct_inv h a
  ctl _ _ h := { h with }
  inbox _ _ h := { h with }
  fault f _ h := addFault_inv h f

/-- Settles O56: the invariant is a relation each transaction keeps, so each step keeps it. -/
theorem everyStepKeepsTheInvariant : Obligations.EveryStepKeepsTheInvariant :=
  fun _ _ hs hstep => step_later later_keepsInv hstep hs

end Sys2Proof.Machine
end

section
/-! PROOF. MFCrypto1On is "set only by a successful MFAuthent outcome" (10_state.md rule R50). -/

namespace Sys2Proof.Machine

/-- MFCrypto1On as stored. -/
def State.cryptoOn (s : State) : Bool := (s.x .status2).getLsbD 3

/-- A device reset leaves MFCrypto1On clear. -/
def ResetsCryptoOff (cfg : Config) : Prop :=
  (Memory.read cfg.resetCells (cfg.map.addr .status2)).getLsbD 3 = false

/-! ### The operations that leave Status2Reg alone -/

@[simp] theorem fifoPush_status2 (v : Byte) (s : State) :
    (fifoPush v s).x .status2 = s.x .status2 := by
  unfold fifoPush
  split <;> simp [State.setX_x]

@[simp] theorem fifoPushAll_status2 (bs : List Byte) (s : State) :
    (fifoPushAll bs s).x .status2 = s.x .status2 := by
  induction bs generalizing s with
  | nil => rfl
  | cons b bs ih => exact (ih _).trans (fifoPush_status2 b s)

@[simp] theorem receiveResponse_status2 (bytes : List Byte) (lb : BitVec 3) (errs : Errs)
    (s : State) : (receiveResponse bytes lb errs s).x .status2 = s.x .status2 := by
  simp only [receiveResponse, State.orX_eq]
  split <;> simp [State.setX_x]

@[simp] theorem askOracle_status2 (a : Active) (frame : List Byte) (s : State) :
    (askOracle a frame s).x .status2 = s.x .status2 := by simp [askOracle]

@[simp] theorem startRound_status2 (a : Active) (s : State) :
    (startRound a s).x .status2 = s.x .status2 := by
  simp [startRound, clearRoundErrors, State.setX_x]

@[simp] theorem terminateCommand_status2 (s : State) :
    (terminateCommand s).x .status2 = s.x .status2 := by
  simp [terminateCommand, State.setX_x]

theorem startActive_status2 (a : Active) (s : State) :
    (startActive a s).x .status2 = s.x .status2 := by
  cases a with
  | idle => rfl
  | calcCrc => exact State.setX_x_ne (r := .status1) (by decide) _ _
  | transmit => simp [startActive]
  | receive => simp [startActive, clearRoundErrors, State.setX_x]
  | transceive => rfl
  | mfAuthent => simp [startActive]

theorem processCrc_status2 (s : State) : (processCrc s).x .status2 = s.x .status2 := by
  unfold processCrc
  split
  · exact State.addFault_x _ s _
  · exact (State.setX_x_ne (r := .divIrq) (by decide) _ _).trans
      (State.setX_x_ne (r := .status1) (by decide) _ _)

/-- Pending CRC processing stays, is counted down or runs. -/
theorem tickCrc_cases (s : State) : (∃ p, tickCrc s = s.setCrcPending p) ∨
    tickCrc s = processCrc (s.setCrcPending none) := by
  unfold tickCrc
  split
  · exact .inl ⟨s.dev.crcPending, rfl⟩
  · rename_i c fresh _
    by_cases hz : (if fresh then c else c - 1) = 0
    · exact .inr (if_pos hz)
    · exact .inl ⟨_, if_neg hz⟩

theorem tickCrc_status2 (s : State) : (tickCrc s).x .status2 = s.x .status2 := by
  rcases tickCrc_cases s with ⟨p, h⟩ | h <;> rw [h]
  · rfl
  · exact processCrc_status2 _

/-- A pending outcome stays, is counted down or applies. -/
theorem tickPending_cases (s : State) : (∃ p, tickPending s = s.setPending p) ∨
    ∃ o, tickPending s = applyOutcome o (s.setPending none) := by
  unfold tickPending
  split
  · exact .inl ⟨s.dev.pending, rfl⟩
  · exact .inl ⟨_, rfl⟩
  · rename_i c o fresh _
    by_cases hz : (if fresh then c else c - 1) = 0
    · exact .inr ⟨o, if_pos hz⟩
    · exact .inl ⟨_, if_neg hz⟩

/-- Of the outcomes AUTH_OK alone writes Status2Reg (R193 to R197). -/
theorem applyOutcome_status2 {o : LinkOutcome} (ho : o ≠ .authOk) (s : State) :
    (applyOutcome o s).x .status2 = s.x .status2 := by
  unfold applyOutcome
  dsimp only
  split <;> simp_all [State.setX_x]

/-! ### The operations that may clear the bit -/

/-- A write of Status2Reg cannot set MFCrypto1On (41_device_commands.md rule R209). -/
theorem status2After_off {old : Byte} (h : old.getLsbD 3 = false) (v : Byte) :
    (status2After old v).getLsbD 3 = false := by
  have hstored : ((old &&& 0x3F) ||| (v &&& 0xC0)).getLsbD 3 = false := by
    rw [BitVec.getLsbD_or, BitVec.getLsbD_and, BitVec.getLsbD_and, h]
    simp
  unfold status2After
  dsimp only
  split
  · exact hstored
  · rw [BitVec.getLsbD_and, hstored, Bool.false_and]

theorem deviceReset_off {s : State} (h : ResetsCryptoOff s.cfg) :
    (deviceReset s).cryptoOn = false := h

theorem writeCommand_off {s : State} (h : ResetsCryptoOff s.cfg) (hs : s.cryptoOn = false)
    (v : Byte) : (writeCommand v s).cryptoOn = false := by
  unfold writeCommand
  split
  · simpa [State.cryptoOn] using hs
  · rename_i c _
    cases c with
    | softReset => exact deviceReset_off (s := terminateCommand s) h
    | start a => simpa [State.cryptoOn, startCommand, startActive_status2] using hs

theorem writeFifoData_status2 (v : Byte) (s : State) :
    (writeFifoData v s).x .status2 = s.x .status2 := by
  simp only [writeFifoData, scheduleCrc]
  split <;> simp

theorem writeFifoLevel_status2 (v : Byte) (s : State) :
    (writeFifoLevel v s).x .status2 = s.x .status2 := by
  unfold writeFifoLevel
  split <;> simp [State.setX_x]

theorem writeBitFraming_status2 (v : Byte) (s : State) :
    (writeBitFraming v s).x .status2 = s.x .status2 := by
  simp only [writeBitFraming]
  split <;> simp [State.setX_x]

/-- No register write sets MFCrypto1On (41_device_commands.md rule R180). -/
theorem deviceWrite_off {s : State} (h : ResetsCryptoOff s.cfg) (hs : s.cryptoOn = false)
    (a : Nat) (v : Byte) : (deviceWrite a v s).cryptoOn = false := by
  cases hr : s.cfg.map.regAt a with
  | none =>
    simpa [deviceWrite, hr, State.cryptoOn,
      State.setAt_x_ne (AddressMap.regAt_none_ne hr .status2)] using hs
  | some r =>
    cases r with
    | command => simpa only [deviceWrite, hr] using writeCommand_off h hs v
    | status2 => simpa [deviceWrite, hr, State.cryptoOn] using status2After_off hs v
    | fifoData => simpa [deviceWrite, hr, State.cryptoOn, writeFifoData_status2] using hs
    | fifoLevel => simpa [deviceWrite, hr, State.cryptoOn, writeFifoLevel_status2] using hs
    | bitFraming => simpa [deviceWrite, hr, State.cryptoOn, writeBitFraming_status2] using hs
    | error | status1 | control | crcResultM | crcResultL | tCounterH | tCounterL =>
      simpa [deviceWrite, hr] using hs
    | comIrq | divIrq | comIEn | divIEn | mode | txControl | txAsk | rfCfg | tMode | tPrescaler
    | tReloadH | tReloadL =>
      simpa [deviceWrite, hr, State.cryptoOn, State.setX_x] using hs

/-! ### From a state to a later one -/

/-- The trace of `t` continues that of `s`, and unless it does so with AUTH_OK, MFCrypto1On is clear
in `t` where it is in `s`. -/
structure OnlyByAuthOk (s t : State) : Prop where
  cfg : t.cfg = s.cfg
  events : ∃ es, t.trace = s.trace ++ es ∧ (.outcome .authOk ∈ es ∨
    (ResetsCryptoOff s.cfg → s.cryptoOn = false → t.cryptoOn = false))

theorem OnlyByAuthOk.trans {s t u : State} (h : OnlyByAuthOk s t) (k : OnlyByAuthOk t u) :
    OnlyByAuthOk s u := by
  obtain ⟨hc, es, he, hoff⟩ := h
  obtain ⟨kc, fs, hf, koff⟩ := k
  refine ⟨kc.trans hc, es ++ fs, by rw [hf, he, List.append_assoc], ?_⟩
  rcases hoff with hok | hoff
  · exact .inl (List.mem_append_left _ hok)
  · rcases koff with kok | koff
    · exact .inl (List.mem_append_right _ kok)
    · exact .inr fun hreset hs => koff (hc ▸ hreset) (hoff hreset hs)

/-- A change that appends events and leaves Status2Reg alone. -/
theorem OnlyByAuthOk.of_status2 {s t : State} {es : List Event} (hc : t.cfg = s.cfg)
    (he : t.trace = s.trace ++ es) (hx : t.x .status2 = s.x .status2) : OnlyByAuthOk s t :=
  ⟨hc, es, he, .inr fun _ hs => (congrArg (BitVec.getLsbD · 3) hx).trans hs⟩

/-- A change of neither the parameters nor the trace nor the device. -/
theorem OnlyByAuthOk.of_eq {s t : State} (hc : t.cfg = s.cfg) (he : t.trace = s.trace)
    (hd : t.dev = s.dev) : OnlyByAuthOk s t :=
  .of_status2 (es := []) hc (by rw [he, List.append_nil]) (by rw [State.x, State.x, hc, hd])

theorem OnlyByAuthOk.emit (e : Event) (s : State) : OnlyByAuthOk s (s.emit e) :=
  .of_status2 rfl (State.emit_trace e s) rfl

theorem OnlyByAuthOk.addFault (f : Fault) (s : State) : OnlyByAuthOk s (s.addFault f) :=
  .of_eq (by simp) (by simp) (by simp)

theorem OnlyByAuthOk.draw (s : State) : OnlyByAuthOk s s.draw.2 :=
  .of_eq (by simp) (by simp) (by simp)

theorem applyOutcome_onlyByAuthOk (o : LinkOutcome) (s : State) :
    OnlyByAuthOk s (applyOutcome o s) := by
  by_cases ho : o = .authOk
  · exact ⟨by simp, [.outcome o], by simp, .inl (by simp [ho])⟩
  · exact .of_status2 (by simp) (applyOutcome_trace o s) (applyOutcome_status2 ho s)

theorem tickPending_onlyByAuthOk (s : State) : OnlyByAuthOk s (tickPending s) := by
  rcases tickPending_cases s with ⟨p, h⟩ | ⟨o, h⟩ <;> rw [h]
  · exact .of_status2 (es := []) rfl (by simp) rfl
  · exact .trans (t := s.setPending none) (.of_status2 (es := []) rfl (by simp) rfl)
      (applyOutcome_onlyByAuthOk o _)

theorem tickCrc_trace (s : State) : (tickCrc s).trace = s.trace := by
  rcases tickCrc_cases s with ⟨p, h⟩ | h <;> rw [h]
  · rfl
  · exact processCrc_trace _

theorem tickCrc_cfg (s : State) : (tickCrc s).cfg = s.cfg := by
  rcases tickCrc_cases s with ⟨p, h⟩ | h <;> rw [h]
  · rfl
  · obtain ⟨-, -, -, -, hcfg⟩ := processCrc_dev_pending (s.setCrcPending none)
    exact hcfg

theorem tickCrc_onlyByAuthOk (s : State) : OnlyByAuthOk s (tickCrc s) :=
  .of_status2 (es := []) (tickCrc_cfg s) (by simp [tickCrc_trace]) (tickCrc_status2 s)

theorem endOfTransaction_onlyByAuthOk (s : State) : OnlyByAuthOk s (endOfTransaction s) :=
  (tickPending_onlyByAuthOk s).trans (tickCrc_onlyByAuthOk _)

theorem deviceWrite_onlyByAuthOk (a : Nat) (v : Byte) (s : State) :
    OnlyByAuthOk s (deviceWrite a v s) := by
  obtain ⟨es, he, -, -⟩ := deviceWrite_inward a v s
  exact ⟨(deviceWrite_steady a v s).cfg, es, he,
    .inr fun hreset hs => deviceWrite_off hreset hs a v⟩

/-- A register read looks, draws or pops a byte, and changes nothing else (R181). -/
theorem deviceRead_cases (a : Nat) (s : State) : (deviceRead a s).2 = s ∨
    (deviceRead a s).2 = s.draw.2 ∨ ∃ bs, (deviceRead a s).2 = s.setFifo bs := by
  cases hr : s.cfg.map.regAt a with
  | none => simp [deviceRead, hr]
  | some r =>
    cases r with
    | fifoData =>
      simp only [deviceRead, hr, readFifoData]
      split
      · exact .inr (.inr ⟨_, rfl⟩)
      · exact .inr (.inl rfl)
    | status1 | tCounterH | tCounterL => simp [deviceRead, hr, readStatus1]
    | status2 =>
      simp only [deviceRead, hr, readStatus2]
      split
      · exact .inl rfl
      · exact .inr (.inl rfl)
    | _ => simp [deviceRead, hr]

theorem deviceRead_onlyByAuthOk (a : Nat) (s : State) : OnlyByAuthOk s (deviceRead a s).2 := by
  rcases deviceRead_cases a s with h | h | ⟨bs, h⟩ <;> rw [h]
  · exact .of_eq rfl rfl rfl
  · exact .draw s
  · exact .of_status2 (es := []) rfl (by simp) rfl

theorem busWrite_onlyByAuthOk (a : Nat) (v : Byte) (s : State) :
    OnlyByAuthOk s (busWrite a v s) := by
  unfold busWrite
  split
  · exact .addFault _ s
  · refine (OnlyByAuthOk.emit (.bus .w a v) s).trans ?_
    dsimp only
    split
    · exact (deviceWrite_onlyByAuthOk a v _).trans (endOfTransaction_onlyByAuthOk _)
    · exact endOfTransaction_onlyByAuthOk _

theorem busRead_onlyByAuthOk (a : Nat) (s : State) : OnlyByAuthOk s (busRead a s).2 := by
  unfold busRead
  split
  · exact (OnlyByAuthOk.addFault _ s).trans (.draw _)
  · dsimp only
    refine .trans ?_ ((OnlyByAuthOk.emit _ _).trans (endOfTransaction_onlyByAuthOk _))
    split
    · exact deviceRead_onlyByAuthOk a s
    · exact .draw s

theorem driveReset_onlyByAuthOk (l : Level) (s : State) : OnlyByAuthOk s (driveReset l s) := by
  by_cases h : s.rst = l
  · subst h
    rw [driveReset_same]
    exact .of_eq rfl rfl rfl
  · rw [driveReset_edge h]
    exact ⟨rfl, [.rst l], rfl, .inr fun hreset _ => hreset⟩

theorem doAct_onlyByAuthOk (a : Act) (s : State) : OnlyByAuthOk s (doAct a s) := by
  cases a with
  | log | returned | raised => exact .emit _ s
  | countExhausted | closeBus | await => exact .of_eq rfl rfl rfl
  | releaseReset => exact driveReset_onlyByAuthOk .high s

/-- So it is from each state to every later one. -/
theorem later_onlyByAuthOk : Later OnlyByAuthOk where
  refl _ := .of_eq rfl rfl rfl
  trans _ _ _ := .trans
  write := busWrite_onlyByAuthOk
  read := busRead_onlyByAuthOk
  act := doAct_onlyByAuthOk
  ctl _ _ := .of_eq rfl rfl rfl
  inbox _ _ := .of_eq rfl rfl rfl
  fault := .addFault

/-- Settles O58: a step appends AUTH_OK or leaves MFCrypto1On clear where it was. -/
theorem cryptoTurnsOnOnlyByAuthOk : Obligations.CryptoTurnsOnOnlyByAuthOk := by
  intro s t hreset hstep hs ht
  obtain ⟨-, es, he, hok | hoff⟩ := step_later later_onlyByAuthOk hstep
  · exact ⟨es, he, hok⟩
  · exact absurd ht (Bool.eq_false_iff.1 (hoff hreset hs))

end Sys2Proof.Machine
end

section
/-! PROOF. The trace "never affects any other state" (10_state.md rule R33): every operation of the
machine commutes with putting earlier events before the trace. -/

namespace Sys2Proof.Machine

/-- The state with the events `p` put before its trace. -/
def State.after (p : List Event) (s : State) : State := { s with trace := p ++ s.trace }

variable (p : List Event) (s : State)

/-! ### The shared updates of the state -/

@[simp] theorem State.after_cfg : (s.after p).cfg = s.cfg := rfl
@[simp] theorem State.after_ctl : (s.after p).ctl = s.ctl := rfl
@[simp] theorem State.after_dev : (s.after p).dev = s.dev := rfl
@[simp] theorem State.after_rst : (s.after p).rst = s.rst := rfl
@[simp] theorem State.after_faults : (s.after p).faults = s.faults := rfl
@[simp] theorem State.after_oracle : (s.after p).oracle = s.oracle := rfl
@[simp] theorem State.after_inbox : (s.after p).inbox = s.inbox := rfl
@[simp] theorem State.after_trace : (s.after p).trace = p ++ s.trace := rfl
@[simp] theorem State.after_x (r : Reg) : (s.after p).x r = s.x r := rfl

@[simp] theorem State.emit_after (e : Event) : (s.after p).emit e = (s.emit e).after p := by
  simp [State.emit, State.after]

@[simp] theorem State.addFault_after (f : Fault) :
    (s.after p).addFault f = (s.addFault f).after p := by
  unfold State.addFault
  rw [State.after_faults]
  split <;> rfl

@[simp] theorem State.setAt_after (a : Nat) (v : Byte) :
    (s.after p).setAt a v = (s.setAt a v).after p := rfl
@[simp] theorem State.setX_after (r : Reg) (v : Byte) :
    (s.after p).setX r v = (s.setX r v).after p := rfl
@[simp] theorem State.setFifo_after (bs : List Byte) :
    (s.after p).setFifo bs = (s.setFifo bs).after p := rfl
@[simp] theorem State.setActive_after (a : Active) :
    (s.after p).setActive a = (s.setActive a).after p := rfl
@[simp] theorem State.setTxArmed_after (b : Bool) :
    (s.after p).setTxArmed b = (s.setTxArmed b).after p := rfl
@[simp] theorem State.setPending_after (q : Option Pending) :
    (s.after p).setPending q = (s.setPending q).after p := rfl
@[simp] theorem State.setCrcPending_after (q : Option CrcPending) :
    (s.after p).setCrcPending q = (s.setCrcPending q).after p := rfl
@[simp] theorem State.setRunning_after (r : Option Running) :
    (s.after p).setRunning r = (s.setRunning r).after p := rfl
@[simp] theorem State.setAwaiting_after (w : Option Awaiting) :
    (s.after p).setAwaiting w = (s.setAwaiting w).after p := rfl

@[simp] theorem State.draw_after : (s.after p).draw = (s.draw.1, s.draw.2.after p) := by
  simp only [State.draw_eq]
  rfl

@[simp] theorem askOracle_after (a : Active) (frame : List Byte) :
    askOracle a frame (s.after p) = (askOracle a frame s).after p := by
  simp only [askOracle, State.nextAnswer_eq]
  rfl

@[simp] theorem deviceReset_after : deviceReset (s.after p) = (deviceReset s).after p := rfl

theorem driveReset_after (l : Level) : driveReset l (s.after p) = (driveReset l s).after p := by
  unfold driveReset
  rw [State.after_rst]
  split
  · rfl
  · simp [State.after, State.emit, deviceReset]

@[simp] theorem State.ite_after {c : Prop} [Decidable c] (s t : State) :
    (if c then s.after p else t.after p) = (if c then s else t).after p :=
  (apply_ite (State.after p) c s t).symm

/-! ### Commands and rounds -/

@[simp] theorem startRound_after (a : Active) :
    startRound a (s.after p) = (startRound a s).after p := by
  simp [startRound, clearRoundErrors]

theorem startActive_after (a : Active) :
    startActive a (s.after p) = (startActive a s).after p := by
  cases a with
  | idle | calcCrc | transceive => rfl
  | transmit | mfAuthent => simp [startActive]
  | receive => simp [startActive, clearRoundErrors]

theorem writeCommand_after (v : Byte) :
    writeCommand v (s.after p) = (writeCommand v s).after p := by
  unfold writeCommand
  split
  · simp
  · rename_i c _
    cases c with
    | softReset => rfl
    | start a => exact startActive_after p (terminateCommand s) a

/-! ### Outcomes and CRC processing -/

@[simp] theorem fifoPush_after (v : Byte) : fifoPush v (s.after p) = (fifoPush v s).after p := by
  unfold fifoPush
  rw [State.after_dev, State.after_cfg]
  split <;> rfl

theorem fifoPushAll_after (bs : List Byte) :
    fifoPushAll bs (s.after p) = (fifoPushAll bs s).after p := by
  induction bs generalizing s with
  | nil => rfl
  | cons b bs ih => simp [fifoPushAll, ih]

theorem receiveResponse_after (bytes : List Byte) (lb : BitVec 3) (errs : Errs) :
    receiveResponse bytes lb errs (s.after p) = (receiveResponse bytes lb errs s).after p := by
  simp only [receiveResponse, State.orX_eq, State.after_x, State.setX_after, fifoPushAll_after,
    State.after_cfg, State.after_dev, State.ite_after]
  rfl

theorem applyOutcome_after (o : LinkOutcome) :
    applyOutcome o (s.after p) = (applyOutcome o s).after p := by
  simp only [applyOutcome, State.emit_after, State.after_dev]
  split <;> simp [receiveResponse_after]

theorem tickPending_after : tickPending (s.after p) = (tickPending s).after p := by
  unfold tickPending
  rw [State.after_dev]
  split
  · rfl
  · rfl
  · dsimp only
    rw [State.setPending_after, applyOutcome_after, State.setPending_after, State.ite_after]

theorem processCrc_after : processCrc (s.after p) = (processCrc s).after p := by
  unfold processCrc
  rw [State.after_x]
  split
  · exact State.addFault_after p s _
  · rfl

theorem tickCrc_after : tickCrc (s.after p) = (tickCrc s).after p := by
  unfold tickCrc
  rw [State.after_dev]
  split
  · rfl
  · dsimp only
    rw [State.setCrcPending_after, processCrc_after, State.setCrcPending_after, State.ite_after]

theorem endOfTransaction_after : endOfTransaction (s.after p) = (endOfTransaction s).after p := by
  rw [endOfTransaction, tickPending_after, tickCrc_after, endOfTransaction]

/-! ### Register accesses and bus transactions -/

theorem writeFifoData_after (v : Byte) :
    writeFifoData v (s.after p) = (writeFifoData v s).after p := by
  simp only [writeFifoData, scheduleCrc, fifoPush_after, State.after_dev, State.after_cfg,
    State.setCrcPending_after, State.ite_after]

theorem writeFifoLevel_after (v : Byte) :
    writeFifoLevel v (s.after p) = (writeFifoLevel v s).after p := by
  unfold writeFifoLevel
  split <;> rfl

theorem writeBitFraming_after (v : Byte) :
    writeBitFraming v (s.after p) = (writeBitFraming v s).after p := by
  simp only [writeBitFraming, State.setX_after, State.after_dev, State.setTxArmed_after,
    startRound_after, State.ite_after]

theorem deviceWrite_after (a : Nat) (v : Byte) :
    deviceWrite a v (s.after p) = (deviceWrite a v s).after p := by
  unfold deviceWrite
  rw [State.after_cfg]
  cases s.cfg.map.regAt a with
  | none => rfl
  | some r =>
    cases r with
    | command => exact writeCommand_after p s v
    | fifoData => exact writeFifoData_after p s v
    | fifoLevel => exact writeFifoLevel_after p s v
    | bitFraming => exact writeBitFraming_after p s v
    | _ => rfl

theorem deviceRead_after (a : Nat) :
    deviceRead a (s.after p) = ((deviceRead a s).1, (deviceRead a s).2.after p) := by
  unfold deviceRead
  rw [State.after_cfg]
  cases s.cfg.map.regAt a with
  | none => rfl
  | some r =>
    cases r with
    | fifoData =>
      simp only [readFifoData, State.after_dev]
      split
      · rfl
      · exact State.draw_after p s
    | status1 => simp [readStatus1]
    | status2 =>
      simp only [readStatus2, State.after_dev]
      by_cases ha : s.dev.active = .idle <;> simp [ha]
    | tCounterH | tCounterL => exact State.draw_after p s
    | _ => rfl

theorem busWrite_after (a : Nat) (v : Byte) :
    busWrite a v (s.after p) = (busWrite a v s).after p := by
  simp only [busWrite, State.emit_after, State.after_cfg, State.after_rst, deviceWrite_after,
    State.addFault_after, endOfTransaction_after, State.ite_after]

theorem busRead_after (a : Nat) :
    busRead a (s.after p) = ((busRead a s).1, (busRead a s).2.after p) := by
  unfold busRead
  rw [State.after_cfg]
  split
  · simp
  · dsimp only
    rw [State.after_rst]
    split <;> simp [deviceRead_after, endOfTransaction_after]

theorem regWrite_after (r : Reg) (v : Byte) :
    regWrite r v (s.after p) = (regWrite r v s).after p := busWrite_after p s _ v

theorem regRead_after (r : Reg) :
    regRead r (s.after p) = ((regRead r s).1, (regRead r s).2.after p) := busRead_after p s _

/-! ### Programs and jobs -/

theorem doAct_after (a : Act) : doAct a (s.after p) = (doAct a s).after p := by
  cases a with
  | log | returned | raised => exact State.emit_after p s _
  | countExhausted | closeBus | await => rfl
  | releaseReset => exact driveReset_after p s .high

theorem Prog.run_after {α : Type} (c : Prog α) :
    c.run (s.after p) = ((c.run s).1.after p, (c.run s).2) := by
  induction c generalizing s with
  | ret | raise => rfl
  | write r v rest ih => simp only [Prog.run, regWrite_after, ih]
  | read r rest ih => simp only [Prog.run, regRead_after, ih]
  | act a rest ih => simp only [Prog.run, doAct_after, ih]

theorem Prog.tick_after {α : Type} (c : Prog α) :
    c.tick (s.after p) = ((c.tick s).1, (c.tick s).2.after p) := by
  induction c generalizing s with
  | ret | raise => rfl
  | write r v rest => simp only [Prog.tick, regWrite_after]
  | read r rest => simp only [Prog.tick, regRead_after]
  | act a rest ih => simp only [Prog.tick, doAct_after, ih]

theorem Prog.finish_after {α : Type} (c : Prog α) :
    c.finish (s.after p) = (c.finish s).map (State.after p) := by
  induction c generalizing s with
  | ret | raise | write | read => rfl
  | act a rest ih => simp only [Prog.finish, doAct_after, ih]

theorem tickJob_after (r : Running) : tickJob r (s.after p) = (tickJob r s).after p := by
  simp only [tickJob, State.after_cfg, Prog.tick_after]
  rcases ((jobProg s.cfg r.job).resume r.moved).tick s with ⟨_ | v, t⟩
  · rfl
  · simp only [Prog.finish_after]
    cases ((jobProg s.cfg r.job).resume (r.moved ++ [v])).finish t <;> rfl

theorem whenOpen_after {f : State → State} (hf : ∀ t : State, f (t.after p) = (f t).after p) :
    whenOpen f (s.after p) = (whenOpen f s).after p := by
  simp only [whenOpen, State.after_ctl, hf, State.addFault_after, State.ite_after]

theorem startJob_after (j : Job) : startJob j (s.after p) = (startJob j s).after p :=
  whenOpen_after p s fun t => tickJob_after p (t.setAwaiting none) ⟨j, []⟩

theorem runJob_after (j : Job) : runJob j (s.after p) = (runJob j s).after p :=
  whenOpen_after p s fun t =>
    congrArg Prod.fst (Prog.run_after p (t.setAwaiting none) (jobProg t.cfg j))

/-! ### Instructions and steps -/

/-- The outcome of a step with the events `p` put before the trace of the next state. -/
def outcomeAfter : Host.Outcome State Fault Refusal → Host.Outcome State Fault Refusal
  | .next t => .next (t.after p)
  | .fault f => .fault f
  | .refused r => .refused r

theorem exec_after (i : Instr) : exec i (s.after p) = outcomeAfter p (exec i s) := by
  cases i with
  | writeReg a d => exact congrArg _ (whenOpen_after p s fun t => busWrite_after p t a d)
  | readReg a =>
    exact congrArg _ (whenOpen_after p s fun t => congrArg Prod.snd (busRead_after p t a))
  | pcdIdle | pcdCalcCrc | pcdTransmit | pcdReceive | pcdTransceive | pcdMfAuthent
  | pcdSoftReset => exact congrArg _ (whenOpen_after p s fun t => regWrite_after p t _ _)
  | requestIdle | requestAll | anticollision | select | authA | authB | read | write | decrement
  | increment | transfer => exact congrArg _ (runJob_after p s _)
  | writeData | valueOperand =>
    simp only [exec_writeData, exec_valueOperand, State.after_ctl, runJob_after]
    cases jobOf s.ctl.awaiting _ <;> rfl

theorem rejected_after (why : Reject) :
    rejected why (s.after p) = outcomeAfter p (rejected why s) := by
  cases why with
  | badFrame b0 => exact congrArg _ (State.addFault_after p s _)
  | noCommand c => exact congrArg _ (whenOpen_after p s fun t => regWrite_after p t _ c)
  | noFrame bytes => rfl

theorem runWord_after (w : Encoded) : runWord w (s.after p) = outcomeAfter p (runWord w s) := by
  unfold runWord
  rw [State.after_ctl]
  split
  · split
    · exact congrArg _ (startJob_after p s _)
    · exact exec_after p s _
  · exact rejected_after p s _

theorem step_after : step (s.after p) = outcomeAfter p (step s) := by
  unfold step
  rw [State.after_ctl, State.after_inbox]
  split
  · exact congrArg _ (tickJob_after p s _)
  · split
    · rfl
    · rename_i w rest _
      exact runWord_after p { s with inbox := rest } w
    · rename_i task rest _
      exact congrArg _ (startJob_after p { s with inbox := rest } (.task task))

/-- A state with any trace does what the state with none does, that trace put before. -/
theorem step_with_trace (tr : List Event) :
    step { s with trace := tr } = outcomeAfter tr (step { s with trace := [] }) := by
  rw [← step_after]
  simp [State.after]

/-- Settles O59: with its own trace and with another, a state does what it does with none. -/
theorem traceIsInert : Obligations.TraceIsInert := by
  intro s tr
  rw [show step s = _ from step_with_trace s s.trace, step_with_trace s tr]
  cases step { s with trace := [] } with
  | next u =>
    refine ⟨?_, fun r h => nomatch h⟩
    rintro t ⟨⟩
    exact ⟨u.trace, rfl, rfl⟩
  | fault f => exact ⟨fun t h => (nomatch h), fun r h => (nomatch h)⟩
  | refused r => exact ⟨fun t h => (nomatch h), fun r h => h⟩

end Sys2Proof.Machine
end

section
/-! PROOF. What a register read does to the device (20_memory.md rule R107; 40_bus.md rule R161). -/

namespace Sys2Proof.Machine

/-- A pop takes the first byte; a draw from the empty FIFO leaves it empty (R201). -/
theorem readFifoData_dev (s : State) :
    (readFifoData s).2.dev = { s.dev with fifo := s.dev.fifo.tail } := by
  unfold readFifoData
  split
  next v rest hf => simp [State.setFifo, hf]
  next hf => rw [State.draw_dev, hf, List.tail_nil, ← hf]

theorem readStatus2_dev (s : State) : (readStatus2 s).2.dev = s.dev := by
  unfold readStatus2
  split
  · rfl
  · exact State.draw_dev s

/-- No read but that of FIFODataReg changes the device (R107). -/
theorem deviceRead_dev (a : Nat) (s : State) :
    (deviceRead a s).2.dev =
      if a = s.addr .fifoData then { s.dev with fifo := s.dev.fifo.tail } else s.dev := by
  cases hr : s.cfg.map.regAt a with
  | none =>
    rw [if_neg (AddressMap.regAt_none_ne hr .fifoData).symm]
    simp [deviceRead, hr]
  | some r =>
    rw [AddressMap.eq_addr_of_regAt hr]
    cases r with
    | fifoData => simp [deviceRead, readFifoData_dev]
    | status2 => simp [deviceRead, readStatus2_dev]
    | _ => simp [deviceRead, readStatus1]

/-- Beyond the device, a read may only take a draw from the oracle. -/
theorem deviceRead_frame (a : Nat) (s : State) :
    ∃ o, (deviceRead a s).2 = { s with oracle := o, dev := (deviceRead a s).2.dev } := by
  rcases deviceRead_cases a s with h | h | ⟨bs, h⟩ <;> rw [h]
  · exact ⟨s.oracle, rfl⟩
  · obtain ⟨v, hv, -⟩ := s.draw_spec
    rw [hv]
    exact ⟨_, rfl⟩
  · exact ⟨s.oracle, rfl⟩

/-- Settles O16: the read's frame, with the device it leaves, before the end of the transaction. -/
theorem readsChangeTheFifoAlone : Obligations.ReadsChangeTheFifoAlone := by
  intro s a hopen hhigh ha
  obtain ⟨o, ho⟩ := deviceRead_frame a s
  refine ⟨(deviceRead a s).1, o, ?_⟩
  rw [exec_readReg_high hopen hhigh ha, ho, deviceRead_dev]
  rfl

end Sys2Proof.Machine
end

section
/-! PROOF. The decoder and the encoder undo each other, but for the data byte of a read
(30_encoding.md rules R130 to R132, R135, R142). -/

namespace Sys2Proof.Machine

/-! ### Bus frames -/

/-- The address stands one bit up, `r` on top of it (R131). -/
theorem busByte0_eq (r : Bool) (a : Nat) :
    busByte0 r a = (if r then 0x80#8 else 0x00#8) ||| BitVec.ofNat 8 (a * 2) := by
  have hshift : BitVec.ofNat 8 a <<< 1 = BitVec.ofNat 8 (a * 2) :=
    (BitVec.shiftLeft_eq_mul_twoPow _ 1).trans (BitVec.ofNat_mul a 2).symm
  rw [← hshift]
  cases r <;> rfl

/-- The address byte bit by bit: `r` is bit 7, the address the bits from 1 on (R131). -/
theorem busByte0_getLsbD (r : Bool) (a : Nat) {i : Nat} (hi : i < 8) : (busByte0 r a).getLsbD i =
    ((r && decide (i = 7)) || (decide (0 < i) && a.testBit (i - 1))) := by
  have hr : (if r then 0x80#8 else 0x00#8).getLsbD i = (r && decide (i = 7)) := by
    cases r
    · exact BitVec.getLsbD_zero
    · exact (BitVec.getLsbD_twoPow 7 i).trans (by grind)
  rw [busByte0_eq, BitVec.getLsbD_or, hr, BitVec.getLsbD_ofNat, ← Nat.pow_one 2,
    Nat.testBit_mul_two_pow]
  grind

theorem busByte0_getLsbD_zero (r : Bool) (a : Nat) : (busByte0 r a).getLsbD 0 = false := by
  rw [busByte0_getLsbD r a (by decide)]
  simp

theorem busByte0_getLsbD_seven (r : Bool) {a : Nat} (ha : a ≤ maxAddr) :
    (busByte0 r a).getLsbD 7 = r := by
  have h : a.testBit 6 = false := Nat.testBit_lt_two_pow (Nat.lt_succ_of_le ha)
  rw [busByte0_getLsbD r a (by decide)]
  simp [h]

/-- The address field holds the address, where it fits (R131). -/
theorem busAddr_busByte0 (r : Bool) {a : Nat} (ha : a ≤ maxAddr) : busAddr (busByte0 r a) = a := by
  have hfield : (busByte0 r a).extractLsb' 1 6 = BitVec.ofNat 6 a :=
    BitVec.eq_of_getLsbD_eq fun i hi => by
      rw [BitVec.getLsbD_extractLsb', busByte0_getLsbD r a (by omega), BitVec.getLsbD_ofNat]
      grind
  rw [busAddr, hfield, BitVec.toNat_ofNat, Nat.mod_eq_of_lt (Nat.lt_succ_of_le ha)]

/-- A byte with bit 0 clear is the address byte of its two fields (R131). -/
theorem busByte0_busAddr {b0 : Byte} (h : b0.getLsbD 0 = false) :
    busByte0 (b0.getLsbD 7) (busAddr b0) = b0 := by
  refine BitVec.eq_of_getLsbD_eq fun i hi => ?_
  rw [busByte0_getLsbD _ _ hi, busAddr, BitVec.testBit_toNat, BitVec.getLsbD_extractLsb']
  grind

theorem decode_bus_of_write {b0 : Byte} (h0 : b0.getLsbD 0 = false) (h7 : b0.getLsbD 7 = false)
    (b1 : Byte) : decode (.bus b0 b1) = .instr (.writeReg (busAddr b0) b1) := by
  simp only [decode, decodeBus, h0, h7, Bool.false_eq_true, if_false]

theorem decode_bus_of_read {b0 : Byte} (h0 : b0.getLsbD 0 = false) (h7 : b0.getLsbD 7 = true)
    (b1 : Byte) : decode (.bus b0 b1) = .instr (.readReg (busAddr b0)) := by
  simp only [decode, decodeBus, h0, h7, Bool.false_eq_true, if_false, if_true]

theorem decode_bus_of_bad {b0 : Byte} (h0 : b0.getLsbD 0 = true) (b1 : Byte) :
    decode (.bus b0 b1) = .reject (.badFrame b0) := by
  simp only [decode, decodeBus, h0, if_true]

/-- A bus frame that decodes is the encoding of its instruction, but for the data byte of a read. -/
theorem encode_of_decode_bus {b0 b1 : Byte} {i : Instr} (h : decode (.bus b0 b1) = .instr i) :
    encode i = .bus b0 b1 ∨ ∃ a, i = .readReg a ∧ encode i = .bus b0 0x00 := by
  cases h0 : b0.getLsbD 0 with
  | true => exact nomatch (decode_bus_of_bad h0 b1).symm.trans h
  | false =>
    have hb := busByte0_busAddr h0
    cases h7 : b0.getLsbD 7 with
    | false =>
      obtain rfl := Decoded.instr.inj ((decode_bus_of_write h0 h7 b1).symm.trans h)
      rw [h7] at hb
      exact .inl (congrArg (Encoded.bus · b1) hb)
    | true =>
      obtain rfl := Decoded.instr.inj ((decode_bus_of_read h0 h7 b1).symm.trans h)
      rw [h7] at hb
      exact .inr ⟨_, rfl, congrArg (Encoded.bus · 0x00) hb⟩

/-! ### PCD commands -/

theorem Active.ofCode_eq_some_iff {c : BitVec 4} {a : Active} :
    Active.ofCode c = some a ↔ c = a.code := by
  constructor
  · intro h
    unfold Active.ofCode at h
    split_ifs at h <;> cases h <;> assumption
  · rintro rfl
    cases a <;> rfl

/-- A byte with bits 7:4 clear is its low half, zero-extended. -/
theorem setWidth_low_eq {v : Byte} (h : v.extractLsb' 4 4 = 0) :
    (v.extractLsb' 0 4).setWidth 8 = v := by
  have happend : v.extractLsb' 4 4 ++ v.extractLsb' 0 4 = v := BitVec.extractLsb'_append_extractLsb'
  rw [h] at happend
  exact (BitVec.setWidth_eq_append (w := 8) (v := 4) (by decide)).trans happend

/-- Each command is selected by its own byte and no other (R136, R140). -/
theorem Command.ofByte_eq_some_iff {v : Byte} {c : Command} :
    Command.ofByte v = some c ↔ v = c.byte := by
  constructor
  · intro h
    unfold Command.ofByte at h
    split_ifs at h with hhigh hlow
    · cases h
      rw [← setWidth_low_eq (not_not.1 hhigh), hlow]
      rfl
    · obtain ⟨a, ha, rfl⟩ := Option.map_eq_some_iff.1 h
      rw [← setWidth_low_eq (not_not.1 hhigh), Active.ofCode_eq_some_iff.1 ha]
      rfl
  · rintro rfl
    rcases c with a | _
    · cases a <;> rfl
    · rfl

theorem encode_ofCommand (c : Command) : encode (.ofCommand c) = .command c.byte := by
  rcases c with a | _
  · cases a <;> rfl
  · rfl

theorem decode_command_of_some {v : Byte} {c : Command} (h : Command.ofByte v = some c) :
    decode (.command v) = .instr (.ofCommand c) := by
  simp only [decode, decodeCommand, h]

theorem decode_command_of_none {v : Byte} (h : Command.ofByte v = none) :
    decode (.command v) = .reject (.noCommand v) := by
  simp only [decode, decodeCommand, h]

/-- A command code decodes to the instruction it encodes. -/
theorem decode_encode_ofCommand (c : Command) :
    decode (encode (.ofCommand c)) = .instr (.ofCommand c) := by
  rw [encode_ofCommand, decode_command_of_some (Command.ofByte_eq_some_iff.2 rfl)]

theorem encode_of_decode_command {v : Byte} {i : Instr} (h : decode (.command v) = .instr i) :
    encode i = .command v := by
  cases hc : Command.ofByte v with
  | none => exact nomatch (decode_command_of_none hc).symm.trans h
  | some c =>
    obtain rfl := Decoded.instr.inj ((decode_command_of_some hc).symm.trans h)
    rw [encode_ofCommand, ← Command.ofByte_eq_some_iff.1 hc]

/-! ### PICC frames -/

theorem u32le_getLsbD (b0 b1 b2 b3 : Byte) (i : Nat) : (u32le b0 b1 b2 b3).getLsbD i =
    if i < 8 then b0.getLsbD i else if i < 16 then b1.getLsbD (i - 8)
    else if i < 24 then b2.getLsbD (i - 16) else b3.getLsbD (i - 24) := by
  change BitVec.getLsbD (w := 8 + 8 + 8 + 8) (b3 ++ b2 ++ b1 ++ b0) i = _
  simp only [BitVec.getLsbD_append]
  grind

/-- The operand read from four bytes has those bytes (R145). -/
theorem le32_u32le (b0 b1 b2 b3 : Byte) : le32 (u32le b0 b1 b2 b3) = [b0, b1, b2, b3] := by
  have hbyte {n : Nat} {b : Byte} (h : ∀ i < 8, (u32le b0 b1 b2 b3).getLsbD (n + i) = b.getLsbD i) :
      (u32le b0 b1 b2 b3).extractLsb' n 8 = b :=
    BitVec.eq_of_getLsbD_eq fun i hi => by simp [h i hi, hi]
  simp only [le32, List.cons.injEq, and_true]
  refine ⟨hbyte ?_, hbyte ?_, hbyte ?_, hbyte ?_⟩ <;>
    intro i hi <;> rw [u32le_getLsbD] <;> grind

/-- The operand whose four bytes are those of `v` is `v` (R145). -/
theorem u32le_of_bytes (v : BitVec 32) :
    u32le (v.extractLsb' 0 8) (v.extractLsb' 8 8) (v.extractLsb' 16 8) (v.extractLsb' 24 8) = v := by
  refine BitVec.eq_of_getLsbD_eq fun i hi => ?_
  rw [u32le_getLsbD]
  simp only [BitVec.getLsbD_extractLsb']
  grind

theorem encode_of_decodeBlockFrame {op b cl ch : Byte} {i : Instr}
    (h : decodeBlockFrame op b cl ch = some i) : encode i = .frame [op, b, cl, ch] := by
  unfold decodeBlockFrame at h
  split_ifs at h with hop hop hop hop hop <;> cases h <;> rw [hop] <;> rfl

/-- A frame read from a byte list has that list as its encoding. -/
theorem encode_of_frameInstr {bytes : List Byte} {i : Instr} (h : frameInstr bytes = some i) :
    encode i = .frame bytes := by
  unfold frameInstr at h
  split at h
  · split_ifs at h with ha ha <;> cases h <;> rw [ha] <;> rfl
  · split_ifs at h with hab
    cases h
    rw [hab.1, hab.2]
    rfl
  · exact encode_of_decodeBlockFrame h
  · cases h
    rw [encode, le32_u32le]
    rfl
  · split_ifs at h with hab
    cases h
    rw [hab.1, hab.2]
    rfl
  · split_ifs at h with ha ha <;> cases h <;> rw [ha] <;> rfl
  · cases h
    rfl
  · cases h

theorem decode_frame_of_some {bytes : List Byte} {i : Instr} (h : frameInstr bytes = some i) :
    decode (.frame bytes) = .instr i := by
  simp only [decode, decodeFrame, h]

theorem decode_frame_of_none {bytes : List Byte} (h : frameInstr bytes = none) :
    decode (.frame bytes) = .reject (.noFrame bytes) := by
  simp only [decode, decodeFrame, h]

theorem encode_of_decode_frame {bytes : List Byte} {i : Instr}
    (h : decode (.frame bytes) = .instr i) : encode i = .frame bytes := by
  cases hf : frameInstr bytes with
  | none => exact nomatch (decode_frame_of_none hf).symm.trans h
  | some k =>
    obtain rfl := Decoded.instr.inj ((decode_frame_of_some hf).symm.trans h)
    exact encode_of_frameInstr hf

/-! ### Decoding an encoding -/

theorem decode_encode_select {uid : List Byte} (h : uid.length = 5) (cl ch : Byte) :
    decode (encode (.select uid cl ch)) = .instr (.select uid cl ch) :=
  match uid, h with
  | [_, _, _, _, _], _ => rfl

theorem decode_encode_authA (b : Byte) {key uid : List Byte} (hk : key.length = 6)
    (hu : uid.length = 4) : decode (encode (.authA b key uid)) = .instr (.authA b key uid) :=
  match key, hk, uid, hu with
  | [_, _, _, _, _, _], _, [_, _, _, _], _ => rfl

theorem decode_encode_authB (b : Byte) {key uid : List Byte} (hk : key.length = 6)
    (hu : uid.length = 4) : decode (encode (.authB b key uid)) = .instr (.authB b key uid) :=
  match key, hk, uid, hu with
  | [_, _, _, _, _, _], _, [_, _, _, _], _ => rfl

theorem decode_encode_writeData {data : List Byte} (h : data.length = 16) (cl ch : Byte) :
    decode (encode (.writeData data cl ch)) = .instr (.writeData data cl ch) :=
  match data, h with
  | [_, _, _, _, _, _, _, _, _, _, _, _, _, _, _, _], _ => rfl

theorem decode_encode_valueOperand (v : BitVec 32) (cl ch : Byte) :
    decode (encode (.valueOperand v cl ch)) = .instr (.valueOperand v cl ch) :=
  congrArg (fun u => Decoded.instr (.valueOperand u cl ch)) (u32le_of_bytes v)

/-- Settles O2: by the interface the instruction's words cross. -/
theorem decodeOfEncode : Obligations.DecodeOfEncode := by
  intro i hi
  cases i with
  | writeReg a d =>
    have ha : a ≤ maxAddr := of_decide_eq_true hi
    rw [encode, decode_bus_of_write (busByte0_getLsbD_zero _ _) (busByte0_getLsbD_seven _ ha),
      busAddr_busByte0 _ ha]
  | readReg a =>
    have ha : a ≤ maxAddr := of_decide_eq_true hi
    rw [encode, decode_bus_of_read (busByte0_getLsbD_zero _ _) (busByte0_getLsbD_seven _ ha),
      busAddr_busByte0 _ ha]
  | pcdIdle => exact decode_encode_ofCommand (.start .idle)
  | pcdCalcCrc => exact decode_encode_ofCommand (.start .calcCrc)
  | pcdTransmit => exact decode_encode_ofCommand (.start .transmit)
  | pcdReceive => exact decode_encode_ofCommand (.start .receive)
  | pcdTransceive => exact decode_encode_ofCommand (.start .transceive)
  | pcdMfAuthent => exact decode_encode_ofCommand (.start .mfAuthent)
  | pcdSoftReset => exact decode_encode_ofCommand .softReset
  | requestIdle | requestAll | anticollision | read | write | decrement | increment | transfer => rfl
  | select uid cl ch =>
    simp only [Instr.wellFormed, Bool.and_eq_true, beq_iff_eq] at hi
    exact decode_encode_select hi.1 cl ch
  | authA b key uid =>
    simp only [Instr.wellFormed, Bool.and_eq_true, beq_iff_eq] at hi
    exact decode_encode_authA b hi.1 hi.2
  | authB b key uid =>
    simp only [Instr.wellFormed, Bool.and_eq_true, beq_iff_eq] at hi
    exact decode_encode_authB b hi.1 hi.2
  | writeData data cl ch =>
    simp only [Instr.wellFormed, Bool.and_eq_true, beq_iff_eq] at hi
    exact decode_encode_writeData hi.1 cl ch
  | valueOperand v cl ch => exact decode_encode_valueOperand v cl ch

/-- Settles O3: by the interface the word crosses. -/
theorem encodeOfDecode : Obligations.EncodeOfDecode := by
  intro w i h
  cases w with
  | bus b0 b1 =>
    exact (encode_of_decode_bus h).imp_right fun ⟨a, hi, he⟩ => ⟨a, b0, b1, hi, rfl, he⟩
  | command v => exact .inl (encode_of_decode_command h)
  | frame bytes => exact .inl (encode_of_decode_frame h)

/-- Settles O1: each word is one evaluation of the decoder. -/
theorem sampleWordsDecode : Obligations.SampleWordsDecode := by
  unfold Obligations.SampleWordsDecode
  and_intros <;> intros <;> rfl

end Sys2Proof.Machine
end

section
/-! PROOF. What the encodings do not spell: a bus frame with bit 0 set, a byte list that is no frame and
a reserved command code, in decoding and by the step (30_encoding.md rules R131, R140, R142, R144). -/

namespace Sys2Proof.Machine

/-! ### The frame table -/

theorem decodeBlockFrame_isSome (op b cl ch : Byte) : (decodeBlockFrame op b cl ch).isSome ↔
    op = 0x30 ∨ op = 0xA0 ∨ op = 0xC0 ∨ op = 0xC1 ∨ op = 0xB0 := by
  unfold decodeBlockFrame
  split_ifs <;> simp_all

theorem frameOfTable_of_frameInstr {bytes : List Byte} {i : Instr}
    (h : frameInstr bytes = some i) : FrameOfTable bytes := by
  unfold frameInstr at h
  split at h
  · split_ifs at h <;> simp_all [FrameOfTable]
  · split_ifs at h
    simp_all [FrameOfTable]
  · have hop := (decodeBlockFrame_isSome _ _ _ _).1 (Option.isSome_of_eq_some h)
    simpa [FrameOfTable] using hop
  · simp [FrameOfTable]
  · split_ifs at h
    simp_all [FrameOfTable]
  · split_ifs at h <;> simp_all [FrameOfTable]
  · simp [FrameOfTable]
  · cases h

/-- The row of R142 a byte list is on gives it its instruction. -/
theorem frameInstr_isSome_of_frameOfTable {bytes : List Byte} (h : FrameOfTable bytes) :
    (frameInstr bytes).isSome := by
  rcases h with rfl | rfl | rfl | ⟨hn, hb⟩ | ⟨hn, hb⟩ | ⟨hn, hb⟩ | hn | hn
  · rfl
  · rfl
  · rfl
  · match bytes, hn, hb with
    | [_, _, _, _, _, _, _, _, _], _, rfl => rfl
  · match bytes, hn with
    | [a, b, _, _, _, _, _, _, _, _, _, _], _ =>
      have ha : a = 0x60 ∨ a = 0x61 := by simpa using hb
      rcases ha with rfl | rfl <;> rfl
  · match bytes, hn with
    | [op, b, cl, ch], _ => exact (decodeBlockFrame_isSome op b cl ch).2 (by simpa using hb)
  · match bytes, hn with
    | [_, _, _, _, _, _, _, _, _, _, _, _, _, _, _, _, _, _], _ => rfl
  · match bytes, hn with
    | [_, _, _, _, _, _], _ => rfl

/-- Settles O5: the decoder reads a frame from exactly the byte lists of the table. -/
theorem otherFramesAreRefused : Obligations.OtherFramesAreRefused := by
  refine fun bytes => ⟨fun h => ?_, fun h => ?_⟩
  · obtain ⟨i, hi⟩ := Option.isSome_iff_exists.1 (frameInstr_isSome_of_frameOfTable h)
    exact ⟨i, decode_frame_of_some hi, encode_of_frameInstr hi⟩
  · have hnone : frameInstr bytes = none :=
      Option.eq_none_iff_forall_ne_some.2 fun _ hi => h (frameOfTable_of_frameInstr hi)
    have hd := decode_frame_of_none hnone
    refine ⟨hd, fun s rest hr hi => ?_⟩
    rw [step_of_word hr hi, runWord_of_reject hd]
    rfl

/-! ### Bus frames and the fault set -/

theorem State.addFault_frame (f : Fault) (s : State) :
    s.addFault f = { s with faults := (s.addFault f).faults } := by
  unfold State.addFault
  split <;> rfl

theorem FaultAdded.of_addFault {s t : State} (h : t.faults = s.faults) (f : Fault) :
    FaultAdded s (t.addFault f) f where
  gained := t.addFault_mem f
  kept _ hg := State.addFault_keeps (h ▸ hg)
  only g hg := by
    unfold State.addFault at hg
    split at hg
    · exact .inr (h ▸ hg)
    · simpa [h, or_comm] using hg

theorem State.addFault_with_inbox (f : Fault) (s : State) (rest : List Input) :
    State.addFault f { s with inbox := rest } = { s.addFault f with inbox := rest } := by
  unfold State.addFault
  split <;> rfl

/-- Settles O4: a byte 0 by its two deciding bits, and the fault that enters the sticky set. -/
theorem busFrameAssembly : Obligations.BusFrameAssembly := by
  refine ⟨fun a v _ => ⟨?_, ?_⟩, fun b0 b1 h0 h7 => decode_bus_of_write h0 h7 b1,
    fun b0 b1 h0 h7 => decode_bus_of_read h0 h7 b1, fun b0 b1 h0 => ?_⟩
  · simp [encode, busByte0_eq]
  · simp [encode, busByte0_eq]
  · have hd := decode_bus_of_bad h0 b1
    refine ⟨fun i hi => (nomatch hd.symm.trans hi), fun s rest hr hi => ?_⟩
    exact ⟨State.addFault (.badFrame b0) { s with inbox := rest },
      (step_of_word hr hi).trans (runWord_of_reject hd), .of_addFault (by rfl) _,
      State.addFault_frame _ _⟩

/-! ### Command bytes outside the closed set -/

/-- The byte of a command has bits 7:4 clear and no reserved code (30_encoding.md rules R136, R140). -/
theorem Command.byte_in_closed_set (c : Command) : c.byte.extractLsb 7 4 = 0 ∧
    c.byte.extractLsb 3 0 ∉ [0x1#4, 0x2#4, 0x5#4, 0x6#4, 0x7#4, 0x9#4, 0xA#4, 0xB#4, 0xD#4] := by
  rcases c with a | _
  · cases a <;> decide
  · decide

theorem Command.ofByte_eq_none {v : Byte} (h : v.extractLsb 7 4 ≠ 0 ∨
    v.extractLsb 3 0 ∈ [0x1#4, 0x2#4, 0x5#4, 0x6#4, 0x7#4, 0x9#4, 0xA#4, 0xB#4, 0xD#4]) :
    Command.ofByte v = none := by
  refine Option.eq_none_iff_forall_ne_some.2 fun c hc => ?_
  obtain rfl := Command.ofByte_eq_some_iff.1 hc
  obtain ⟨hhigh, hlow⟩ := c.byte_in_closed_set
  exact h.elim (· hhigh) hlow

theorem writeCommand_of_none {v : Byte} (h : Command.ofByte v = none) (s : State) :
    writeCommand v s = s.addFault (.unmodelledCommand v) := by
  simp only [writeCommand, h]

/-- A CommandReg write that selects no command adds its fault and ends (41_device_commands.md rule
R183). -/
theorem exec_writeReg_of_no_command {s : State} (hopen : s.ctl.closed = false)
    (hhigh : s.rst = .high) {v : Byte} (hv : Command.ofByte v = none) :
    exec (.writeReg (s.addr .command) v) s = .next (endOfTransaction
      ((s.emit (.bus .w (s.addr .command) v)).addFault (.unmodelledCommand v))) := by
  have hw := (deviceWrite_command v (s.emit (.bus .w (s.addr .command) v))).trans
    (writeCommand_of_none hv _)
  rw [exec_writeReg_high hopen hhigh (s.cfg.map.addr_lt .command)]
  exact congrArg (fun t => Host.Outcome.next (endOfTransaction t)) hw

/-- Settles O21: the byte selects no command, as a write and as a word, which is that write. -/
theorem reservedCommandsFault : Obligations.ReservedCommandsFault := by
  intro s v hopen hhigh hv
  have hnone : Command.ofByte v = none := Command.ofByte_eq_none hv
  have hd := decode_command_of_none hnone
  refine ⟨_, exec_writeReg_of_no_command hopen hhigh hnone, .of_addFault (by rfl) _,
    State.addFault_frame _ _, hd, fun rest hr hi => ?_⟩
  calc step s
    _ = exec (.writeReg (s.addr .command) v) { s with inbox := rest } :=
      (step_of_word hr hi).trans (runWord_of_reject hd)
    _ = _ := exec_writeReg_of_no_command (s := { s with inbox := rest }) hopen hhigh hnone
    _ = _ := congrArg (fun t => Host.Outcome.next (endOfTransaction t))
      (State.addFault_with_inbox (.unmodelledCommand v) (s.emit _) rest)

end Sys2Proof.Machine
end

section
/-! PROOF. The end of a transaction, item by item, and the addresses beyond ADDR_WIDTH, which never
come to it (40_bus.md rules R160 to R162, R166; 10_state.md rule R71). -/

namespace Sys2Proof.Machine

/-! ### The pending outcome -/

theorem tickPending_of_none {s : State} (h : s.dev.pending = none) : tickPending s = s := by
  simp only [tickPending, h]

theorem tickPending_of_never {s : State} {fresh : Bool} (h : s.dev.pending = some ⟨.never, fresh⟩) :
    tickPending s = s.setPending (some ⟨.never, false⟩) := by
  simp only [tickPending, h]

theorem tickPending_of_fresh {s : State} {c : Nat} {o : LinkOutcome}
    (h : s.dev.pending = some ⟨.after c o, true⟩) : tickPending s =
      if c = 0 then applyOutcome o (s.setPending none)
      else s.setPending (some ⟨.after c o, false⟩) := by
  simp only [tickPending, h, if_true]

theorem tickPending_of_counted {s : State} {c : Nat} {o : LinkOutcome}
    (h : s.dev.pending = some ⟨.after (c + 1) o, false⟩) : tickPending s =
      if c = 0 then applyOutcome o (s.setPending none)
      else s.setPending (some ⟨.after c o, false⟩) := by
  simp only [tickPending, h, Bool.false_eq_true, if_false, Nat.add_sub_cancel]

/-- The outcome's end of the transaction leaves CRC processing as it was, so the two do not interfere. -/
theorem tickPending_crcPending (s : State) :
    (tickPending s).dev.crcPending = s.dev.crcPending := by
  rcases tickPending_cases s with ⟨p, h⟩ | ⟨o, h⟩ <;> rw [h]
  · rfl
  · exact applyOutcome_crcPending o _

/-! ### Pending CRC processing -/

theorem tickCrc_of_none {s : State} (h : s.dev.crcPending = none) : tickCrc s = s := by
  simp only [tickCrc, h]

theorem tickCrc_of_fresh {s : State} {k : Nat} (h : s.dev.crcPending = some ⟨k, true⟩) :
    tickCrc s = if k = 0 then processCrc (s.setCrcPending none)
      else s.setCrcPending (some ⟨k, false⟩) := by
  simp only [tickCrc, h, if_true]

theorem tickCrc_of_counted {s : State} {k : Nat} (h : s.dev.crcPending = some ⟨k + 1, false⟩) :
    tickCrc s = if k = 0 then processCrc (s.setCrcPending none)
      else s.setCrcPending (some ⟨k, false⟩) := by
  simp only [tickCrc, h, Bool.false_eq_true, if_false, Nat.add_sub_cancel]

/-! ### The end of a transaction with one of them pending -/

theorem endOfTransaction_of_crcPending_none {s : State} (h : s.dev.crcPending = none) :
    endOfTransaction s = tickPending s :=
  tickCrc_of_none ((tickPending_crcPending s).trans h)

theorem endOfTransaction_of_pending_none {s : State} (h : s.dev.pending = none) :
    endOfTransaction s = tickCrc s :=
  congrArg tickCrc (tickPending_of_none h)

/-- Settles O8: with one item pending the end of a transaction is that item's countdown. -/
theorem endOfTransactionRule : Obligations.EndOfTransactionRule :=
  ⟨fun _ hp hc => endOfTransaction_none hp hc,
    fun _ _ hp hc => (endOfTransaction_of_crcPending_none hc).trans (tickPending_of_never hp),
    fun _ _ _ hp hc => (endOfTransaction_of_crcPending_none hc).trans (tickPending_of_fresh hp),
    fun _ _ _ hp hc => (endOfTransaction_of_crcPending_none hc).trans (tickPending_of_counted hp),
    fun _ _ hp hc => (endOfTransaction_of_pending_none hp).trans (tickCrc_of_fresh hc),
    fun _ _ hp hc => (endOfTransaction_of_pending_none hp).trans (tickCrc_of_counted hc)⟩

/-! ### Addresses beyond ADDR_WIDTH -/

theorem busWrite_beyond {s : State} {a : Nat} (ha : s.cfg.map.limit ≤ a) (d : Byte) :
    busWrite a d s = s.addFault (.badAddress a) := if_pos ha

theorem busRead_beyond {s : State} {a : Nat} (ha : s.cfg.map.limit ≤ a) :
    busRead a s = (s.addFault (.badAddress a)).draw := if_pos ha

theorem whenOpen_open {s : State} (h : s.ctl.closed = false) (f : State → State) :
    whenOpen f s = f s := by
  simp only [whenOpen, h, Bool.false_eq_true, if_false]

theorem exec_writeReg_beyond {s : State} (hopen : s.ctl.closed = false) {a : Nat}
    (ha : s.cfg.map.limit ≤ a) (d : Byte) :
    exec (.writeReg a d) s = .next (s.addFault (.badAddress a)) :=
  congrArg Host.Outcome.next ((whenOpen_open hopen _).trans (busWrite_beyond ha d))

theorem exec_readReg_beyond {s : State} (hopen : s.ctl.closed = false) {a : Nat}
    (ha : s.cfg.map.limit ≤ a) :
    exec (.readReg a) s = .next (s.addFault (.badAddress a)).draw.2 :=
  congrArg Host.Outcome.next
    ((whenOpen_open hopen _).trans (congrArg Prod.snd (busRead_beyond ha)))

/-- A draw after a fault takes its byte from the oracle the fault left alone. -/
theorem State.addFault_draw_frame (f : Fault) (s : State) :
    (s.addFault f).draw.2 = { s with
      faults := (s.addFault f).draw.2.faults
      oracle := { s.oracle with draws := s.oracle.draws.tail, made := s.oracle.made + 1 } } := by
  obtain ⟨v, hdraw, -⟩ := (s.addFault f).draw_spec
  rw [hdraw, s.addFault_frame f]

theorem FaultAdded.of_faults_eq {s t u : State} {f : Fault} (h : FaultAdded s t f)
    (hu : u.faults = t.faults) : FaultAdded s u f :=
  ⟨hu ▸ h.gained, hu ▸ h.kept, hu ▸ h.only⟩

/-- Settles O9: both instructions stop at the fault, and the read then draws. -/
theorem badAddressIsSticky : Obligations.BadAddressIsSticky := by
  intro s a d hopen ha
  have hfault : FaultAdded s (s.addFault (.badAddress a)) (.badAddress a) := .of_addFault rfl _
  exact ⟨⟨_, exec_writeReg_beyond hopen ha d, hfault, s.addFault_frame _⟩,
    ⟨_, exec_readReg_beyond hopen ha, hfault.of_faults_eq (State.draw_faults _),
      s.addFault_draw_frame _⟩⟩

end Sys2Proof.Machine
end

section
/-! PROOF. What each outcome does while its command is active (41_device_commands.md rules R193 to
R197, R200). -/

namespace Sys2Proof.Machine

/-! ### A response -/

theorem applyOutcome_transceive_resp {s : State} (h : s.dev.active = .transceive)
    (bytes : List Byte) (lb : BitVec 3) (errs : Errs) :
    applyOutcome (.resp bytes lb errs) s =
      (receiveResponse bytes lb errs
        ((s.emit (.outcome (.resp bytes lb errs))).orX .comIrq txIrq)).setTxArmed true := by
  simp only [applyOutcome, State.emit_dev, h]

theorem applyOutcome_receive_resp {s : State} (h : s.dev.active = .receive) (bytes : List Byte)
    (lb : BitVec 3) (errs : Errs) :
    applyOutcome (.resp bytes lb errs) s =
      (((receiveResponse bytes lb errs (s.emit (.outcome (.resp bytes lb errs)))).setTxArmed
        true).orX .comIrq idleIrq).setActive .idle := by
  simp only [applyOutcome, State.emit_dev, h]

@[simp] theorem receiveResponse_cfg (bytes : List Byte) (lb : BitVec 3) (errs : Errs) (s : State) :
    (receiveResponse bytes lb errs s).cfg = s.cfg := by rw [receiveResponse_frame]

@[simp] theorem receiveResponse_active (bytes : List Byte) (lb : BitVec 3) (errs : Errs)
    (s : State) : (receiveResponse bytes lb errs s).dev.active = s.dev.active := by
  rw [receiveResponse_frame]

/-- The device after a response, but for its registers: Transceive stays active, Receive ends in
Idle (R193, R197). -/
theorem applyOutcome_resp_dev {s : State}
    (h : s.dev.active = .transceive ∨ s.dev.active = .receive)
    (hfifo : s.dev.fifo.length ≤ s.cfg.fifoDepth)
    (bytes : List Byte) (lb : BitVec 3) (errs : Errs) :
    (applyOutcome (.resp bytes lb errs) s).dev.fifo = (s.dev.fifo ++ bytes).take s.cfg.fifoDepth ∧
    (applyOutcome (.resp bytes lb errs) s).dev.active =
      (if s.dev.active = .receive then .idle else .transceive) ∧
    (applyOutcome (.resp bytes lb errs) s).dev.txArmed = true := by
  rcases h with h | h
  · rw [applyOutcome_transceive_resp h]
    exact ⟨receiveResponse_fifo bytes lb errs hfifo, by simp [h], rfl⟩
  · rw [applyOutcome_receive_resp h]
    exact ⟨receiveResponse_fifo bytes lb errs hfifo, by simp [h], rfl⟩

/-- ErrIRq, which a response sets on an error and on an overflow of the FIFO (R193, R200). -/
def responseErrIrq (depth count : Nat) (errs : Errs) : Byte :=
  if errs ≠ Errs.none ∨ depth < count then errIrq else 0x00

/-- BufferOvfl, which a response sets on an overflow of the FIFO (R200). -/
def responseOvfl (depth count : Nat) : Byte := if depth < count then bufferOvfl else 0x00

/-- `t` holds the registers of `s` with a response written into them (R193): the request bits
`irqs`, RxLastBits, the error bits and what an overflow sets. -/
structure ResponseWritten (s t : State) (bytes : List Byte) (lb : BitVec 3) (errs : Errs)
    (irqs : Byte) : Prop where
  cfg : t.cfg = s.cfg
  comIrq : t.x .comIrq = s.x .comIrq ||| irqs |||
    responseErrIrq s.cfg.fifoDepth (s.dev.fifo.length + bytes.length) errs
  control : t.x .control = (s.x .control &&& 0xF8) ||| lb.setWidth 8
  error : t.x .error = s.x .error ||| errs.bits |||
    responseOvfl s.cfg.fifoDepth (s.dev.fifo.length + bytes.length)
  others : ∀ a, a ∉ [s.addr .comIrq, s.addr .error, s.addr .control] →
    t.dev.mem.read a = s.dev.mem.read a

section
variable {s t : State} {bytes : List Byte} {lb : BitVec 3} {errs : Errs} {irqs : Byte}

theorem receiveResponse_written (hfifo : s.dev.fifo.length ≤ s.cfg.fifoDepth) :
    ResponseWritten s (receiveResponse bytes lb errs s) bytes lb errs rxIrq where
  cfg := receiveResponse_cfg bytes lb errs s
  comIrq := by
    rw [State.x, receiveResponse_cfg, receiveResponse_read _ _ _ hfifo]
    simp [responseErrIrq]
  control := by
    rw [State.x, receiveResponse_cfg, receiveResponse_read _ _ _ hfifo]
    simp [controlWithLastBits]
  error := by
    rw [State.x, receiveResponse_cfg, receiveResponse_read _ _ _ hfifo]
    simp [responseOvfl]
  others a ha := by
    obtain ⟨hirq, herror, hcontrol⟩ :
        a ≠ s.addr .comIrq ∧ a ≠ s.addr .error ∧ a ≠ s.addr .control := by simpa using ha
    rw [receiveResponse_read _ _ _ hfifo]
    simp [hirq, herror, hcontrol]

/-- Request bits set before the response stand beside its own (TxIRq: R193). -/
theorem ResponseWritten.of_orX_comIrq {m : Byte}
    (h : ResponseWritten (s.orX .comIrq m) t bytes lb errs irqs) :
    ResponseWritten s t bytes lb errs (m ||| irqs) where
  cfg := h.cfg
  comIrq := by simpa [BitVec.or_assoc] using h.comIrq
  control := by simpa [State.setX_x] using h.control
  error := by simpa [State.setX_x] using h.error
  others a ha := (h.others a ha).trans (Memory.read_write_ne _ _ (List.ne_of_not_mem_cons ha))

/-- Request bits set after the response stand beside its own (IdleIRq: R197). -/
theorem ResponseWritten.orX_comIrq (h : ResponseWritten s t bytes lb errs irqs) (m : Byte) :
    ResponseWritten s (t.orX .comIrq m) bytes lb errs (irqs ||| m) where
  cfg := h.cfg
  comIrq := by
    rw [State.orX_eq, State.setX_x_same, h.comIrq]
    ac_rfl
  control := by simpa [State.setX_x] using h.control
  error := by simpa [State.setX_x] using h.error
  others a ha := by
    have hne : a ≠ t.cfg.map.addr .comIrq := h.cfg ▸ List.ne_of_not_mem_cons ha
    exact (Memory.read_write_ne _ _ hne).trans (h.others a ha)

end

theorem applyOutcome_transceive_resp_written {s : State} (h : s.dev.active = .transceive)
    (hfifo : s.dev.fifo.length ≤ s.cfg.fifoDepth)
    (bytes : List Byte) (lb : BitVec 3) (errs : Errs) :
    ResponseWritten s (applyOutcome (.resp bytes lb errs) s) bytes lb errs (txIrq ||| rxIrq) := by
  rw [applyOutcome_transceive_resp h]
  have hw := (receiveResponse_written (bytes := bytes) (lb := lb) (errs := errs)
    (s := (s.emit (.outcome (.resp bytes lb errs))).orX .comIrq txIrq) hfifo).of_orX_comIrq
  exact ⟨hw.cfg, hw.comIrq, hw.control, hw.error, hw.others⟩

theorem applyOutcome_receive_resp_written {s : State} (h : s.dev.active = .receive)
    (hfifo : s.dev.fifo.length ≤ s.cfg.fifoDepth)
    (bytes : List Byte) (lb : BitVec 3) (errs : Errs) :
    ResponseWritten s (applyOutcome (.resp bytes lb errs) s) bytes lb errs (rxIrq ||| idleIrq) := by
  rw [applyOutcome_receive_resp h]
  have hw := (receiveResponse_written (bytes := bytes) (lb := lb) (errs := errs)
    (s := s.emit (.outcome (.resp bytes lb errs))) hfifo).orX_comIrq idleIrq
  exact ⟨hw.cfg, hw.comIrq, hw.control, hw.error, hw.others⟩

/-- Settles O23: Transceive and Receive share the response; each adds its own request bit. -/
theorem responseOutcomes : Obligations.ResponseOutcomes := by
  intro s bytes lb errs hactive hfifo overflow
  obtain ⟨hbytes, hnext, harmed⟩ := applyOutcome_resp_dev hactive hfifo bytes lb errs
  refine ⟨_, rfl, ?_, ?_⟩
  · rw [← hbytes, ← hnext, ← harmed]
    exact applyOutcome_frame _ _
  rcases hactive with h | h <;> simp only [h]
  · have hw := applyOutcome_transceive_resp_written h hfifo bytes lb errs
    exact ⟨hw.comIrq, hw.control, hw.error, hw.others⟩
  · have hw := applyOutcome_receive_resp_written h hfifo bytes lb errs
    exact ⟨hw.comIrq, hw.control, hw.error, hw.others⟩

/-! ### Outcomes without bytes -/

section
variable {s : State}

theorem applyOutcome_transceive_noResp (h : s.dev.active = .transceive) :
    applyOutcome .noResp s =
      (((s.emit (.outcome .noResp)).orX .comIrq timerIrq).orX .comIrq txIrq).setTxArmed true := by
  simp only [applyOutcome, State.emit_dev, h]

theorem applyOutcome_noResp (h : s.dev.active = .receive ∨ s.dev.active = .mfAuthent) :
    applyOutcome .noResp s = (s.emit (.outcome .noResp)).orX .comIrq timerIrq := by
  rcases h with h | h <;> simp only [applyOutcome, State.emit_dev, h]

theorem applyOutcome_authOk (h : s.dev.active = .mfAuthent) :
    applyOutcome .authOk s = (((s.emit (.outcome .authOk)).orX .status2 mfCrypto1On).orX
      .comIrq idleIrq).setActive .idle := by
  simp only [applyOutcome, State.emit_dev, h]

theorem applyOutcome_authErr (h : s.dev.active = .mfAuthent) (errs : Errs) :
    applyOutcome (.authErr errs) s = ((((s.emit (.outcome (.authErr errs))).orX
      .error errs.bits).orX .comIrq errIrq).orX .comIrq idleIrq).setActive .idle := by
  simp only [applyOutcome, State.emit_dev, h]

theorem applyOutcome_txDone (h : s.dev.active = .transmit) :
    applyOutcome .txDone s = (((s.emit (.outcome .txDone)).orX .comIrq txIrq).orX
      .comIrq idleIrq).setActive .idle := by
  simp only [applyOutcome, State.emit_dev, h]

end

theorem State.orX_read (s : State) (r : Reg) (m : Byte) (a : Nat) :
    (s.orX r m).dev.mem.read a = if a = s.addr r then s.x r ||| m else s.dev.mem.read a :=
  Memory.read_write _ _ _ _

/-- Two settings of bits in one register read as one. -/
theorem State.orX_orX_same_read (s : State) (r : Reg) (m n : Byte) (a : Nat) :
    ((s.orX r m).orX r n).dev.mem.read a = (s.orX r (m ||| n)).dev.mem.read a := by
  simp only [State.orX_eq, State.setX_mem, State.setX_cfg, State.setX_x_same, Memory.read_write,
    BitVec.or_assoc]
  split <;> rfl

/-- Settings of bits in two registers do not meet. -/
theorem State.orX_orX_ne_read (s : State) {q r : Reg} (h : r ≠ q) (m n : Byte) (a : Nat) :
    ((s.orX q m).orX r n).dev.mem.read a =
      if a = s.addr q then s.x q ||| m else if a = s.addr r then s.x r ||| n
      else s.dev.mem.read a := by
  simp only [State.orX_eq, State.setX_mem, State.setX_cfg, State.setX_x_ne h, Memory.read_write]
  by_cases hq : a = s.addr q
  · simp [hq, h.symm]
  · simp [hq]

/-- Settles O24: each outcome, where its command admits it, is a few bits set. -/
theorem outcomesWithoutBytes : Obligations.OutcomesWithoutBytes := by
  intro s
  refine ⟨fun h => ?_, fun h => ?_, fun h => ⟨?_, fun errs => ?_⟩, fun h => ?_⟩
  · rw [applyOutcome_transceive_noResp h]
    exact ⟨_, rfl, rfl, fun r =>
      (State.orX_orX_same_read _ _ _ _ r).trans (State.orX_read _ _ _ r)⟩
  · rw [applyOutcome_noResp h]
    exact ⟨_, rfl, ⟨rfl, fun r hr => Memory.read_write_ne _ _ (List.ne_of_not_mem_cons hr)⟩,
      State.setX_x_same _ _ _⟩
  · rw [applyOutcome_authOk h]
    exact ⟨_, rfl, rfl, State.orX_orX_ne_read _ (by decide) _ _⟩
  · rw [applyOutcome_authErr h]
    exact ⟨_, rfl, rfl, fun r => (State.orX_orX_same_read _ _ _ _ r).trans
      (State.orX_orX_ne_read _ (by decide) _ _ r)⟩
  · rw [applyOutcome_txDone h]
    exact ⟨_, rfl, rfl, fun r =>
      (State.orX_orX_same_read _ _ _ _ r).trans (State.orX_read _ _ _ r)⟩

end Sys2Proof.Machine
end

section
/-! PROOF. The write and read rule of each register that starts nothing (41_device_commands.md rules
R204 to R214; 30_encoding.md rule R137). -/

namespace Sys2Proof.Machine

/-! ### One transaction on a named register -/

/-- A stored byte is the one register a transaction touches. -/
theorem Touched.emit_setAt (s : State) (e : Event) (a : Nat) (v : Byte) :
    Touched s ((s.emit e).setAt a v) e [a] where
  frame := rfl
  others _ hr := Memory.read_write_ne _ _ (List.ne_of_not_mem_cons hr)

section
variable {s : State} (hopen : s.ctl.closed = false) (hhigh : s.rst = .high)
include hopen hhigh

theorem exec_writeReg_named (r : Reg) (d : Byte) : exec (.writeReg (s.addr r) d) s =
    .next (endOfTransaction (deviceWrite (s.addr r) d (s.emit (.bus .w (s.addr r) d)))) :=
  exec_writeReg_high hopen hhigh (s.cfg.map.addr_lt r) d

theorem exec_readReg_named (r : Reg) : exec (.readReg (s.addr r)) s =
    .next (endOfTransaction ((deviceRead (s.addr r) s).2.emit
      (.bus .r (s.addr r) (deviceRead (s.addr r) s).1))) :=
  exec_readReg_high hopen hhigh (s.cfg.map.addr_lt r)

/-- A write that stores one byte touches one register. -/
theorem exec_writeReg_of_store {r : Reg} {d v : Byte}
    (h : deviceWrite (s.addr r) d (s.emit (.bus .w (s.addr r) d)) =
      (s.emit (.bus .w (s.addr r) d)).setX r v) :
    ∃ t, exec (.writeReg (s.addr r) d) s = .next (endOfTransaction t) ∧
      Touched s t (.bus .w (s.addr r) d) [s.addr r] ∧ t.x r = v := by
  rw [exec_writeReg_named hopen hhigh, h]
  exact ⟨_, rfl, .emit_setAt s _ _ v, State.setX_x_same r v _⟩

/-- A read that only looks. -/
theorem exec_readReg_of_look {r : Reg} {v : Byte} (h : deviceRead (s.addr r) s = (v, s)) :
    exec (.readReg (s.addr r)) s = .next (endOfTransaction (s.emit (.bus .r (s.addr r) v))) := by
  rw [exec_readReg_named hopen hhigh, h]

/-- A read that takes one draw, and what it makes of it. -/
theorem exec_readReg_of_draw {r : Reg} {f : Byte → Byte}
    (h : deviceRead (s.addr r) s = (f s.draw.1, s.draw.2)) :
    ∃ v, exec (.readReg (s.addr r)) s = .next (endOfTransaction { s with
        trace := s.trace ++ [.bus .r (s.addr r) (f v)]
        oracle := { s.oracle with draws := s.oracle.draws.tail, made := s.oracle.made + 1 } }) ∧
      ∀ b bs, s.oracle.draws = b :: bs → v = b := by
  obtain ⟨v, hdraw, hv⟩ := s.draw_spec
  refine ⟨v, ?_, hv⟩
  rw [exec_readReg_named hopen hhigh, h, hdraw]
  rfl

end

/-! ### Storage registers -/

/-- What stands at a storage address: no named register, or one of those that store (R213). -/
theorem regAt_of_isStorage {m : AddressMap} {a : Nat} (h : isStorage m a = true) :
    m.regAt a = none ∨ ∃ r, r ∉ actingRegs ∧ a = m.addr r := by
  cases hr : m.regAt a with
  | none => exact .inl rfl
  | some r =>
    obtain rfl := AddressMap.eq_addr_of_regAt hr
    refine .inr ⟨r, ?_, rfl⟩
    simp only [isStorage, Bool.and_eq_true, decide_eq_true_eq, Bool.not_eq_true',
      List.contains_eq_mem, decide_eq_false_iff_not] at h
    exact fun hacting => h.2 (List.mem_map_of_mem hacting)

theorem lt_limit_of_isStorage {m : AddressMap} {a : Nat} (h : isStorage m a = true) :
    a < m.limit := by
  simp only [isStorage, Bool.and_eq_true, decide_eq_true_eq] at h
  exact h.1

theorem deviceWrite_storage {s : State} {a : Nat} (h : isStorage s.cfg.map a = true) (d : Byte) :
    deviceWrite a d s = s.setAt a d := by
  rcases regAt_of_isStorage h with hnone | ⟨r, hacting, rfl⟩
  · simp only [deviceWrite, hnone]
  · cases r with
    | comIEn | divIEn | mode | txControl | txAsk | rfCfg | tMode | tPrescaler | tReloadH
      | tReloadL =>
      simp only [deviceWrite, AddressMap.regAt_addr]
      rfl
    | _ => exact absurd (by decide) hacting

theorem deviceRead_storage {s : State} {a : Nat} (h : isStorage s.cfg.map a = true) :
    deviceRead a s = (s.dev.mem.read a, s) := by
  rcases regAt_of_isStorage h with hnone | ⟨r, hacting, rfl⟩
  · simp only [deviceRead, hnone]
  · cases r with
    | comIEn | divIEn | mode | txControl | txAsk | rfCfg | tMode | tPrescaler | tReloadH
      | tReloadL =>
      simp only [deviceRead, AddressMap.regAt_addr]
      rfl
    | _ => exact absurd (by decide) hacting

/-- Settles O11: the write and the read of an address that stores are of its cell. -/
theorem storageRegisters : Obligations.StorageRegisters := by
  intro s a d hopen hhigh
  refine ⟨fun h => ?_, ?_⟩
  · rw [exec_writeReg_high hopen hhigh (lt_limit_of_isStorage h),
      deviceWrite_storage (s := s.emit _) h]
    exact ⟨_, rfl, .emit_setAt s _ a d, Memory.read_write_same _ a d⟩
  · rintro (h | rfl)
    · rw [exec_readReg_high hopen hhigh (lt_limit_of_isStorage h), deviceRead_storage h]
    · exact exec_readReg_of_look hopen hhigh (by simp only [deviceRead, AddressMap.regAt_addr]; rfl)

/-! ### Registers whose write is ignored -/

theorem deviceWrite_ignored (s : State) {r : Reg} (d : Byte)
    (h : r ∈ [Reg.error, .crcResultM, .crcResultL, .control, .status1, .tCounterH, .tCounterL]) :
    deviceWrite (s.addr r) d s = s := by
  cases r with
  | error | crcResultM | crcResultL | control | status1 | tCounterH | tCounterL =>
    simp only [deviceWrite, AddressMap.regAt_addr]
  | _ => exact absurd h (by decide)

/-- A counter register reads as a draw whole. -/
theorem deviceRead_counter (s : State) {r : Reg} (h : r = .tCounterH ∨ r = .tCounterL) :
    deviceRead (s.addr r) s = s.draw := by
  rcases h with rfl | rfl <;> simp only [deviceRead, AddressMap.regAt_addr]

theorem lowByte_eq (c : Word16) : lowByte c = c.extractLsb 7 0 := by
  ext i
  simp [lowByte]

theorem highByte_eq (c : Word16) : highByte c = c.extractLsb 15 8 := by
  ext i
  simp [highByte]

/-- CRCReady in its place among drawn bits (R212). -/
theorem status1_bits (b x : Byte) :
    ((b &&& ~~~crcReady) ||| (x &&& crcReady)).getLsbD 5 = x.getLsbD 5 ∧
    ((b &&& ~~~crcReady) ||| (x &&& crcReady)) &&& 0xDF = b &&& 0xDF := by
  refine ⟨by simp, ?_⟩
  rw [BitVec.and_or_distrib_right]
  simp [BitVec.and_assoc]

/-- Settles O12: the ignored writes, the reads that look, and the reads that draw. -/
theorem readOnlyRegisters : Obligations.ReadOnlyRegisters := by
  intro s d hopen hhigh
  refine ⟨fun r hr => ?_, ?_, ?_⟩
  · rw [exec_writeReg_named hopen hhigh]
    exact congrArg (fun t => Host.Outcome.next (endOfTransaction t))
      (deviceWrite_ignored (s.emit _) d hr)
  · simp only [List.forall_mem_cons]
    refine ⟨?_, ?_, ?_, ?_, ?_, ?_⟩
    · exact exec_readReg_of_look hopen hhigh (by simp [deviceRead])
    · exact exec_readReg_of_look hopen hhigh (by simp [deviceRead, highByte_eq])
    · exact exec_readReg_of_look hopen hhigh (by simp [deviceRead, lowByte_eq])
    · exact exec_readReg_of_look hopen hhigh (by simp [deviceRead])
    · exact exec_readReg_of_look hopen hhigh (by simp [deviceRead, commandByte])
    · simp
  · intro r hr
    obtain rfl | hcounter : r = .status1 ∨ r = .tCounterH ∨ r = .tCounterL := by simpa using hr
    · obtain ⟨v, hexec, hv⟩ := exec_readReg_of_draw hopen hhigh (r := .status1)
        (f := fun b => (b &&& ~~~crcReady) ||| (s.x .status1 &&& crcReady))
        (by simp [deviceRead, readStatus1])
      refine ⟨_, hexec, fun _ => (status1_bits _ _).1, fun b bs hb => ⟨?_, fun h => absurd rfl h⟩⟩
      rw [hv b bs hb, (status1_bits _ _).2]
    · obtain ⟨v, hexec, hv⟩ := exec_readReg_of_draw hopen hhigh (f := id)
        (deviceRead_counter s hcounter)
      refine ⟨v, hexec, ?_, fun b bs hb => ?_⟩
      · rintro rfl
        exact absurd hcounter (by decide)
      · rw [hv b bs hb]
        exact ⟨rfl, fun _ => rfl⟩

/-! ### Interrupt requests -/

/-- ComIrqReg bit by bit (R204): Set1 itself is not stored. -/
theorem comIrqAfter_bits (old v : Byte) :
    (comIrqAfter old v).getLsbD 7 = old.getLsbD 7 ∧
    (comIrqAfter old v).extractLsb 6 0 =
      if v.getLsbD 7 then old.extractLsb 6 0 ||| v.extractLsb 6 0
      else old.extractLsb 6 0 &&& ~~~(v.extractLsb 6 0) := by
  have hlow : (v &&& 0x7F).extractLsb 6 0 = v.extractLsb 6 0 :=
    BitVec.extractLsb_and.trans BitVec.and_allOnes
  unfold comIrqAfter
  cases v.getLsbD 7 with
  | false =>
    refine ⟨by simp, ?_⟩
    simp only [Bool.false_eq_true, if_false]
    rw [BitVec.extractLsb_and, BitVec.extractLsb_not_of_lt (by decide) (by decide), hlow]
  | true =>
    refine ⟨by simp, ?_⟩
    simp only [if_true]
    rw [BitVec.extractLsb_or, hlow]

/-- Settles O13: the two request registers follow one rule, each on its own bits. -/
theorem interruptRequestRegisters : Obligations.InterruptRequestRegisters := by
  intro s d hopen hhigh
  refine ⟨?_, ?_, ?_, ?_⟩
  · obtain ⟨t, hexec, htouched, hx⟩ := exec_writeReg_of_store hopen hhigh (r := .comIrq) (d := d)
      (v := comIrqAfter (s.x .comIrq) d) (by simp [deviceWrite])
    exact ⟨t, hexec, htouched, hx ▸ comIrqAfter_bits _ _⟩
  · exact exec_readReg_of_look hopen hhigh (by simp [deviceRead])
  · exact exec_writeReg_of_store hopen hhigh (v := divIrqAfter (s.x .divIrq) d)
      (by simp [deviceWrite])
  · exact exec_readReg_of_look hopen hhigh (by simp [deviceRead])

/-! ### Status2Reg -/

/-- Status2Reg bit by bit (R209): bits 7 and 6 are stored, bit 3 only clears. -/
theorem status2After_getLsbD (old v : Byte) {n : Nat} (hn : n < 8) :
    (status2After old v).getLsbD n =
      if n = 7 ∨ n = 6 then v.getLsbD n
      else if n = 3 ∧ v.getLsbD 3 = false then false
      else old.getLsbD n := by
  unfold status2After
  cases v.getLsbD 3 with
  | false => interval_cases n <;> simp
  | true => interval_cases n <;> simp

/-- The stored bits and ModemState of a Status2Reg read keep apart (R209). -/
theorem status2_bits (x b : Byte) :
    ((x &&& 0xC8) ||| (b &&& 0x07)) &&& 0xF8 = x &&& 0xC8 ∧
    ((x &&& 0xC8) ||| (b &&& 0x07)) &&& 0x07 = b &&& 0x07 := by
  constructor <;> rw [BitVec.and_or_distrib_right] <;> simp [BitVec.and_assoc]

/-- Settles O14: what the write leaves bit by bit, and the read by the active command. -/
theorem status2Register : Obligations.Status2Register := by
  intro s d hopen hhigh
  refine ⟨?_, fun hidle => ?_, fun hactive => ?_⟩
  · obtain ⟨t, hexec, htouched, hx⟩ := exec_writeReg_of_store hopen hhigh (r := .status2) (d := d)
      (v := status2After (s.x .status2) d) (by simp [deviceWrite])
    exact ⟨t, hexec, htouched, fun n hn => hx ▸ status2After_getLsbD _ _ hn⟩
  · exact exec_readReg_of_look hopen hhigh (by simp [deviceRead, readStatus2, hidle])
  · obtain ⟨v, hexec, hv⟩ := exec_readReg_of_draw hopen hhigh (r := .status2)
      (f := fun b => (s.x .status2 &&& 0xC8) ||| (b &&& 0x07))
      (by simp [deviceRead, readStatus2, hactive])
    refine ⟨_, hexec, (status2_bits _ _).1, fun b bs hb => ?_⟩
    rw [hv b bs hb, (status2_bits _ _).2]

end Sys2Proof.Machine
end

section
/-! PROOF. The FIFO port and the FIFO level (41_device_commands.md rules R200 to R203; 42_crc.md
rule R236). -/

namespace Sys2Proof.Machine

/-- A push leaves everything but the FIFO, ErrorReg and ComIrqReg. -/
theorem fifoPush_frame (v : Byte) (s : State) :
    fifoPush v s = { s with dev := { s.dev with
      fifo := (fifoPush v s).dev.fifo, mem := (fifoPush v s).dev.mem } } :=
  fifoPushAll_frame [v] s

theorem fifoPush_full {s : State} (h : ¬ s.dev.fifo.length < s.cfg.fifoDepth) (v : Byte) :
    fifoPush v s = (s.orX .error bufferOvfl).orX .comIrq errIrq := if_neg h

theorem fifoPush_fifo (v : Byte) (s : State) : (fifoPush v s).dev.fifo =
    if s.dev.fifo.length < s.cfg.fifoDepth then s.dev.fifo ++ [v] else s.dev.fifo := by
  split
  next h => rw [fifoPush_room h]; rfl
  next h => rw [fifoPush_full h]; rfl

/-- A byte lost on a full FIFO sets BufferOvfl and ErrIRq (R200). -/
theorem fifoPush_read (v : Byte) (s : State) (a : Nat) : (fifoPush v s).dev.mem.read a =
    if s.dev.fifo.length < s.cfg.fifoDepth then s.dev.mem.read a
    else if a = s.addr .error then s.x .error ||| bufferOvfl
    else if a = s.addr .comIrq then s.x .comIrq ||| errIrq
    else s.dev.mem.read a := by
  split
  next h => rw [fifoPush_room h]; rfl
  next h => rw [fifoPush_full h]; exact State.orX_orX_ne_read s (by decide) _ _ a

/-- A write of FIFODataReg is a push, and schedules processing while CalcCRC is active with nothing
scheduled (R200, R236). -/
theorem writeFifoData_eq (v : Byte) (s : State) :
    writeFifoData v s = (fifoPush v s).setCrcPending
      (if s.dev.active = .calcCrc ∧ s.dev.crcPending = none then some ⟨s.cfg.crcLatency, true⟩
        else s.dev.crcPending) := by
  unfold writeFifoData
  rw [fifoPush_frame]
  by_cases h : s.dev.active = .calcCrc ∧ s.dev.crcPending = none <;> simp only [h] <;> rfl

theorem writeFifoLevel_of_flush {v : Byte} (h : v.getLsbD 7 = true) (s : State) :
    writeFifoLevel v s = (s.setFifo []).clearX .error bufferOvfl := if_pos h

theorem writeFifoLevel_of_no_flush {v : Byte} (h : v.getLsbD 7 = false) (s : State) :
    writeFifoLevel v s = s := by
  simp only [writeFifoLevel, h, Bool.false_eq_true, if_false]

section
variable {s : State} (hopen : s.ctl.closed = false) (hhigh : s.rst = .high)
include hopen hhigh

theorem exec_writeReg_fifoData (d : Byte) : exec (.writeReg (s.addr .fifoData) d) s =
    .next (endOfTransaction (writeFifoData d (s.emit (.bus .w (s.addr .fifoData) d)))) := by
  rw [exec_writeReg_named hopen hhigh]
  simp only [deviceWrite, State.emit_cfg, AddressMap.regAt_addr]

theorem exec_writeReg_fifoLevel (d : Byte) : exec (.writeReg (s.addr .fifoLevel) d) s =
    .next (endOfTransaction (writeFifoLevel d (s.emit (.bus .w (s.addr .fifoLevel) d)))) := by
  rw [exec_writeReg_named hopen hhigh]
  simp only [deviceWrite, State.emit_cfg, AddressMap.regAt_addr]

theorem exec_readReg_fifoLevel : exec (.readReg (s.addr .fifoLevel)) s =
    .next (endOfTransaction (s.emit
      (.bus .r (s.addr .fifoLevel) (fifoLevelByte s.dev.fifo.length)))) :=
  exec_readReg_of_look hopen hhigh (by simp only [deviceRead, AddressMap.regAt_addr])

end

/-- Settles O15: each access of the FIFO port and of the level, by the state of the FIFO. -/
theorem fifoRegisters : Obligations.FifoRegisters := by
  intro s d hopen hhigh
  obtain ⟨hshort, hbit⟩ := fifoLevelByte_spec s.dev.fifo.length
  refine ⟨?_, fun v vs hcons => ?_, fun hnil => ?_, fun hflush => ?_, fun hkeep => ?_,
    fun hlen => ?_, fun _ => ⟨_, exec_readReg_fifoLevel hopen hhigh, hbit⟩⟩
  · rw [exec_writeReg_fifoData hopen hhigh, writeFifoData_eq]
    refine ⟨_, rfl, ?_, fifoPush_read d _⟩
    rw [fifoPush_frame, fifoPush_fifo]
    rfl
  · rw [exec_readReg_named hopen hhigh]
    simp [deviceRead, readFifoData, hcons]
  · exact exec_readReg_of_draw hopen hhigh (f := id) (by simp [deviceRead, readFifoData, hnil])
  · rw [exec_writeReg_fifoLevel hopen hhigh, writeFifoLevel_of_flush hflush]
    exact ⟨_, rfl, rfl, fun r => Memory.read_write _ _ r _⟩
  · rw [exec_writeReg_fifoLevel hopen hhigh, writeFifoLevel_of_no_flush hkeep]
  · rw [exec_readReg_fifoLevel hopen hhigh, hshort hlen]

end Sys2Proof.Machine
end

section
/-! PROOF. CommandReg writes, rounds and the outcomes a round admits (41_device_commands.md rules
R183, R184, R186 to R192, R198). -/

namespace Sys2Proof.Machine

/-! ### CommandReg writes -/

/-- The common steps of a CommandReg write, after its place in the trace (R183). -/
theorem terminateCommand_terminated (s : State) (code : Byte) :
    Terminated s (terminateCommand (s.emit (.bus .w (s.addr .command) code))) code where
  frame := rfl
  command := (Memory.read_write_same _ _ _).trans (and_not_command _)
  others _ hr := Memory.read_write_ne _ _ hr

/-- A command is one write of its code, which ends what ran before and starts it (40_bus.md rule
R165; R183). -/
theorem exec_ofCommand {s : State} (hopen : s.ctl.closed = false) (hhigh : s.rst = .high)
    (c : Command) : exec (.ofCommand c) s = .next (endOfTransaction (startCommand c
      (terminateCommand (s.emit (.bus .w (s.addr .command) c.byte))))) := by
  have hexec : exec (.ofCommand c) s = .next (whenOpen (setCommand c) s) := by
    rcases c with a | _
    · cases a <;> rfl
    · rfl
  have hc : Command.ofByte c.byte = some c := Command.ofByte_eq_some_iff.2 rfl
  have hwrite (t : State) : deviceWrite (t.addr .command) c.byte t =
      startCommand c (terminateCommand t) := by
    rw [deviceWrite_command, writeCommand, hc]
  rw [hexec, whenOpen_open hopen, setCommand, regWrite_high hhigh]
  exact congrArg (fun t => Host.Outcome.next (endOfTransaction t)) (hwrite (s.emit _))

/-- A command that leaves nothing pending is its write alone. -/
theorem exec_ofCommand_quiet {s t : State} (hopen : s.ctl.closed = false) (hhigh : s.rst = .high)
    (c : Command)
    (ht : startCommand c (terminateCommand (s.emit (.bus .w (s.addr .command) c.byte))) = t)
    (hp : t.dev.pending = none) (hc : t.dev.crcPending = none) :
    exec (.ofCommand c) s = .next t := by
  rw [exec_ofCommand hopen hhigh, ht, endOfTransaction_none hp hc]

/-- Settles O18: nothing is pending after these three writes, so none applies at the end. -/
theorem idleTransceiveAndSoftReset : Obligations.IdleTransceiveAndSoftReset := by
  intro s hopen hhigh
  have hexec (c : Command) {t : State} := exec_ofCommand_quiet (t := t) hopen hhigh c
  exact ⟨⟨_, terminateCommand_terminated s _, hexec (.start .idle) rfl rfl rfl⟩,
    ⟨_, terminateCommand_terminated s _, hexec (.start .transceive) rfl rfl rfl⟩,
    ⟨_, hexec .softReset rfl rfl rfl, rfl, fun _ => rfl, rfl, rfl, rfl, rfl, rfl, rfl, rfl⟩⟩

/-! ### Rounds -/

/-- What limits an answer is in three registers (R198). -/
theorem limitAnswer_congr {s t : State} (htx : t.x .txControl = s.x .txControl)
    (hcmd : t.x .command = s.x .command) (hmode : t.x .tMode = s.x .tMode) (a : Active)
    (frame : List Byte) (ans : Answer) : limitAnswer a frame t ans = limitAnswer a frame s ans := by
  cases ans with
  | never => rfl
  | after d o =>
    have : admissible a frame t o = admissible a frame s o := by
      cases o <;> simp only [admissible, fieldOn, rxOn, tAuto, htx, hcmd, hmode]
    simp only [limitAnswer, this]

theorem clearRoundErrors_x_ne (s : State) {r : Reg} (h : r ≠ .error) :
    (clearRoundErrors s).x r = s.x r := State.setX_x_ne h _ s

/-- The error bits cleared and the oracle asked (R187, R192). -/
theorem askOracle_clearRoundErrors_eq (a : Active) (frame : List Byte) (s : State) :
    askOracle a frame (clearRoundErrors s) = { s with
      dev := { s.dev with
        mem := s.dev.mem.write (s.addr .error) (s.x .error &&& 0xF0)
        pending := some
          ⟨limitAnswer a frame s (s.answerTo a frame ((s.x .bitFraming).setWidth 3)), true⟩ }
      oracle := { s.oracle with rounds := s.oracle.rounds.tail, made := s.oracle.made + 1 } } := by
  rw [askOracle, State.nextAnswer_eq, clearRoundErrors_x_ne s (by decide),
    limitAnswer_congr (clearRoundErrors_x_ne s (by decide)) (clearRoundErrors_x_ne s (by decide))
      (clearRoundErrors_x_ne s (by decide))]
  rfl

/-- Receive's round transmits nothing and leaves the FIFO (R187). -/
theorem askOracle_clearRoundErrors_asked (a : Active) (frame : List Byte) (s : State) :
    OracleAsked s (askOracle a frame (clearRoundErrors s)) a frame [] s.dev.fifo := by
  rw [askOracle_clearRoundErrors_eq]
  refine ⟨?_, Memory.read_write_same _ _ _, fun _ hr => Memory.read_write_ne _ _ hr⟩
  rw [List.append_nil]

/-- A round transmits the FIFO whole, and then asks the oracle about that frame (R192). -/
theorem startRound_started (a : Active) (s : State) : RoundStarted s (startRound a s) a := by
  rw [startRound, askOracle_clearRoundErrors_eq]
  exact ⟨rfl, Memory.read_write_same _ _ _, fun _ hr => Memory.read_write_ne _ _ hr⟩

/-- Settles O20: the three commands that start a round as they become active. -/
theorem roundsStartedByCommands : Obligations.RoundsStartedByCommands := by
  intro s hopen hhigh
  exact ⟨⟨_, _, terminateCommand_terminated s _, startRound_started _ _,
      exec_ofCommand hopen hhigh (.start .transmit)⟩,
    ⟨_, _, terminateCommand_terminated s _, startRound_started _ _,
      exec_ofCommand hopen hhigh (.start .mfAuthent)⟩,
    ⟨_, _, terminateCommand_terminated s _, askOracle_clearRoundErrors_asked _ _ _,
      exec_ofCommand hopen hhigh (.start .receive)⟩⟩

/-- Settles O17: the byte is stored, and a round starts where the write's condition holds. -/
theorem startSendStartsTheRound : Obligations.StartSendStartsTheRound := by
  intro s d hopen hhigh
  refine ⟨_, .emit_setAt s _ (s.addr .bitFraming) d, State.setX_x_same .bitFraming d (s.emit _),
    fun hd ha hx => ?_, fun hno => ?_⟩
  · exact ⟨_, startRound_started _ _, congrArg Host.Outcome.next
      ((whenOpen_open hopen _).trans (regWrite_startSend hhigh hd ha hx))⟩
  · rw [exec_writeReg_named hopen hhigh]
    simp only [deviceWrite, State.emit_cfg, AddressMap.regAt_addr]
    exact congrArg (fun t => Host.Outcome.next (endOfTransaction t)) (if_neg hno)

/-! ### Admissible outcomes -/

theorem fieldOn_iff (s : State) : fieldOn s = true ↔ (s.x .txControl).extractLsb 1 0 ≠ 0 := by
  have : ∀ v : Byte, fieldOnBit v = true ↔ v.extractLsb 1 0 ≠ 0 := by decide
  exact this _

theorem rxOn_iff (s : State) : rxOn s = true ↔ (s.x .command).getLsbD 5 = false := by
  have : ∀ v : Byte, rxOnBit v = true ↔ v.getLsbD 5 = false := by decide
  exact this _

theorem tAuto_iff (s : State) : tAuto s = true ↔ (s.x .tMode).getLsbD 7 = true := by
  have : ∀ v : Byte, tAutoBit v = true ↔ v.getLsbD 7 = true := by decide
  exact this _

/-! The table of R198 by outcome: whose round may have it, and on what conditions. -/

section
variable (a : Active) (frame : List Byte) (s : State)

theorem admissible_txDone_iff : admissible a frame s .txDone = true ↔ a = .transmit := by
  simp only [admissible, beq_iff_eq]

theorem admissible_resp_iff (bytes : List Byte) (lb : BitVec 3) (errs : Errs) :
    admissible a frame s (.resp bytes lb errs) = true ↔
      (a = .transceive ∨ a = .receive) ∧ bytes ≠ [] ∧ fieldOn s = true ∧ rxOn s = true := by
  simp only [admissible, Bool.and_eq_true, Bool.or_eq_true, beq_iff_eq, Bool.not_eq_true',
    List.isEmpty_eq_false_iff]
  tauto

theorem admissible_noResp_iff : admissible a frame s .noResp = true ↔
    (a = .transceive ∨ a = .receive ∨ (a = .mfAuthent ∧ frame.length = 12)) ∧ tAuto s = true := by
  simp only [admissible, Bool.and_eq_true, Bool.or_eq_true, beq_iff_eq, or_assoc]

theorem admissible_authOk_iff : admissible a frame s .authOk = true ↔
    a = .mfAuthent ∧ fieldOn s = true ∧ rxOn s = true ∧ frame.length = 12 := by
  simp only [admissible, Bool.and_eq_true, beq_iff_eq, and_assoc]

theorem admissible_authErr_iff (errs : Errs) : admissible a frame s (.authErr errs) = true ↔
    a = .mfAuthent ∧ fieldOn s = true ∧ rxOn s = true ∧
      ((frame.length = 12 ∧ errs ≠ Errs.none) ∨
        (frame.length ≠ 12 ∧ errs = Errs.protocolOnly)) := by
  by_cases h : frame.length = 12 <;> simp [admissible, h, and_assoc]

/-- No outcome but TX_DONE is admitted with the antenna off and TAuto = 0 (R379). -/
theorem not_admissible_of_off {o : LinkOutcome} (hfield : ¬ fieldOn s = true)
    (htimer : ¬ tAuto s = true) (ha : a ≠ .transmit) : ¬ admissible a frame s o = true := by
  intro h
  cases o with
  | txDone => exact ha ((admissible_txDone_iff a frame s).1 h)
  | resp bytes lb errs =>
    obtain ⟨-, -, hon, -⟩ := (admissible_resp_iff a frame s bytes lb errs).1 h
    exact hfield hon
  | noResp =>
    obtain ⟨-, hauto⟩ := (admissible_noResp_iff a frame s).1 h
    exact htimer hauto
  | authOk =>
    obtain ⟨-, hon, -⟩ := (admissible_authOk_iff a frame s).1 h
    exact hfield hon
  | authErr errs =>
    obtain ⟨-, hon, -⟩ := (admissible_authErr_iff a frame s errs).1 h
    exact hfield hon

end

theorem limitAnswer_of_admissible {a : Active} {frame : List Byte} {s : State} {o : LinkOutcome}
    (h : admissible a frame s o = true) (d : Nat) :
    limitAnswer a frame s (.after d o) = .after d o :=
  if_pos h

theorem limitAnswer_of_not_admissible {a : Active} {frame : List Byte} {s : State} {o : LinkOutcome}
    (h : ¬ admissible a frame s o = true) (d : Nat) :
    limitAnswer a frame s (.after d o) = .never :=
  if_neg h

/-- Settles O22: the table of R198 outcome by outcome; every other pair is inadmissible. -/
theorem admissibleOutcomes : Obligations.AdmissibleOutcomes := by
  intro s a frame d o field rx timer admits
  have hfield : field ↔ fieldOn s = true := (fieldOn_iff s).symm
  have hrx : rx ↔ rxOn s = true := (rxOn_iff s).symm
  have htimer : timer ↔ tAuto s = true := (tAuto_iff s).symm
  have htable : admissible a frame s o = true ↔ admits := by
    cases o with
    | txDone => cases a <;> simp [admissible_txDone_iff, admits]
    | resp bytes lb errs => cases a <;> simp [admissible_resp_iff, admits, hfield, hrx]
    | noResp => cases a <;> simp [admissible_noResp_iff, admits, htimer, and_comm]
    | authOk => cases a <;> simp [admissible_authOk_iff, admits, hfield, hrx]
    | authErr errs => cases a <;> simp [admissible_authErr_iff, admits, hfield, hrx]
  exact ⟨fun h => limitAnswer_of_admissible (htable.2 h) d,
    fun h => limitAnswer_of_not_admissible (mt htable.1 h) d, rfl,
    fun hf ht ha => limitAnswer_of_not_admissible
      (not_admissible_of_off a frame s (mt hfield.2 hf) (mt htimer.2 ht) ha) d⟩

end Sys2Proof.Machine
end

section
/-! PROOF. The CRC generator: both its forms, its residue and its linearity (42_crc.md rules R230,
R231, R240, R242). -/

namespace Sys2Proof.Machine

/-! ### The shift -/

/-- What the bit shifted out puts back into the register (R230). -/
def crcFeedback (out : Bool) : Word16 := if out then 0x8408 else 0x0000

theorem crcFeedback_xor (a b : Bool) :
    crcFeedback (a ^^ b) = crcFeedback a ^^^ crcFeedback b := by
  cases a <;> cases b <;> rfl

theorem crcShift_eq (c : Word16) : crcShift c = c >>> 1 ^^^ crcFeedback (c.getLsbD 0) := by
  unfold crcShift crcFeedback
  split
  · rfl
  · exact BitVec.xor_zero.symm

theorem crcShift_xor (c d : Word16) : crcShift (c ^^^ d) = crcShift c ^^^ crcShift d := by
  simp only [crcShift_eq, BitVec.getLsbD_xor, crcFeedback_xor, BitVec.ushiftRight_xor_distrib]
  ac_rfl

theorem crcShift_iterate_xor (n : Nat) (c d : Word16) :
    crcShift^[n] (c ^^^ d) = crcShift^[n] c ^^^ crcShift^[n] d := by
  induction n generalizing c d with
  | zero => rfl
  | succ n ih => simp only [Function.iterate_succ_apply, crcShift_xor, ih]

/-- While only zeros are shifted out nothing comes back. -/
theorem crcShift_iterate_of_low_zero (n : Nat) {c : Word16} (h : ∀ i < n, c.getLsbD i = false) :
    crcShift^[n] c = c >>> n := by
  induction n generalizing c with
  | zero => exact c.ushiftRight_zero.symm
  | succ n ih =>
    have hshift : crcShift c = c >>> 1 := by
      rw [crcShift_eq, h 0 n.succ_pos]
      exact BitVec.xor_zero
    have hnext (i : Nat) (hi : i < n) : (c >>> 1).getLsbD i = false := by
      rw [BitVec.getLsbD_ushiftRight]
      exact h (1 + i) (by omega)
    rw [Function.iterate_succ_apply, hshift, ih hnext, ← BitVec.shiftRight_add, Nat.add_comm]

/-! ### One byte -/

theorem crcByte_eq (c : Word16) (b : Byte) :
    crcByte c b = crcShift^[8] (c ^^^ b.setWidth 16) := rfl

theorem crcByte_xor (c d : Word16) (a b : Byte) :
    crcByte (c ^^^ d) (a ^^^ b) = crcByte c a ^^^ crcByte d b := by
  have hswap : c ^^^ d ^^^ (a.setWidth 16 ^^^ b.setWidth 16) =
      (c ^^^ a.setWidth 16) ^^^ (d ^^^ b.setWidth 16) := by ac_rfl
  rw [crcByte_eq, BitVec.setWidth_xor, hswap, crcShift_iterate_xor]
  rfl

/-- The register's own low byte clears it, so the eight shifts bring down the high byte (R240). -/
theorem crcByte_low (c : Word16) : crcByte c (c.extractLsb 7 0) = c >>> 8 := by
  have hlow (i : Nat) (hi : i < 8) :
      (c ^^^ (c.extractLsb 7 0).setWidth 16).getLsbD i = false := by
    simp [show i ≤ 7 by omega, show i < 16 by omega]
  rw [crcByte_eq, crcShift_iterate_of_low_zero 8 hlow]
  ext i hi
  simp

/-- What a byte in an otherwise empty register becomes, with no shift one by one (R231). -/
def crcOfByte (t : Byte) : Word16 :=
  let w : Word16 := (t ^^^ (t <<< 4)).setWidth 16
  (w <<< 8) ^^^ (w <<< 3) ^^^ (w >>> 4)

theorem crcByte_zero_left (t : Byte) : crcByte 0#16 t = crcOfByte t := by
  revert t
  decide

theorem crcByteFast_eq (c : Word16) (b : Byte) :
    crcByteFast c b = c >>> 8 ^^^ crcOfByte (c.extractLsb 7 0 ^^^ b) := by
  have hlow : c.setWidth 8 = c.extractLsb 7 0 := lowByte_eq c
  unfold crcByteFast crcOfByte
  rw [hlow, BitVec.xor_comm b]
  simp only [BitVec.xor_assoc]

theorem crcByteFast_eq_crcByte (c : Word16) (b : Byte) : crcByteFast c b = crcByte c b := by
  have hbyte : c.extractLsb 7 0 ^^^ (c.extractLsb 7 0 ^^^ b) = b := by
    rw [← BitVec.xor_assoc, BitVec.xor_self, BitVec.zero_xor]
  calc crcByteFast c b
    _ = crcByte c (c.extractLsb 7 0) ^^^ crcByte 0#16 (c.extractLsb 7 0 ^^^ b) := by
      rw [crcByteFast_eq, crcByte_low, crcByte_zero_left]
    _ = crcByte (c ^^^ 0#16) (c.extractLsb 7 0 ^^^ (c.extractLsb 7 0 ^^^ b)) :=
      (crcByte_xor _ _ _ _).symm
    _ = crcByte c b := by rw [hbyte, BitVec.xor_zero]

/-! ### A list of bytes -/

theorem crc16_nil (p : Word16) : crc16 p [] = p := rfl

theorem crc16_append (p : Word16) (xs ys : List Byte) :
    crc16 p (xs ++ ys) = crc16 (crc16 p xs) ys := List.foldl_append

theorem crc16Fast_eq_crc16 (p : Word16) (data : List Byte) : crc16Fast p data = crc16 p data :=
  congrArg (fun f => data.foldl f p) (funext₂ crcByteFast_eq_crcByte)

/-- A register followed by its own two bytes ends empty. -/
theorem crc16_own_bytes (c : Word16) : crc16 c [c.extractLsb 7 0, c.extractLsb 15 8] = 0 := by
  have hhigh : c.extractLsb 15 8 = (c >>> 8).extractLsb 7 0 := by
    ext i hi
    simp
  have hempty : c >>> 8 >>> 8 = 0 := by
    rw [← BitVec.shiftRight_add]
    exact BitVec.ushiftRight_eq_zero (le_refl 16)
  calc crc16 c [c.extractLsb 7 0, c.extractLsb 15 8]
    _ = crcByte (crcByte c (c.extractLsb 7 0)) (c.extractLsb 15 8) := rfl
    _ = 0 := by rw [crcByte_low, hhigh, crcByte_low, hempty]

theorem crc16_xor (p q : Word16) {xs ys : List Byte} (h : xs.length = ys.length) :
    crc16 p xs ^^^ crc16 q ys = crc16 (p ^^^ q) (List.zipWith (· ^^^ ·) xs ys) := by
  induction xs generalizing p q ys with
  | nil =>
    obtain rfl := List.length_eq_zero_iff.1 h.symm
    rfl
  | cons x xs ih =>
    match ys, h with
    | y :: ys, h =>
      have hrest := ih (crcByte p x) (crcByte q y) (Nat.succ.inj h)
      rwa [← crcByte_xor] at hrest

theorem crc16_zeros (n : Nat) : crc16 0 (List.replicate n 0) = 0 := by
  induction n with
  | zero => rfl
  | succ n ih => exact ih

/-- Settles O25: the byte step is linear in the register and the byte together, so its two forms agree
byte by byte, and three runs from one preset add up to one. -/
theorem crcGeneratorLaws : Obligations.CrcGeneratorLaws := by
  refine ⟨crc16Fast_eq_crc16, fun p data => ?_, fun p d1 d2 d3 h12 h23 => ?_, crc16_zeros⟩
  · rw [crc16_append]
    exact crc16_own_bytes _
  · have hlen : (List.zipWith (· ^^^ ·) d1 d2).length = d3.length := by simp [h12, h23]
    rw [crc16_xor p p h12, crc16_xor _ _ hlen, BitVec.xor_self, BitVec.zero_xor]

end Sys2Proof.Machine
end

section
/-! PROOF. The CRC coprocessor: CalcCRC's start, and the processing it schedules (42_crc.md rules
R232 to R236; 40_bus.md rule R166). -/

namespace Sys2Proof.Machine

/-! ### The start -/

theorem setWidth_two_eq_extractLsb (v : Byte) : v.setWidth 2 = v.extractLsb 1 0 := by
  ext i hi
  simp

/-- CalcCRC as it starts, with its processing not yet scheduled (R234). -/
def State.crcLoaded (s : State) : State :=
  { s with dev := { s.dev with
    crcAcc := crcPreset ((s.x .mode).extractLsb 1 0)
    mem := s.dev.mem.write (s.addr .status1) (s.x .status1 &&& 0xDF) } }

theorem State.crcLoaded_mode (s : State) : s.crcLoaded.x .mode = s.x .mode := by
  simp [State.crcLoaded, State.x, Memory.read_write]

theorem startCalcCrc_eq (s : State) : startCalcCrc s = scheduleCrc s.crcLoaded := by
  rw [State.crcLoaded, ← setWidth_two_eq_extractLsb]
  rfl

theorem exec_pcdCalcCrc {s : State} (hopen : s.ctl.closed = false) (hhigh : s.rst = .high) :
    exec .pcdCalcCrc s = .next (endOfTransaction (scheduleCrc ((terminateCommand
      (s.emit (.bus .w (s.addr .command) 0x03))).setActive .calcCrc).crcLoaded)) := by
  rw [← startCalcCrc_eq]
  exact exec_ofCommand hopen hhigh (.start .calcCrc)

/-- Settles O19: the write ends what ran before, loads the preset and schedules the processing. -/
theorem calcCrcLoadsThePreset : Obligations.CalcCrcLoadsThePreset := by
  intro s hopen hhigh
  refine ⟨_, _, terminateCommand_terminated s 0x03, exec_pcdCalcCrc hopen hhigh, ?_,
    fun r => Memory.read_write _ _ r _⟩
  have hmode : (terminateCommand (s.emit (.bus .w (s.addr .command) 0x03))).x .mode = s.x .mode :=
    terminateCommand_x _ .mode
  rw [← hmode]
  rfl

/-! ### The processing -/

theorem State.crcDone_read (u : State) (r : Nat) : u.crcDone.dev.mem.read r =
    if r = u.addr .status1 then u.x .status1 ||| 0x20
    else if r = u.addr .divIrq then u.x .divIrq ||| 0x04
    else u.dev.mem.read r := by
  simp only [State.crcDone, Memory.read_write]
  by_cases h : r = u.addr .status1 <;> simp [h]

theorem State.crcDone_x (u : State) (q : Reg) : u.crcDone.x q =
    if q = .status1 then u.x .status1 ||| 0x20
    else if q = .divIrq then u.x .divIrq ||| 0x04
    else u.x q := by
  have hread := u.crcDone_read (u.addr q)
  simp only [AddressMap.addr_eq_iff] at hread
  exact hread

theorem processCrc_of_msbFirst {s : State} (h : (s.x .mode).getLsbD 7 = true) :
    processCrc s = s.addFault .unmodelledCrcMode := if_pos h

/-- Processing due at the end of this transaction: a countdown that runs out, or a fresh 0 (R166). -/
theorem endOfTransaction_of_crc_due {s : State} (hp : s.dev.pending = none)
    (hc : s.dev.crcPending = some ⟨1, false⟩ ∨ s.dev.crcPending = some ⟨0, true⟩) :
    endOfTransaction s = processCrc (s.setCrcPending none) := by
  rw [endOfTransaction_of_pending_none hp]
  rcases hc with hc | hc
  · exact tickCrc_of_counted hc
  · exact tickCrc_of_fresh hc

/-- Settles O26: the processing applies, and which of its two meanings it has is ModeReg's bit 7. -/
theorem crcProcessingApplies : Obligations.CrcProcessingApplies := by
  refine ⟨fun s hp hc => ⟨fun hlsb => ?_, fun hmsb => ?_⟩,
    fun p xs ys => (crc16_append p xs ys).symm⟩
  · rw [endOfTransaction_of_crc_due hp hc, processCrc_eq (u := s.setCrcPending none) hlsb]
    exact ⟨_, rfl, rfl, State.crcDone_read (s.setCrcPending none)⟩
  · rw [endOfTransaction_of_crc_due hp hc,
      processCrc_of_msbFirst (s := s.setCrcPending none) hmsb]
    exact ⟨_, rfl, .of_addFault (by rfl) _, State.addFault_frame _ _⟩

end Sys2Proof.Machine
end

section
/-! PROOF. The compute_crc task: within its poll budget, past it, and entered again while CalcCRC is
active (42_crc.md rules R245 to R248; 70_reset_and_hazards.md rule R383). -/

namespace Sys2Proof.Machine

/-! ### The task and the end of its trace -/

/-- The trace only grows (10_state.md rule R33). -/
theorem Prog.run_trace_grows {α : Type} (p : Prog α) (s : State) :
    ∃ es, (p.run s).1.trace = s.trace ++ es := by
  obtain ⟨es, he, -⟩ := (Prog.run_later later_onlyByAuthOk p s).events
  exact ⟨es, he⟩

/-- The last event of a task is its `Return` with what it returned. -/
theorem Prog.run_asTask_last {α : Type} {name : TaskName} {res : α → Result} {p : Prog α}
    {s t : State} {a : α} (h : (p.asTask name res).run s = (t, .ok a)) :
    ∃ es, t.trace = s.trace ++ es ∧ es.getLast? = some (.ret name (res a)) := by
  obtain ⟨es, he⟩ := Prog.run_trace_grows p s
  rw [Prog.run_asTask] at h
  match hp : p.run s with
  | (u, .error e) => exact nomatch hp ▸ h
  | (u, .ok b) =>
    rw [hp] at h he
    obtain ⟨rfl, hb⟩ := Prod.mk.inj h
    obtain rfl := Except.ok.inj hb
    exact ⟨es ++ [.ret name (res b)], by simp [show u.trace = _ from he], by simp⟩

/-- A compute_crc call, from its program's run. -/
theorem runTask_computeCrc {s t : State} {buf : List Byte} {lo hi : Byte}
    (hopen : s.ctl.closed = false)
    (hrun : (computeCrc buf).run (s.setAwaiting none) = (t, .ok (lo, hi))) :
    runTask (.computeCrc buf) s = t ∧
      ∃ es, t.trace = s.trace ++ es ∧ es.getLast? = some (.ret .computeCrc (.crc lo hi)) := by
  refine ⟨?_, Prog.run_asTask_last (res := fun r : Byte × Byte => .crc r.1 r.2) hrun⟩
  rw [runTask_open _ hopen, taskProg, runProg, Prog.run_bind_ok hrun, Prog.run_ret]

/-! ### Within the poll budget -/

/-- Settles O27: the run within the budget, whose events end in the result. -/
theorem computeCrcReturnsTheCrc : Obligations.ComputeCrcReturnsTheCrc := by
  intro s buf hopen hq hn hlsb hk hroom c
  obtain ⟨t, es, hrun, hdone, hes, -, hcost⟩ :=
    computeCrc_run (s := s.setAwaiting none) (hq.of_eq rfl rfl rfl) hn hlsb hk hroom
  rw [State.setAwaiting_x, setWidth_two_eq_extractLsb, lowByte_eq, highByte_eq] at hrun
  obtain ⟨htask, fs, hfs, hlast⟩ := runTask_computeCrc hopen hrun
  obtain rfl : es = fs := List.append_cancel_left (hes.symm.trans hfs)
  obtain ⟨hframe, hread⟩ := hdone
  rw [State.setAwaiting_x, setWidth_two_eq_extractLsb] at hframe
  refine ⟨t, es, htask, hes, hlast, ?_, hframe, hread⟩
  rw [hcost, State.setAwaiting_cfg]
  omega

/-! ### The poll and the result reads -/

/-- The two result reads (R245). -/
def crcResults : Prog (Byte × Byte) :=
  .read .crcResultL fun lo => .read .crcResultM fun hi => .ret (lo, hi)

/-- What follows the CommandReg write: the poll for CRCIRq, and the result reads (R245). -/
def awaitCrc : Prog (Byte × Byte) :=
  (Prog.poll .divIrq (fun n => n &&& crcIrq != 0) pollBudgetCrc).bind fun
    | some _ => crcResults
    | none => .act .countExhausted crcResults

theorem computeCrc_eq (buf : List Byte) : computeCrc buf =
    .asTask .computeCrc (fun r => .crc r.1 r.2) (.clearCrcIrq <| .flushFifo <| .loadFifo buf <|
      .setCommand (.start .calcCrc) awaitCrc) := rfl

@[simp] theorem State.crcCounting_ctl (u : State) (k : Nat) : (u.crcCounting k).ctl = u.ctl := by
  unfold State.crcCounting
  split <;> rfl

@[simp] theorem State.crcCounting_trace (u : State) (k : Nat) :
    (u.crcCounting k).trace = u.trace := by
  unfold State.crcCounting
  split <;> rfl

/-- The CRC result registers while `k` more transactions must pass: stale until the processing has
applied (R246). -/
def State.crcAfter (u : State) (k : Nat) : Word16 :=
  if k = 0 then crc16 u.dev.crcAcc u.dev.fifo else u.dev.crcResult

theorem State.crcCounting_crcResult (u : State) (k : Nat) :
    (u.crcCounting k).dev.crcResult = u.crcAfter k := by
  unfold State.crcCounting State.crcAfter
  split <;> rfl

/-- The count of exhausted polls is apart from the processing. -/
theorem doAct_countExhausted_crcCounting (u : State) (k : Nat) :
    doAct .countExhausted (u.crcCounting k) = (doAct .countExhausted u).crcCounting k := by
  unfold State.crcCounting
  split <;> rfl

theorem deviceRead_crcResultL (s : State) :
    deviceRead (s.addr .crcResultL) s = (lowByte s.dev.crcResult, s) := by
  simp only [deviceRead, AddressMap.regAt_addr]

theorem deviceRead_crcResultM (s : State) :
    deviceRead (s.addr .crcResultM) s = (highByte s.dev.crcResult, s) := by
  simp only [deviceRead, AddressMap.regAt_addr]

section
variable {u : State} (hq : u.Quiet) (hlsb : (u.x .mode).getLsbD 7 = false)
include hq hlsb

/-- A read that only looks counts the processing down, or finds it done. -/
theorem regRead_crcCounting_of_look {r : Reg} {look : State → Byte}
    (hlook : ∀ s : State, deviceRead (s.addr r) s = (look s, s)) (k : Nat) :
    regRead r (u.crcCounting k) = (look (u.crcCounting k),
      (u.emit (.bus .r (u.addr r) (look (u.crcCounting k)))).crcCounting (k - 1)) := by
  have hv := hlook (u.crcCounting k)
  cases k with
  | zero => exact regRead_quiet (s := u.crcDone) (hq.of_eq rfl rfl rfl) r _ hv
  | succ k => exact regRead_crcCounting hq hlsb k r _ hv

/-- Each of the two result reads sees the processing applied, or not yet (R246). -/
theorem run_crcResults (k : Nat) :
    ∃ t, crcResults.run (u.crcCounting k) =
        (t, .ok (lowByte (u.crcAfter k), highByte (u.crcAfter (k - 1)))) ∧
      t.ctl = u.ctl ∧ t.trace = u.trace ++
        [.bus .r (u.addr .crcResultL) (lowByte (u.crcAfter k)),
          .bus .r (u.addr .crcResultM) (highByte (u.crcAfter (k - 1)))] := by
  have hlow := regRead_crcCounting_of_look hq hlsb deviceRead_crcResultL k
  rw [State.crcCounting_crcResult] at hlow
  have hhigh := regRead_crcCounting_of_look
    (u := u.emit (.bus .r (u.addr .crcResultL) (lowByte (u.crcAfter k))))
    (hq.of_eq rfl rfl rfl) hlsb deviceRead_crcResultM (k - 1)
  rw [State.crcCounting_crcResult] at hhigh
  rw [crcResults, Prog.run_read, hlow, Prog.run_read, hhigh]
  exact ⟨_, rfl, by simp, (State.crcCounting_trace _ _).trans (List.append_assoc _ [_] [_])⟩

/-- A poll that runs out its budget is counted, and the results are read after it (R246). -/
theorem run_awaitCrc_late (hmiss : (u.x .divIrq &&& 0x14 &&& crcIrq != 0) = false) {k : Nat}
    (hk : 255 ≤ k) :
    ∃ t es, awaitCrc.run (u.crcCounting k) = (t, .ok (lowByte (u.crcAfter (k - 255)),
        highByte (u.crcAfter (k - 255 - 1)))) ∧
      t.ctl.crcPollExhausted = u.ctl.crcPollExhausted + 1 ∧
      t.trace = u.trace ++ es ∧ transactions es = 257 := by
  have hpoll := pollCrc_late hq hlsb (hit := fun n => n &&& crcIrq != 0) hmiss 255 k hk
  generalize hv : doAct .countExhausted (u.addReads .divIrq (u.x .divIrq &&& 0x14) 255) = v
  have hafter (j : Nat) : v.crcAfter j = u.crcAfter j := by rw [← hv]; rfl
  have hcount : v.ctl.crcPollExhausted = u.ctl.crcPollExhausted + 1 := by rw [← hv]; rfl
  have htrace : v.trace = u.trace ++
      List.replicate 255 (.bus .r (u.addr .divIrq) (u.x .divIrq &&& 0x14)) := by rw [← hv]; rfl
  obtain ⟨t, hrun, htctl, httrace⟩ := run_crcResults (u := v) (hv ▸ hq.of_eq rfl rfl rfl)
    (hv ▸ hlsb) (k - 255)
  rw [htrace, List.append_assoc] at httrace
  rw [hafter, hafter] at hrun
  refine ⟨t, _, ?_, (congrArg Controller.crcPollExhausted htctl).trans hcount, httrace, ?_⟩
  · rw [awaitCrc, Prog.run_bind_ok hpoll, Prog.run_act, doAct_countExhausted_crcCounting, hv, hrun]
  · rw [transactions_append, transactions_replicate_bus]
    rfl

end

/-! ### Past the poll budget -/

/-! The state at CalcCRC's start: CRCIRq is cleared, ModeReg and the result are as they were. -/

theorem State.atCalcCrc_misses (s : State) (buf : List Byte) :
    ((s.atCalcCrc buf).x .divIrq &&& 0x14 &&& crcIrq != 0) = false := by
  have hdiv : (s.atCalcCrc buf).x .divIrq = divIrqAfter (s.x .divIrq) 0x04 := by
    simp [State.x, State.atCalcCrc, Memory.read_write]
  rw [hdiv, divIrqAfter_clear]
  rfl

theorem State.atCalcCrc_mode (s : State) (buf : List Byte) :
    (s.atCalcCrc buf).x .mode = s.x .mode := by
  simp [State.x, State.atCalcCrc, Memory.read_write]

theorem State.atCalcCrc_crcAfter (s : State) (buf : List Byte) (k : Nat) :
    (s.atCalcCrc buf).crcAfter k =
      if k = 0 then crc16 (crcPreset ((s.x .mode).extractLsb 1 0)) buf else s.dev.crcResult := by
  rw [← setWidth_two_eq_extractLsb]
  rfl

theorem State.atCalcCrc_trace (s : State) (buf : List Byte) :
    ∃ es, (s.atCalcCrc buf).trace = s.trace ++ es ∧ transactions es = buf.length + 3 :=
  ⟨_, rfl, by simp⟩

/-- compute_crc past its poll budget (R246, R248). -/
theorem computeCrc_run_late {s : State} (hq : s.Quiet) (hn : s.dev.active ≠ .calcCrc)
    (hlsb : (s.x .mode).getLsbD 7 = false) (hk : 255 ≤ s.cfg.crcLatency) {buf : List Byte}
    (hroom : buf.length ≤ s.cfg.fifoDepth) :
    ∃ t es, (computeCrc buf).run s =
        (t, .ok (lowByte ((s.atCalcCrc buf).crcAfter (s.cfg.crcLatency - 255)),
          highByte ((s.atCalcCrc buf).crcAfter (s.cfg.crcLatency - 255 - 1)))) ∧
      t.ctl.crcPollExhausted = s.ctl.crcPollExhausted + 1 ∧ t.trace = s.trace ++ es ∧
      transactions es = buf.length + 5 + 255 := by
  have hmode : ((s.atCalcCrc buf).x .mode).getLsbD 7 = false := by rwa [State.atCalcCrc_mode]
  obtain ⟨t, late, hrun, hcount, htrace, hlate⟩ :=
    run_awaitCrc_late (u := s.atCalcCrc buf) (hq.of_eq rfl rfl rfl) hmode (s.atCalcCrc_misses buf) hk
  obtain ⟨start, hat, hstart⟩ := s.atCalcCrc_trace buf
  have hbody := (run_startCalcCrc awaitCrc buf hq hn hlsb hroom).trans hrun
  have hes : t.trace = s.trace ++ (start ++ late) := by rw [htrace, hat, List.append_assoc]
  rw [computeCrc_eq, Prog.run_asTask_ok hbody]
  refine ⟨_, _, rfl, hcount, (congrArg (· ++ [_]) hes).trans (List.append_assoc _ _ _), ?_⟩
  simp [hstart, hlate]

/-- Settles O28: a result byte is fresh where the processing has applied before its read. -/
theorem computeCrcPastTheBudget : Obligations.ComputeCrcPastTheBudget := by
  intro s buf hopen hq hn hlsb hk hroom c lo hi
  obtain ⟨t, es, hrun, hcount, hes, hcost⟩ :=
    computeCrc_run_late (s := s.setAwaiting none) (hq.of_eq rfl rfl rfl) hn hlsb hk hroom
  have hlo : lowByte (((s.setAwaiting none).atCalcCrc buf).crcAfter (s.cfg.crcLatency - 255)) =
      lo := by
    rw [lowByte_eq, State.atCalcCrc_crcAfter, apply_ite (BitVec.extractLsb 7 0)]
    simp only [Nat.sub_eq_zero_iff_le]
    rfl
  have hhi : highByte (((s.setAwaiting none).atCalcCrc buf).crcAfter
      (s.cfg.crcLatency - 255 - 1)) = hi := by
    rw [highByte_eq, State.atCalcCrc_crcAfter, apply_ite (BitVec.extractLsb 15 8)]
    simp only [Nat.sub_eq_zero_iff_le, Nat.sub_sub]
    rfl
  rw [State.setAwaiting_cfg, hlo, hhi] at hrun
  obtain ⟨htask, fs, hfs, hlast⟩ := runTask_computeCrc hopen hrun
  obtain rfl : es = fs := List.append_cancel_left (hes.symm.trans hfs)
  exact ⟨t, es, htask, hcount, hes, hlast, hcost⟩

/-! ### Entered again while CalcCRC is active -/

/-- CRCIRq, once the processing has applied, ends the poll at its first read. -/
theorem State.crcDone_hits (u : State) : u.crcDone.x .divIrq &&& 0x14 &&& crcIrq != 0 := by
  have hbit : ∀ v : Byte, (v ||| 0x04) &&& 0x14 &&& crcIrq != 0 := by decide
  rw [State.crcDone_x]
  exact hbit (u.x .divIrq)

theorem run_awaitCrc_done {u : State} (hq : u.Quiet) (hlsb : (u.x .mode).getLsbD 7 = false) :
    ∃ t, awaitCrc.run u.crcDone = (t, .ok (lowByte (crc16 u.dev.crcAcc u.dev.fifo),
      highByte (crc16 u.dev.crcAcc u.dev.fifo))) := by
  have hread := regRead_divIrq (s := u.crcDone) (hq.of_eq rfl rfl rfl)
  have hpoll := Prog.run_poll_hit (r := .divIrq) (hit := fun n => n &&& crcIrq != 0) (budget := 254)
    (s := u.crcDone) (by rw [hread]; exact u.crcDone_hits)
  obtain ⟨t, hrun, -⟩ := run_crcResults (u := u.emit (.bus .r (u.addr .divIrq)
    (u.crcDone.x .divIrq &&& 0x14))) (hq.of_eq rfl rfl rfl) hlsb 0
  refine ⟨t, ?_⟩
  rw [awaitCrc, Prog.run_bind_ok hpoll, hread]
  exact hrun

/-- CalcCRC active with CRC_LATENCY = 0 and the FIFO empty: each byte pushed is consumed at once
(R236). -/
structure State.Consuming (s : State) : Prop where
  quiet : s.Quiet
  active : s.dev.active = .calcCrc
  lsbFirst : (s.x .mode).getLsbD 7 = false
  latency : s.cfg.crcLatency = 0
  depth : 1 ≤ s.cfg.fifoDepth
  empty : s.dev.fifo = []

theorem endOfTransaction_scheduleCrc_zero {u : State} (hq : u.Quiet)
    (hlsb : (u.x .mode).getLsbD 7 = false) (hk : u.cfg.crcLatency = 0) :
    endOfTransaction (scheduleCrc u) = u.crcDone := by
  rw [endOfTransaction_scheduleCrc hq.pending hq.crcPending hlsb, hk]
  rfl

theorem State.Consuming.regWrite_fifoData {s : State} (h : s.Consuming) (v : Byte) :
    regWrite .fifoData v s = ((s.emit (.bus .w (s.addr .fifoData) v)).setFifo [v]).crcDone := by
  have hroom : s.dev.fifo.length < s.cfg.fifoDepth := by
    rw [h.empty]
    exact h.depth
  have hpush : deviceWrite (s.addr .fifoData) v (s.emit (.bus .w (s.addr .fifoData) v)) =
      scheduleCrc ((s.emit (.bus .w (s.addr .fifoData) v)).setFifo [v]) := by
    simp [deviceWrite, writeFifoData, fifoPush_room (s := s.emit _) hroom, h.empty, h.active,
      h.quiet.crcPending]
  rw [regWrite_high h.quiet.high, hpush]
  exact endOfTransaction_scheduleCrc_zero (h.quiet.of_eq rfl rfl rfl) h.lsbFirst h.latency

theorem State.Consuming.fifoData {s : State} (h : s.Consuming) (v : Byte) :
    (regWrite .fifoData v s).Consuming ∧ (regWrite .fifoData v s).x .mode = s.x .mode := by
  have hmode : (regWrite .fifoData v s).x .mode = s.x .mode := by
    rw [h.regWrite_fifoData]
    exact State.crcDone_x _ .mode
  have hlsb : ((regWrite .fifoData v s).x .mode).getLsbD 7 = false := by rw [hmode, h.lsbFirst]
  rw [h.regWrite_fifoData] at hmode hlsb ⊢
  exact ⟨⟨h.quiet.of_eq rfl rfl rfl, h.active, hlsb, h.latency, h.depth, rfl⟩, hmode⟩

/-- Loading the FIFO of such a device leaves it such a device (R247). -/
theorem State.Consuming.run_loadFifo {α : Type} (rest : Prog α) (bs : List Byte) {s : State}
    (h : s.Consuming) : ∃ t, (Prog.loadFifo bs rest).run s = rest.run t ∧ t.Consuming ∧
      t.x .mode = s.x .mode := by
  induction bs generalizing s with
  | nil => exact ⟨s, rfl, h, rfl⟩
  | cons b bs ih =>
    obtain ⟨hnext, hmode⟩ := h.fifoData b
    obtain ⟨t, hrun, ht, htmode⟩ := ih hnext
    exact ⟨t, hrun, ht, htmode.trans hmode⟩

/-- CalcCRC started on such a device processes the empty FIFO, and its result is the preset. -/
theorem State.Consuming.run_calcCrc {s : State} (h : s.Consuming) :
    ∃ t, (Prog.setCommand (.start .calcCrc) awaitCrc).run s =
      (t, .ok (lowByte (crcPreset ((s.x .mode).extractLsb 1 0)),
        highByte (crcPreset ((s.x .mode).extractLsb 1 0)))) := by
  generalize hended : (terminateCommand (s.emit (.bus .w (s.addr .command) 0x03))).setActive
    .calcCrc = u
  have hmode : u.x .mode = s.x .mode := by
    rw [← hended]
    exact terminateCommand_x _ .mode
  have hlsb : (u.crcLoaded.x .mode).getLsbD 7 = false := by
    rw [State.crcLoaded_mode, hmode, h.lsbFirst]
  have hq : u.crcLoaded.Quiet := hended ▸ ⟨h.quiet.high, rfl, rfl⟩
  have hcrc : crc16 u.crcLoaded.dev.crcAcc u.crcLoaded.dev.fifo =
      crcPreset ((s.x .mode).extractLsb 1 0) := by
    have hempty : u.crcLoaded.dev.fifo = [] := hended ▸ h.empty
    rw [hempty, crc16_nil, ← hmode]
    rfl
  have hwrite : regWrite .command (Command.byte (.start .calcCrc)) s = u.crcLoaded.crcDone := by
    rw [regWrite_calcCrc h.quiet.high, hended, startCalcCrc_eq]
    exact endOfTransaction_scheduleCrc_zero hq hlsb (hended ▸ h.latency)
  rw [Prog.setCommand, Prog.run_write, hwrite, ← hcrc]
  exact run_awaitCrc_done hq hlsb

/-- The first two writes of the task leave a device that consumes what is loaded next. -/
theorem flush_consuming {s : State} (hq : s.Quiet) (ha : s.dev.active = .calcCrc)
    (hlsb : (s.x .mode).getLsbD 7 = false) (hk : s.cfg.crcLatency = 0)
    (hdepth : 1 ≤ s.cfg.fifoDepth) :
    (regWrite .fifoLevel 0x80 (regWrite .divIrq 0x04 s)).Consuming ∧
      (regWrite .fifoLevel 0x80 (regWrite .divIrq 0x04 s)).x .mode = s.x .mode := by
  have hclear := regWrite_divIrq hq 0x04
  have hcleared : (regWrite .divIrq 0x04 s).Quiet := hclear ▸ hq.of_eq rfl rfl rfl
  have hmode : (regWrite .fifoLevel 0x80 (regWrite .divIrq 0x04 s)).x .mode = s.x .mode := by
    rw [regWrite_flush hcleared, hclear]
    simp [State.setX_x]
  refine ⟨?_, hmode⟩
  rw [← hmode] at hlsb
  rw [regWrite_flush hcleared, hclear] at hlsb ⊢
  exact ⟨hq.of_eq rfl rfl rfl, ha, hlsb, hk, hdepth, rfl⟩

/-- compute_crc entered while CalcCRC is active, with CRC_LATENCY = 0 (R247). -/
theorem computeCrc_run_reentered {s : State} (hq : s.Quiet) (ha : s.dev.active = .calcCrc)
    (hlsb : (s.x .mode).getLsbD 7 = false) (hk : s.cfg.crcLatency = 0)
    (hdepth : 1 ≤ s.cfg.fifoDepth) (buf : List Byte) :
    ∃ t, (computeCrc buf).run s =
      (t, .ok (lowByte (crcPreset ((s.x .mode).extractLsb 1 0)),
        highByte (crcPreset ((s.x .mode).extractLsb 1 0)))) := by
  obtain ⟨hflushed, hmode⟩ := flush_consuming hq ha hlsb hk hdepth
  obtain ⟨u, hload, hu, humode⟩ :=
    hflushed.run_loadFifo (Prog.setCommand (.start .calcCrc) awaitCrc) buf
  obtain ⟨t, hrun⟩ := hu.run_calcCrc
  rw [humode, hmode] at hrun
  rw [computeCrc_eq]
  exact ⟨_, Prog.run_asTask_ok (hload.trans hrun)⟩

/-- Settles O29: the bytes loaded are gone before CalcCRC starts again from the preset. -/
theorem computeCrcReentered : Obligations.ComputeCrcReentered := by
  intro s buf hopen hq ha hlsb hk _ hdepth p
  obtain ⟨t, hrun⟩ := computeCrc_run_reentered (s := s.setAwaiting none) (hq.of_eq rfl rfl rfl)
    ha hlsb hk hdepth buf
  rw [State.setAwaiting_x, lowByte_eq, highByte_eq] at hrun
  obtain ⟨htask, es, hes, hlast⟩ := runTask_computeCrc hopen hrun
  exact ⟨t, es, htask, hes, hlast⟩

end Sys2Proof.Machine
end

section
/-! PROOF. A call of the transceive task: what it returns and leaves, and what it costs
(43_transceive.md rules R271 to R274). -/

namespace Sys2Proof.Machine

/-! ### A call and its cost -/

/-- The run of `transceive(cmd, …)`, called from `s`, makes the exchange `e` over the events `es`. -/
structure TransceiveRun (s t : State) (cmd : Command) (e : Exchange) (es : List Event) : Prop where
  run : (transceive s.cfg cmd e.frame).run (s.setAwaiting none) = (t, .ok (s.reply e))
  leaves : Leaves (s.setAwaiting none) t e.command e.enable e.framing e.crcOver (s.answer e)
  awaiting : t.ctl.awaiting = none
  trace : t.trace = s.trace ++ es
  sent : txFrames es = [(e.frame, e.lastBits)]

/-- The cost of a call by the oracle's answer (R274): `late` where no outcome arrives within the
budget, `answered d` where one does after `d` transactions. -/
def CallCost (s : State) (e : Exchange) (es : List Event) (late : Nat) (answered : Nat → Nat) : Prop :=
  (s.outcomeOf e = none → transactions es = late) ∧
    ∀ d o, s.answer e = .after d o → s.outcomeOf e = some o → transactions es = answered d

section
variable {s t : State} {cmd : Command} {e : Exchange} {es : List Event}

theorem TransceiveRun.made (h : TransceiveRun s t cmd e es) : Made e s t [] where
  leaves := h.leaves.of_setAwaiting
  trace := ⟨es, h.trace, h.sent, (transceive_silent _ _ _).own h.run h.trace⟩

theorem TransceiveRun.runTask_eq (h : TransceiveRun s t cmd e es) (hopen : s.ctl.closed = false) :
    runTask (.transceive cmd e.frame) s = t := by
  rw [runTask_open _ hopen, taskProg, runProg, Prog.run_bind_ok h.run, Prog.run_ret]

theorem TransceiveRun.getLast (h : TransceiveRun s t cmd e es) : es.getLast? =
    some (.ret .transceive (.txrx (s.reply e).status (s.reply e).rx (s.reply e).bitlen)) := by
  obtain ⟨fs, hfs, hlast⟩ :=
    Prog.run_asTask_last (res := fun r : TxRx => .txrx r.status r.rx r.bitlen) h.run
  obtain rfl : es = fs := List.append_cancel_left (h.trace.symm.trans hfs)
  exact hlast

theorem callCost_of_late {late : Nat} {answered : Nat → Nat} (hnone : s.outcomeOf e = none)
    (h : transactions es = late) : CallCost s e es late answered :=
  ⟨fun _ => h, fun _ _ _ hsome => nomatch hnone.symm.trans hsome⟩

theorem callCost_of_answered {late d : Nat} {o : LinkOutcome} {answered : Nat → Nat}
    (hsome : s.outcomeOf e = some o) (hans : s.answer e = .after d o)
    (h : transactions es = answered d) : CallCost s e es late answered := by
  refine ⟨fun hnone => (nomatch hnone.symm.trans hsome), fun d' o' hans' _ => ?_⟩
  obtain ⟨rfl, -⟩ := Answer.after.inj (hans.symm.trans hans')
  exact h

theorem Leaves.of_arrives {a : Active} {en framing : Byte} {crcOver : Option (List Byte)}
    {ans : Answer} {o : LinkOutcome} (harr : arrives a ans = some o)
    (h : Exchanged s t a en framing crcOver o) : Leaves s t a en framing crcOver ans := by
  rw [Leaves, harr]
  exact h

theorem Leaves.of_timedOut {a : Active} {en framing : Byte} {crcOver : Option (List Byte)}
    {ans : Answer} (harr : arrives a ans = none)
    (h : TimedOut s t a en framing crcOver ans) : Leaves s t a en framing crcOver ans := by
  rw [Leaves, harr]
  exact h

end

/-! ### TRANSCEIVE and AUTHENTICATE -/

theorem State.reply_plain (s : State) (framing : Byte) (frame : List Byte) :
    s.reply (.plain framing frame) =
      txrxOf s.cfg.fifoDepth ((s.x .control).setWidth 3) s.drawAfterAnswer
        (s.outcomeOf (.plain framing frame)) := rfl

theorem State.reply_auth (s : State) (framing : Byte) (frame : List Byte) :
    s.reply (.auth framing frame) =
      ⟨authStatusOf (s.outcomeOf (.auth framing frame)), [], 0⟩ := rfl

/-- The drain costs two reads and the bytes returned, and nothing after an error (R269, R274). -/
theorem drainCost_eq_of_txrxOf {depth : Nat} (hd : 16 ≤ depth) (stale : BitVec 3) (drawn : Byte)
    {o : LinkOutcome} (ho : admitted .transceive o = true) : drainCost depth o =
      if (txrxOf depth stale drawn (some o)).status = .error then 0
      else 2 + (txrxOf depth stale drawn (some o)).rx.length := by
  cases o with
  | resp bytes lb errs =>
    by_cases hmask : errs.masked = true
    · simp [drainCost, txrxOf, hmask]
    · simp only [drainCost, txrxOf, hmask, Bool.false_eq_true, if_false, reduceCtorEq,
        List.length_take]
      omega
  | noResp => rfl
  | authOk => exact nomatch ho
  | authErr errs => exact nomatch ho
  | txDone => exact nomatch ho

section
variable {s : State} {send : List Byte} (hq : s.Quiet) (hf : fieldOn s = true)
  (ht : tAuto s = true) (hm : s.cfg.SourceMasks)
include hq hf ht hm

theorem transceive_call (hd : 18 ≤ s.cfg.fifoDepth ∧ s.cfg.fifoDepth < 128)
    (hroom : send.length ≤ s.cfg.fifoDepth) :
    let e := Exchange.plain (s.x .bitFraming) send
    ∃ t es, TransceiveRun s t (.start .transceive) e es ∧
      CallCost s e es (4 + send.length + 1 + 2 + 2000 + 2) fun d =>
        4 + send.length + 1 + 2 + (d + 1) + 2 + 1 +
          (if (s.reply e).status = .error then 0 else 2 + (s.reply e).rx.length) := by
  intro e
  have hq' : (s.setAwaiting none).Quiet := hq.of_eq rfl rfl rfl
  have hreply : s.reply e = _ := s.reply_plain (s.x .bitFraming) send
  cases hO : s.outcomeOf e with
  | none =>
    obtain ⟨t, es, hrun, hx, haw, htr, hsent, hcost⟩ := transceive_timeout hq' hf ht hm hroom hO
    rw [hO] at hreply
    refine ⟨t, es, ⟨hrun.trans (by rw [hreply]; rfl), .of_timedOut hO hx, haw, htr, hsent⟩,
      callCost_of_late hO ?_⟩
    omega
  | some o =>
    obtain ⟨t, es, hrun, hx, haw, htr, hsent, d, hans, hcost⟩ :=
      transceive_arrives hq' hf ht hm hd hroom hO
    rw [hO] at hreply
    refine ⟨t, es, ⟨hrun.trans (by rw [hreply]; rfl), .of_arrives hO hx, haw, htr, hsent⟩,
      callCost_of_answered hO hans ?_⟩
    have hdrain := drainCost_eq_of_txrxOf (depth := s.cfg.fifoDepth) (by omega)
      ((s.x .control).setWidth 3) s.drawAfterAnswer (arrives_admitted hO)
    rw [← hreply] at hdrain
    rw [hcost, State.setAwaiting_cfg, hdrain]
    omega

theorem authenticate_call (hd : 18 ≤ s.cfg.fifoDepth) (hlen : send.length = 12) :
    let e := Exchange.auth (s.x .bitFraming) send
    ∃ t es, TransceiveRun s t (.start .mfAuthent) e es ∧
      CallCost s e es (4 + 12 + 1 + 2000 + 2) fun d => 4 + 12 + 1 + (d + 1) + 2 + 1 := by
  intro e
  have hq' : (s.setAwaiting none).Quiet := hq.of_eq rfl rfl rfl
  have hreply : s.reply e = _ := s.reply_auth (s.x .bitFraming) send
  cases hO : s.outcomeOf e with
  | none =>
    obtain ⟨t, es, hrun, hx, haw, htr, hsent, hcost⟩ :=
      authenticate_timeout hq' hf ht hm hd hlen hO
    rw [hO] at hreply
    exact ⟨t, es, ⟨hrun.trans (by rw [hreply]; rfl), .of_timedOut hO hx, haw, htr, hsent⟩,
      callCost_of_late hO hcost⟩
  | some o =>
    obtain ⟨t, es, hrun, hx, haw, htr, hsent, d, hans, hcost⟩ :=
      authenticate_arrives hq' hf ht hm hd hlen hO
    rw [hO] at hreply
    refine ⟨t, es, ⟨hrun.trans (by rw [hreply]), .of_arrives hO hx, haw, htr, hsent⟩,
      callCost_of_answered hO hans ?_⟩
    omega

end

/-- Settles O30: each command's run, and a call read off its run. -/
theorem transceiveResultAndCost : Obligations.TransceiveResultAndCost := by
  refine ⟨?transceive, ?authenticate⟩
  case transceive =>
    intro s send hopen hq hf ht hm hd hroom e r
    obtain ⟨t, es, hrun, hcost⟩ := transceive_call hq hf ht hm hd hroom
    exact ⟨t, es, hrun.runTask_eq hopen, hrun.made, hrun.awaiting, hrun.trace, hrun.getLast, hcost⟩
  case authenticate =>
    intro s send hopen hq hf ht hm hd hlen e
    obtain ⟨t, es, hrun, hcost⟩ := authenticate_call hq hf ht hm hd hlen
    exact ⟨t, es, hrun.runTask_eq hopen, hrun.made, hrun.awaiting, hrun.trace, hrun.getLast, hcost⟩

end Sys2Proof.Machine
end

section
/-! PROOF. What each PICC frame does from a ready machine (44_picc_operations.md rules R290 to
R302): the program of its operation makes one exchange, and records what it makes of the reply. -/

namespace Sys2Proof.Machine

variable {α β : Type} {s : State} {e : Exchange} {own : List Event}

/-! ### A program that makes one exchange -/

/-- The program, run from `s` with no operation waiting for its second frame, makes the exchange
`e`, records `own` itself and answers `a`. -/
def Prog.Makes (p : Prog α) (s : State) (e : Exchange) (a : α) (own : List Event) : Prop :=
  ∃ t, p.run (s.setAwaiting none) = (t, .ok a) ∧ Made e s t own ∧ t.ctl.awaiting = none

theorem Prog.Makes.bind_ret {p : Prog α} {f : α → Prog β} {a : α} {b : β}
    (h : p.Makes s e a own) (hf : f a = .ret b) : (p.bind f).Makes s e b own := by
  obtain ⟨t, hrun, hmade, haw⟩ := h
  exact ⟨t, by rw [Prog.run_bind_ok hrun, hf, Prog.run_ret], hmade, haw⟩

/-- The reply meets a condition, or a log record says that it does not. -/
theorem Prog.Makes.bind_log_unless {p : Prog α} {f : α → Prog β} {a : α} {b b' : β} {m : LogMsg}
    {c : Prop} [Decidable c] (h : p.Makes s e a [])
    (hf : f a = if c then .ret b else .act (.log m) (.ret b')) :
    (p.bind f).Makes s e (if c then b else b') (if c then [] else [.log m]) := by
  split_ifs at hf ⊢
  · exact h.bind_ret hf
  · obtain ⟨t, hrun, hmade, haw⟩ := h
    exact ⟨t.emit (.log m), by rw [Prog.run_bind_ok hrun, hf]; rfl, hmade.emit rfl, haw⟩

/-- A log record where a condition holds, and then the exchange. -/
theorem Prog.Makes.log_if {p : Prog α} {a : α} {m : LogMsg} {c : Prop} [Decidable c]
    (hlogged : p.Makes (s.emit (.log m)) e a own) (h : p.Makes s e a own) :
    (if c then .act (.log m) p else p).Makes s e a ((if c then [.log m] else []) ++ own) := by
  split_ifs
  · obtain ⟨t, hrun, hmade, haw⟩ := hlogged
    exact ⟨t, hrun, hmade.afterLog, haw⟩
  · exact h

theorem plainFrame_makes (h : s.Ready) {v : Byte} (hv : v.getLsbD 7 = false) {frame : List Byte}
    (hlen : frame.length ≤ 16) :
    (Prog.write .bitFraming v (transceive s.cfg (.start .transceive) frame)).Makes s
      (.plain v frame) (s.reply (.plain v frame)) [] :=
  plainFrame_made h hv hlen

theorem sendWithCrc_makes (h : s.Ready) {body : List Byte} (hlen : body.length ≤ 16) :
    (sendWithCrc s.cfg body).Makes s (.withCrc (s.x .bitFraming) body)
      (s.reply (.withCrc (s.x .bitFraming) body)) [] :=
  sendWithCrc_made h hlen

theorem authFrame_makes (h : s.Ready) {frame : List Byte} (hlen : frame.length = 12) :
    (transceive s.cfg (.start .mfAuthent) frame).Makes s (.auth (s.x .bitFraming) frame)
      (s.reply (.auth (s.x .bitFraming) frame)) [] :=
  authFrame_made h hlen

/-! ### An instruction that performs its operation -/

/-- The instruction answers a next state: it makes the exchange `e`, records `own` itself and leaves
`w` to wait for its second frame. -/
def Performs (i : Instr) (s : State) (e : Exchange) (w : Option Awaiting) (own : List Event) :
    Prop :=
  ∃ t, exec i s = .next t ∧ t.ctl.awaiting = w ∧ Made e s t own

theorem exec_of_jobOf {i : Instr} {j : Job} (hopen : s.ctl.closed = false)
    (hj : jobOf s.ctl.awaiting i = some j) :
    exec i s = .next (runProg (jobProg s.cfg j) (s.setAwaiting none)) := by
  rw [exec_eq_runJob_of_jobOf hj, runJob_open j hopen]

/-- An instruction whose program ends its task. -/
theorem Prog.Makes.performs {p : Prog α} {a : α} {i : Instr} {j : Job} {name : TaskName}
    {res : α → Result} (h : p.Makes s e a own) (hopen : s.ctl.closed = false)
    (hj : jobOf s.ctl.awaiting i = some j) (hp : jobProg s.cfg j = asWholeTask name res p)
    (hname : ownEvents [.ret name (res a)] = [.ret name (res a)]) :
    Performs i s e none (own ++ [.ret name (res a)]) := by
  obtain ⟨t, hrun, hmade, haw⟩ := h
  refine ⟨t.emit (.ret name (res a)), ?_, haw, hname ▸ hmade.emit rfl⟩
  rw [exec_of_jobOf hopen hj, hp, runProg, asWholeTask_run_ok hrun]

/-- An instruction whose program ends its task, after a log record unless a condition holds. -/
theorem Prog.Makes.performs_log_unless {p : Prog α} {a a' : α} {c : Prop} [Decidable c] {i : Instr}
    {j : Job} {name : TaskName} {res : α → Result} {m : LogMsg}
    (h : p.Makes s e (if c then a else a') (if c then [] else [.log m]))
    (hopen : s.ctl.closed = false) (hj : jobOf s.ctl.awaiting i = some j)
    (hp : jobProg s.cfg j = asWholeTask name res p)
    (hname : ∀ r, ownEvents [.ret name r] = [.ret name r]) :
    Performs i s e none
      (if c then [.ret name (res a)] else [.log m, .ret name (res a')]) := by
  have hperf := h.performs hopen hj hp (hname _)
  split_ifs at hperf ⊢ <;> exact hperf

/-- An instruction whose program is the first phase of a two-phase operation. -/
theorem Prog.Makes.performs_firstPhase {p : Prog Bool} {acked : Bool} {i : Instr} {j : Job}
    {name : TaskName} {next : Awaiting} {warnings : List Event} {m : LogMsg}
    (h : p.Makes s e acked (warnings ++ if acked then [] else [.log m]))
    (hopen : s.ctl.closed = false) (hj : jobOf s.ctl.awaiting i = some j)
    (hp : jobProg s.cfg j = firstPhase name next p)
    (hname : ownEvents [.ret name (.status .error)] = [.ret name (.status .error)]) :
    Performs i s e (if acked then some next else none)
      (warnings ++ if acked then [] else [.log m, .ret name (.status .error)]) := by
  obtain ⟨t, hrun, hmade, haw⟩ := h
  have hexec := exec_of_jobOf hopen hj
  rw [hp, runProg, firstPhase, Prog.run_bind_ok hrun] at hexec
  cases acked with
  | true => exact ⟨t.setAwaiting (some next), hexec, rfl, hmade.setAwaiting _⟩
  | false =>
    have hended := hmade.emit (ev := .ret name (.status .error)) rfl
    rw [hname, List.append_assoc] at hended
    exact ⟨t.emit (.ret name (.status .error)), hexec, haw, hended⟩

/-! ### Card selection and authentication -/

theorem uidWellFormed_iff {bs : List Byte} : uidWellFormed bs = true ↔
    ∃ u0 u1 u2 u3, bs = [u0, u1, u2, u3, u0 ^^^ u1 ^^^ u2 ^^^ u3] := by
  constructor
  · intro h
    match bs, h with
    | [u0, u1, u2, u3, u4], h => exact ⟨u0, u1, u2, u3, by simpa [uidWellFormed, bcc] using h⟩
  · rintro ⟨u0, u1, u2, u3, rfl⟩
    simp [uidWellFormed, bcc]

theorem requestProg_makes (h : s.Ready) (mode : ReqMode) :
    let e := Exchange.plain 0x07 [mode.byte]
    let r := s.reply e
    (requestProg s.cfg mode).Makes s e
      (if r.status = .ok ∧ r.bitlen = 16 then .ok else .error, r.bitlen) [] := by
  intro e r
  have hresult : (if r.status ≠ .ok ∨ r.bitlen ≠ 16 then .error else r.status) =
      if r.status = .ok ∧ r.bitlen = 16 then .ok else .error := by
    split_ifs with hfail hok hok <;> tauto
  exact (plainFrame_makes h (by decide) (by simp)).bind_ret
    (congrArg (fun st => Prog.ret (st, r.bitlen)) hresult)

/-- Settles O32: the frame without a CRC, by its mode. -/
theorem requestRuns : Obligations.RequestRuns := by
  intro s h i hi e r
  simp only [List.mem_cons, List.not_mem_nil, or_false] at hi
  rcases hi with rfl | rfl
  · exact (requestProg_makes h .idle).performs h.isOpen (j := .task (.request .idle)) rfl rfl rfl
  · exact (requestProg_makes h .all).performs h.isOpen (j := .task (.request .all)) rfl rfl rfl

/-- Settles O33: a reply with status OK passes exactly where it is a well-formed UID. -/
theorem anticollisionRuns : Obligations.AnticollisionRuns := by
  intro s h e r
  have hmakes : (anticollisionProg s.cfg).Makes s e (anticollisionStatus r, r.rx) [] :=
    (plainFrame_makes h (v := 0x00) (by decide) (by simp)).bind_ret rfl
  obtain ⟨t, hexec, haw, hmade⟩ :=
    hmakes.performs h.isOpen (i := .anticollision) (j := .task .anticollision) rfl rfl rfl
  refine ⟨t, anticollisionStatus r, hexec, haw, hmade, fun hst => if_neg hst, fun hst => ?_⟩
  rw [anticollisionStatus, if_pos hst, ← uidWellFormed_iff]
  split_ifs with hwf <;> simp [hwf]

/-- Settles O34: the frame with its CRC, for a UID that passes the length check. -/
theorem selectRuns : Obligations.SelectRuns := by
  intro s uid cl ch h hlen e r
  have hmakes : (selectProg s.cfg uid).Makes s e
      (if r.status = .ok ∧ r.bitlen = 24 then r.rx.headD 0 else 0) [] := by
    rw [selectProg, if_neg (not_not.2 hlen)]
    exact (sendWithCrc_makes h (by simp [hlen])).bind_ret rfl
  exact hmakes.performs h.isOpen (j := .task (.select uid)) rfl rfl rfl

theorem authenticateProg_makes (h : s.Ready) (mode : KeyMode) (b : Byte) {key uid : List Byte}
    (hkey : key.length = 6) (huid : uid.length = 4) :
    let e := Exchange.auth (s.x .bitFraming) ([mode.byte, b] ++ key ++ uid)
    let st := (s.reply e).status
    (authenticateProg s.cfg mode b key uid).Makes s e st
      (if st = .ok then [] else [.log (.authenticationFailed b)]) := by
  intro e st
  rw [authenticateProg, if_neg (not_not.2 hkey), if_neg (by omega), List.take_of_length_le huid.le]
  have hframe : ([mode.byte, b] ++ key ++ uid).length = 12 := by simp [hkey, huid]
  have hlogged := (authFrame_makes h hframe).bind_log_unless (b := st) (b' := st)
    (m := .authenticationFailed b)
    (f := fun r => if r.status ≠ .ok then .act (.log _) (.ret r.status) else .ret r.status)
    (ite_not ..)
  rwa [ite_self] at hlogged

/-- Settles O35: the authentication frame, by its mode. -/
theorem authenticationRuns : Obligations.AuthenticationRuns := by
  intro s b key uid h hkey huid i hi e st
  simp only [List.mem_cons, List.not_mem_nil, or_false] at hi
  rcases hi with rfl | rfl
  · exact (authenticateProg_makes h .keyA b hkey huid).performs h.isOpen
      (j := .task (.authenticate .keyA b key uid)) rfl rfl rfl
  · exact (authenticateProg_makes h .keyB b hkey huid).performs h.isOpen
      (j := .task (.authenticate .keyB b key uid)) rfl rfl rfl

/-! ### Block operations -/

/-- Settles O36: the frame with its CRC, and the log record of a reply that is no block. -/
theorem readRuns : Obligations.ReadRuns := by
  intro s b cl ch h e r
  have hmakes : (readProg s.cfg b).Makes s e
      (if r.status = .ok ∧ r.rx.length = 16 then .data r.rx else .noData r.status)
      (if r.status = .ok ∧ r.rx.length = 16 then [] else [.log (.readFailed b)]) :=
    (sendWithCrc_makes h (by simp)).bind_log_unless rfl
  exact hmakes.performs_log_unless h.isOpen (j := .task (.read b)) rfl rfl fun _ => rfl

/-- A command frame, acknowledged or logged (R298). -/
theorem commandPhase_makes (h : s.Ready) {op b : Byte} (m : LogMsg)
    (he : e = .withCrc (s.x .bitFraming) [op, b]) :
    (commandPhase s.cfg op b m).Makes s e (isAck (s.reply e))
      (if isAck (s.reply e) then [] else [.log m]) := by
  have hmakes : (commandPhase s.cfg op b m).Makes s e (if isAck (s.reply e) then true else false)
      (if isAck (s.reply e) then [] else [.log m]) :=
    he ▸ (sendWithCrc_makes h (by simp)).bind_log_unless rfl
  rwa [show (if isAck (s.reply e) then true else false) = isAck (s.reply e) by
    cases isAck (s.reply e) <;> rfl] at hmakes

theorem State.Ready.emit (h : s.Ready) (ev : Event) : (s.emit ev).Ready where
  isOpen := h.isOpen
  quiet := h.quiet.of_eq rfl rfl rfl
  notCrc := h.notCrc
  preset := h.preset
  lsbFirst := h.lsbFirst
  timer := h.timer
  field := h.field
  masks := h.masks
  latency := h.latency
  depth := h.depth

@[simp] theorem State.emit_reply (ev : Event) (s : State) (e : Exchange) :
    (s.emit ev).reply e = s.reply e := rfl

/-- The warnings, and then the command frame (R299). -/
theorem writeCommandPhase_makes (h : s.Ready) {b : Byte}
    (he : e = .withCrc (s.x .bitFraming) [0xA0, b]) :
    (writeCommandPhase s.cfg b).Makes s e (isAck (s.reply e))
      ((if b = 0 then [.log .writingManufacturerBlock] else []) ++
        ((if b.toNat % 4 = 3 then [.log .writingSectorTrailer] else []) ++
          if isAck (s.reply e) then [] else [.log (.writeCommandNotAcknowledged b)])) := by
  have hphase := commandPhase_makes h (.writeCommandNotAcknowledged b) he
  have hlogged (ev : Event) := commandPhase_makes (h.emit ev) (.writeCommandNotAcknowledged b) he
  have hlogged' (ev ev' : Event) :=
    commandPhase_makes ((h.emit ev).emit ev') (.writeCommandNotAcknowledged b) he
  simp only [State.emit_reply, State.emit_cfg] at hlogged hlogged'
  exact .log_if (.log_if (hlogged' _ _) (hlogged _)) (.log_if (hlogged _) hphase)

/-- Settles O38: the warned command frame is the first phase of `write`. -/
theorem writeCommandRuns : Obligations.WriteCommandRuns := by
  intro s b cl ch h e acked
  have hmakes := writeCommandPhase_makes h (b := b) (e := e) rfl
  rw [← List.append_assoc] at hmakes
  exact hmakes.performs_firstPhase h.isOpen (j := .writeCommand b) rfl rfl rfl

theorem writeDataPhase_makes (h : s.Ready) (b : Byte) {data : List Byte} (hlen : data.length = 16)
    (he : e = .withCrc (s.x .bitFraming) data) :
    (writeDataPhase s.cfg b data).Makes s e (if isAck (s.reply e) then .ok else .error)
      (if isAck (s.reply e) then [] else [.log (.writeDataNotAcknowledged b)]) :=
  he ▸ (sendWithCrc_makes h hlen.le).bind_log_unless rfl

/-- Settles O39: the payload frame, of the sixteen bytes the payload check asks for. -/
theorem writeDataRuns : Obligations.WriteDataRuns := by
  intro s b data cl ch h haw hlen e
  refine (writeDataPhase_makes h b hlen (e := e) rfl).performs_log_unless h.isOpen
    (j := .writeData b data) (by simp [jobOf, haw]) ?_ fun _ => rfl
  rw [jobProg, writeArguments, if_neg (not_not.2 hlen)]

/-- Settles O40: the command frame is the first phase of `increment` or `decrement`. -/
theorem valueCommandRuns : Obligations.ValueCommandRuns := by
  intro s b cl ch h
  refine ⟨?increment, ?decrement⟩
  case increment =>
    intro e acked
    exact (commandPhase_makes h _ (e := e) rfl).performs_firstPhase (warnings := []) h.isOpen
      (j := .incrementCommand b) rfl rfl rfl
  case decrement =>
    intro e acked
    exact (commandPhase_makes h _ (e := e) rfl).performs_firstPhase (warnings := []) h.isOpen
      (j := .decrementCommand b) rfl rfl rfl

/-- The operand frame: a silent card is accepted as an acknowledging one is (R300). -/
theorem operandPhase_makes (h : s.Ready) {v : BitVec 32} (m : LogMsg)
    (he : e = .withCrc (s.x .bitFraming) (le32 v)) :
    let r := s.reply e
    let accepted := r.status = .timeout ∨ r.status = .noTag ∨ isAck r = true
    (operandPhase s.cfg v m).Makes s e (if accepted then .ok else .error)
      (if accepted then [] else [.log m]) := by
  intro r accepted
  subst he
  refine (sendWithCrc_makes h (by simp [le32])).bind_log_unless ?_
  split_ifs <;> tauto

/-- Settles O41: the operand frame of the operation that waits for it. -/
theorem valueOperandRuns : Obligations.ValueOperandRuns := by
  intro s b v cl ch h e r accepted
  refine ⟨fun haw => ?increment, fun haw => ?decrement⟩
  case increment =>
    exact (operandPhase_makes h _ (e := e) rfl).performs_log_unless h.isOpen
      (j := .incrementOperand b v) (by simp [jobOf, haw]) rfl fun _ => rfl
  case decrement =>
    exact (operandPhase_makes h _ (e := e) rfl).performs_log_unless h.isOpen
      (j := .decrementOperand b v) (by simp [jobOf, haw]) rfl fun _ => rfl

/-- Settles O42: the command frame, whose acknowledgement is the result. -/
theorem transferRuns : Obligations.TransferRuns := by
  intro s b cl ch h e
  have hmakes : (transferProg s.cfg b).Makes s e (if isAck (s.reply e) then .ok else .error)
      (if isAck (s.reply e) then [] else [.log (.transferNotAcknowledged b)]) :=
    (commandPhase_makes h _ rfl).bind_ret rfl
  exact hmakes.performs_log_unless h.isOpen (j := .task (.transfer b)) rfl rfl fun _ => rfl

/-! ### Every frame instruction -/

theorem withCrc_frame {body : List Byte} {cl ch : Byte} (hcrc : crcMatches body cl ch = true)
    (framing : Byte) : (Exchange.withCrc framing body).frame = body ++ [cl, ch] :=
  congrArg (body ++ ·) (beq_iff_eq.1 hcrc)

/-- What a well-formed frame instruction sends is its encoding (R141, R142). -/
theorem encode_of_exchangeOf {i : Instr} (hwf : i.wellFormed = true)
    (he : s.exchangeOf i = some e) : encode i = .frame e.frame := by
  cases i with
  | writeReg | readReg | pcdIdle | pcdCalcCrc | pcdTransmit | pcdReceive | pcdTransceive
  | pcdMfAuthent | pcdSoftReset => exact nomatch he
  | requestIdle | requestAll | anticollision | authA | authB =>
    obtain rfl := Option.some.inj he
    rfl
  | read | write | decrement | increment | transfer =>
    obtain rfl := Option.some.inj he
    exact congrArg Encoded.frame (withCrc_frame hwf _).symm
  | select =>
    obtain rfl := Option.some.inj he
    exact congrArg Encoded.frame (withCrc_frame (Bool.and_eq_true_iff.1 hwf).2 _).symm
  | writeData =>
    rcases haw : s.ctl.awaiting with _ | (b | b | b) <;> simp only [State.exchangeOf, haw] at he <;>
      cases he
    exact congrArg Encoded.frame (withCrc_frame (Bool.and_eq_true_iff.1 hwf).2 _).symm
  | valueOperand =>
    rcases haw : s.ctl.awaiting with _ | (b | b | b) <;> simp only [State.exchangeOf, haw] at he <;>
      cases he <;> exact congrArg Encoded.frame (withCrc_frame hwf _).symm

/-- A well-formed frame instruction, in position, performs its operation. -/
theorem performs_of_exchangeOf (h : s.Ready) {i : Instr} (hwf : i.wellFormed = true)
    (he : s.exchangeOf i = some e) : ∃ w own, Performs i s e w own := by
  cases i with
  | writeReg | readReg | pcdIdle | pcdCalcCrc | pcdTransmit | pcdReceive | pcdTransceive
  | pcdMfAuthent | pcdSoftReset => exact nomatch he
  | requestIdle =>
    obtain rfl := Option.some.inj he
    exact ⟨_, _, requestRuns s h (.requestIdle, 0x26) (by simp)⟩
  | requestAll =>
    obtain rfl := Option.some.inj he
    exact ⟨_, _, requestRuns s h (.requestAll, 0x52) (by simp)⟩
  | anticollision =>
    obtain rfl := Option.some.inj he
    obtain ⟨t, st, hexec, haw, hmade, -⟩ := anticollisionRuns s h
    exact ⟨_, _, t, hexec, haw, hmade⟩
  | select uid cl ch =>
    obtain rfl := Option.some.inj he
    exact ⟨_, _, selectRuns s uid cl ch h (beq_iff_eq.1 (Bool.and_eq_true_iff.1 hwf).1)⟩
  | authA b key uid =>
    obtain rfl := Option.some.inj he
    obtain ⟨hkey, huid⟩ := Bool.and_eq_true_iff.1 hwf
    exact ⟨_, _, authenticationRuns s b key uid h (beq_iff_eq.1 hkey) (beq_iff_eq.1 huid)
      (.authA b key uid, 0x60) (by simp)⟩
  | authB b key uid =>
    obtain rfl := Option.some.inj he
    obtain ⟨hkey, huid⟩ := Bool.and_eq_true_iff.1 hwf
    exact ⟨_, _, authenticationRuns s b key uid h (beq_iff_eq.1 hkey) (beq_iff_eq.1 huid)
      (.authB b key uid, 0x61) (by simp)⟩
  | read b cl ch =>
    obtain rfl := Option.some.inj he
    exact ⟨_, _, readRuns s b cl ch h⟩
  | write b cl ch =>
    obtain rfl := Option.some.inj he
    exact ⟨_, _, writeCommandRuns s b cl ch h⟩
  | increment b cl ch =>
    obtain rfl := Option.some.inj he
    exact ⟨_, _, (valueCommandRuns s b cl ch h).1⟩
  | decrement b cl ch =>
    obtain rfl := Option.some.inj he
    exact ⟨_, _, (valueCommandRuns s b cl ch h).2⟩
  | transfer b cl ch =>
    obtain rfl := Option.some.inj he
    exact ⟨_, _, transferRuns s b cl ch h⟩
  | writeData data cl ch =>
    rcases haw : s.ctl.awaiting with _ | (b | b | b) <;> simp only [State.exchangeOf, haw] at he <;>
      cases he
    exact ⟨_, _, writeDataRuns s b data cl ch h haw (beq_iff_eq.1 (Bool.and_eq_true_iff.1 hwf).1)⟩
  | valueOperand v cl ch =>
    rcases haw : s.ctl.awaiting with _ | (b | b | b) <;> simp only [State.exchangeOf, haw] at he <;>
      cases he
    · exact ⟨_, _, (valueOperandRuns s b v cl ch h).1 haw⟩
    · exact ⟨_, _, (valueOperandRuns s b v cl ch h).2 haw⟩

/-- Where an outcome arrives within the budget, the machine is ready for the next operation. -/
theorem Made.ready {t : State} (hmade : Made e s t own) (h : s.Ready)
    (hanswered : s.outcomeOf e ≠ none) : t.Ready := by
  obtain ⟨o, ho⟩ := Option.ne_none_iff_exists'.1 hanswered
  have hleaves := hmade.leaves
  rw [Leaves, show arrives e.command (s.answer e) = some o from ho] at hleaves
  refine hleaves.ready h fun hcrc => ?_
  have hadmitted := arrives_admitted ho
  rw [hcrc] at hadmitted
  exact nomatch hadmitted

/-- Settles O44: each frame's own statement gives its exchange, and the exchange gives the rest. -/
theorem framesAreSentAsEncoded : Obligations.FramesAreSentAsEncoded := by
  intro i s e h hwf he
  obtain ⟨w, own, t, hexec, -, hmade⟩ := performs_of_exchangeOf h hwf he
  obtain ⟨es, htrace, hsent, -⟩ := hmade.trace
  exact ⟨encode_of_exchangeOf hwf he, t, es, hexec, htrace, hsent, hmade.leaves, hmade.ready h⟩

end Sys2Proof.Machine
end

section
/-! PROOF. Operations as tasks (44_picc_operations.md rules R299 to R301, R320 to R322): what a
program without a raise answers when called, the two words of a two-phase operation, and DUMP's loop. -/

namespace Sys2Proof.Machine

variable {α β : Type} {s : State}

/-! ### Programs that raise nothing -/

/-- The program raises nothing, from any state, and what it answers meets `Q`. -/
def Prog.Returns (p : Prog α) (Q : α → Prop) : Prop :=
  ∀ s, ∃ t a, p.run s = (t, .ok a) ∧ Q a

theorem Prog.Returns.ret {Q : α → Prop} {a : α} (h : Q a) : (Prog.ret a).Returns Q :=
  fun s => ⟨s, a, rfl, h⟩

theorem Prog.Returns.act {Q : α → Prop} {p : Prog α} (h : p.Returns Q) (x : Act) :
    (Prog.act x p).Returns Q := fun s => h (doAct x s)

theorem Prog.Returns.bind {P : α → Prop} {Q : β → Prop} {p : Prog α} {f : α → Prog β}
    (h : p.Returns P) (hf : ∀ a, (f a).Returns Q) : (p.bind f).Returns Q := fun s => by
  obtain ⟨t, a, hrun, -⟩ := h s
  rw [Prog.run_bind_ok hrun]
  exact hf a t

theorem Prog.silent.returns {p : Prog α} (h : p.silent) : p.Returns fun _ => True := by
  induction p with
  | ret a => exact .ret trivial
  | raise f => exact h.elim
  | write r v rest ih => exact fun s => ih h (regWrite r v s)
  | read r rest ih => exact fun s => ih _ (h _) (regRead r s).2
  | act x rest ih => exact (ih h.2.2.2).act x

theorem sendWithCrc_plain (cfg : Config) (buf : List Byte) : (sendWithCrc cfg buf).Plain :=
  (computeCrc_plain buf).bind fun _ => transceive_plain _ _ _

theorem commandPhase_returns (cfg : Config) (op b : Byte) (m : LogMsg) :
    (commandPhase cfg op b m).Returns fun _ => True := by
  refine (sendWithCrc_silent cfg _).returns.bind fun r => ?_
  split
  · exact .ret trivial
  · exact (Prog.Returns.ret trivial).act _

theorem writeCommandPhase_returns (cfg : Config) (b : Byte) :
    (writeCommandPhase cfg b).Returns fun _ => True := by
  have hlog_if {c : Prop} [Decidable c] {p : Prog Bool} {m : LogMsg}
      (h : p.Returns fun _ => True) : (if c then .act (.log m) p else p).Returns fun _ => True := by
    split
    · exact h.act _
    · exact h
  exact hlog_if (hlog_if (commandPhase_returns cfg _ b _))

theorem authenticateProg_returns (cfg : Config) (mode : KeyMode) (b : Byte) {key uid : List Byte}
    (hkey : key.length = 6) (huid : 4 ≤ uid.length) :
    (authenticateProg cfg mode b key uid).Returns fun _ => True := by
  rw [authenticateProg, if_neg (not_not.2 hkey), if_neg (Nat.not_lt.2 huid)]
  refine (transceive_silent _ _ _).returns.bind fun r => ?_
  split
  · exact (Prog.Returns.ret trivial).act _
  · exact .ret trivial

theorem authenticateProg_plain (cfg : Config) (mode : KeyMode) (b : Byte) (key uid : List Byte) :
    (authenticateProg cfg mode b key uid).Plain := by
  unfold authenticateProg
  split_ifs
  · exact .raise _
  · exact .raise _
  · refine (transceive_plain _ _ _).bind fun r => ?_
    split
    · exact .act _ (by simp) (.ret _)
    · exact .ret _

/-- A block that `read` answers has sixteen bytes (R297). -/
theorem readProg_returns (cfg : Config) (b : Byte) :
    (readProg cfg b).Returns fun r => ∀ d, r = .data d → d.length = 16 := by
  refine (sendWithCrc_silent cfg _).returns.bind fun r => ?_
  split
  · rename_i hok
    exact .ret fun d hd => Result.data.inj hd ▸ hok.2
  · exact (Prog.Returns.ret fun d hd => nomatch hd).act _

theorem readProg_plain (cfg : Config) (b : Byte) : (readProg cfg b).Plain := by
  refine (sendWithCrc_plain cfg _).bind fun r => ?_
  split
  · exact .ret _
  · exact .act _ (by simp) (.ret _)

/-! ### A task called where nothing waits -/

/-- The controller is open, and no operation waits for its second frame. -/
structure State.Free (s : State) : Prop where
  isOpen : s.ctl.closed = false
  awaiting : s.ctl.awaiting = none

theorem State.Free.setAwaiting_none (h : s.Free) : s.setAwaiting none = s := by
  conv_rhs => rw [← show (s.setAwaiting s.ctl.awaiting) = s from rfl, h.awaiting]

theorem State.free_setAwaiting_none (h : s.ctl.closed = false) : (s.setAwaiting none).Free :=
  ⟨h, rfl⟩

theorem Prog.Plain.run_free {p : Prog α} {t : State} {r : Except Failure α} (h : p.Plain)
    (hs : s.Free) (hrun : p.run s = (t, r)) : t.Free := by
  obtain ⟨hclosed, hawaiting⟩ := h.run_ctl s
  rw [hrun] at hclosed hawaiting
  exact ⟨hclosed.trans hs.isOpen, hawaiting.trans hs.awaiting⟩

theorem Prog.run_cfg_of_eq {p : Prog α} {t : State} {r : Except Failure α}
    (hrun : p.run s = (t, r)) : t.cfg = s.cfg := by
  have hcfg := p.run_cfg s
  rwa [hrun] at hcfg

@[simp] theorem State.lastResult_emit_ret (s : State) (n : TaskName) (r : Result) :
    (s.emit (.ret n r)).lastResult = some r := by simp [State.lastResult, State.emit]

/-- A task called from `s`: its program `p` answers `a`, with the state and the last result that the
task itself, run from `s`, leaves. -/
structure Called (s t : State) (task : Task) (res : α → Result) (p : Prog α) (a : α) : Prop where
  run : p.run s = (t, .ok a)
  task_eq : runTask task s = t
  lastResult : t.lastResult = some (res a)
  free : t.Free
  cfg : t.cfg = s.cfg

theorem exists_called {p : Prog α} {Q : α → Prop} {task : Task} {name : TaskName}
    {res : α → Result} (hs : s.Free) (hplain : p.Plain) (hreturns : p.Returns Q)
    (htask : taskProg s.cfg task = asWholeTask name res p) :
    ∃ t a, Called s t task res (p.asTask name res) a ∧ Q a := by
  obtain ⟨t, a, hrun, hQ⟩ := hreturns s
  obtain ⟨hopen, hawaiting⟩ := hplain.run_free hs hrun
  have hcfg := Prog.run_cfg_of_eq hrun
  refine ⟨t.emit (.ret name (res a)), a, ⟨Prog.run_asTask_ok hrun, ?_, t.lastResult_emit_ret name _,
    ⟨hopen, hawaiting⟩, hcfg⟩, hQ⟩
  rw [runTask_open task hs.isOpen, hs.setAwaiting_none, htask, runProg, asWholeTask_run_ok hrun]

/-! ### Two words, one task -/

/-- The first word of a two-phase operation and, where it was acknowledged, the second leave what
the whole task leaves. -/
theorem twoWords_eq_task {p : Prog Bool} {q : Prog Status} {name : TaskName} {next : Awaiting}
    {first second : Job} {i : Instr} {task : Task} (hopen : s.ctl.closed = false)
    (hplain : p.Plain) (hreturns : p.Returns fun _ => True)
    (hfirst : jobProg s.cfg first = firstPhase name next p) (hi : jobOf (some next) i = some second)
    (hsecond : jobProg s.cfg second = asWholeTask name .status q)
    (htask : taskProg s.cfg task =
      asWholeTask name .status (p.bind fun acked => if acked then q else .ret .error)) :
    ((runJob first s).ctl.awaiting = some next →
      exec i (runJob first s) = .next (runTask task s)) ∧
    ((runJob first s).ctl.awaiting ≠ some next → runJob first s = runTask task s) := by
  obtain ⟨u, acked, hrun, -⟩ := hreturns (s.setAwaiting none)
  have hfree : u.Free := hplain.run_free (State.free_setAwaiting_none hopen) hrun
  have hcfg : u.cfg = s.cfg := (Prog.run_cfg_of_eq hrun).trans rfl
  have hbind := Prog.run_bind_ok (f := fun acked => if acked then q else .ret .error) hrun
  rw [runJob_open first hopen, runTask_open task hopen, hfirst, htask, runProg, firstPhase,
    Prog.run_bind_ok hrun]
  cases acked with
  | true =>
    refine ⟨fun _ => ?_, fun hne => absurd rfl hne⟩
    have hu : (u.setAwaiting (some next)).setAwaiting none = u := hfree.setAwaiting_none
    change exec i (u.setAwaiting (some next)) = _
    rw [exec_of_jobOf (s := u.setAwaiting (some next)) hfree.isOpen hi, hu, State.setAwaiting_cfg,
      hcfg, hsecond]
    simp only [runProg, asWholeTask, Prog.run_bind, Prog.run_asTask, hbind, if_true]
  | false =>
    refine ⟨fun haw => (nomatch hfree.awaiting.symm.trans haw), fun _ => ?_⟩
    rw [runProg, asWholeTask_run_ok (hbind.trans rfl)]
    rfl

/-- Settles O45: the three two-phase operations, whose arguments pass their checks. -/
theorem twoWordsMakeOneTask : Obligations.TwoWordsMakeOneTask := by
  intro s t b cl ch cl' ch' hopen
  refine ⟨fun data hlen ht => ?write, fun delta hlo hhi =>
    ⟨fun ht => ?increment, fun ht => ?decrement⟩⟩
  case write =>
    obtain rfl := Host.Outcome.next.inj ht
    refine twoWords_eq_task (first := .writeCommand b) (second := .writeData b data)
      (q := writeDataPhase s.cfg b data) hopen (writeCommandPhase_plain s.cfg b)
      (writeCommandPhase_returns s.cfg b) rfl rfl ?_ ?_
    · rw [jobProg, writeArguments, if_neg (not_not.2 hlen)]
    · rw [taskProg, writeProg, writeArguments, if_neg (not_not.2 hlen)]
  case increment =>
    obtain rfl := Host.Outcome.next.inj ht
    refine twoWords_eq_task (first := .incrementCommand b)
      (second := .incrementOperand b (BitVec.ofInt 32 delta)) hopen (commandPhase_plain s.cfg _ b _)
      (commandPhase_returns s.cfg _ b _) rfl rfl rfl ?_
    rw [taskProg, incrementProg, if_neg (by simp [inInt32, hlo, hhi])]
    rfl
  case decrement =>
    obtain rfl := Host.Outcome.next.inj ht
    refine twoWords_eq_task (first := .decrementCommand b)
      (second := .decrementOperand b (BitVec.ofInt 32 delta)) hopen (commandPhase_plain s.cfg _ b _)
      (commandPhase_returns s.cfg _ b _) rfl rfl rfl ?_
    rw [taskProg, decrementProg, if_neg (by simp [inInt32, hlo, hhi])]
    rfl

/-! ### DUMP -/

theorem keyOf_wellFormed {keys : Vector KeyPair 16} (hkeys : keysWellFormed keys = true) {n : Nat}
    (hn : n < 64) :
    (keyOf keys (n / 4)).keyA.length = 6 ∧ (keyOf keys (n / 4)).keyB.length = 6 := by
  have hmem : keyOf keys (n / 4) ∈ keys.toList := by
    have hi : n / 4 < keys.toList.length := by simp; omega
    rw [keyOf, List.getD_eq_getElem _ _ hi]
    exact List.getElem_mem hi
  simpa using List.all_eq_true.1 hkeys _ hmem

/-- What the authentications of one block leave: key A's, and key B's where key A failed (R322). -/
def authenticateEither (b : Byte) (keys : KeyPair) (uid : List Byte) (s : State) : State :=
  let first := runTask (.authenticate .keyA b keys.keyA uid) s
  if first.lastResult = some (.status .ok) then first
  else runTask (.authenticate .keyB b keys.keyB uid) first

/-- The block that a read's result gives. -/
def blockRead (b : Byte) : Option Result → List (Byte × List Byte)
  | some (.data d) => [(b, d)]
  | _ => []

theorem dumpBlock_of_authenticated {keys : KeyPair} {uid : List Byte} {n : Nat}
    (h : (authenticateEither (BitVec.ofNat 8 n) keys uid s).lastResult = some (.status .ok)) :
    let u := runTask (.read (BitVec.ofNat 8 n)) (authenticateEither (BitVec.ofNat 8 n) keys uid s)
    dumpBlock uid keys n s = (u, blockRead (BitVec.ofNat 8 n) u.lastResult) := by
  intro u
  refine (if_pos h).trans ?_
  change (match u.lastResult with | some (.data d) => (u, [(_, d)]) | _ => (u, [])) = _
  unfold blockRead
  split <;> rfl

theorem dumpBlock_of_skipped {keys : KeyPair} {uid : List Byte} {n : Nat}
    (h : (authenticateEither (BitVec.ofNat 8 n) keys uid s).lastResult ≠ some (.status .ok)) :
    dumpBlock uid keys n s = ((authenticateEither (BitVec.ofNat 8 n) keys uid s).emit
      (.log (.cannotAuthenticateBlock (BitVec.ofNat 8 n))), []) := if_neg h

/-- The authentications of one block as DUMP calls them, before its next lines `f`. -/
theorem callAuthenticate_either_run (hs : s.Free) (b : Byte) {keys : KeyPair} {uid : List Byte}
    (hkeyA : keys.keyA.length = 6) (hkeyB : keys.keyB.length = 6) (huid : 4 ≤ uid.length) :
    let t := authenticateEither b keys uid s
    t.Free ∧ t.cfg = s.cfg ∧ ∃ st, t.lastResult = some (.status st) ∧ ∀ f : Status → Prog β,
      ((callAuthenticate s.cfg .keyA b keys.keyA uid).bind fun first =>
        (if first ≠ .ok then callAuthenticate s.cfg .keyB b keys.keyB uid else .ret first).bind
          f).run s = (f st).run t := by
  obtain ⟨u, st, hA, -⟩ := exists_called (task := .authenticate .keyA b keys.keyA uid)
    hs (authenticateProg_plain s.cfg .keyA b keys.keyA uid)
    (authenticateProg_returns s.cfg .keyA b hkeyA huid) rfl
  simp only [authenticateEither, hA.task_eq, hA.lastResult, Option.some.injEq, Result.status.injEq]
  simp only [callAuthenticate, Prog.run_bind_ok hA.run]
  by_cases hok : st = .ok
  · simp only [if_pos hok, if_neg (not_not.2 hok)]
    exact ⟨hA.free, hA.cfg, st, hA.lastResult, fun _ => rfl⟩
  · obtain ⟨v, st', hB, -⟩ := exists_called (task := .authenticate .keyB b keys.keyB uid)
      hA.free (authenticateProg_plain u.cfg .keyB b keys.keyB uid)
      (authenticateProg_returns u.cfg .keyB b hkeyB huid) rfl
    simp only [if_neg hok, if_pos hok, hB.task_eq, ← hA.cfg, Prog.run_bind_ok hB.run]
    exact ⟨hB.free, hB.cfg, st', hB.lastResult, fun _ => rfl⟩

/-- DUMP's loop at one block does what `dumpBlock` says and goes on with the blocks after it. -/
theorem dumpBlocks_cons_run (hs : s.Free) {keys : Vector KeyPair 16} {uid : List Byte}
    (hkeys : keysWellFormed keys = true) (huid : 4 ≤ uid.length) {n : Nat} (hn : n < 64)
    (ns : List Nat) (got : List (Byte × List Byte)) :
    let r := dumpBlock uid (keyOf keys (n / 4)) n s
    r.1.Free ∧ r.1.cfg = s.cfg ∧ (∀ p ∈ r.2, p.2.length = 16) ∧
      (dumpBlocks s.cfg uid keys (n :: ns) got).run s =
        (dumpBlocks s.cfg uid keys ns (got ++ r.2)).run r.1 := by
  intro r
  obtain ⟨hkeyA, hkeyB⟩ := keyOf_wellFormed hkeys hn
  obtain ⟨hfree, hcfg, st, hlast, hrun⟩ :=
    callAuthenticate_either_run hs (BitVec.ofNat 8 n) hkeyA hkeyB huid
  rw [dumpBlocks, hrun]
  by_cases hok : st = .ok
  · obtain ⟨u, a, hread, hlen⟩ := exists_called (task := .read (BitVec.ofNat 8 n)) hfree
      (readProg_plain _ _) (readProg_returns _ _) rfl
    have hr : r = (u, blockRead (BitVec.ofNat 8 n) (some a)) := by
      have hblock := dumpBlock_of_authenticated (hok ▸ hlast)
      simpa only [hread.task_eq, hread.lastResult, id_eq] using hblock
    rw [if_pos hok, callRead, ← hcfg, Prog.run_bind_ok hread.run, hr]
    refine ⟨hread.free, hread.cfg, ?_⟩
    cases a with
    | data d => exact ⟨by simpa [blockRead] using hlen d rfl, rfl⟩
    | _ => exact ⟨by simp [blockRead], by simp [blockRead]⟩
  · have hr : r = _ := dumpBlock_of_skipped (by rw [hlast]; simp [hok])
    rw [if_neg hok, hr, List.append_nil]
    exact ⟨⟨hfree.isOpen, hfree.awaiting⟩, hcfg, by simp, rfl⟩

/-- DUMP's loop over a list of blocks is its tasks, run one after the other. -/
theorem dumpBlocks_run {keys : Vector KeyPair 16} {uid : List Byte}
    (hkeys : keysWellFormed keys = true) (huid : 4 ≤ uid.length) {ns : List Nat}
    (hns : ∀ n ∈ ns, n < 64) (hs : s.Free) (got : List (Byte × List Byte)) :
    (dumpBlocks s.cfg uid keys ns got).run s =
        ((dumpTasks uid keys ns s).1, .ok (got ++ (dumpTasks uid keys ns s).2)) ∧
      ∀ p ∈ (dumpTasks uid keys ns s).2, p.2.length = 16 := by
  induction ns generalizing s got with
  | nil => exact ⟨by simp [dumpBlocks, dumpTasks], by simp [dumpTasks]⟩
  | cons n ns ih =>
    rw [List.forall_mem_cons] at hns
    obtain ⟨hfree, hcfg, hlen, hrun⟩ := dumpBlocks_cons_run hs hkeys huid hns.1 ns got
    obtain ⟨htail, htailLen⟩ := ih hns.2 hfree (got ++ (dumpBlock uid (keyOf keys (n / 4)) n s).2)
    rw [hrun, ← hcfg, htail, List.append_assoc]
    exact ⟨rfl, fun p hp => (List.mem_append.1 hp).elim (hlen p) (htailLen p)⟩

/-- A block is read at most once. -/
theorem dumpBlock_blocks_sublist (uid : List Byte) (keys : KeyPair) {n : Nat} (hn : n < 256)
    (s : State) : ((dumpBlock uid keys n s).2.map fun p => p.1.toNat).Sublist [n] := by
  by_cases h : (authenticateEither (BitVec.ofNat 8 n) keys uid s).lastResult = some (.status .ok)
  · rw [dumpBlock_of_authenticated h]
    unfold blockRead
    split <;> simp [Nat.mod_eq_of_lt hn]
  · rw [dumpBlock_of_skipped h]
    exact List.nil_sublist _

/-- The blocks read are among those gone over, in their order. -/
theorem dumpTasks_blocks_sublist (uid : List Byte) (keys : Vector KeyPair 16) {ns : List Nat}
    (hns : ∀ n ∈ ns, n < 256) (s : State) :
    ((dumpTasks uid keys ns s).2.map fun p => p.1.toNat).Sublist ns := by
  induction ns generalizing s with
  | nil => simp [dumpTasks]
  | cons n ns ih =>
    rw [List.forall_mem_cons] at hns
    simpa [dumpTasks] using (dumpBlock_blocks_sublist uid _ hns.1 s).append (ih hns.2 _)

/-- Settles O48: DUMP is its loop over its blocks, and the blocks read are a sublist of them. -/
theorem dumpReturnsRisingBlocks : Obligations.DumpReturnsRisingBlocks := by
  intro uid keys s hopen hkeys huid r
  have hrange : ∀ n ∈ List.range 64, n < 64 := fun n => List.mem_range.1
  obtain ⟨hrun, hlen⟩ :=
    dumpBlocks_run hkeys huid hrange (State.free_setAwaiting_none hopen) []
  have hsub := dumpTasks_blocks_sublist uid keys (fun n hn => (hrange n hn).trans (by decide))
    (s.setAwaiting none)
  refine ⟨?_, List.pairwise_lt_range.sublist hsub, fun p hp => ⟨?_, hlen p hp⟩⟩
  · have hprog : dumpProg s.cfg uid keys = dumpBlocks s.cfg uid keys (List.range 64) [] :=
      if_neg (by simp [hkeys])
    rw [List.nil_append, State.setAwaiting_cfg] at hrun
    rw [runTask_open _ hopen, taskProg, runProg, hprog, asWholeTask_run_ok hrun]
  · exact hrange _ (hsub.subset (List.mem_map_of_mem hp))

end Sys2Proof.Machine
end

section
/-! PROOF. The ACK test, where an instruction runs and where it stops, and the session table
(44_picc_operations.md rules R298 to R301, R310; 60_exceptions.md rule R347). -/

namespace Sys2Proof.Machine

/-! ### The ACK test -/

theorem lowNibble_eq_ack_iff (b : Byte) : b &&& 0x0F = 0x0A ↔ b.extractLsb 3 0 = 0xA#4 := by
  revert b; decide

/-- Four bits are one byte with RxLastBits 4 (R269). -/
theorem bitLength_eq_four_iff {n lb : Byte} (hlb : lb.toNat < 8) :
    bitLength n lb = 4 ↔ n = 1 ∧ lb = 4 := by
  rw [bitLength]
  split <;> bv_omega

/-- Settles O37: the test is of the low nibble, and four bits are one short byte. -/
theorem ackTest : Obligations.AckTest := by
  refine ⟨fun r => ?_, fun n lb => bitLength_eq_four_iff⟩
  rw [isAck, Bool.and_eq_true, Bool.and_eq_true, beq_iff_eq, beq_iff_eq, beq_iff_eq,
    lowNibble_eq_ack_iff, and_assoc]

/-! ### Where an instruction stops -/

/-- An instruction is out of position exactly where it is refused. -/
theorem outOfPosition_iff_refused (s : State) (i : Instr) :
    s.OutOfPosition i ↔ exec i s = .refused .noFirstPhase := by
  cases i with
  | writeData data cl ch =>
    rw [exec_writeData]
    rcases haw : s.ctl.awaiting with _ | (b | b | b) <;> simp [State.OutOfPosition, jobOf, haw]
  | valueOperand v cl ch =>
    rw [exec_valueOperand]
    rcases haw : s.ctl.awaiting with _ | (b | b | b) <;> simp [State.OutOfPosition, jobOf, haw]
  | _ =>
    refine ⟨?_, fun h => nomatch h⟩
    rintro (⟨data, cl, ch, hi, -⟩ | ⟨v, cl, ch, hi, -⟩) <;> exact nomatch hi

/-- An instruction answers a next state or is refused for want of a first phase. -/
theorem exec_next_or_refused (s : State) (i : Instr) :
    (∃ t, exec i s = .next t) ∨ exec i s = .refused .noFirstPhase := by
  cases hj : jobOf s.ctl.awaiting i with
  | some j => exact .inl ⟨_, exec_eq_runJob_of_jobOf hj⟩
  | none =>
    obtain ⟨a, v, hx⟩ | ⟨a, hx⟩ | hx := exec_cases_of_jobOf_none hj
    · exact .inl ⟨_, hx⟩
    · exact .inl ⟨_, hx⟩
    · exact .inr hx

theorem runWord_ne_fault (w : Encoded) (s : State) (f : Fault) : runWord w s ≠ .fault f := by
  cases hd : decode w with
  | instr i =>
    cases hj : jobOf s.ctl.awaiting i with
    | some j => rw [runWord_of_job hd hj]; exact nofun
    | none =>
      rw [runWord_of_no_job hd hj]
      obtain ⟨t, hx⟩ | hx := exec_next_or_refused s i <;> rw [hx] <;> exact nofun
  | reject why =>
    rw [runWord_of_reject hd]
    cases why <;> exact nofun

/-- Faults are sticky and the run goes on (R347). -/
theorem step_ne_fault (s : State) (f : Fault) : step s ≠ .fault f := by
  cases hr : s.ctl.running with
  | some r => rw [step_running hr]; exact nofun
  | none =>
    rcases hi : s.inbox with _ | ⟨w | task, rest⟩
    · rw [step_of_no_input hr hi]; exact nofun
    · rw [step_of_word hr hi]; exact runWord_ne_fault _ _ _
    · rw [step_of_call hr hi]; exact nofun

/-- Settles O43: what is refused is what is out of position, and nothing else stops. -/
theorem instructionsRunInPosition : Obligations.InstructionsRunInPosition :=
  ⟨fun s i => ⟨(outOfPosition_iff_refused s i).1, fun h =>
    (exec_next_or_refused s i).resolve_right (mt (outOfPosition_iff_refused s i).2 h)⟩,
    step_ne_fault⟩

/-! ### The session protocol -/

/-- At Authenticated a call that is neither an authenticate nor a stop_crypto leaves the session. -/
theorem Session.after_authenticated {call : Task} (n : Nat) (r : Result)
    (hauth : ∀ m b key uid, call ≠ .authenticate m b key uid) (hstop : call ≠ .stopCrypto) :
    (Session.authenticated n).after call r = .authenticated n := by
  cases call with
  | authenticate m b key uid => exact absurd rfl (hauth m b key uid)
  | stopCrypto => exact absurd rfl hstop
  | _ => rfl

/-- A failed call at Requested or Anticollided returns to Idle (R310). -/
theorem Session.after_failed {s : Session} {call : Task} {r : Result} (hr : r.failed = true)
    (hs : s = .requested ∨ ∃ uid, s = .anticollided uid) : s.after call r = .idle := by
  obtain rfl | ⟨uid, rfl⟩ := hs
  · unfold Session.after
    split <;> simp_all [Result.failed]
  · unfold Session.after
    split <;> simp_all [Result.failed]

/-- What alone reaches Authenticated: no row but the two of an authenticate names that state. -/
theorem Session.after_eq_authenticated {s : Session} {call : Task} {r : Result} {n : Nat}
    (h : s.after call r = .authenticated n) :
    s = .authenticated n ∨
      ∃ m b key uid, call = .authenticate m b key uid ∧ r = .status .ok ∧ n = b.toNat / 4 ∧
        (s = .selected ∨ ∃ k, s = .authenticated k) := by
  unfold Session.after at h
  split at h <;> grind

/-- Settles O60: the rows are the clauses of `Session.after`. -/
theorem sessionProtocol : Obligations.SessionProtocol := by
  refine ⟨fun _ _ _ => rfl, fun _ _ => rfl, fun uid sak => ?_, fun _ _ _ _ _ => rfl,
    fun _ _ _ _ _ _ => rfl, fun n b data delta r call hcall => ?_, fun _ => rfl,
    fun call uid bytes n st hst r hr => ?_, fun _ _ _ _ => Session.after_eq_authenticated⟩
  · simp [Session.after]
  · simp only [List.mem_cons, List.not_mem_nil, or_false] at hcall
    rcases hcall with rfl | rfl | rfl | rfl | rfl <;>
      exact Session.after_authenticated n r nofun nofun
  · have hfailed : r.failed = true := by
      simp only [List.mem_cons, List.not_mem_nil, or_false] at hr
      rcases hr with rfl | rfl | rfl | rfl | rfl | rfl <;> simp [Result.failed, hst]
    exact ⟨Session.after_failed hfailed (.inl rfl), Session.after_failed hfailed (.inr ⟨uid, rfl⟩)⟩

end Sys2Proof.Machine
end

section
/-! PROOF. Value blocks and UID strings (44_picc_operations.md rules R293, R330 to R336). -/

namespace Sys2Proof.Machine

/-! ### The check of a value block -/

theorem valueBlockRelations_iff (v0 v1 v2 v3 w0 w1 w2 w3 c0 c1 c2 c3 a0 a1 a2 a3 : Byte) :
    valueBlockRelations [v0, v1, v2, v3, w0, w1, w2, w3, c0, c1, c2, c3, a0, a1, a2, a3] = true ↔
      (v0 = ~~~w0 ∧ v1 = ~~~w1 ∧ v2 = ~~~w2 ∧ v3 = ~~~w3) ∧
      (v0 = c0 ∧ v1 = c1 ∧ v2 = c2 ∧ v3 = c3) ∧ a0 = ~~~a1 ∧ a0 = a2 ∧ a0 = ~~~a3 := by
  simp [valueBlockRelations, and_assoc]

theorem checkValueBlock_of_length {block : List Byte} (h : block.length = 16) :
    checkValueBlock block = .ok (valueBlockRelations block) := if_neg (not_not.2 h)

theorem getBlockValue_of_true {block : List Byte} (h : checkValueBlock block = .ok true) :
    getBlockValue block =
      .ok (s32le (block.getD 0 0) (block.getD 1 0) (block.getD 2 0) (block.getD 3 0)) := by
  simp only [getBlockValue, h]

theorem getBlockValue_of_false {block : List Byte} (h : checkValueBlock block = .ok false) :
    getBlockValue block = .error .invalidBlock := by
  simp only [getBlockValue, h]

theorem checkValueBlock_of_length_ne {block : List Byte} (h : block.length ≠ 16) :
    checkValueBlock block = .error (.invalidArgument .blockLength) := if_pos h

theorem getBlockValue_of_length_ne {block : List Byte} (h : block.length ≠ 16) :
    getBlockValue block = .error (.invalidArgument .blockLength) := by
  simp only [getBlockValue, checkValueBlock_of_length_ne h]

/-- The place whose byte the relations of R331 tie a place's byte to, and whether by its
complement. -/
def partnerOf (n : Nat) : Nat × Bool :=
  if n < 4 then (n + 4, true)
  else if n < 8 then (n - 4, true)
  else if n < 12 then (n - 8, false)
  else if n = 12 then (13, true)
  else if n = 14 then (12, false)
  else (12, true)

theorem partnerOf_ne (n : Nat) : (partnerOf n).1 ≠ n ∨ 16 ≤ n := by
  unfold partnerOf
  split_ifs <;> simp only <;> omega

theorem getElem?_eq_of_partner {block : List Byte} (h : valueBlockRelations block = true) {n : Nat}
    (hn : n < 16) :
    block[n]? = block[(partnerOf n).1]?.map fun b => if (partnerOf n).2 then ~~~b else b := by
  match block, h with
  | [v0, v1, v2, v3, w0, w1, w2, w3, c0, c1, c2, c3, a0, a1, a2, a3], h =>
    obtain ⟨⟨rfl, rfl, rfl, rfl⟩, ⟨rfl, rfl, rfl, rfl⟩, ha1, rfl, ha3⟩ :=
      (valueBlockRelations_iff ..).1 h
    obtain rfl : a1 = ~~~a0 := by rw [ha1, BitVec.not_not]
    obtain rfl : a3 = ~~~a0 := by rw [ha3, BitVec.not_not]
    interval_cases n <;> simp [partnerOf]

/-- Every byte is in a relation with a byte that did not change (R331). -/
theorem valueBlockRelations_set {block : List Byte} (h : valueBlockRelations block = true) {n : Nat}
    {b : Byte} (hn : n < 16) (hlen : n < block.length) (hne : block[n]? ≠ some b) :
    valueBlockRelations (block.set n b) = false := by
  refine Bool.eq_false_iff.2 fun hset => hne ?_
  have hpartner : (partnerOf n).1 ≠ n := (partnerOf_ne n).resolve_right (by omega)
  calc block[n]? = block[(partnerOf n).1]?.map _ := getElem?_eq_of_partner h hn
    _ = (block.set n b)[(partnerOf n).1]?.map _ := by rw [List.getElem?_set_ne hpartner.symm]
    _ = (block.set n b)[n]? := (getElem?_eq_of_partner hset hn).symm
    _ = some b := List.getElem?_set_self hlen

/-! ### The layout of a value block -/

theorem le32_not (v : BitVec 32) : le32 (~~~v) = (le32 v).map (~~~·) := by
  simp only [le32, List.map_cons, List.map_nil, List.cons.injEq, and_true]
  refine ⟨?_, ?_, ?_, ?_⟩ <;> ext i hi <;> simp <;> omega

theorem formatValueBlock_eq_ok {value address : Int} (hvlo : -2147483648 ≤ value)
    (hvhi : value ≤ 2147483647) (halo : 0 ≤ address) (hahi : address ≤ 255) :
    formatValueBlock value address =
      .ok (valueBlockBytes (BitVec.ofInt 32 value) (BitVec.ofInt 8 address)) := by
  rw [formatValueBlock, if_neg (by simp [inInt32, hvlo, hvhi]), if_neg (by omega)]

theorem formatValueBlock_eq_error {value address : Int} (h : value < -2147483648 ∨
    2147483647 < value ∨ address < 0 ∨ 255 < address) :
    ∃ why, formatValueBlock value address = .error (.invalidArgument why) := by
  unfold formatValueBlock
  split_ifs with hv ha
  · exact ⟨_, rfl⟩
  · exact ⟨_, rfl⟩
  · simp [inInt32] at hv
    omega

/-- The sixteen bytes, by the four bytes of the value. -/
theorem valueBlockBytes_eq (v : BitVec 32) (a : Byte) : ∃ v0 v1 v2 v3 : Byte,
    u32le v0 v1 v2 v3 = v ∧ valueBlockBytes v a =
      [v0, v1, v2, v3, ~~~v0, ~~~v1, ~~~v2, ~~~v3, v0, v1, v2, v3, a, ~~~a, a, ~~~a] :=
  ⟨_, _, _, _, u32le_of_bytes v, by rw [valueBlockBytes, le32_not]; rfl⟩

theorem toInt_ofInt_of_inInt32 {value : Int} (hlo : -2147483648 ≤ value)
    (hhi : value ≤ 2147483647) :
    (BitVec.ofInt 32 value).toInt = value := by
  rw [BitVec.toInt_ofInt, Int.bmod_eq_of_le] <;> omega

/-- Settles O52: a block is decided by its relations, and the layout meets them. -/
theorem valueBlocks : Obligations.ValueBlocks := by
  refine ⟨fun value address hvlo hvhi halo hahi => ?layout, fun value address h =>
    formatValueBlock_eq_error h, fun block h =>
    ⟨checkValueBlock_of_length_ne h, getBlockValue_of_length_ne h⟩, ?relations⟩
  case layout =>
    obtain ⟨v0, v1, v2, v3, hv, hblock⟩ :=
      valueBlockBytes_eq (BitVec.ofInt 32 value) (BitVec.ofInt 8 address)
    have hformat := formatValueBlock_eq_ok hvlo hvhi halo hahi
    rw [hblock] at hformat
    refine ⟨_, hformat, ⟨v0, v1, v2, v3, _, hv, rfl, rfl⟩, ?_⟩
    have hrel := (valueBlockRelations_iff v0 v1 v2 v3 (~~~v0) (~~~v1) (~~~v2) (~~~v3) v0 v1 v2 v3
      (BitVec.ofInt 8 address) (~~~BitVec.ofInt 8 address) (BitVec.ofInt 8 address)
      (~~~BitVec.ofInt 8 address)).2 (by simp)
    have hcheck := checkValueBlock_of_length (block := _ :: _) (by simp) |>.trans (congrArg _ hrel)
    refine ⟨hcheck, ?_, fun n b hn hne => ?_⟩
    · rw [getBlockValue_of_true hcheck]
      exact congrArg Except.ok ((congrArg BitVec.toInt hv).trans (toInt_ofInt_of_inInt32 hvlo hvhi))
    · have hfalse : checkValueBlock _ = .ok false :=
        (checkValueBlock_of_length (by simp)).trans
          (congrArg Except.ok (valueBlockRelations_set hrel hn hn hne))
      exact ⟨hfalse, getBlockValue_of_false hfalse⟩
  case relations =>
    intro v0 v1 v2 v3 w0 w1 w2 w3 c0 c1 c2 c3 a0 a1 a2 a3 block related
    have hcheck : checkValueBlock block = .ok (valueBlockRelations block) :=
      checkValueBlock_of_length rfl
    have hiff : valueBlockRelations block = true ↔ related := valueBlockRelations_iff ..
    refine ⟨fun h => ?_, fun h => ?_⟩
    · rw [hiff.2 h] at hcheck
      exact ⟨hcheck, getBlockValue_of_true hcheck⟩
    · rw [Bool.eq_false_iff.2 (mt hiff.1 h)] at hcheck
      exact ⟨hcheck, getBlockValue_of_false hcheck⟩

/-! ### Hex digits -/

/-- The characters 0–9, A–F and a–f (R336). -/
def hexDigits : List Char :=
  ['0', '1', '2', '3', '4', '5', '6', '7', '8', '9',
    'A', 'B', 'C', 'D', 'E', 'F', 'a', 'b', 'c', 'd', 'e', 'f']

theorem hexDigit_of_mem : ∀ c ∈ hexDigits, (hexValue c).map hexDigit = some c.toUpper :=
  List.map_inj_left.1 rfl

theorem mem_hexDigits_of_hexValue {c : Char} {v : BitVec 4} (h : hexValue c = some v) :
    c ∈ hexDigits := by
  have hlt : c.toNat < 103 := by
    unfold hexValue at h
    split_ifs at h <;> omega
  have hall : ∀ n < 103, hexValue (Char.ofNat n) ≠ none → Char.ofNat n ∈ hexDigits := by decide
  have hc := hall c.toNat hlt
  rw [Char.ofNat_toNat, h] at hc
  exact hc nofun

theorem hexValue_hexDigit (n : BitVec 4) : hexValue (hexDigit n) = some n := by
  revert n; decide

theorem append_nibbles (b : Byte) :
    (b.extractLsb' 4 4 ++ b.extractLsb' 0 4 : BitVec (4 + 4)) = b := by
  revert b; decide

theorem nibbles_append (h l : BitVec 4) :
    hexByte (h ++ l : BitVec (4 + 4)) = [hexDigit h, hexDigit l] := by
  revert h l; decide

theorem hexBytes_hexByte_append (b : Byte) (text : List Char) :
    hexBytes (hexByte b ++ text) = (hexBytes text).map (b :: ·) := by
  simp only [hexByte, List.cons_append, List.nil_append, hexBytes, hexValue_hexDigit]
  cases hexBytes text with
  | none => rfl
  | some bs => exact congrArg (fun v => some (v :: bs)) (append_nibbles b)

/-- The first two characters spell the first byte. -/
theorem hexBytes_cons_cons_eq_some {h l : Char} {rest : List Char} {bs : List Byte} :
    hexBytes (h :: l :: rest) = some bs ↔
      ∃ vh vl tail, hexValue h = some vh ∧ hexValue l = some vl ∧ hexBytes rest = some tail ∧ bs = (vh ++ vl : BitVec (4 + 4)) :: tail := by
  simp only [hexBytes]
  cases hexValue h <;> cases hexValue l <;> cases hexBytes rest <;> simp [eq_comm]

theorem hexDigit_of_hexValue {c : Char} {v : BitVec 4} (h : hexValue c = some v) :
    c ∈ hexDigits ∧ hexDigit v = c.toUpper := by
  have hmem := mem_hexDigits_of_hexValue h
  have hdigit := hexDigit_of_mem c hmem
  rw [h] at hdigit
  exact ⟨hmem, Option.some.inj hdigit⟩

/-- A string that spells bytes has two digits for each, and is their spelling but for its case. -/
theorem spelling_of_hexBytes {bs : List Byte} : ∀ {text : List Char}, hexBytes text = some bs →
    text.length = 2 * bs.length ∧ (∀ c ∈ text, c ∈ hexDigits) ∧
      bs.flatMap hexByte = text.map Char.toUpper := by
  induction bs with
  | nil =>
    intro text h
    match text, h with
    | [], h => exact ⟨rfl, by simp, rfl⟩
    | _ :: _ :: _, h =>
      obtain ⟨_, _, _, -, -, -, hcons⟩ := hexBytes_cons_cons_eq_some.1 h
      exact nomatch hcons
  | cons b bs ih =>
    intro text h
    match text, h with
    | hi :: lo :: rest, h =>
      obtain ⟨vh, vl, tail, hvh, hvl, hrest, hcons⟩ := hexBytes_cons_cons_eq_some.1 h
      obtain ⟨rfl, rfl⟩ := List.cons.inj hcons
      obtain ⟨hlen, hmem, hspell⟩ := ih hrest
      obtain ⟨hhi, hhiUpper⟩ := hexDigit_of_hexValue hvh
      obtain ⟨hlo, hloUpper⟩ := hexDigit_of_hexValue hvl
      refine ⟨by simp [hlen]; omega, by simpa [hhi, hlo] using hmem, ?_⟩
      rw [List.flatMap_cons, hspell, nibbles_append, hhiUpper, hloUpper]
      rfl

/-- A string of two digits for each byte spells bytes. -/
theorem exists_hexBytes {n : Nat} : ∀ {text : List Char}, text.length = 2 * n →
    (∀ c ∈ text, c ∈ hexDigits) → ∃ bs, hexBytes text = some bs := by
  induction n with
  | zero =>
    intro text hlen _
    obtain rfl := List.length_eq_zero_iff.1 hlen
    exact ⟨[], rfl⟩
  | succ n ih =>
    intro text hlen hmem
    match text, hlen, hmem with
    | hi :: lo :: rest, hlen, hmem =>
      obtain ⟨hhi, hlo, hrest⟩ : hi ∈ hexDigits ∧ lo ∈ hexDigits ∧ ∀ c ∈ rest, c ∈ hexDigits := by
        simpa using hmem
      obtain ⟨vh, hvh, -⟩ := Option.map_eq_some_iff.1 (hexDigit_of_mem hi hhi)
      obtain ⟨vl, hvl, -⟩ := Option.map_eq_some_iff.1 (hexDigit_of_mem lo hlo)
      obtain ⟨bs, hbs⟩ := ih (by simp at hlen; omega) hrest
      exact ⟨_, hexBytes_cons_cons_eq_some.2 ⟨vh, vl, bs, hvh, hvl, hbs, rfl⟩⟩

/-! ### UID strings -/

theorem hexToUid_of_hexBytes {text : List Char} {u0 u1 u2 u3 : Byte}
    (h : hexBytes text = some [u0, u1, u2, u3]) :
    hexToUid text = .ok [u0, u1, u2, u3, bcc u0 u1 u2 u3] := by
  simp only [hexToUid, h]

/-- A string is accepted where it spells four bytes, and is refused elsewhere. -/
theorem hexToUid_cases (text : List Char) :
    (∃ u0 u1 u2 u3, hexBytes text = some [u0, u1, u2, u3]) ∨
      hexToUid text = .error (.invalidArgument .hexText) := by
  unfold hexToUid
  split
  · exact .inl ⟨_, _, _, _, ‹_›⟩
  · exact .inr rfl

theorem uidToHex_of_length_ne {uid : List Byte} (h : uid.length ≠ 5) :
    uidToHex uid = .error (.invalidArgument .uidLength) := by
  unfold uidToHex
  split
  · exact absurd rfl h
  · rfl

/-- Settles O53: a byte is two digits, and the four bytes a string spells are a UID's. -/
theorem uidStrings : Obligations.UidStrings := by
  refine ⟨fun u0 u1 u2 u3 => ?roundTrip, fun text uid h => ?upperCase, fun uid =>
    uidToHex_of_length_ne, fun text => ⟨fun hlen hmem => ?accepted, fun h => ?refused⟩⟩
  case roundTrip =>
    refine ⟨_, rfl, rfl, hexToUid_of_hexBytes ?_⟩
    rw [List.append_assoc, List.append_assoc, hexBytes_hexByte_append, hexBytes_hexByte_append,
      hexBytes_hexByte_append, ← List.append_nil (hexByte u3), hexBytes_hexByte_append]
    rfl
  case upperCase =>
    obtain ⟨u0, u1, u2, u3, hbytes⟩ | herror := hexToUid_cases text
    · obtain rfl := Except.ok.inj ((hexToUid_of_hexBytes hbytes).symm.trans h)
      obtain ⟨hlen, -, hspell⟩ := spelling_of_hexBytes hbytes
      refine ⟨hlen, by simp [uidWellFormed], ?_⟩
      rw [← hspell]
      simp [uidToHex]
    · exact nomatch herror.symm.trans h
  case accepted =>
    obtain ⟨bs, hbs⟩ := exists_hexBytes (n := 4) hlen hmem
    have hfour : bs.length = 4 := by have := (spelling_of_hexBytes hbs).1; omega
    match bs, hfour with
    | [u0, u1, u2, u3], _ => exact ⟨_, hexToUid_of_hexBytes hbs⟩
  case refused =>
    obtain ⟨u0, u1, u2, u3, hbytes⟩ | herror := hexToUid_cases text
    · obtain ⟨hlen, hmem, -⟩ := spelling_of_hexBytes hbytes
      obtain hne | ⟨c, hc, hnot⟩ := h
      · exact absurd hlen hne
      · exact absurd (hmem c hc) hnot
    · exact herror

end Sys2Proof.Machine
end

section
/-! PROOF. "No task of this spec causes a fault in a run that starts from reset and calls init
first" (60_exceptions.md rule R347). An access to a named register faults neither BadAddress nor
BadFrame; the other reasons need a CommandReg write outside the closed set, MSBFirst = 1 or a call
after close, and the program of a task but close brings none of them about. -/

namespace Sys2Proof.Machine

variable {α β : Type} {s t u : State}

/-! ### Operations that leave the fault set and ModeReg alone -/

/-- The parameters, the controller, the fault set and ModeReg of `t` are those of `s`. -/
structure SparesMode (s t : State) : Prop where
  cfg : t.cfg = s.cfg
  ctl : t.ctl = s.ctl
  faults : t.faults = s.faults
  mode : t.x .mode = s.x .mode

theorem SparesMode.refl (s : State) : SparesMode s s := ⟨rfl, rfl, rfl, rfl⟩

theorem SparesMode.trans (h : SparesMode s t) (k : SparesMode t u) : SparesMode s u :=
  ⟨k.cfg.trans h.cfg, k.ctl.trans h.ctl, k.faults.trans h.faults, k.mode.trans h.mode⟩

theorem SparesMode.draw (s : State) : SparesMode s s.draw.2 := by constructor <;> simp

theorem SparesMode.setX {r : Reg} (h : .mode ≠ r) (v : Byte) (s : State) :
    SparesMode s (s.setX r v) :=
  ⟨rfl, rfl, rfl, State.setX_x_ne h v s⟩

theorem fifoPush_sparesMode (v : Byte) (s : State) : SparesMode s (fifoPush v s) := by
  unfold fifoPush
  split
  · exact ⟨rfl, rfl, rfl, rfl⟩
  · exact (SparesMode.setX (r := .error) (by decide) _ s).trans
      (.setX (r := .comIrq) (by decide) _ _)

theorem fifoPushAll_sparesMode (bs : List Byte) (s : State) : SparesMode s (fifoPushAll bs s) := by
  induction bs generalizing s with
  | nil => exact .refl s
  | cons b bs ih => exact (fifoPush_sparesMode b s).trans (ih _)

theorem receiveResponse_sparesMode (bytes : List Byte) (lb : BitVec 3) (errs : Errs) (s : State) :
    SparesMode s (receiveResponse bytes lb errs s) := by
  have hpushed := (SparesMode.setX (r := .comIrq) (by decide) (s.x .comIrq ||| rxIrq) s).trans
    (fifoPushAll_sparesMode bytes _)
  have hflagged (v w : Byte) := (hpushed.trans (.setX (r := .control) (by decide) v _)).trans
    (.setX (r := .error) (by decide) w _)
  unfold receiveResponse
  dsimp only
  split
  · exact (hflagged _ _).trans (.setX (r := .comIrq) (by decide) _ _)
  · exact hflagged _ _

theorem applyOutcome_sparesMode (o : LinkOutcome) (s : State) : SparesMode s (applyOutcome o s) := by
  refine ⟨by simp, by simp, by simp, ?_⟩
  unfold applyOutcome
  dsimp only
  split <;> simp [State.setX_x, (receiveResponse_sparesMode _ _ _ _).mode]

theorem askOracle_sparesMode (a : Active) (frame : List Byte) (s : State) :
    SparesMode s (askOracle a frame s) := by
  constructor <;> simp [askOracle]

theorem clearRoundErrors_sparesMode (s : State) : SparesMode s (clearRoundErrors s) :=
  .setX (r := .error) (by decide) _ s

theorem startRound_sparesMode (a : Active) (s : State) : SparesMode s (startRound a s) := by
  have hsent (e : Event) : SparesMode s ((s.setFifo []).emit e) := ⟨rfl, rfl, rfl, rfl⟩
  exact ((hsent _).trans (clearRoundErrors_sparesMode _)).trans (askOracle_sparesMode a _ _)

theorem terminateCommand_sparesMode (s : State) : SparesMode s (terminateCommand s) :=
  ⟨rfl, rfl, rfl, terminateCommand_x s .mode⟩

theorem startActive_sparesMode (a : Active) (s : State) : SparesMode s (startActive a s) := by
  have hactive : SparesMode s (s.setActive a) := ⟨rfl, rfl, rfl, rfl⟩
  cases a with
  | idle | transceive => exact ⟨rfl, rfl, rfl, rfl⟩
  | calcCrc => exact ⟨rfl, rfl, rfl, State.setX_x_ne (r := .status1) (by decide) _ _⟩
  | transmit | mfAuthent => exact hactive.trans (startRound_sparesMode _ _)
  | receive =>
    exact (hactive.trans (clearRoundErrors_sparesMode _)).trans (askOracle_sparesMode _ _ _)

theorem writeFifoData_sparesMode (v : Byte) (s : State) : SparesMode s (writeFifoData v s) := by
  rw [writeFifoData_eq]
  exact (fifoPush_sparesMode v s).trans ⟨rfl, rfl, rfl, rfl⟩

theorem writeFifoLevel_sparesMode (v : Byte) (s : State) : SparesMode s (writeFifoLevel v s) := by
  unfold writeFifoLevel
  split
  · exact ⟨rfl, rfl, rfl, State.setX_x_ne (r := .error) (by decide) _ (s.setFifo [])⟩
  · exact .refl s

theorem writeBitFraming_sparesMode (v : Byte) (s : State) :
    SparesMode s (writeBitFraming v s) := by
  have hstored : SparesMode s (s.setX .bitFraming v) := .setX (by decide) v s
  have hdisarmed : SparesMode s ((s.setX .bitFraming v).setTxArmed false) :=
    hstored.trans ⟨rfl, rfl, rfl, rfl⟩
  unfold writeBitFraming
  dsimp only
  split
  · exact hdisarmed.trans (startRound_sparesMode .transceive _)
  · exact hstored

theorem deviceRead_sparesMode (a : Nat) (s : State) : SparesMode s (deviceRead a s).2 := by
  rcases deviceRead_cases a s with h | h | ⟨bs, h⟩ <;> rw [h]
  · exact .refl s
  · exact .draw s
  · exact ⟨rfl, rfl, rfl, rfl⟩

/-! ### Runs inside the modelled behaviour -/

/-- The controller is open, the parameters are the default ones, no fault has occurred, and
MSBFirst, ModeReg's bit 7, is 0, so that CRC processing is modelled (42_crc.md rule R233). -/
structure State.Modelled (s : State) : Prop where
  isOpen : s.ctl.closed = false
  cfg : s.cfg = defaultConfig
  lsbFirst : (s.x .mode).getLsbD 7 = false
  faults : s.faults = []

theorem State.Modelled.of_spares (h : s.Modelled) (k : SparesMode s t) : t.Modelled where
  isOpen := k.ctl ▸ h.isOpen
  cfg := k.cfg.trans h.cfg
  lsbFirst := k.mode ▸ h.lsbFirst
  faults := k.faults.trans h.faults

/-- RESET_VALUE of ModeReg is 0x3F (10_state.md rule R41). -/
theorem deviceReset_modelled (hopen : s.ctl.closed = false) (hcfg : s.cfg = defaultConfig)
    (hfaults : s.faults = []) : (deviceReset s).Modelled where
  isOpen := hopen
  cfg := hcfg
  lsbFirst := by
    rw [State.x, deviceReset_dev, deviceReset_cfg, hcfg]
    decide
  faults := hfaults

theorem State.Modelled.processCrc (h : s.Modelled) : (processCrc s).Modelled := by
  rw [processCrc_eq h.lsbFirst]
  exact h.of_spares ⟨rfl, rfl, rfl, State.crcDone_x s .mode⟩

theorem State.Modelled.endOfTransaction (h : s.Modelled) : (endOfTransaction s).Modelled := by
  have hticked : (tickPending s).Modelled := by
    rcases tickPending_cases s with ⟨p, hp⟩ | ⟨o, ho⟩
    · exact hp ▸ h.of_spares ⟨rfl, rfl, rfl, rfl⟩
    · exact ho ▸ h.of_spares
        (.trans (t := s.setPending none) ⟨rfl, rfl, rfl, rfl⟩ (applyOutcome_sparesMode o _))
  rcases tickCrc_cases (tickPending s) with ⟨p, hp⟩ | hp <;> rw [Machine.endOfTransaction, hp]
  · exact hticked.of_spares ⟨rfl, rfl, rfl, rfl⟩
  · have hdropped : ((tickPending s).setCrcPending none).Modelled :=
      hticked.of_spares ⟨rfl, rfl, rfl, rfl⟩
    exact hdropped.processCrc

/-- A register write of the tasks: to CommandReg the byte of a command, to ModeReg MSBFirst = 0. -/
def ModelledWrite : Reg → Byte → Prop
  | .command, v => ∃ c : Command, v = c.byte
  | .mode, v => v.getLsbD 7 = false
  | _, _ => True

theorem State.Modelled.writeCommand (h : s.Modelled) (c : Command) :
    (writeCommand c.byte s).Modelled := by
  have hended := h.of_spares (terminateCommand_sparesMode s)
  simp only [Machine.writeCommand, Command.ofByte_eq_some_iff.2 rfl]
  cases c with
  | softReset => exact deviceReset_modelled hended.isOpen hended.cfg hended.faults
  | start a => exact hended.of_spares (startActive_sparesMode a _)

theorem State.Modelled.deviceWrite (h : s.Modelled) {r : Reg} {v : Byte} (hv : ModelledWrite r v) :
    (deviceWrite (s.addr r) v s).Modelled := by
  simp only [Machine.deviceWrite, AddressMap.regAt_addr]
  cases r with
  | command =>
    obtain ⟨c, rfl⟩ := hv
    exact h.writeCommand c
  | mode => exact ⟨h.isOpen, h.cfg, (State.setX_x_same .mode v s).symm ▸ hv, h.faults⟩
  | fifoData => exact h.of_spares (writeFifoData_sparesMode v s)
  | fifoLevel => exact h.of_spares (writeFifoLevel_sparesMode v s)
  | bitFraming => exact h.of_spares (writeBitFraming_sparesMode v s)
  | error | status1 | control | crcResultM | crcResultL | tCounterH | tCounterL => exact h
  | comIrq | divIrq | status2 | comIEn | divIEn | txControl | txAsk | rfCfg | tMode | tPrescaler
  | tReloadH | tReloadL => exact h.of_spares (.setX (by decide) _ s)

theorem State.Modelled.emit (h : s.Modelled) (e : Event) : (s.emit e).Modelled :=
  h.of_spares ⟨rfl, rfl, rfl, rfl⟩

theorem State.Modelled.regWrite (h : s.Modelled) {r : Reg} {v : Byte} (hv : ModelledWrite r v) :
    (regWrite r v s).Modelled := by
  rw [Machine.regWrite, busWrite, if_neg (AddressMap.not_limit_le _ r)]
  dsimp only
  split
  · exact ((h.emit _).deviceWrite hv).endOfTransaction
  · exact (h.emit _).endOfTransaction

theorem State.Modelled.regRead (h : s.Modelled) (r : Reg) : (regRead r s).2.Modelled := by
  rw [Machine.regRead, busRead, if_neg (AddressMap.not_limit_le _ r)]
  dsimp only
  split
  · exact ((h.of_spares (deviceRead_sparesMode _ s)).emit _).endOfTransaction
  · exact ((h.of_spares (.draw s)).emit _).endOfTransaction

theorem State.Modelled.driveReset (h : s.Modelled) (l : Level) : (driveReset l s).Modelled := by
  by_cases hrst : s.rst = l
  · subst hrst
    rwa [driveReset_same]
  · rw [driveReset_edge hrst]
    exact (deviceReset_modelled h.isOpen h.cfg h.faults).of_spares ⟨rfl, rfl, rfl, rfl⟩

theorem State.Modelled.doAct (h : s.Modelled) {a : Act} (ha : a ≠ .closeBus) :
    (doAct a s).Modelled := by
  cases a with
  | log | returned | raised => exact h.emit _
  | countExhausted | await => exact ⟨h.isOpen, h.cfg, h.lsbFirst, h.faults⟩
  | closeBus => exact absurd rfl ha
  | releaseReset => exact h.driveReset .high

/-! ### Programs that cause no fault -/

/-- Every register write of the program is modelled, and it does not close the bus. -/
def Prog.Modelled : Prog α → Prop
  | .ret _ => True
  | .raise _ => True
  | .write r v rest => ModelledWrite r v ∧ rest.Modelled
  | .read _ rest => ∀ v, (rest v).Modelled
  | .act a rest => a ≠ .closeBus ∧ rest.Modelled

theorem Prog.Modelled.ret (a : α) : (Prog.ret a).Modelled := trivial

theorem Prog.Modelled.raise (f : Failure) : (Prog.raise f : Prog α).Modelled := trivial

theorem Prog.Modelled.run {p : Prog α} (hp : p.Modelled) (hs : s.Modelled) :
    (p.run s).1.Modelled := by
  induction p generalizing s with
  | ret a => exact hs
  | raise f => exact hs
  | write r v rest ih => exact ih hp.2 (hs.regWrite hp.1)
  | read r rest ih => exact ih _ (hp _) (hs.regRead r)
  | act a rest ih => exact ih hp.2 (hs.doAct hp.1)

theorem Prog.Modelled.bind {p : Prog α} {f : α → Prog β} (hp : p.Modelled)
    (hf : ∀ a, (f a).Modelled) : (p.bind f).Modelled := by
  induction p with
  | ret a => exact hf a
  | raise e => trivial
  | write r v rest ih => exact ⟨hp.1, ih hp.2⟩
  | read r rest ih => exact fun v => ih v (hp v)
  | act a rest ih => exact ⟨hp.1, ih hp.2⟩

theorem Prog.Modelled.asTask {p : Prog α} (hp : p.Modelled) (name : TaskName)
    (res : α → Result) : (p.asTask name res).Modelled := by
  induction p with
  | ret a => exact ⟨nofun, trivial⟩
  | raise e => exact ⟨nofun, trivial⟩
  | write r v rest ih => exact ⟨hp.1, ih hp.2⟩
  | read r rest ih => exact fun v => ih v (hp v)
  | act a rest ih => exact ⟨hp.1, ih hp.2⟩

theorem Prog.Modelled.asWholeTask {p : Prog α} (hp : p.Modelled) (name : TaskName)
    (res : α → Result) : (asWholeTask name res p).Modelled :=
  (hp.asTask name res).bind fun _ => trivial

theorem Prog.Modelled.log {p : Prog α} (hp : p.Modelled) (m : LogMsg) :
    (Prog.act (.log m) p).Modelled := ⟨nofun, hp⟩

theorem Prog.Modelled.ite {p q : Prog α} (hp : p.Modelled) (hq : q.Modelled) (c : Prop)
    [Decidable c] : (if c then p else q).Modelled := by
  split
  · exact hp
  · exact hq

theorem Prog.Modelled.loadFifo {p : Prog α} (hp : p.Modelled) (bs : List Byte) :
    (Prog.loadFifo bs p).Modelled := by
  induction bs with
  | nil => exact hp
  | cons b bs ih => exact ⟨trivial, ih⟩

theorem Prog.drainFifo_modelled (n : Nat) : (Prog.drainFifo n).Modelled := by
  induction n with
  | zero => trivial
  | succ n ih => exact fun v => ih.bind fun _ => trivial

theorem Prog.poll_modelled (r : Reg) (hit : Byte → Bool) (budget : Nat) :
    (Prog.poll r hit budget).Modelled := by
  induction budget with
  | zero => trivial
  | succ n ih => exact fun v => .ite (.ret _) ih _

theorem Prog.ofExcept_modelled (r : Except Failure α) : (Prog.ofExcept r).Modelled := by
  cases r <;> trivial

/-! ### The programs of the tasks -/

theorem computeCrc_modelled (buf : List Byte) : (computeCrc buf).Modelled := by
  refine .asTask (p := .clearCrcIrq (.flushFifo _)) ⟨trivial, trivial, .loadFifo ?_ buf⟩ _ _
  refine ⟨⟨_, rfl⟩, (Prog.poll_modelled _ _ _).bind fun matched => ?_⟩
  cases matched with
  | none => exact ⟨nofun, fun _ _ => trivial⟩
  | some v => exact fun _ _ => trivial

theorem afterMatch_modelled (cfg : Config) (cmd : Command) (irq : Byte) :
    (afterMatch cfg cmd irq).Modelled := by
  have hdrain (status : Status) : (receiveDrain status).Modelled :=
    fun n c => (Prog.drainFifo_modelled _).bind fun _ => .ret _
  exact fun err => .ite (.ret _) (.ite (hdrain _) (.ret _) _) _

theorem pollAndFinish_modelled (cfg : Config) (cmd : Command) :
    (pollAndFinish cfg cmd).Modelled := by
  refine (Prog.poll_modelled _ _ _).bind fun matched => fun _ => ⟨trivial, ?_⟩
  cases matched with
  | none => trivial
  | some irq => exact afterMatch_modelled cfg cmd irq

theorem transceive_modelled (cfg : Config) (cmd : Command) (send : List Byte) :
    (transceive cfg cmd send).Modelled := by
  have hfinish := pollAndFinish_modelled cfg cmd
  have hstart : (Prog.setBits .bitFraming 0x80 (pollAndFinish cfg cmd)).Modelled :=
    fun _ => ⟨trivial, hfinish⟩
  have hcommand : (Prog.setCommand cmd (if cmd = .start .transceive then
      Prog.setBits .bitFraming 0x80 (pollAndFinish cfg cmd) else pollAndFinish cfg cmd)).Modelled :=
    ⟨⟨cmd, rfl⟩, .ite hstart hfinish _⟩
  exact .asTask (p := .write .comIEn _ (.clearComIrq (.flushFifo (.setCommand (.start .idle) _))))
    ⟨trivial, trivial, trivial, ⟨_, rfl⟩, hcommand.loadFifo send⟩ _ _

theorem sendWithCrc_modelled (cfg : Config) (buf : List Byte) : (sendWithCrc cfg buf).Modelled :=
  (computeCrc_modelled buf).bind fun _ => transceive_modelled _ _ _

theorem selectProg_modelled (cfg : Config) (uid : List Byte) : (selectProg cfg uid).Modelled :=
  .ite (.raise _) ((sendWithCrc_modelled _ _).bind fun _ => .ret _) _

theorem authenticateProg_modelled (cfg : Config) (mode : KeyMode) (b : Byte) (key uid : List Byte) :
    (authenticateProg cfg mode b key uid).Modelled :=
  .ite (.raise _) (.ite (.raise _)
    ((transceive_modelled _ _ _).bind fun _ => .ite ((Prog.Modelled.ret _).log _) (.ret _) _) _) _

theorem readProg_modelled (cfg : Config) (b : Byte) : (readProg cfg b).Modelled :=
  (sendWithCrc_modelled _ _).bind fun _ => .ite (.ret _) ((Prog.Modelled.ret _).log _) _

theorem commandPhase_modelled (cfg : Config) (op b : Byte) (m : LogMsg) :
    (commandPhase cfg op b m).Modelled :=
  (sendWithCrc_modelled _ _).bind fun _ => .ite (.ret _) ((Prog.Modelled.ret _).log _) _

theorem writeProg_modelled (cfg : Config) (b : Byte) (data : List Byte) :
    (writeProg cfg b data).Modelled := by
  have hcommand := commandPhase_modelled cfg 0xA0 b (.writeCommandNotAcknowledged b)
  have hwarned := Prog.Modelled.ite (hcommand.log .writingSectorTrailer) hcommand
    (b.toNat % 4 = 3)
  have hphase : (writeCommandPhase cfg b).Modelled :=
    .ite (hwarned.log .writingManufacturerBlock) hwarned (b = 0)
  have hdata : (writeDataPhase cfg b data).Modelled :=
    (sendWithCrc_modelled _ _).bind fun _ => .ite (.ret _) ((Prog.Modelled.ret _).log _) _
  exact .ite (.raise _) (hphase.bind fun _ => .ite hdata (.ret _) _) _

theorem operandPhase_modelled (cfg : Config) (v : BitVec 32) (m : LogMsg) :
    (operandPhase cfg v m).Modelled :=
  (sendWithCrc_modelled _ _).bind fun _ =>
    .ite (.ret _) (.ite (.ret _) ((Prog.Modelled.ret _).log _) _) _

theorem dumpBlocks_modelled (cfg : Config) (uid : List Byte) (keys : Vector KeyPair 16)
    (ns : List Nat) (got : List (Byte × List Byte)) : (dumpBlocks cfg uid keys ns got).Modelled := by
  have hauthenticate (mode : KeyMode) (b : Byte) (key : List Byte) :
      (callAuthenticate cfg mode b key uid).Modelled :=
    (authenticateProg_modelled cfg mode b key uid).asTask _ _
  induction ns generalizing got with
  | nil => trivial
  | cons n ns ih =>
    refine (hauthenticate .keyA _ _).bind fun first =>
      (Prog.Modelled.ite (hauthenticate .keyB _ _) (.ret _) _).bind fun st =>
        .ite (((readProg_modelled cfg _).asTask _ _).bind fun r => ?_) ((ih got).log _) _
    cases r with
    | data d => exact ih _
    | _ => exact ih _

theorem writeAll_modelled {ws : List (Reg × Byte)} {p : Prog α}
    (hws : ∀ w ∈ ws, ModelledWrite w.1 w.2) (hp : p.Modelled) : (writeAll ws p).Modelled := by
  induction ws with
  | nil => exact hp
  | cons w ws ih =>
    rw [List.forall_mem_cons] at hws
    exact ⟨hws.1, ih hws.2⟩

theorem antennaOnProg_modelled : antennaOnProg.Modelled := fun _ => ⟨trivial, trivial⟩

/-- What init does after its SoftReset. -/
def initRest (cfg : Config) : Prog Unit :=
  writeAll cfg.initWrites
    (.write .rfCfg cfg.initRfCfg (antennaOnProg.asTask .antennaOn fun _ => .unit))

theorem initProg_eq (cfg : Config) :
    initProg cfg = .act .releaseReset (.setCommand .softReset (initRest cfg)) := rfl

theorem initRest_modelled : (initRest defaultConfig).Modelled :=
  writeAll_modelled (by simp [defaultConfig, ModelledWrite])
    ⟨trivial, antennaOnProg_modelled.asTask _ _⟩

theorem initProg_modelled : (initProg defaultConfig).Modelled :=
  ⟨nofun, ⟨_, rfl⟩, initRest_modelled⟩

/-- Under the default parameters the program of every task but close causes no fault. -/
theorem taskProg_modelled {task : Task} (h : task ≠ .close) :
    (taskProg defaultConfig task).Modelled := by
  cases task with
  | close => exact absurd rfl h
  | init => exact initProg_modelled.asWholeTask _ _
  | antennaOn => exact antennaOnProg_modelled.asWholeTask _ _
  | stopCrypto => exact .asWholeTask (p := stopCryptoProg) (fun _ => ⟨trivial, trivial⟩) _ _
  | computeCrc buf => exact (computeCrc_modelled buf).bind fun _ => .ret _
  | transceive cmd send => exact (transceive_modelled _ cmd send).bind fun _ => .ret _
  | request mode =>
    exact .asWholeTask (p := requestProg _ mode)
      ⟨trivial, (transceive_modelled _ _ _).bind fun _ => .ret _⟩ _ _
  | anticollision =>
    exact .asWholeTask (p := anticollisionProg _)
      ⟨trivial, (transceive_modelled _ _ _).bind fun _ => .ret _⟩ _ _
  | select uid => exact (selectProg_modelled _ uid).asWholeTask _ _
  | authenticate mode b key uid =>
    exact (authenticateProg_modelled _ mode b key uid).asWholeTask _ _
  | read b => exact (readProg_modelled _ b).asWholeTask _ _
  | write b data => exact (writeProg_modelled _ b data).asWholeTask _ _
  | increment b delta | decrement b delta =>
    exact Prog.Modelled.asWholeTask (.ite (.raise _)
      ((commandPhase_modelled _ _ b _).bind fun _ =>
        .ite (operandPhase_modelled _ _ _) (.ret _) _) _) _ _
  | transfer b =>
    exact .asWholeTask (p := transferProg _ b)
      ((commandPhase_modelled _ _ b _).bind fun _ => .ret _) _ _
  | dump uid keys =>
    exact .asWholeTask (p := dumpProg _ uid keys)
      (.ite (.raise _) (dumpBlocks_modelled _ uid keys _ _) _) _ _
  | formatValueBlock | checkValueBlock | getBlockValue | uidToHex | hexToUid =>
    exact (Prog.ofExcept_modelled _).asWholeTask _ _

/-! ### The run -/

/-- Whatever the device holds, SoftReset drops what is pending and resets ModeReg before the
transaction ends. -/
theorem regWrite_softReset_modelled (hhigh : s.rst = .high) (hopen : s.ctl.closed = false)
    (hcfg : s.cfg = defaultConfig) (hfaults : s.faults = []) :
    (regWrite .command Command.softReset.byte s).Modelled := by
  have hreset : regWrite .command Command.softReset.byte s = deviceReset
      (terminateCommand (s.emit (.bus .w (s.addr .command) Command.softReset.byte))) :=
    regWrite_quiet hhigh _ _ ((deviceWrite_command _ (s.emit _)).trans rfl) rfl rfl
  exact hreset ▸ deviceReset_modelled hopen hcfg hfaults

theorem driveReset_frame (l : Level) (s : State) : (driveReset l s).rst = l ∧
    (driveReset l s).ctl = s.ctl ∧ (driveReset l s).cfg = s.cfg ∧
    (driveReset l s).faults = s.faults := by
  by_cases h : s.rst = l
  · subst h
    simp [driveReset_same]
  · simp [driveReset_edge h]

theorem runTask_init_modelled (hopen : s.ctl.closed = false) (hcfg : s.cfg = defaultConfig)
    (hfaults : s.faults = []) : (runTask .init s).Modelled := by
  obtain ⟨hhigh, hctl, hcfg', hfaults'⟩ := driveReset_frame .high (s.setAwaiting none)
  have hreset := regWrite_softReset_modelled hhigh (hctl ▸ hopen) (hcfg'.trans hcfg)
    (hfaults'.trans hfaults)
  rw [runTask_open _ hopen, hcfg, taskProg, initProg_eq]
  exact (initRest_modelled.asWholeTask .init fun _ => .unit).run hreset

theorem State.Modelled.runTask (h : s.Modelled) {task : Task} (htask : task ≠ .close) :
    (runTask task s).Modelled := by
  rw [runTask_open task h.isOpen, h.cfg]
  exact (taskProg_modelled htask).run ⟨h.isOpen, h.cfg, h.lsbFirst, h.faults⟩

/-- Settles O57: init reaches a modelled state, and every task but close keeps one. -/
theorem tasksAfterInitCauseNoFault : Obligations.TasksAfterInitCauseNoFault := by
  intro s tasks hopen hcfg hfaults htasks
  have hinit := runTask_init_modelled hopen hcfg hfaults
  exact (List.foldlRecOn (motive := State.Modelled) tasks _ hinit fun t ht task hmem =>
    ht.runTask (htasks task hmem)).faults

end Sys2Proof.Machine
end

section
/-! PROOF. A failed argument check ends its task before any bus transaction (60_exceptions.md rules
R342 and R344). -/

namespace Sys2Proof.Machine

variable {α : Type} {s t : State} {task : Task} {name : TaskName} {res : α → Result} {p : Prog α}
  {f : Failure}

/-- A task whose program raises ends in its Raise event. -/
theorem runTask_of_error (hopen : s.ctl.closed = false)
    (htask : taskProg s.cfg task = asWholeTask name res p)
    (hrun : p.run (s.setAwaiting none) = (t, .error f)) :
    runTask task s = t.emit (.raised name f) := by
  rw [runTask_open task hopen, htask, runProg, asWholeTask_run_error hrun]

/-- Where the program is a raise, that and the awaited second frame dropped is all. -/
theorem runTask_of_raise (hopen : s.ctl.closed = false)
    (htask : taskProg s.cfg task = asWholeTask name res p) (hp : p = .raise f) :
    runTask task s = (s.setAwaiting none).emit (.raised name f) :=
  runTask_of_error hopen htask (hp ▸ rfl)

theorem not_inInt32 {v : Int} (h : v < -2147483648 ∨ 2147483647 < v) : (!inInt32 v) = true := by
  simp only [inInt32, Bool.not_eq_true', Bool.and_eq_false_iff, decide_eq_false_iff_not]
  omega

theorem authenticateProg_of_uid {key uid : List Byte} (hkey : key.length = 6)
    (huid : uid.length < 4) (cfg : Config) (mode : KeyMode) (b : Byte) :
    authenticateProg cfg mode b key uid = .raise (.invalidArgument .uidLength) := by
  rw [authenticateProg, if_neg (not_not.2 hkey), if_pos huid]

theorem keysWellFormed_iff (keys : Vector KeyPair 16) : keysWellFormed keys = true ↔
    ∀ k ∈ keys.toList, k.keyA.length = 6 ∧ k.keyB.length = 6 := by
  simp only [keysWellFormed, List.all_eq_true, Bool.and_eq_true, beq_iff_eq]

/-- The first authenticate of DUMP raises, which ends DUMP (R344). -/
theorem dumpProg_run_of_uid {keys : Vector KeyPair 16} {uid : List Byte}
    (hkeys : keysWellFormed keys = true) (huid : uid.length < 4) (cfg : Config) (s : State) :
    (dumpProg cfg uid keys).run s =
      (s.emit (.raised .authenticate (.invalidArgument .uidLength)),
        .error (.invalidArgument .uidLength)) := by
  obtain ⟨hkeyA, -⟩ := keyOf_wellFormed hkeys (n := 0) (by decide)
  have hrange : List.range 64 = 0 :: (List.range 63).map Nat.succ := List.range_succ_eq_map
  rw [dumpProg, if_neg (by simp [hkeys]), hrange, dumpBlocks, callAuthenticate,
    authenticateProg_of_uid hkeyA huid]
  rfl

/-- Settles O47: each check that fails makes the task's program a raise, and DUMP's with a short UID
one that raises in its first authenticate. -/
theorem raisesBeforeBusTraffic : Obligations.RaisesBeforeBusTraffic := by
  intro s hopen raised
  refine ⟨fun b data h => ?write, fun uid h => ?select, fun m b key uid h => ?key,
    fun m b key uid hkey huid => ?uid, fun b delta h => ⟨?increment, ?decrement⟩,
    fun uid keys => ⟨fun h => ?dumpKeys, fun h huid => ?dumpUid⟩⟩
  case write => exact runTask_of_raise hopen rfl (if_pos h)
  case select => exact runTask_of_raise hopen rfl (if_pos h)
  case key => exact runTask_of_raise hopen rfl (if_pos h)
  case uid => exact runTask_of_raise hopen rfl (authenticateProg_of_uid hkey huid _ m b)
  case increment => exact runTask_of_raise hopen rfl (if_pos (not_inInt32 h))
  case decrement => exact runTask_of_raise hopen rfl (if_pos (not_inInt32 h))
  case dumpKeys =>
    rw [← keysWellFormed_iff] at h
    exact runTask_of_raise hopen rfl (if_pos (by simpa using h))
  case dumpUid =>
    rw [← keysWellFormed_iff] at h
    rw [runTask_of_error hopen rfl (dumpProg_run_of_uid h huid _ _)]
    simp [raised, State.emit, State.setAwaiting]

end Sys2Proof.Machine
end

section
/-! PROOF. The start state, the device held in reset, and the controller after close
(70_reset_and_hazards.md rules R370, R372, R378; 10_state.md rules R40, R41). -/

namespace Sys2Proof.Machine

/-! ### The start state -/

/-- Settles O54: the fields and addresses of the start state, whose empty memory reads as the
table. -/
theorem startStateAndResetValues : Obligations.StartStateAndResetValues := by
  refine ⟨rfl, rfl, rfl, rfl, rfl, rfl, rfl, rfl, rfl, rfl, rfl, rfl, rfl, rfl, by decide,
    fun a => ?_⟩
  show resetByte a = _
  unfold resetByte
  split <;> simp_all

/-- Settles O55: the parameters are well formed, so the reset state of the device has its
invariant. -/
theorem startStateMeetsTheInvariant : Obligations.StartStateMeetsTheInvariant where
  cfg := by decide
  dev := Config.wf_reset (by decide)
  held _ := rfl
  faults := List.nodup_nil

/-! ### The device held in reset -/

section
variable {s : State} (hheld : s.dev = Device.reset s.cfg) (hlow : s.rst = .low) {a : Nat}
  (ha : a < s.cfg.map.limit)
include hheld hlow ha

theorem busWrite_held (d : Byte) : busWrite a d s = s.emit (.bus .w a d) := by
  rw [busWrite, if_neg (Nat.not_le.2 ha)]
  simp only [State.emit_rst, hlow, reduceCtorEq, if_false]
  exact endOfTransaction_held hheld

theorem busRead_held : busRead a s = (s.draw.1, s.draw.2.emit (.bus .r a s.draw.1)) := by
  rw [busRead, if_neg (Nat.not_le.2 ha)]
  simp only [hlow, reduceCtorEq, if_false, Prod.mk.injEq, true_and]
  exact endOfTransaction_held (by simpa using hheld)

end

/-- Settles O10: the device in reset has nothing pending, so a transaction that does not reach it
ends where it stands. -/
theorem heldInReset : Obligations.HeldInReset := by
  intro s a d hinv hopen hlow ha
  have hheld := hinv.held hlow
  obtain ⟨v, hdraw, hv⟩ := s.draw_spec
  refine ⟨hheld, ?_, v, ?_, hv⟩
  · rw [exec, execWriteReg, whenOpen_open hopen, busWrite_held hheld hlow ha]
  · rw [exec, execReadReg, whenOpen_open hopen, busRead_held hheld hlow ha, hdraw]
    rfl

/-! ### After close -/

theorem whenOpen_closed {s : State} (h : s.ctl.closed = true) (f : State → State) :
    whenOpen f s = s.addFault .useAfterClose := if_pos h

theorem runJob_closed {s : State} (h : s.ctl.closed = true) (j : Job) :
    runJob j s = s.addFault .useAfterClose := whenOpen_closed h _

/-- After close an instruction faults or is refused for want of a first phase. -/
theorem exec_closed {s : State} (h : s.ctl.closed = true) (i : Instr) :
    exec i s = .next (s.addFault .useAfterClose) ∨ exec i s = .refused .noFirstPhase := by
  cases hj : jobOf s.ctl.awaiting i with
  | some j => exact .inl (by rw [exec_eq_runJob_of_jobOf hj, runJob_closed h])
  | none =>
    obtain ⟨a, v, hx⟩ | ⟨a, hx⟩ | hx := exec_cases_of_jobOf_none hj
    · exact .inl (by rw [hx, whenOpen_closed h])
    · exact .inl (by rw [hx, whenOpen_closed h])
    · exact .inr hx

/-- Settles O51: close is one line and its Return event, and every meaning is behind the check that
the controller is open but for the refusal of a frame out of position. -/
theorem closeEndsTheSession : Obligations.CloseEndsTheSession := by
  refine ⟨fun s hopen => ?_, fun s hclosed => ⟨s.addFault .useAfterClose, .of_addFault rfl _,
    s.addFault_frame _, fun task => runJob_closed hclosed _, fun i =>
      ⟨(outOfPosition_iff_refused s i).1, fun h => ?_⟩⟩⟩
  · rw [runTask_open _ hopen]
    rfl
  · exact (exec_closed hclosed i).resolve_right (mt (outOfPosition_iff_refused s i).2 h)

end Sys2Proof.Machine
end

section
/-! PROOF. compute_crc and transceive end after a bounded number of transactions and raise nothing,
from any state and whatever the oracle does (70_reset_and_hazards.md rule R389). -/

namespace Sys2Proof.Machine

variable {α β : Type}

/-- From any state the program raises nothing, makes at most `n` transactions, and answers what
meets `Q`. -/
def Prog.ReturnsWithin (p : Prog α) (n : Nat) (Q : α → Prop) : Prop :=
  ∀ s, ∃ t a es, p.run s = (t, .ok a) ∧ t.trace = s.trace ++ es ∧ transactions es ≤ n ∧ Q a

section
variable {n m : Nat} {Q : α → Prop} {p : Prog α}

theorem Prog.ReturnsWithin.ret {a : α} (h : Q a) : (Prog.ret a).ReturnsWithin n Q :=
  fun s => ⟨s, a, [], rfl, (List.append_nil _).symm, Nat.zero_le _, h⟩

theorem Prog.ReturnsWithin.mono (h : p.ReturnsWithin n Q) (hnm : n ≤ m) : p.ReturnsWithin m Q :=
  fun s => by
    obtain ⟨t, a, es, hrun, htrace, hle, hQ⟩ := h s
    exact ⟨t, a, es, hrun, htrace, hle.trans hnm, hQ⟩

/-- What a program adds to the trace after some first events. -/
theorem Prog.ReturnsWithin.run_after (h : p.ReturnsWithin n Q) {s u : State} {es : List Event}
    (hu : u.trace = s.trace ++ es) : ∃ t a fs, p.run u = (t, .ok a) ∧
      t.trace = s.trace ++ (es ++ fs) ∧ transactions (es ++ fs) ≤ n + transactions es ∧ Q a := by
  obtain ⟨t, a, fs, hrun, htrace, hle, hQ⟩ := h u
  refine ⟨t, a, fs, hrun, by rw [htrace, hu, List.append_assoc], ?_, hQ⟩
  rw [transactions_append]
  omega

theorem Prog.ReturnsWithin.write (h : p.ReturnsWithin n Q) (r : Reg) (v : Byte) :
    (Prog.write r v p).ReturnsWithin (n + 1) Q := fun s => by
  obtain ⟨es, hes, hone⟩ := (regWrite_transacts r v s).count
  obtain ⟨t, a, fs, hrun, htrace, hle, hQ⟩ := h.run_after hes
  exact ⟨t, a, es ++ fs, hrun, htrace, hone ▸ hle, hQ⟩

theorem Prog.ReturnsWithin.read {f : Byte → Prog α} (h : ∀ v, (f v).ReturnsWithin n Q) (r : Reg) :
    (Prog.read r f).ReturnsWithin (n + 1) Q := fun s => by
  obtain ⟨es, hes, hone⟩ := (regRead_transacts r s).count
  obtain ⟨t, a, fs, hrun, htrace, hle, hQ⟩ := (h (regRead r s).1).run_after hes
  exact ⟨t, a, es ++ fs, hrun, htrace, hone ▸ hle, hQ⟩

theorem Prog.ReturnsWithin.act (h : p.ReturnsWithin n Q) (x : Act) :
    (Prog.act x p).ReturnsWithin n Q := fun s => by
  obtain ⟨es, hes, hzero⟩ := doAct_noTransaction x s
  obtain ⟨t, a, fs, hrun, htrace, hle, hQ⟩ := h.run_after hes
  exact ⟨t, a, es ++ fs, hrun, htrace, hle.trans_eq (by rw [hzero, Nat.add_zero]), hQ⟩

theorem Prog.ReturnsWithin.ite {q : Prog α} (hp : p.ReturnsWithin n Q) (hq : q.ReturnsWithin n Q)
    (c : Prop) [Decidable c] : (if c then p else q).ReturnsWithin n Q := by
  split
  · exact hp
  · exact hq

theorem Prog.ReturnsWithin.bind {P : β → Prop} {q : Prog β} {f : β → Prog α}
    (h : q.ReturnsWithin m P) (hf : ∀ b, P b → (f b).ReturnsWithin n Q) :
    (q.bind f).ReturnsWithin (m + n) Q := fun s => by
  obtain ⟨u, b, es, hfirst, hes, hm, hP⟩ := h s
  obtain ⟨t, a, fs, hrun, htrace, hle, hQ⟩ := (hf b hP).run_after hes
  exact ⟨t, a, es ++ fs, (Prog.run_bind_ok hfirst).trans hrun, htrace,
    hle.trans (by omega), hQ⟩

theorem Prog.ReturnsWithin.asTask (h : p.ReturnsWithin n Q) (name : TaskName) (res : α → Result) :
    (p.asTask name res).ReturnsWithin n Q := fun s => by
  obtain ⟨t, a, es, hrun, htrace, hle, hQ⟩ := h s
  refine ⟨_, a, es ++ [.ret name (res a)], Prog.run_asTask_ok hrun, ?_, ?_, hQ⟩
  · rw [State.emit_trace, htrace, List.append_assoc]
  · simpa using hle

theorem Prog.ReturnsWithin.loadFifo (h : p.ReturnsWithin n Q) (bs : List Byte) :
    (Prog.loadFifo bs p).ReturnsWithin (n + bs.length) Q := by
  induction bs with
  | nil => exact h
  | cons b bs ih => exact ih.write .fifoData b

end

/-! ### The loops and the tasks -/

theorem Prog.poll_returnsWithin (r : Reg) (hit : Byte → Bool) (budget : Nat) :
    (Prog.poll r hit budget).ReturnsWithin budget fun _ => True := by
  induction budget with
  | zero => exact .ret trivial
  | succ budget ih => exact .read (fun v => .ite (.ret trivial) ih _) r

theorem Prog.drainFifo_returnsWithin (n : Nat) :
    (Prog.drainFifo n).ReturnsWithin n fun bytes => bytes.length = n := by
  induction n with
  | zero => exact .ret rfl
  | succ n ih =>
    exact .read (fun v => ih.bind (n := 0) fun bytes hlen => .ret (congrArg (· + 1) hlen)) _

/-- The cost of compute_crc (42_crc.md rule R248): two clears, the bytes, the start, the poll and the
two result reads. -/
theorem computeCrc_returnsWithin (buf : List Byte) :
    (computeCrc buf).ReturnsWithin (buf.length + 260) fun _ => True := by
  have hresults : crcResults.ReturnsWithin 2 fun _ => True :=
    .read (fun _ => .read (fun _ => .ret trivial) _) _
  have hawait : awaitCrc.ReturnsWithin 257 fun _ => True := by
    refine (Prog.poll_returnsWithin _ _ 255).bind (n := 2) fun matched _ => ?_
    cases matched with
    | some v => exact hresults
    | none => exact hresults.act .countExhausted
  have h : (computeCrc buf).ReturnsWithin (257 + 1 + buf.length + 1 + 1) fun _ => True :=
    .asTask (.write (.write (.loadFifo (.write hawait _ _) buf) _ _) _ _) _ _
  exact h.mono (by omega)

/-- The receive drain reads the level, ControlReg and at most 16 bytes (R269). -/
theorem receiveDrain_returnsWithin (status : Status) :
    (receiveDrain status).ReturnsWithin 18 fun r => r.rx.length ≤ 16 := by
  refine .read (fun n => .read (fun c => ?_) _) _
  have hcount : drainCount n ≤ 16 := Nat.min_le_right _ _
  exact ((Prog.drainFifo_returnsWithin (drainCount n)).bind (n := 0) fun rx hlen =>
    .ret (hlen.trans_le hcount)).mono hcount

theorem afterMatch_returnsWithin (cfg : Config) (cmd : Command) (irq : Byte) :
    (afterMatch cfg cmd irq).ReturnsWithin 19 fun r => r.rx.length ≤ 16 := by
  have hempty (status : Status) :
      (Prog.ret (⟨status, [], 0⟩ : TxRx)).ReturnsWithin 18 fun r => r.rx.length ≤ 16 :=
    .ret (Nat.zero_le _)
  exact .read (fun err => .ite (hempty .error)
    (.ite (receiveDrain_returnsWithin _) (hempty _) _) _) _

theorem pollAndFinish_returnsWithin (cfg : Config) (cmd : Command) :
    (pollAndFinish cfg cmd).ReturnsWithin 2021 fun r => r.rx.length ≤ 16 := by
  refine (Prog.poll_returnsWithin _ _ 2000).bind (n := 21) fun matched _ =>
    .read (fun _ => .write ?_ _ _) _
  cases matched with
  | none => exact .ret (Nat.zero_le _)
  | some irq => exact afterMatch_returnsWithin cfg cmd irq

/-- The cost of transceive (43_transceive.md rule R274): the set-up, the bytes, the command,
StartSend and what follows. -/
theorem transceive_returnsWithin (cfg : Config) (cmd : Command) (send : List Byte) :
    (transceive cfg cmd send).ReturnsWithin (send.length + 2028) fun r => r.rx.length ≤ 16 := by
  have hfinish := pollAndFinish_returnsWithin cfg cmd
  have hstart : (if cmd = .start .transceive then
      Prog.setBits .bitFraming 0x80 (pollAndFinish cfg cmd)
      else pollAndFinish cfg cmd).ReturnsWithin 2023 fun r => r.rx.length ≤ 16 :=
    .ite (.read (fun _ => hfinish.write _ _) _) (hfinish.mono (by omega)) _
  have h : (transceive cfg cmd send).ReturnsWithin (2023 + 1 + send.length + 1 + 1 + 1 + 1)
      fun r => r.rx.length ≤ 16 :=
    .asTask (.write (.write (.write (.write (.loadFifo (.write hstart _ _) send) _ _) _ _) _ _) _ _)
      _ _
  exact h.mono (by omega)

/-- Settles O31: each task's bound is the sum of its parts', and no part raises. -/
theorem boundedTermination : Obligations.BoundedTermination := by
  refine ⟨fun s buf => ?_, fun cfg s cmd send => transceive_returnsWithin cfg cmd send s⟩
  obtain ⟨t, r, es, hrun, htrace, hle, -⟩ := computeCrc_returnsWithin buf s
  exact ⟨t, r, es, hrun, htrace, hle⟩

end Sys2Proof.Machine
end

section
/-! PROOF. antenna_on, stop_crypto and init (70_reset_and_hazards.md rules R373 to R377). -/

namespace Sys2Proof.Machine

variable {α : Type} {s : State}

/-! ### Storage registers of a quiet device -/

/-- A named register of R213 stands at a storage address. -/
theorem isStorage_addr (m : AddressMap) {r : Reg} (h : r ∉ actingRegs) :
    isStorage m (m.addr r) = true := by
  simpa [isStorage, m.addr_lt r] using h

theorem regWrite_storage (hq : s.Quiet) {r : Reg} (h : r ∉ actingRegs) (v : Byte) :
    regWrite r v s = (s.emit (.bus .w (s.addr r) v)).setX r v :=
  regWrite_quiet hq.high r v (deviceWrite_storage (s := s.emit _) (isStorage_addr _ h) v) hq.pending
    hq.crcPending

theorem regRead_storage (hq : s.Quiet) {r : Reg} (h : r ∉ actingRegs) :
    regRead r s = (s.x r, s.emit (.bus .r (s.addr r) (s.x r))) :=
  regRead_quiet hq r _ (deviceRead_storage (isStorage_addr _ h))

/-- The memory after a list of register writes. -/
def Memory.writeRegs (map : AddressMap) (ws : List (Reg × Byte)) (m : Memory) : Memory :=
  ws.foldl (fun m w => m.write (map.addr w.1) w.2) m

/-- The transactions of a list of register writes. -/
def writeEvents (map : AddressMap) (ws : List (Reg × Byte)) : List Event :=
  ws.map fun w => .bus .w (map.addr w.1) w.2

/-- The state after a list of writes to storage registers. -/
def State.written (s : State) (ws : List (Reg × Byte)) : State :=
  { s with
    trace := s.trace ++ writeEvents s.cfg.map ws
    dev := { s.dev with mem := s.dev.mem.writeRegs s.cfg.map ws } }

theorem writeAll_run (p : Prog α) {ws : List (Reg × Byte)} (hq : s.Quiet)
    (hws : ∀ w ∈ ws, w.1 ∉ actingRegs) : (writeAll ws p).run s = p.run (s.written ws) := by
  induction ws generalizing s with
  | nil => simp [writeAll, State.written, Memory.writeRegs, writeEvents]
  | cons w ws ih =>
    rw [List.forall_mem_cons] at hws
    have hq' : ((s.emit (.bus .w (s.addr w.1) w.2)).setX w.1 w.2).Quiet := hq.of_eq rfl rfl rfl
    rw [writeAll, Prog.run_write, regWrite_storage hq hws.1, ih hq' hws.2]
    simp [State.setX, State.setAt, State.emit, State.written, Memory.writeRegs, writeEvents]

theorem writeAll_append (ws vs : List (Reg × Byte)) (p : Prog α) :
    writeAll (ws ++ vs) p = writeAll ws (writeAll vs p) := by
  induction ws with
  | nil => rfl
  | cons w ws ih => exact congrArg (Prog.write w.1 w.2) ih

/-! ### antenna_on -/

/-- The state antenna_on leaves: TxControlReg with bits 1:0 set (R376). -/
def State.antennaOn (s : State) : State :=
  ((s.emit (.bus .r (s.addr .txControl) (s.x .txControl))).emit
    (.bus .w (s.addr .txControl) (s.x .txControl ||| 0x03))).setX .txControl
      (s.x .txControl ||| 0x03)

theorem antennaOnProg_run (hq : s.Quiet) : antennaOnProg.run s = (s.antennaOn, .ok ()) := by
  have hq' : (s.emit (.bus .r (s.addr .txControl) (s.x .txControl))).Quiet := hq.of_eq rfl rfl rfl
  rw [antennaOnProg, Prog.setBits, Prog.run_read, regRead_storage hq (by decide), Prog.run_write,
    regWrite_storage hq' (by decide), Prog.run_ret]
  rfl

/-! ### stop_crypto -/

/-- The state a Status2Reg read that answers `v` leaves: ModemState is a draw outside Idle
(R209). -/
def State.readStatus2Left (s : State) (v : Byte) : State :=
  { s with
    oracle := if s.dev.active = .idle then s.oracle
      else { s.oracle with draws := s.oracle.draws.tail, made := s.oracle.made + 1 }
    trace := s.trace ++ [.bus .r (s.addr .status2) v] }

theorem regRead_status2 (hq : s.Quiet) : ∃ v,
    regRead .status2 s = (v, s.readStatus2Left v) ∧ v &&& 0xF8 = s.x .status2 &&& 0xC8 := by
  by_cases hidle : s.dev.active = .idle
  · have hread : deviceRead (s.addr .status2) s = (s.x .status2 &&& 0xC8, s) := by
      simp [deviceRead, readStatus2, hidle]
    refine ⟨s.x .status2 &&& 0xC8, ?_, by simp [BitVec.and_assoc]⟩
    rw [regRead_quiet hq .status2 _ hread, State.readStatus2Left, if_pos hidle]
    rfl
  · obtain ⟨b, hdraw, -⟩ := s.draw_spec
    refine ⟨_, ?_, (status2_bits (s.x .status2) b).1⟩
    rw [regRead_high hq.high, State.readStatus2Left, if_neg hidle]
    simp only [deviceRead, AddressMap.regAt_addr, readStatus2, hidle, if_false, hdraw,
      Prod.mk.injEq, true_and]
    exact endOfTransaction_none hq.pending hq.crcPending

theorem regWrite_status2 (hq : s.Quiet) (v : Byte) : regWrite .status2 v s =
    (s.emit (.bus .w (s.addr .status2) v)).setX .status2 (status2After (s.x .status2) v) :=
  regWrite_quiet hq.high _ _ (by simp [deviceWrite]) hq.pending hq.crcPending

/-- Writing back what was read, without MFCrypto1On, clears that bit alone (R209). -/
theorem status2After_clear {x v : Byte} (h : v &&& 0xF8 = x &&& 0xC8) :
    status2After x (v &&& 0xF7) = x &&& 0xF7 := by
  have hstored : v &&& 0xF7 &&& 0xC0 = x &&& 0xC0 := calc
    v &&& 0xF7 &&& 0xC0 = v &&& 0xF8 &&& 0xC0 := by simp [BitVec.and_assoc]
    _ = x &&& 0xC8 &&& 0xC0 := by rw [h]
    _ = x &&& 0xC0 := by simp [BitVec.and_assoc]
  have hwhole : x &&& 0x3F ||| x &&& 0xC0 = x := by
    rw [← BitVec.and_or_distrib_left]
    exact BitVec.and_allOnes
  have hclears : (v &&& 0xF7).getLsbD 3 = false := by simp
  simp only [status2After, hstored, hwhole, hclears, Bool.false_eq_true, if_false]
  rfl

/-- The state stop_crypto leaves: Status2Reg, read as `v`, with MFCrypto1On clear (R377). -/
def State.cryptoStopped (s : State) (v : Byte) : State :=
  ((s.readStatus2Left v).emit (.bus .w (s.addr .status2) (v &&& 0xF7))).setX .status2
    (s.x .status2 &&& 0xF7)

theorem stopCryptoProg_run (hq : s.Quiet) : ∃ v,
    stopCryptoProg.run s = (s.cryptoStopped v, .ok ()) ∧
      v &&& 0xF8 = s.x .status2 &&& 0xC8 := by
  obtain ⟨v, hread, hv⟩ := regRead_status2 hq
  have hq' : (s.readStatus2Left v).Quiet := hq.of_eq rfl rfl rfl
  have hwrite : regWrite .status2 (v &&& 0xF7) (s.readStatus2Left v) = s.cryptoStopped v := by
    rw [regWrite_status2 hq', show (s.readStatus2Left v).x .status2 = s.x .status2 from rfl,
      status2After_clear hv]
    rfl
  refine ⟨v, ?_, hv⟩
  rw [stopCryptoProg, Prog.clearBits, Prog.run_read, hread, Prog.run_write]
  exact congrArg (·, Except.ok ()) hwrite

theorem State.Quiet.setAwaiting (h : s.Quiet) (w : Option Awaiting) : (s.setAwaiting w).Quiet :=
  h.of_eq rfl rfl rfl

/-- Settles O50: each task is a read and a write of one register, and its Return event. -/
theorem antennaAndCryptoTasks : Obligations.AntennaAndCryptoTasks := by
  intro s hopen hquiet
  have hq : (s.setAwaiting none).Quiet := hquiet.setAwaiting none
  refine ⟨⟨_, rfl, ?_⟩, ?_⟩
  · rw [runTask_open _ hopen, taskProg, runProg, asWholeTask_run_ok (antennaOnProg_run hq)]
    refine ⟨?_, fun r => Memory.read_write _ _ r _⟩
    simp only [State.antennaOn, State.setX, State.setAt, State.emit, List.append_assoc,
      List.cons_append, List.nil_append]
    rfl
  · obtain ⟨v, hrun, hv⟩ := stopCryptoProg_run hq
    refine ⟨_, v, rfl, ?_⟩
    rw [runTask_open _ hopen, taskProg, runProg, asWholeTask_run_ok hrun]
    refine ⟨?_, hv, fun r => Memory.read_write _ _ r _⟩
    simp only [State.cryptoStopped, State.readStatus2Left, State.setX, State.setAt, State.emit,
      List.append_assoc, List.cons_append, List.nil_append]
    rfl

/-! ### init -/

/-- The state after the line is released and the device is told to reset: the device is in reset,
whatever it held (R373). -/
def State.restarted (s : State) : State :=
  { s with
    rst := .high
    dev := Device.reset s.cfg
    trace := s.trace ++ (if s.rst = .low then [.rst .high] else []) ++
      [.bus .w (s.addr .command) 0x0F] }

theorem State.restarted_quiet (s : State) : s.restarted.Quiet := ⟨rfl, rfl, rfl⟩

theorem regWrite_softReset (hhigh : s.rst = .high) : regWrite .command Command.softReset.byte s =
    deviceReset (s.emit (.bus .w (s.addr .command) 0x0F)) :=
  regWrite_quiet hhigh _ _ ((deviceWrite_command _ (s.emit _)).trans rfl) rfl rfl

theorem regWrite_softReset_released (s : State) :
    regWrite .command Command.softReset.byte (driveReset .high s) = s.restarted := by
  cases hrst : s.rst with
  | high =>
    have hsame : driveReset .high s = s := hrst ▸ driveReset_same s
    rw [hsame, regWrite_softReset hrst]
    simp [deviceReset, State.emit, State.restarted, hrst]
  | low =>
    rw [driveReset_edge (by simp [hrst]), regWrite_softReset rfl]
    simp [deviceReset, State.emit, State.restarted, hrst]

/-- INIT_VALUES, the receiver gain last. -/
def initStores (cfg : Config) : List (Reg × Byte) := cfg.initWrites ++ [(.rfCfg, cfg.initRfCfg)]

theorem initRest_eq (cfg : Config) : initRest cfg =
    writeAll (initStores cfg) (antennaOnProg.asTask .antennaOn fun _ => .unit) :=
  (writeAll_append cfg.initWrites [(.rfCfg, cfg.initRfCfg)] _).symm

theorem initStores_storage {cfg : Config} (hws : ∀ w ∈ cfg.initWrites, w.1 ∉ actingRegs) :
    ∀ w ∈ initStores cfg, w.1 ∉ actingRegs := by
  rw [initStores, List.forall_mem_append]
  exact ⟨hws, by simp [actingRegs]⟩

theorem initProg_run (hws : ∀ w ∈ s.cfg.initWrites, w.1 ∉ actingRegs) :
    (initProg s.cfg).run s =
      ((s.restarted.written (initStores s.cfg)).antennaOn.emit (.ret .antennaOn .unit),
        .ok ()) := by
  have hq : (s.restarted.written (initStores s.cfg)).Quiet := ⟨rfl, rfl, rfl⟩
  calc (initProg s.cfg).run s
    _ = (initRest s.cfg).run (regWrite .command Command.softReset.byte (driveReset .high s)) := rfl
    _ = (initRest s.cfg).run s.restarted := by rw [regWrite_softReset_released]
    _ = (antennaOnProg.asTask .antennaOn fun _ => .unit).run
        (s.restarted.written (initStores s.cfg)) := by
      rw [initRest_eq, writeAll_run _ s.restarted_quiet (initStores_storage hws)]
    _ = _ := Prog.run_asTask_ok (antennaOnProg_run hq)

/-- The memory of the device after init's writes, before antenna_on. -/
def initMem (cfg : Config) : Memory := Memory.writeRegs cfg.map (initStores cfg) cfg.resetCells

/-- TxControlReg after init's writes. -/
def initTxControl (cfg : Config) : Byte := (initMem cfg).read (cfg.map.addr .txControl)

/-- The device init leaves. -/
def initDevice (cfg : Config) : Device :=
  { Device.reset cfg with
    mem := (initMem cfg).write (cfg.map.addr .txControl) (initTxControl cfg ||| 0x03) }

/-- What init appends to the trace after the release of the line. -/
def initEvents (cfg : Config) : List Event :=
  .bus .w (cfg.map.addr .command) 0x0F :: writeEvents cfg.map (initStores cfg) ++
    [.bus .r (cfg.map.addr .txControl) (initTxControl cfg),
      .bus .w (cfg.map.addr .txControl) (initTxControl cfg ||| 0x03),
      .ret .antennaOn .unit, .ret .init .unit]

/-- The state init leaves (R373). -/
def State.initialised (s : State) : State :=
  { s with
    ctl := { s.ctl with awaiting := none }
    rst := .high
    dev := initDevice s.cfg
    trace := s.trace ++ (if s.rst = .low then [.rst .high] else []) ++ initEvents s.cfg }

theorem runTask_init (hopen : s.ctl.closed = false)
    (hws : ∀ w ∈ s.cfg.initWrites, w.1 ∉ actingRegs) : runTask .init s = s.initialised := by
  have hrun : (initProg s.cfg).run (s.setAwaiting none) = (_, .ok ()) :=
    initProg_run (s := s.setAwaiting none) hws
  rw [runTask_open _ hopen, taskProg, runProg, asWholeTask_run_ok hrun]
  simp only [State.antennaOn, State.written, State.restarted, State.initialised, State.setX,
    State.setAt, State.emit, initEvents, List.append_assoc, List.cons_append, List.nil_append]
  rfl

/-! ### init under the default parameters -/

theorem initDevice_default : initDevice defaultConfig = {
    mem := [(0x11, 0x3D), (0x14, 0x83), (0x15, 0x40), (0x26, 0x70), (0x2A, 0x8D), (0x2B, 0x3E),
      (0x2D, 0x1E)]
    fifo := [], active := .idle, txArmed := false, crcAcc := 0xFFFF, crcResult := 0xFFFF
    crcPending := none, pending := none } := by decide

theorem initEvents_default : initEvents defaultConfig =
    [.bus .w 0x01 0x0F, .bus .w 0x2A 0x8D, .bus .w 0x2B 0x3E, .bus .w 0x2D 0x1E, .bus .w 0x2C 0x00,
      .bus .w 0x15 0x40, .bus .w 0x11 0x3D, .bus .w 0x26 0x70, .bus .r 0x14 0x80,
      .bus .w 0x14 0x83, .ret .antennaOn .unit, .ret .init .unit] := by decide

/-- In the state init leaves a session may start (R375). -/
theorem State.initialised_ready (hopen : s.ctl.closed = false) (hcfg : s.cfg = defaultConfig) :
    s.initialised.Ready := by
  have hcfg' : s.initialised.cfg = defaultConfig := hcfg
  have hx (r : Reg) :
      s.initialised.x r = (initDevice defaultConfig).mem.read (defaultMap.addr r) := by
    rw [State.x, hcfg', initialised, hcfg]
    rfl
  exact {
    isOpen := hopen
    quiet := ⟨rfl, rfl, rfl⟩
    notCrc := nofun
    preset := by rw [hx]; decide
    lsbFirst := by rw [hx]; decide
    timer := by rw [tAuto, hx]; decide
    field := by rw [fieldOn, hx]; decide
    masks := by rw [hcfg']; exact ⟨rfl, rfl, rfl, rfl, rfl, rfl, rfl, rfl⟩
    latency := by rw [hcfg']; decide
    depth := by rw [hcfg']; decide }

/-- Settles O49: the reset state of the device with init's writes to storage registers on it. -/
theorem initLeavesTheMachineReady : Obligations.InitLeavesTheMachineReady := by
  intro s hopen hcfg
  have hinit : runTask .init s = s.initialised := runTask_init hopen (by rw [hcfg]; decide)
  refine ⟨hinit ▸ State.initialised_ready hopen hcfg, ?_⟩
  rw [hinit, State.initialised, hcfg, initDevice_default, initEvents_default]

end Sys2Proof.Machine
end
